-- ==== Sys2Proof/Word.lean ====
section
/-! DEFINITION. Word types of the machine: the byte, the 32-bit instruction word and the 64-bit register word
(10_state.md rules R12, R13, R20; 30_encoding.md rule R95), and the number of a register field. -/

namespace Sys2Proof

/-- The smallest thing accessed (R20). -/
abbrev Byte := BitVec 8

/-- An instruction word, or the `W` view of a register (R12, R95). -/
abbrev Word32 := BitVec 32

/-- The `X` view of a general-purpose register (R12, R13). -/
abbrev Word64 := BitVec 64

/-- A 128-bit SIMD and floating-point register (R18). -/
abbrev Word128 := BitVec 128

/-- A 5-bit register number as an instruction holds it (R97); what number 31 means depends on the field (R13). -/
abbrev Reg := BitVec 5

/-- The number of byte addresses: an address is 64 bits wide (R20). -/
def addrSpace : Nat := 2 ^ 64

end Sys2Proof
end

