-- ==== Sys2Proof/Config.lean ====
section
/-! DEFINITION. The parameters of an implementation (00_scope.md section 4), the choices that the environment of the
machine makes (70_reset_and_hazards.md rule R228) and the two free functions that stand for choices nobody has fixed.
A `Config` is plain data: every statement holds for every value of it (assumption log 3). -/

namespace Sys2Proof

/-- The four Exception levels (60_exceptions.md rule R214). -/
inductive EL
  | el0 | el1 | el2 | el3
deriving DecidableEq, Repr, Inhabited

/-- The number of an Exception level: a larger number is a more privileged level (R214). -/
def EL.num : EL → Nat
  | .el0 => 0
  | .el1 => 1
  | .el2 => 2
  | .el3 => 3

/-- Cacheability of Normal memory (10_state.md rule R21). -/
inductive Cacheability
  | writeBack | writeThrough | nonCacheable
deriving DecidableEq, Repr, Inhabited

/-- Shareability of a location (R21). -/
inductive Shareability
  | nonShareable | innerShareable | outerShareable
deriving DecidableEq, Repr, Inhabited

/-- The memory type of a location; only Normal memory has cacheability (R21). -/
inductive MemType
  | normal (inner outer : Cacheability)
  | device
deriving DecidableEq, Repr, Inhabited

/-- The attributes of a location, the record `MemAttr` of R21. -/
structure MemAttr where
  type : MemType
  shareability : Shareability
  /-- "Conventional memory" (R187). -/
  conventional : Bool
  /-- The memory supports hardware cache coherency (R182). -/
  coherent : Bool
  /-- The implementation treats it as Non-cacheable (R185). -/
  treatedAsNonCacheable : Bool
deriving DecidableEq, Repr, Inhabited

/-- One region of the address map: the `size` bytes from `base` exist, with these attributes and this support for
atomic instructions (`MEMMAP`, `MEMATTR`, `ATOMIC_SUPPORTED`, `ATOMIC_FP_SUPPORTED`; assumption log 24). -/
structure Region where
  base : Nat
  size : Nat
  attr : MemAttr
  atomicSupported : Bool
  atomicFpSupported : Bool
deriving DecidableEq, Repr, Inhabited

/-- The effects an atomic instruction may show at a location where it is not supported, the seven members of
`ATOMIC_UNSUPPORTED_EFFECT` (43_atomics.md rules R188, R191; 92_eei_decisions.md D16). -/
inductive UnsupportedEffect
  | externalAbort | sError | mmuFault | nop | nopThenSError | nonAtomic | nonAtomicThenSError
deriving DecidableEq, Repr, Inhabited

/-- `MISALIGNED_POLICY` (20_memory.md rule R83, 92_eei_decisions.md D4). -/
inductive MisalignedPolicy
  | refuse | alignmentFault
deriving DecidableEq, Repr, Inhabited

/-- What the machine does with the instructions whose encodings are of low confidence: 30_encoding.md rule R98 has a model
refuse to execute them, and `Config.reset` does so; the alternative `execute` gives them the meaning that their rules state
(log 14). -/
inductive LowConfidencePolicy
  | refuse | execute
deriving DecidableEq, Repr, Inhabited

/-- The configuration record of 00_scope.md section 4, field by field. -/
structure Config where
  featLse2 : Bool
  featLrcpc : Bool
  featLs64 : Bool
  featLs64wb : Bool
  featSve : Bool
  featAdvSimdFp : Bool
  featAtomics : Bool
  armv8_4OrLater : Bool
  /-- `N_PE`, at least 1. -/
  nPE : Nat
  /-- `EXTERNAL_OBSERVERS`: the ids of the observers that are not PEs. -/
  externalObservers : List Nat
  /-- `MEMMAP`, `MEMATTR`, `ATOMIC_SUPPORTED`, `ATOMIC_FP_SUPPORTED` as one list of regions. -/
  regions : List Region
  atomicUnsupportedEffect : List UnsupportedEffect
  atomicNonAtomicSca : Bool
  misalignedPolicy : MisalignedPolicy
  fpPairPerRegisterSca : Bool
  ldxp64PerRegisterSca : Bool
  tteBytes : Nat
  zvaBlockBytes : Nat
  sveVlBytes : Nat
  stage2Enabled : Bool
  /-- The Exception level all code of every PE runs at (92_eei_decisions.md D19). -/
  el : EL
  /-- `ENTRY`: the initial program counter of each PE. -/
  entry : List Word64
  lowConfidence : LowConfidencePolicy
deriving DecidableEq, Repr, Inhabited

/-- `ENTRY(p)`. The spec's `ENTRY` is a function of the PE; the model holds it as a list, and a PE past the end of the list
enters at 0 (DESIGN CHOICE, unsafe; log 42). -/
def Config.entryOf (cfg : Config) (p : Nat) : Word64 := cfg.entry.getD p 0

/-- The attributes written `WB` in 95_test_vectors.md: Normal, Inner and Outer Write-Back, Inner Shareable, coherent,
Conventional. -/
def MemAttr.wb : MemAttr :=
  { type := .normal .writeBack .writeBack
    shareability := .innerShareable
    conventional := true
    coherent := true
    treatedAsNonCacheable := false }

/-- The configuration the model's reset state runs in: every optional feature present, two PEs entered at the two
addresses the programs of 95_test_vectors.md use, one region of `WB` memory over the whole address space
(DESIGN CHOICE, unsafe: the spec leaves every parameter OPEN; log 3). -/
def Config.reset : Config :=
  { featLse2 := true
    featLrcpc := true
    featLs64 := true
    featLs64wb := true
    featSve := true
    featAdvSimdFp := true
    featAtomics := true
    armv8_4OrLater := true
    nPE := 2
    externalObservers := []
    regions := [{ base := 0, size := addrSpace, attr := .wb, atomicSupported := true, atomicFpSupported := true }]
    atomicUnsupportedEffect :=
      [.externalAbort, .sError, .mmuFault, .nop, .nopThenSError, .nonAtomic, .nonAtomicThenSError]
    atomicNonAtomicSca := false
    misalignedPolicy := .refuse
    fpPairPerRegisterSca := false
    ldxp64PerRegisterSca := false
    tteBytes := 8
    zvaBlockBytes := 64
    sveVlBytes := 16
    stage2Enabled := false
    el := .el1
    entry := [0x4000, 0x5000]
    lowConfidence := .refuse }

/-- Who moves next and how: one step of the machine (R228). -/
inductive Move
  /-- PE `p` takes its next step; inside a multi-unit instruction `k` picks the unit it performs. -/
  | run (p k : Nat)
  /-- PE `p` takes the step `Interrupted` (20_memory.md rule R56). -/
  | interrupt (p : Nat)
  /-- External observer `o` reads the byte at `addr` (R215, R217). -/
  | observerRead (o addr : Nat)
  /-- External observer `o` writes `value` to the byte at `addr` (R215, R217). -/
  | observerWrite (o addr : Nat) (value : Byte)
deriving DecidableEq, Repr, Inhabited

/-- The `k`-th choice of the environment that no pending draw of the state fixes: which write a read takes its data
from, where a write stands in the coherence order, which candidate a fetch returns, whether a Store-Exclusive
succeeds, which effect an unsupported atomic instruction has, a value the spec leaves open. It has no body (log 4). -/
opaque Config.freeDraw : Nat → Nat

/-- The `k`-th move of the schedule when the state does not name it: "Any enabled step may be taken next" (R228). It
has no body (log 5). -/
opaque Config.freeMove : Nat → Move

end Sys2Proof
end

