-- ==== Sys2Proof/Syntax.lean ====
section
/-! DEFINITION. The instructions, one constructor per row of spec/opcode_table.json (30_encoding.md rules R97, R101).
The arguments are the fields that R97 leaves free, from the high bits of the word to the low ones. -/

namespace Sys2Proof

/-- The instructions of the opcode table. -/
inductive Instr
  /-- B (R141). -/
  | b (imm26 : BitVec 26)
  /-- BL (R142). -/
  | bl (imm26 : BitVec 26)
  /-- B.cond (R143). -/
  | bCond (imm19 : BitVec 19) (cond : BitVec 4)
  /-- CBZ (R144). -/
  | cbz (sf : BitVec 1) (imm19 : BitVec 19) (rt : Reg)
  /-- CBNZ (R145). -/
  | cbnz (sf : BitVec 1) (imm19 : BitVec 19) (rt : Reg)
  /-- TBZ (R146). -/
  | tbz (b5 : BitVec 1) (b40 : BitVec 5) (imm14 : BitVec 14) (rt : Reg)
  /-- TBNZ (R147). -/
  | tbnz (b5 : BitVec 1) (b40 : BitVec 5) (imm14 : BitVec 14) (rt : Reg)
  /-- CB<cc> (register) (R148). -/
  | cbReg (sf : BitVec 1) (cc : BitVec 3) (rm : Reg) (imm9 : BitVec 9) (rt : Reg)
  /-- CB<cc> (immediate) (R149). -/
  | cbImm (sf : BitVec 1) (cc : BitVec 3) (imm6 : BitVec 6) (imm9 : BitVec 9) (rt : Reg)
  /-- CBB<cc> (R150). -/
  | cbb (cc : BitVec 3) (rm : Reg) (imm9 : BitVec 9) (rt : Reg)
  /-- CBH<cc> (R151). -/
  | cbh (cc : BitVec 3) (rm : Reg) (imm9 : BitVec 9) (rt : Reg)
  /-- BRK (R152). -/
  | brk (imm16 : BitVec 16)
  /-- SVC (R153). -/
  | svc (imm16 : BitVec 16)
  /-- HVC (R154). -/
  | hvc (imm16 : BitVec 16)
  /-- SMC (R155). -/
  | smc (imm16 : BitVec 16)
  /-- NOP (R156). -/
  | nop
  /-- TRCIT (R157). -/
  | trcit (rt : Reg)
  /-- DC CVAU (R170). -/
  | dcCvau (rt : Reg)
  /-- IC IVAU (R171). -/
  | icIvau (rt : Reg)
  /-- DC ZVA (R172). -/
  | dcZva (rt : Reg)
  /-- DSB ISH (R173). -/
  | dsbIsh
  /-- ISB (R174). -/
  | isb (crm : BitVec 4)
  /-- STR (32-bit, unsigned offset) (R110). -/
  | strImm32 (imm12 : BitVec 12) (rn : Reg) (rt : Reg)
  /-- STR (64-bit, unsigned offset) (R110). -/
  | strImm64 (imm12 : BitVec 12) (rn : Reg) (rt : Reg)
  /-- LDR (32-bit, unsigned offset) (R111). -/
  | ldrImm32 (imm12 : BitVec 12) (rn : Reg) (rt : Reg)
  /-- LDR (64-bit, unsigned offset) (R111). -/
  | ldrImm64 (imm12 : BitVec 12) (rn : Reg) (rt : Reg)
  /-- LDP (32-bit, post-index) (R112). -/
  | ldpPost32 (imm7 : BitVec 7) (rt2 : Reg) (rn : Reg) (rt : Reg)
  /-- LDP (32-bit, signed offset) (R112). -/
  | ldpOff32 (imm7 : BitVec 7) (rt2 : Reg) (rn : Reg) (rt : Reg)
  /-- LDP (32-bit, pre-index) (R112). -/
  | ldpPre32 (imm7 : BitVec 7) (rt2 : Reg) (rn : Reg) (rt : Reg)
  /-- LDNP (32-bit) (R113). -/
  | ldnp32 (imm7 : BitVec 7) (rt2 : Reg) (rn : Reg) (rt : Reg)
  /-- STP (32-bit, post-index) (R114). -/
  | stpPost32 (imm7 : BitVec 7) (rt2 : Reg) (rn : Reg) (rt : Reg)
  /-- STP (32-bit, signed offset) (R114). -/
  | stpOff32 (imm7 : BitVec 7) (rt2 : Reg) (rn : Reg) (rt : Reg)
  /-- STP (32-bit, pre-index) (R114). -/
  | stpPre32 (imm7 : BitVec 7) (rt2 : Reg) (rn : Reg) (rt : Reg)
  /-- STNP (32-bit) (R115). -/
  | stnp32 (imm7 : BitVec 7) (rt2 : Reg) (rn : Reg) (rt : Reg)
  /-- LDP (64-bit, post-index) (R112). -/
  | ldpPost64 (imm7 : BitVec 7) (rt2 : Reg) (rn : Reg) (rt : Reg)
  /-- LDP (64-bit, signed offset) (R112). -/
  | ldpOff64 (imm7 : BitVec 7) (rt2 : Reg) (rn : Reg) (rt : Reg)
  /-- LDP (64-bit, pre-index) (R112). -/
  | ldpPre64 (imm7 : BitVec 7) (rt2 : Reg) (rn : Reg) (rt : Reg)
  /-- LDNP (64-bit) (R113). -/
  | ldnp64 (imm7 : BitVec 7) (rt2 : Reg) (rn : Reg) (rt : Reg)
  /-- STP (64-bit, post-index) (R114). -/
  | stpPost64 (imm7 : BitVec 7) (rt2 : Reg) (rn : Reg) (rt : Reg)
  /-- STP (64-bit, signed offset) (R114). -/
  | stpOff64 (imm7 : BitVec 7) (rt2 : Reg) (rn : Reg) (rt : Reg)
  /-- STP (64-bit, pre-index) (R114). -/
  | stpPre64 (imm7 : BitVec 7) (rt2 : Reg) (rn : Reg) (rt : Reg)
  /-- STNP (64-bit) (R115). -/
  | stnp64 (imm7 : BitVec 7) (rt2 : Reg) (rn : Reg) (rt : Reg)
  /-- LDP (SIMD&FP, S, signed offset) (R116). -/
  | ldpFpS (imm7 : BitVec 7) (rt2 : Reg) (rn : Reg) (rt : Reg)
  /-- STP (SIMD&FP, S, signed offset) (R117). -/
  | stpFpS (imm7 : BitVec 7) (rt2 : Reg) (rn : Reg) (rt : Reg)
  /-- LDP (SIMD&FP, D, signed offset) (R116). -/
  | ldpFpD (imm7 : BitVec 7) (rt2 : Reg) (rn : Reg) (rt : Reg)
  /-- STP (SIMD&FP, D, signed offset) (R117). -/
  | stpFpD (imm7 : BitVec 7) (rt2 : Reg) (rn : Reg) (rt : Reg)
  /-- LDP (SIMD&FP, Q, signed offset) (R116). -/
  | ldpFpQ (imm7 : BitVec 7) (rt2 : Reg) (rn : Reg) (rt : Reg)
  /-- STP (SIMD&FP, Q, signed offset) (R117). -/
  | stpFpQ (imm7 : BitVec 7) (rt2 : Reg) (rn : Reg) (rt : Reg)
  /-- LDXP (32-bit) (R118). -/
  | ldxp32 (rt2 : Reg) (rn : Reg) (rt : Reg)
  /-- STXP (32-bit) (R119). -/
  | stxp32 (rs : Reg) (rt2 : Reg) (rn : Reg) (rt : Reg)
  /-- LDAXP (32-bit) (R120). -/
  | ldaxp32 (rt2 : Reg) (rn : Reg) (rt : Reg)
  /-- STLXP (32-bit) (R122). -/
  | stlxp32 (rs : Reg) (rt2 : Reg) (rn : Reg) (rt : Reg)
  /-- LDXP (64-bit) (R118). -/
  | ldxp64 (rt2 : Reg) (rn : Reg) (rt : Reg)
  /-- STXP (64-bit) (R119). -/
  | stxp64 (rs : Reg) (rt2 : Reg) (rn : Reg) (rt : Reg)
  /-- LDAXP (64-bit) (R120). -/
  | ldaxp64 (rt2 : Reg) (rn : Reg) (rt : Reg)
  /-- STLXP (64-bit) (R122). -/
  | stlxp64 (rs : Reg) (rt2 : Reg) (rn : Reg) (rt : Reg)
  /-- LDAPR (32-bit) (R123). -/
  | ldapr32 (rn : Reg) (rt : Reg)
  /-- LDAPR (64-bit) (R123). -/
  | ldapr64 (rn : Reg) (rt : Reg)
  /-- LDAPRH (R124). -/
  | ldaprh (rn : Reg) (rt : Reg)
  /-- LDAPRB (R125). -/
  | ldaprb (rn : Reg) (rt : Reg)
  /-- LD64B (R126). -/
  | ld64b (rn : Reg) (rt : Reg)
  /-- ST64B (R127). -/
  | st64b (rn : Reg) (rt : Reg)
  /-- ST64BV (R128). -/
  | st64bv (rs : Reg) (rn : Reg) (rt : Reg)
  /-- ST64BV0 (R129). -/
  | st64bv0 (rs : Reg) (rn : Reg) (rt : Reg)
  /-- LDADD (32-bit) (R193). -/
  | ldadd32 (rs : Reg) (rn : Reg) (rt : Reg)
  /-- LDADD (64-bit) (R193). -/
  | ldadd64 (rs : Reg) (rn : Reg) (rt : Reg)
  /-- SWP (32-bit) (R194). -/
  | swp32 (rs : Reg) (rn : Reg) (rt : Reg)
  /-- SWP (64-bit) (R194). -/
  | swp64 (rs : Reg) (rn : Reg) (rt : Reg)
  /-- CAS (32-bit) (R195). -/
  | cas32 (rs : Reg) (rn : Reg) (rt : Reg)
  /-- CAS (64-bit) (R195). -/
  | cas64 (rs : Reg) (rn : Reg) (rt : Reg)
deriving DecidableEq, Repr

end Sys2Proof
end

