-- ==== Sys2Proof/Machine/State.lean ====
section
/-! DEFINITION. The state of the machine (10_state.md; 70_reset_and_hazards.md rule R228) as plain data, the ways a step
can stop, and the state at the start of a run (R24, R220). The configuration is a field that no step changes (log 3);
`pending`, `drawCount` and `turn` are the model's own: they hold the choices of the environment (log 4, 5). -/

namespace Sys2Proof.Machine

/-- Why an instruction stops where the spec gives no next state; the step of its PE then ends the run of that PE with the
outcome of the same name (60_exceptions.md rules R200, R208), and only a read of an external observer stops the machine
(log 6). Every constructor is safe: nothing can be proved of what that PE would do. -/
inductive Fault
  /-- Raised by a fetch of PE `pe` whose candidates are several and not all CMODX-safe (20_memory.md rules R74, R81;
  93_implementation_defined.md U2). Safe. -/
  | cmodxUnpredictable (pe addr : Nat)
  /-- Raised by a read or a fetch that takes its data from a byte nothing has written (10_state.md rule R24,
  93_implementation_defined.md U28; log 2, 12). Safe. -/
  | unwrittenRead (addr : Nat)
  /-- Raised by an access or a fetch that touches a byte outside `MEMMAP`: the PE is stuck (20_memory.md rule R84,
  93_implementation_defined.md U24; log 23). Safe. -/
  | outsideMemMap (addr : Nat)
deriving DecidableEq, Repr

/-- A feature of 00_scope.md section 4 that an instruction needs. -/
inductive Feature
  | atomics | lrcpc | ls64 | advSimdFp | sve
deriving DecidableEq, Repr

/-- The operand combinations the spec calls CONSTRAINED UNPREDICTABLE, and refuses (R112, R114, R116, R118, R119). -/
inductive Unpredictable
  /-- A load pair names one destination twice. -/
  | loadPairSameRegister
  /-- The base that is written back is also a data register. -/
  | writebackOverlap
  /-- The status register of a Store-Exclusive is also a data or a base register. -/
  | statusOverlap
deriving DecidableEq, Repr

/-- Why the model declines to give an instruction, or one form of it, a meaning; the run of its PE ends with `refuse` and
this reason (60_exceptions.md rule R200, 70_reset_and_hazards.md rule R228). Every constructor is safe. -/
inductive Refusal
  /-- Raised by `exec` for an instruction that has no meaning yet. Safe. -/
  | notModelled (mnemonic : String)
  /-- Raised by a fetch: the word at `addr` matches no row of the opcode table (30_encoding.md rule R103). Safe. -/
  | noRow (addr : Nat) (word : Word32)
  /-- Raised by a fetch from a `pc` that is not a multiple of 4 (R14, R83). Safe. -/
  | pcMisaligned (pc : Nat)
  /-- Raised at the end of an instruction whose `pc + 4` would pass 2^64 (R14). Safe. -/
  | pcWrap (pc : Nat)
  /-- Raised by `B` whose target would pass 2^64 (R141). Safe. -/
  | branchWrap (pc : Nat)
  /-- Raised by a store whose address, or by an access whose last byte, would pass 2^64 (R110; log 13). Safe. -/
  | addressWrap (addr : Nat)
  /-- Raised by a misaligned access that `MISALIGNED_POLICY` refuses (R83). Safe. -/
  | misaligned (addr : Nat)
  /-- Raised by an instruction of a feature the configuration does not have (R3, R116, R123, R132, R133, R180, R191). Safe. -/
  | featureAbsent (f : Feature)
  /-- Raised by an operand combination the spec calls CONSTRAINED UNPREDICTABLE. Safe. -/
  | constrainedUnpredictable (u : Unpredictable)
  /-- Raised by `DC ZVA` on Device memory (R172). Safe. -/
  | zvaDevice (addr : Nat)
  /-- Raised by a `CB<cc>` form whose condition field is not allocated; the decoder gives no such instruction (R99,
  R148). Safe. -/
  | unallocatedCondition (cc : BitVec 3)
  /-- Raised by a 64-byte access whose eight registers would pass number 31 (R126; log 16). Safe. -/
  | registerRange (first : Nat)
  /-- Raised by an instruction of low confidence, which R98 has a model refuse to execute (log 14). Safe. -/
  | lowConfidence (mnemonic : String)
deriving DecidableEq, Repr

/-- The stage of translation an abort is reported against (60_exceptions.md rule R205). -/
inductive AbortStage
  | first | second
deriving DecidableEq, Repr

/-- The outcomes that end the run of a PE, the complete list of 60_exceptions.md rule R200: the exceptions, and after them
the outcomes of the spec's machine that are no exceptions of the hardware. -/
inductive PeOutcome
  | synchronousExternalAbort (addr : Nat)
  | sError (addr : Nat)
  | dataAbort (dfsc : BitVec 6) (addr : Nat) (stage : AbortStage) (target : EL)
  | breakpointInstruction (imm16 : BitVec 16)
  | supervisorCall (imm16 : BitVec 16)
  | hypervisorCall (imm16 : BitVec 16)
  | secureMonitorCall (imm16 : BitVec 16)
  /-- The Alignment fault of the open alternative of `MISALIGNED_POLICY` (R83, 92_eei_decisions.md D4; log 25). -/
  | alignmentFault (addr : Nat)
  /-- `CmodxUnpredictable` (20_memory.md rule R81). -/
  | cmodxUnpredictable (addr : Nat)
  /-- `UnwrittenRead` (R24). -/
  | unwrittenRead (addr : Nat)
  /-- `stuck`: the PE has no step, because it touches a byte outside `MEMMAP` (20_memory.md rule R84). -/
  | stuck (addr : Nat)
  /-- `refuse(reason)`. -/
  | refuse (reason : Refusal)
deriving DecidableEq, Repr

/-- The outcome of a PE that a fault stops (R200). -/
def Fault.outcome : Fault → PeOutcome
  | .cmodxUnpredictable _ addr => .cmodxUnpredictable addr
  | .unwrittenRead addr => .unwrittenRead addr
  | .outsideMemMap addr => .stuck addr

/-- Whether a PE runs (R228). No rule enters `halted` (log 36). -/
inductive RunStatus
  | running
  | ended (o : PeOutcome)
  | halted
deriving DecidableEq, Repr

/-- An agent that performs memory effects (10_state.md rule R10). -/
inductive Agent
  | pe (n : Nat)
  | observer (n : Nat)
deriving DecidableEq, Repr

/-- The write a read takes its data from: the initial value of the byte, or the write of a unit (R65 (c)). -/
inductive Source
  | initial
  | unit (u : Nat)
deriving DecidableEq, Repr

/-- A read that Reads-from `source`, or a write. -/
inductive EffectKind
  | read (source : Source)
  | write
deriving DecidableEq, Repr

/-- One memory effect of the event history (R23): its agent, the instruction instance that generated it, its kind, the
byte, the value and the unit it belongs to. -/
structure Effect where
  agent : Agent
  inst : Nat
  kind : EffectKind
  addr : Nat
  value : Byte
  unit : Nat
deriving DecidableEq, Repr

/-- A write in the coherence order of a byte. `follows` names the write it must immediately succeed (43_atomics.md rule
R180, 40_loads_stores.md rule R121 (b)): nothing may be placed between the two. -/
structure CohWrite where
  unit : Nat
  value : Byte
  follows : Option Source
deriving DecidableEq, Repr

/-- The coherence order of one byte (R65 (a)): the initial value, if the start state gives one, and every write, each
Coherence-after those before it in the list. -/
structure ByteOrder where
  init : Option Byte
  writes : List CohWrite
deriving DecidableEq, Repr

/-- A unit of an access: `size` bytes from `addr`, performed as one single-copy atomic access (R30). -/
structure MUnit where
  addr : Nat
  size : Nat
deriving DecidableEq, Repr

/-- A byte an instruction has read, and where it came from. -/
structure GotByte where
  addr : Nat
  value : Byte
  source : Source
deriving DecidableEq, Repr

/-- What an atomic instruction does with the value it reads: the `f` of 43_atomics.md rules R193 to R195. -/
inductive AtomicOp
  | add (v : Nat)
  | swap (v : Nat)
  | compareSwap (cmp new : Nat)
deriving DecidableEq, Repr

/-- What a PE does when the last unit of an instruction is done: which registers it writes (R228 (b)). -/
inductive Completion
  /-- `x[t] <- zext_64(v)` (R111, R123 to R125). -/
  | loadGpr (rt : Reg)
  /-- Two registers of `size` bytes each, and the writeback of the base (R112, R113). -/
  | loadPair (rt rt2 : Reg) (size : Nat) (writeback : Option (Reg × Word64))
  /-- Two SIMD and floating-point registers of `size` bytes each (R116). -/
  | loadFpPair (rt rt2 : Reg) (size : Nat)
  /-- Two registers, and the exclusive state (R118, R120). -/
  | loadExclusive (rt rt2 : Reg) (size : Nat)
  /-- Eight registers from `rt` up (R126). -/
  | load64 (rt : Reg)
  /-- A store, and the writeback of its base (R110, R114, R115, R117, R127, R172). -/
  | store (writeback : Option (Reg × Word64))
  /-- A 64-byte store that writes a status result to `rs` (R128, R129). -/
  | store64Status (rs : Reg)
  /-- The old value to `rd`, and a System Error interrupt after it if one was drawn (R190, R191). -/
  | atomic (rd : Reg) (thenSError : Bool)
deriving DecidableEq, Repr

/-- An instruction of several units that has begun and not ended (R56, R228 (b)): the access of `size` bytes from
`addr`, the read units still to perform, the bytes read so far, the operation an atomic instruction applies when all are
read, the write units still to perform, the bytes they write, and what ends the instruction. -/
structure InFlight where
  instr : Instr
  addr : Nat
  size : Nat
  reads : List MUnit
  got : List GotByte
  rmw : Option AtomicOp
  writes : List MUnit
  data : List Byte
  /-- The step `Interrupted` may be taken (R56; log 20). -/
  interruptible : Bool
  /-- The write must be the immediate successor, on every byte, of the write that was read: an atomic instruction where it
  is supported (43_atomics.md rules R180, R191). -/
  adjacent : Bool := false
  done : Completion
deriving DecidableEq, Repr

/-- Where a PE stands between two of its steps (R228). -/
inductive Phase
  /-- Before a fetch. -/
  | atStart
  /-- Interrupted: the instruction is executed again from its start (R56; log 19). -/
  | restart (i : Instr)
  /-- Inside a multi-unit instruction. -/
  | inside (fl : InFlight)
deriving DecidableEq, Repr

/-- The state behind a Load-Exclusive pair: the address, the size and the read effects it recorded (R22 (d), R118). -/
structure Exclusive where
  addr : Nat
  size : Nat
  reads : List GotByte
deriving DecidableEq, Repr

/-- The condition flags (10_state.md rule R15). -/
structure Flags where
  n : Bool
  z : Bool
  c : Bool
  v : Bool
deriving DecidableEq, Repr

/-- The stage of a word in the writer's sequence (20_memory.md rule R81). -/
inductive SyncStage
  | written | cleaned | cleanDone | invalidated | observable
deriving DecidableEq, Repr

/-- `sync(a)` and `writer(a)` of a word somebody has written (R81). -/
structure SyncWord where
  stage : SyncStage
  writer : Agent
deriving DecidableEq, Repr

/-- The state of one PE (R228). -/
structure PE where
  /-- X0 to X30 (R13). -/
  x : Vector Word64 31
  /-- The stack pointer of the Exception level the PE runs at (R13, 92_eei_decisions.md D19). -/
  sp : Word64
  /-- The address of the instruction being executed (R14). -/
  pc : Word64
  /-- N, Z, C, V (R15). -/
  flags : Flags
  /-- V0 to V31 (R18). -/
  v : Vector Word128 32
  /-- Z0 to Z31, `SVE_VL_BYTES` bytes each, the lowest first (R19). -/
  z : Vector (List Byte) 32
  /-- P0 to P15, one bit per vector byte (R19). -/
  p : Vector (List Bool) 16
  /-- ESR_EL1 (R16, R17). -/
  esrEl1 : Word64
  /-- ESR_EL2 (R16, R17). -/
  esrEl2 : Word64
  /-- ESR_ELx of the level EL3 (R16, R205, R214). -/
  esrEl3 : Word64
  /-- The system register whose value ST64BV0 stores in the low 32 bits of its data (R129; log 16). -/
  accData : Word32
  /-- `excl` (R22 (d), R118). -/
  excl : Option Exclusive
  /-- `cand(q, a)` for the words that are not just the word in memory (R22 (a) to (c), R81): each candidate is a word, or
  none for a word with a byte nothing has written (log 28). -/
  cand : List (Nat × List (Option Word32))
  phase : Phase
  run : RunStatus
  /-- The number of the instruction instance being executed (R23). -/
  inst : Nat
  /-- The values handed to the trace unit by `TRCIT`, the last one last (R157; log 17). -/
  trace : List Word64
deriving DecidableEq, Repr

/-- Memory: the bytes that hold a value, by address (R20). An unlisted address holds none (log 2). -/
abbrev Memory := List Host.Cell

/-- The state of the machine (R228). -/
structure State where
  /-- The configuration record (00_scope.md section 4). No step changes it. -/
  cfg : Config
  /-- The PEs, numbered from 0 (R215). -/
  pes : List PE
  /-- The number of the PE whose step is being taken. -/
  cur : Nat
  /-- The coherence-last value of every byte that has one (R20, R228). -/
  mem : Memory
  /-- The coherence order of every byte somebody has written (R22 (f), R65). -/
  coh : List (Nat × ByteOrder)
  /-- The event history, the oldest effect first (R23). -/
  history : List Effect
  /-- `sync(a)` and `writer(a)` of every word somebody has written; any other word is observable (R81). -/
  sync : List (Nat × SyncWord)
  /-- The number the next unit gets (R23). -/
  nextUnit : Nat
  /-- The number the next instruction instance gets (R23). -/
  nextInst : Nat
  /-- The model's own: choices of the environment that are already fixed, the next one first (log 4). -/
  pending : List Nat
  /-- The model's own: how many choices have been taken from `Config.freeDraw` or `Config.freeMove` (log 4). -/
  drawCount : Nat
  /-- The model's own: the next move of the schedule, if it is already fixed (log 5). -/
  turn : Option Move
deriving DecidableEq, Repr

/-- A PE at the start of a run (R24, R220): `pc = ENTRY(p)`, no exclusive outstanding, no stale instruction, running.
The registers and flags the spec gives no value read zero (DESIGN CHOICE, unsafe; log 1). -/
def PE.start (cfg : Config) (p : Nat) : PE :=
  { x := Vector.replicate 31 0
    sp := 0
    pc := cfg.entryOf p
    flags := { n := false, z := false, c := false, v := false }
    v := Vector.replicate 32 0
    z := Vector.replicate 32 (List.replicate cfg.sveVlBytes 0)
    p := Vector.replicate 16 (List.replicate cfg.sveVlBytes false)
    esrEl1 := 0
    esrEl2 := 0
    esrEl3 := 0
    accData := 0
    excl := none
    cand := []
    phase := .atStart
    run := .running
    inst := 0
    trace := [] }

/-- The start of a run of the configuration `cfg` with nothing placed in memory (R24, R220, R221). -/
def State.start (cfg : Config) : State :=
  { cfg := cfg
    pes := (List.range cfg.nPE).map (PE.start cfg)
    cur := 0
    mem := []
    coh := []
    history := []
    sync := []
    nextUnit := 0
    nextInst := 0
    pending := []
    drawCount := 0
    turn := none }

/-- The machine right after reset: the start of a run of `Config.reset` (log 3). -/
def State.reset : State := State.start Config.reset

/-- An operation that yields a value, or stops as a step does. -/
abbrev Res (α : Type) := Host.Outcome α Fault Refusal

end Sys2Proof.Machine
end

