-- ==== Sys2Proof/Machine/Attributes.lean ====
section
/-! DEFINITION. The address map and the attributes of a byte (10_state.md rule R21; 20_memory.md rule R84), and where
atomic instructions are supported (43_atomics.md rules R182 to R187, R192). -/

namespace Sys2Proof

/-- Inner Write-Back, Outer Write-Back Normal memory (R21). -/
def MemAttr.isWriteBack (m : MemAttr) : Bool := m.type == .normal .writeBack .writeBack

/-- Device memory. -/
def MemAttr.isDevice (m : MemAttr) : Bool := m.type == .device

/-- Normal memory, Inner and Outer Non-cacheable. -/
def MemAttr.isNonCacheable (m : MemAttr) : Bool := m.type == .normal .nonCacheable .nonCacheable

/-- Normal memory whose inner and outer cacheability are each Non-cacheable or Write-Through (R77). -/
def MemAttr.needsNoClean (m : MemAttr) : Bool :=
  match m.type with
  | .normal i o => i != .writeBack && o != .writeBack
  | .device => false

end Sys2Proof

namespace Sys2Proof.Machine

/-- The region that holds a byte: the first one of the list that does (log 24). -/
def regionOf (cfg : Config) (a : Nat) : Option Region :=
  if a < addrSpace then cfg.regions.find? fun r => decide (r.base ≤ a) && decide (a < r.base + r.size) else none

/-- The byte is in `MEMMAP` (R84). -/
def inMemMap (cfg : Config) (a : Nat) : Bool := (regionOf cfg a).isSome

/-- `MEMATTR(a)`. -/
def attrOf (cfg : Config) (a : Nat) : Option MemAttr := (regionOf cfg a).map (·.attr)

/-- The byte has attributes of which the predicate holds. -/
def byteHas (cfg : Config) (p : MemAttr → Bool) (a : Nat) : Bool :=
  match attrOf cfg a with
  | some m => p m
  | none => false

/-- `iwb_owb(b)` (R21). -/
def iwbOwb (cfg : Config) (a : Nat) : Bool := byteHas cfg MemAttr.isWriteBack a

/-- `wb_shareable(b)` (R21). -/
def wbShareable (cfg : Config) (a : Nat) : Bool :=
  byteHas cfg (fun m => m.isWriteBack && m.shareability != .nonShareable) a

/-- Normal memory. -/
def isNormal (cfg : Config) (a : Nat) : Bool := byteHas cfg (fun m => !m.isDevice) a

/-- The architecture guarantees that atomic instructions are atomic here (R186, R187). -/
def atomicGuaranteed (cfg : Config) (a : Nat) : Bool :=
  wbShareable cfg a && byteHas cfg (fun m => m.conventional) a

/-- `ATOMIC_SUPPORTED(b)`, true wherever R186 forces it (R184; log 24). -/
def atomicSupported (cfg : Config) (a : Nat) : Bool :=
  atomicGuaranteed cfg a ||
    match regionOf cfg a with
    | some r => r.atomicSupported
    | none => false

/-- `ATOMIC_FP_SUPPORTED(b)`: it may differ from `ATOMIC_SUPPORTED` at Device and Non-cacheable bytes only (R192). -/
def atomicFpSupported (cfg : Config) (a : Nat) : Bool :=
  match regionOf cfg a with
  | some r => if r.attr.isDevice || r.attr.isNonCacheable then r.atomicFpSupported else atomicSupported cfg a
  | none => false

/-- The addresses of `n` bytes from `a` up. -/
def byteAddrs (a n : Nat) : List Nat := (List.range n).map (a + ·)

/-- A condition on memory holds of an access if it holds of every byte accessed (92_eei_decisions.md D25). -/
def everyByte (p : Nat → Bool) (a n : Nat) : Bool := (byteAddrs a n).all p

end Sys2Proof.Machine
end

