-- ==== Sys2Proof/Machine/Atomicity.lean ====
section
/-! DEFINITION. Single-copy atomicity: access classes, the function `SCAUnits` and the alignment policy (20_memory.md
rules R30 to R62, R83; 43_atomics.md rule R190). `scaUnits` is the one place where an access is turned into units. -/

namespace Sys2Proof.Machine

/-- `aligned(a, n)` (00_scope.md section 5.2). -/
def aligned (a n : Nat) : Bool := a % n == 0

/-- `within16(a, n)`: all `n` bytes lie in one 16-byte quantity aligned to 16 bytes (00_scope.md section 5.2). -/
def within16 (a n : Nat) : Bool := decide (1 ≤ n) && a / 16 == (a + n - 1) / 16

/-- `bytes(a, n)` (00_scope.md section 5.2). -/
def byteUnits (a n : Nat) : List MUnit := (byteAddrs a n).map fun b => { addr := b, size := 1 }

/-- The access classes of R30. -/
inductive AccessClass
  | gprSingle | gprPair | exclPair32 | exclPair64 | ttwRead | ifetch | fpSingle | fpPair | fpElemStruct
  | svePred | sveUnpred | ls64 | atomic | dcZva | lrcpc | other
deriving DecidableEq, Repr

/-- The mnemonics that the pair rules R60 and R61 tell apart. -/
inductive PairMnemonic
  | ldp | ldnp | stp | stnp | other
deriving DecidableEq, Repr

/-- The direction of an access; a Store-Exclusive that fails writes nothing (R35, R44). -/
inductive Direction
  | read | write | failedWrite
deriving DecidableEq, Repr

/-- An access (R30): its class, its lowest address, its `count` quantities of `size` bytes; for `svePred` the addresses of
the elements that are accessed, those whose predicate bit is true (92_eei_decisions.md D22). -/
structure Access where
  cls : AccessClass
  mnemonic : PairMnemonic := .other
  dir : Direction
  addr : Nat
  size : Nat
  count : Nat
  elems : List Nat := []
deriving DecidableEq, Repr

/-- The overall size in bytes. -/
def Access.total (a : Access) : Nat := a.size * a.count

/-- The addresses of the bytes accessed. -/
def Access.bytes (a : Access) : List Nat :=
  match a.cls with
  | .svePred => a.elems.flatMap fun e => byteAddrs e a.size
  | _ => byteAddrs a.addr a.total

/-- The unit of the whole access. -/
def Access.whole (a : Access) : MUnit := { addr := a.addr, size := a.total }

/-- One unit for each quantity. -/
def Access.perQuantity (a : Access) : List MUnit :=
  (List.range a.count).map fun i => { addr := a.addr + i * a.size, size := a.size }

/-- Units of 8 bytes from `a` up. -/
def doublewordUnits (a n : Nat) : List MUnit := (List.range n).map fun i => { addr := a + i * 8, size := 8 }

/-- `wb` of R62: every byte is Inner Write-Back, Outer Write-Back Normal memory. -/
def Access.writeBack (cfg : Config) (a : Access) : Bool := a.bytes.all (iwbOwb cfg)

/-- The condition of R59, with the gate of 92_eei_decisions.md D9. -/
def Access.lse2Unaligned (cfg : Config) (a : Access) : Bool :=
  cfg.armv8_4OrLater && cfg.featLse2 && a.writeBack cfg && !aligned a.addr a.size && within16 a.addr a.size

/-- The condition of R58, with the gate of 92_eei_decisions.md D9. -/
def Access.lrcpcUnit (cfg : Config) (a : Access) : Bool :=
  cfg.armv8_4OrLater && cfg.featLrcpc && a.writeBack cfg && within16 a.addr a.size

/-- LDP, LDNP and STP are in the lists of R60 and R61; STNP is not (92_eei_decisions.md D26). -/
def PairMnemonic.inLse2Lists : PairMnemonic → Bool
  | .ldp => true
  | .ldnp => true
  | .stp => true
  | .stnp => false
  | .other => false

/-- The condition of R60 or R61 under which a pair of general-purpose registers is one unit. -/
def Access.lse2Pair (cfg : Config) (a : Access) : Bool :=
  cfg.armv8_4OrLater && cfg.featLse2 && a.writeBack cfg && a.mnemonic.inLse2Lists &&
    ((a.size == 8 && aligned a.addr 16) || (a.size == 4 && within16 a.addr 8))

/-- Units of a single quantity of at most 8 bytes: `GPR_SINGLE`, and `FP_SINGLE` up to 8 bytes (R31, R32, R38, R39, R52,
R54, R59). -/
def singleUnits (cfg : Config) (a : Access) : List MUnit :=
  if aligned a.addr a.size || a.lse2Unaligned cfg then [a.whole] else byteUnits a.addr a.size

/-- `GPR_PAIR` (R33, R34, R54, R60, R61). -/
def gprPairUnits (cfg : Config) (a : Access) : List MUnit :=
  if a.lse2Pair cfg then [a.whole]
  else if aligned a.addr a.size then a.perQuantity
  else byteUnits a.addr a.total

/-- `EXCL_PAIR64` (R44, R54, 92_eei_decisions.md D8). -/
def exclPair64Units (cfg : Config) (a : Access) : List MUnit :=
  match a.dir with
  | .failedWrite => []
  | .write => [a.whole]
  | .read => if cfg.ldxp64PerRegisterSca && aligned a.addr 8 then doublewordUnits a.addr 2 else byteUnits a.addr 16

/-- `FP_SINGLE` (R38, R39, R42, R43, R54, R59). -/
def fpSingleUnits (cfg : Config) (a : Access) : List MUnit :=
  if a.size ≤ 8 then singleUnits cfg a
  else if aligned a.addr 8 then doublewordUnits a.addr 2
  else byteUnits a.addr 16

/-- `FP_PAIR` (R42, R43, R46, R54, 92_eei_decisions.md D7). -/
def fpPairUnits (cfg : Config) (a : Access) : List MUnit :=
  if a.size = 16 then
    if cfg.featLs64wb && aligned a.addr 32 && a.bytes.all (wbShareable cfg) then [a.whole]
    else if aligned a.addr 8 then doublewordUnits a.addr 4
    else byteUnits a.addr 32
  else if cfg.fpPairPerRegisterSca && aligned a.addr a.size then a.perQuantity
  else byteUnits a.addr a.total

/-- `SVE_PRED` (R47, R48, R54, 92_eei_decisions.md D22). -/
def svePredUnits (a : Access) : List MUnit :=
  if decide (a.size ≤ 8) && a.elems.all (aligned · a.size) then
    a.elems.map fun e => { addr := e, size := a.size }
  else if a.size == 16 && a.elems.all (aligned · 8) then a.elems.flatMap fun e => doublewordUnits e 2
  else a.elems.flatMap fun e => byteUnits e a.size

/-- `ATOMIC`: the read and the write each (R53, R190). -/
def atomicUnits (cfg : Config) (a : Access) : List MUnit :=
  if a.bytes.all (atomicSupported cfg) || cfg.atomicNonAtomicSca then [a.whole] else byteUnits a.addr a.total

/-- `LRCPC` (R31, R54, R58, R59). -/
def lrcpcUnits (cfg : Config) (a : Access) : List MUnit :=
  if aligned a.addr a.size || a.lrcpcUnit cfg || a.lse2Unaligned cfg then [a.whole] else byteUnits a.addr a.size

/-- `SCAUnits` (R62): the units of an access; none where R62 refuses (`LS64` not aligned to 64 or not implemented) and for
an instruction fetch, which is not a data access (R37, R81). -/
def scaUnits (cfg : Config) (a : Access) : Option (List MUnit) :=
  match a.cls with
  | .gprSingle => some (singleUnits cfg a)
  | .gprPair => some (gprPairUnits cfg a)
  | .exclPair32 => some (if a.dir = .failedWrite then [] else [{ addr := a.addr, size := 8 }])
  | .exclPair64 => some (exclPair64Units cfg a)
  | .ttwRead => some [{ addr := a.addr, size := cfg.tteBytes }]
  | .ifetch => none
  | .fpSingle => some (fpSingleUnits cfg a)
  | .fpPair => some (fpPairUnits cfg a)
  | .fpElemStruct => some (if aligned a.addr a.size then a.perQuantity else byteUnits a.addr a.total)
  | .svePred => some (svePredUnits a)
  | .sveUnpred => some (byteUnits a.addr a.total)
  | .ls64 => if cfg.featLs64 && aligned a.addr 64 then some [{ addr := a.addr, size := 64 }] else none
  | .atomic => some (atomicUnits cfg a)
  | .dcZva => some (byteUnits a.addr cfg.zvaBlockBytes)
  | .lrcpc => some (lrcpcUnits cfg a)
  | .other => some (byteUnits a.addr a.total)

/-- The access is misaligned and its class alone makes `MISALIGNED_POLICY` turn it away (R83 (c)). -/
def Access.misalignedByClass (a : Access) : Bool :=
  match a.cls with
  | .exclPair32 => !aligned a.addr a.total
  | .exclPair64 => !aligned a.addr a.total
  | .atomic => !aligned a.addr a.total
  | .ls64 => !aligned a.addr 64
  | _ => false

/-- The access is misaligned and the memory it touches makes `MISALIGNED_POLICY` turn it away: an access of quantities to
memory that is not all Normal (R83 (b); log 37), or a FEAT_LRCPC access that no rule makes one unit (R83 (d)). R83 does not
say against which size an access of 128-bit quantities is misaligned; that it is 16, so that one aligned to 8 only is turned
away on Device memory, is the model's choice (DESIGN CHOICE; log 40). -/
def Access.misalignedByMemory (cfg : Config) (a : Access) : Bool :=
  match a.cls with
  | .gprSingle => !aligned a.addr a.size && !a.bytes.all (isNormal cfg)
  | .gprPair => !aligned a.addr a.size && !a.bytes.all (isNormal cfg)
  | .fpSingle => !aligned a.addr a.size && !a.bytes.all (isNormal cfg)
  | .fpPair => !aligned a.addr a.size && !a.bytes.all (isNormal cfg)
  | .fpElemStruct => !aligned a.addr a.size && !a.bytes.all (isNormal cfg)
  | .svePred => !a.elems.all (aligned · a.size) && !a.bytes.all (isNormal cfg)
  | .sveUnpred => !aligned a.addr a.size && !a.bytes.all (isNormal cfg)
  | .other => !aligned a.addr a.size && !a.bytes.all (isNormal cfg)
  | .lrcpc => !aligned a.addr a.size && !a.lrcpcUnit cfg && !a.lse2Unaligned cfg
  | _ => false

end Sys2Proof.Machine
end

