-- ==== Sys2Proof/WellFormed.lean ====
section
/-! DEFINITION. Well-formedness of an instruction: the operand values that its row of the opcode table admits. The types
of the fields already bound them; what is left is the condition field of the compare-and-branch instructions, whose
values 100 and 101 are not allocated (30_encoding.md rule R99, 41_branch_system.md rules R148, R149). -/

namespace Sys2Proof

/-- A condition field of `CB<cc>`, `CBB<cc>` or `CBH<cc>` that is allocated (R99). -/
def ccAllocated (cc : BitVec 3) : Bool := cc != 0b100#3 && cc != 0b101#3

/-- The instruction is one the opcode table has: its condition field, where it has one of `CB<cc>`, is allocated. -/
def Instr.wellFormed : Instr → Bool
  | .b _ => true
  | .bl _ => true
  | .bCond _ _ => true
  | .cbz _ _ _ => true
  | .cbnz _ _ _ => true
  | .tbz _ _ _ _ => true
  | .tbnz _ _ _ _ => true
  | .cbReg _ cc _ _ _ => ccAllocated cc
  | .cbImm _ cc _ _ _ => ccAllocated cc
  | .cbb cc _ _ _ => ccAllocated cc
  | .cbh cc _ _ _ => ccAllocated cc
  | .brk _ => true
  | .svc _ => true
  | .hvc _ => true
  | .smc _ => true
  | .nop => true
  | .trcit _ => true
  | .dcCvau _ => true
  | .icIvau _ => true
  | .dcZva _ => true
  | .dsbIsh => true
  | .isb _ => true
  | .strImm32 _ _ _ => true
  | .strImm64 _ _ _ => true
  | .ldrImm32 _ _ _ => true
  | .ldrImm64 _ _ _ => true
  | .ldpPost32 _ _ _ _ => true
  | .ldpOff32 _ _ _ _ => true
  | .ldpPre32 _ _ _ _ => true
  | .ldnp32 _ _ _ _ => true
  | .stpPost32 _ _ _ _ => true
  | .stpOff32 _ _ _ _ => true
  | .stpPre32 _ _ _ _ => true
  | .stnp32 _ _ _ _ => true
  | .ldpPost64 _ _ _ _ => true
  | .ldpOff64 _ _ _ _ => true
  | .ldpPre64 _ _ _ _ => true
  | .ldnp64 _ _ _ _ => true
  | .stpPost64 _ _ _ _ => true
  | .stpOff64 _ _ _ _ => true
  | .stpPre64 _ _ _ _ => true
  | .stnp64 _ _ _ _ => true
  | .ldpFpS _ _ _ _ => true
  | .stpFpS _ _ _ _ => true
  | .ldpFpD _ _ _ _ => true
  | .stpFpD _ _ _ _ => true
  | .ldpFpQ _ _ _ _ => true
  | .stpFpQ _ _ _ _ => true
  | .ldxp32 _ _ _ => true
  | .stxp32 _ _ _ _ => true
  | .ldaxp32 _ _ _ => true
  | .stlxp32 _ _ _ _ => true
  | .ldxp64 _ _ _ => true
  | .stxp64 _ _ _ _ => true
  | .ldaxp64 _ _ _ => true
  | .stlxp64 _ _ _ _ => true
  | .ldapr32 _ _ => true
  | .ldapr64 _ _ => true
  | .ldaprh _ _ => true
  | .ldaprb _ _ => true
  | .ld64b _ _ => true
  | .st64b _ _ => true
  | .st64bv _ _ _ => true
  | .st64bv0 _ _ _ => true
  | .ldadd32 _ _ _ => true
  | .ldadd64 _ _ _ => true
  | .swp32 _ _ _ => true
  | .swp64 _ _ _ => true
  | .cas32 _ _ _ => true
  | .cas64 _ _ _ => true

end Sys2Proof
end

