-- ==== Sys2Proof/Decode.lean ====
section
/-! DEFINITION. The decoder and the encoder (30_encoding.md rules R95 to R104), and `cmodxSafe` (R99). A word is read by
the rows of R101, each with its match, its mask, and the runs of fixed bits the mask selects; a word that matches no row
is rejected by name (R103). -/

namespace Sys2Proof

/-- The unsigned value of `n` bits of `w` from bit `lo` up (00_scope.md section 5.1). -/
def bitsAt (w : Word32) (lo n : Nat) : Nat := w.toNat / 2 ^ lo % 2 ^ n

/-- A field of `n` bits of `w` from bit `lo` up. -/
def field (w : Word32) (lo n : Nat) : BitVec n := BitVec.ofNat n (w.toNat / 2 ^ lo)

/-- A run of bits that a row of the opcode table fixes. -/
structure FixedBits where
  lo : Nat
  width : Nat
  value : Nat
deriving DecidableEq, Repr

/-- The word has the row's value in this run of bits. -/
def FixedBits.holds (f : FixedBits) (w : Word32) : Bool := bitsAt w f.lo f.width == f.value

/-- A row of the opcode table (R101). A word `w` is the instruction when `w and mask = pattern`; `fixed` are the runs of
bits of the mask with their values, and `build` reads the fields left free. -/
structure Row where
  pattern : Nat
  mask : Nat
  fixed : List FixedBits
  build : Word32 → Instr

/-- The word has every bit the row fixes. -/
def Row.accepts (r : Row) (w : Word32) : Bool := r.fixed.all fun f => f.holds w

/-- Branches (R141 to R147). -/
def branchRows : List Row :=
  [ { pattern := 0x14000000, mask := 0xFC000000
      fixed := [⟨26, 6, 0b000101⟩]
      build := fun w => .b (field w 0 26) },
    { pattern := 0x94000000, mask := 0xFC000000
      fixed := [⟨26, 6, 0b100101⟩]
      build := fun w => .bl (field w 0 26) },
    { pattern := 0x54000000, mask := 0xFF000010
      fixed := [⟨4, 1, 0b0⟩, ⟨24, 8, 0b01010100⟩]
      build := fun w => .bCond (field w 5 19) (field w 0 4) },
    { pattern := 0x34000000, mask := 0x7F000000
      fixed := [⟨24, 7, 0b0110100⟩]
      build := fun w => .cbz (field w 31 1) (field w 5 19) (field w 0 5) },
    { pattern := 0x35000000, mask := 0x7F000000
      fixed := [⟨24, 7, 0b0110101⟩]
      build := fun w => .cbnz (field w 31 1) (field w 5 19) (field w 0 5) },
    { pattern := 0x36000000, mask := 0x7F000000
      fixed := [⟨24, 7, 0b0110110⟩]
      build := fun w => .tbz (field w 31 1) (field w 19 5) (field w 5 14) (field w 0 5) },
    { pattern := 0x37000000, mask := 0x7F000000
      fixed := [⟨24, 7, 0b0110111⟩]
      build := fun w => .tbnz (field w 31 1) (field w 19 5) (field w 5 14) (field w 0 5) } ]

/-- Compare and branch with a condition, of low confidence (R98, R148 to R151). -/
def compareRows : List Row :=
  [ { pattern := 0x74000000, mask := 0x7F00C000
      fixed := [⟨14, 2, 0b00⟩, ⟨24, 7, 0b1110100⟩]
      build := fun w => .cbReg (field w 31 1) (field w 21 3) (field w 16 5) (field w 5 9) (field w 0 5) },
    { pattern := 0x75000000, mask := 0x7F004000
      fixed := [⟨14, 1, 0b0⟩, ⟨24, 7, 0b1110101⟩]
      build := fun w => .cbImm (field w 31 1) (field w 21 3) (field w 15 6) (field w 5 9) (field w 0 5) },
    { pattern := 0x74008000, mask := 0xFF00C000
      fixed := [⟨14, 2, 0b10⟩, ⟨24, 8, 0b01110100⟩]
      build := fun w => .cbb (field w 21 3) (field w 16 5) (field w 5 9) (field w 0 5) },
    { pattern := 0x7400C000, mask := 0xFF00C000
      fixed := [⟨14, 2, 0b11⟩, ⟨24, 8, 0b01110100⟩]
      build := fun w => .cbh (field w 21 3) (field w 16 5) (field w 5 9) (field w 0 5) } ]

/-- Exception-generating instructions, NOP, TRCIT, cache maintenance and barriers (R152 to R157, R170 to R174). -/
def systemRows : List Row :=
  [ { pattern := 0xD4200000, mask := 0xFFE0001F
      fixed := [⟨0, 5, 0b00000⟩, ⟨21, 11, 0b11010100001⟩]
      build := fun w => .brk (field w 5 16) },
    { pattern := 0xD4000001, mask := 0xFFE0001F
      fixed := [⟨0, 5, 0b00001⟩, ⟨21, 11, 0b11010100000⟩]
      build := fun w => .svc (field w 5 16) },
    { pattern := 0xD4000002, mask := 0xFFE0001F
      fixed := [⟨0, 5, 0b00010⟩, ⟨21, 11, 0b11010100000⟩]
      build := fun w => .hvc (field w 5 16) },
    { pattern := 0xD4000003, mask := 0xFFE0001F
      fixed := [⟨0, 5, 0b00011⟩, ⟨21, 11, 0b11010100000⟩]
      build := fun w => .smc (field w 5 16) },
    { pattern := 0xD503201F, mask := 0xFFFFFFFF
      fixed := [⟨0, 32, 0b11010101000000110010000000011111⟩]
      build := fun _ => .nop },
    { pattern := 0xD50B72E0, mask := 0xFFFFFFE0
      fixed := [⟨5, 27, 0b110101010000101101110010111⟩]
      build := fun w => .trcit (field w 0 5) },
    { pattern := 0xD50B7B20, mask := 0xFFFFFFE0
      fixed := [⟨5, 27, 0b110101010000101101111011001⟩]
      build := fun w => .dcCvau (field w 0 5) },
    { pattern := 0xD50B7520, mask := 0xFFFFFFE0
      fixed := [⟨5, 27, 0b110101010000101101110101001⟩]
      build := fun w => .icIvau (field w 0 5) },
    { pattern := 0xD50B7420, mask := 0xFFFFFFE0
      fixed := [⟨5, 27, 0b110101010000101101110100001⟩]
      build := fun w => .dcZva (field w 0 5) },
    { pattern := 0xD5033B9F, mask := 0xFFFFFFFF
      fixed := [⟨0, 32, 0b11010101000000110011101110011111⟩]
      build := fun _ => .dsbIsh },
    { pattern := 0xD50330DF, mask := 0xFFFFF0FF
      fixed := [⟨0, 8, 0b11011111⟩, ⟨12, 20, 0b11010101000000110011⟩]
      build := fun w => .isb (field w 8 4) } ]

/-- Loads and stores of one general-purpose register (R110, R111). -/
def singleRows : List Row :=
  [ { pattern := 0xB9000000, mask := 0xFFC00000
      fixed := [⟨22, 10, 0b1011100100⟩]
      build := fun w => .strImm32 (field w 10 12) (field w 5 5) (field w 0 5) },
    { pattern := 0xF9000000, mask := 0xFFC00000
      fixed := [⟨22, 10, 0b1111100100⟩]
      build := fun w => .strImm64 (field w 10 12) (field w 5 5) (field w 0 5) },
    { pattern := 0xB9400000, mask := 0xFFC00000
      fixed := [⟨22, 10, 0b1011100101⟩]
      build := fun w => .ldrImm32 (field w 10 12) (field w 5 5) (field w 0 5) },
    { pattern := 0xF9400000, mask := 0xFFC00000
      fixed := [⟨22, 10, 0b1111100101⟩]
      build := fun w => .ldrImm64 (field w 10 12) (field w 5 5) (field w 0 5) } ]

/-- Pairs of 32-bit general-purpose registers (R112 to R115). -/
def pair32Rows : List Row :=
  [ { pattern := 0x28C00000, mask := 0xFFC00000
      fixed := [⟨22, 10, 0b0010100011⟩]
      build := fun w => .ldpPost32 (field w 15 7) (field w 10 5) (field w 5 5) (field w 0 5) },
    { pattern := 0x29400000, mask := 0xFFC00000
      fixed := [⟨22, 10, 0b0010100101⟩]
      build := fun w => .ldpOff32 (field w 15 7) (field w 10 5) (field w 5 5) (field w 0 5) },
    { pattern := 0x29C00000, mask := 0xFFC00000
      fixed := [⟨22, 10, 0b0010100111⟩]
      build := fun w => .ldpPre32 (field w 15 7) (field w 10 5) (field w 5 5) (field w 0 5) },
    { pattern := 0x28400000, mask := 0xFFC00000
      fixed := [⟨22, 10, 0b0010100001⟩]
      build := fun w => .ldnp32 (field w 15 7) (field w 10 5) (field w 5 5) (field w 0 5) },
    { pattern := 0x28800000, mask := 0xFFC00000
      fixed := [⟨22, 10, 0b0010100010⟩]
      build := fun w => .stpPost32 (field w 15 7) (field w 10 5) (field w 5 5) (field w 0 5) },
    { pattern := 0x29000000, mask := 0xFFC00000
      fixed := [⟨22, 10, 0b0010100100⟩]
      build := fun w => .stpOff32 (field w 15 7) (field w 10 5) (field w 5 5) (field w 0 5) },
    { pattern := 0x29800000, mask := 0xFFC00000
      fixed := [⟨22, 10, 0b0010100110⟩]
      build := fun w => .stpPre32 (field w 15 7) (field w 10 5) (field w 5 5) (field w 0 5) },
    { pattern := 0x28000000, mask := 0xFFC00000
      fixed := [⟨22, 10, 0b0010100000⟩]
      build := fun w => .stnp32 (field w 15 7) (field w 10 5) (field w 5 5) (field w 0 5) } ]

/-- Pairs of 64-bit general-purpose registers (R112 to R115). -/
def pair64Rows : List Row :=
  [ { pattern := 0xA8C00000, mask := 0xFFC00000
      fixed := [⟨22, 10, 0b1010100011⟩]
      build := fun w => .ldpPost64 (field w 15 7) (field w 10 5) (field w 5 5) (field w 0 5) },
    { pattern := 0xA9400000, mask := 0xFFC00000
      fixed := [⟨22, 10, 0b1010100101⟩]
      build := fun w => .ldpOff64 (field w 15 7) (field w 10 5) (field w 5 5) (field w 0 5) },
    { pattern := 0xA9C00000, mask := 0xFFC00000
      fixed := [⟨22, 10, 0b1010100111⟩]
      build := fun w => .ldpPre64 (field w 15 7) (field w 10 5) (field w 5 5) (field w 0 5) },
    { pattern := 0xA8400000, mask := 0xFFC00000
      fixed := [⟨22, 10, 0b1010100001⟩]
      build := fun w => .ldnp64 (field w 15 7) (field w 10 5) (field w 5 5) (field w 0 5) },
    { pattern := 0xA8800000, mask := 0xFFC00000
      fixed := [⟨22, 10, 0b1010100010⟩]
      build := fun w => .stpPost64 (field w 15 7) (field w 10 5) (field w 5 5) (field w 0 5) },
    { pattern := 0xA9000000, mask := 0xFFC00000
      fixed := [⟨22, 10, 0b1010100100⟩]
      build := fun w => .stpOff64 (field w 15 7) (field w 10 5) (field w 5 5) (field w 0 5) },
    { pattern := 0xA9800000, mask := 0xFFC00000
      fixed := [⟨22, 10, 0b1010100110⟩]
      build := fun w => .stpPre64 (field w 15 7) (field w 10 5) (field w 5 5) (field w 0 5) },
    { pattern := 0xA8000000, mask := 0xFFC00000
      fixed := [⟨22, 10, 0b1010100000⟩]
      build := fun w => .stnp64 (field w 15 7) (field w 10 5) (field w 5 5) (field w 0 5) } ]

/-- Pairs of SIMD and floating-point registers (R116, R117). -/
def fpPairRows : List Row :=
  [ { pattern := 0x2D400000, mask := 0xFFC00000
      fixed := [⟨22, 10, 0b0010110101⟩]
      build := fun w => .ldpFpS (field w 15 7) (field w 10 5) (field w 5 5) (field w 0 5) },
    { pattern := 0x2D000000, mask := 0xFFC00000
      fixed := [⟨22, 10, 0b0010110100⟩]
      build := fun w => .stpFpS (field w 15 7) (field w 10 5) (field w 5 5) (field w 0 5) },
    { pattern := 0x6D400000, mask := 0xFFC00000
      fixed := [⟨22, 10, 0b0110110101⟩]
      build := fun w => .ldpFpD (field w 15 7) (field w 10 5) (field w 5 5) (field w 0 5) },
    { pattern := 0x6D000000, mask := 0xFFC00000
      fixed := [⟨22, 10, 0b0110110100⟩]
      build := fun w => .stpFpD (field w 15 7) (field w 10 5) (field w 5 5) (field w 0 5) },
    { pattern := 0xAD400000, mask := 0xFFC00000
      fixed := [⟨22, 10, 0b1010110101⟩]
      build := fun w => .ldpFpQ (field w 15 7) (field w 10 5) (field w 5 5) (field w 0 5) },
    { pattern := 0xAD000000, mask := 0xFFC00000
      fixed := [⟨22, 10, 0b1010110100⟩]
      build := fun w => .stpFpQ (field w 15 7) (field w 10 5) (field w 5 5) (field w 0 5) } ]

/-- Exclusive pairs (R118 to R120, R122). -/
def exclusiveRows : List Row :=
  [ { pattern := 0x887F0000, mask := 0xFFFF8000
      fixed := [⟨15, 17, 0b10001000011111110⟩]
      build := fun w => .ldxp32 (field w 10 5) (field w 5 5) (field w 0 5) },
    { pattern := 0x88200000, mask := 0xFFE08000
      fixed := [⟨15, 1, 0b0⟩, ⟨21, 11, 0b10001000001⟩]
      build := fun w => .stxp32 (field w 16 5) (field w 10 5) (field w 5 5) (field w 0 5) },
    { pattern := 0x887F8000, mask := 0xFFFF8000
      fixed := [⟨15, 17, 0b10001000011111111⟩]
      build := fun w => .ldaxp32 (field w 10 5) (field w 5 5) (field w 0 5) },
    { pattern := 0x88208000, mask := 0xFFE08000
      fixed := [⟨15, 1, 0b1⟩, ⟨21, 11, 0b10001000001⟩]
      build := fun w => .stlxp32 (field w 16 5) (field w 10 5) (field w 5 5) (field w 0 5) },
    { pattern := 0xC87F0000, mask := 0xFFFF8000
      fixed := [⟨15, 17, 0b11001000011111110⟩]
      build := fun w => .ldxp64 (field w 10 5) (field w 5 5) (field w 0 5) },
    { pattern := 0xC8200000, mask := 0xFFE08000
      fixed := [⟨15, 1, 0b0⟩, ⟨21, 11, 0b11001000001⟩]
      build := fun w => .stxp64 (field w 16 5) (field w 10 5) (field w 5 5) (field w 0 5) },
    { pattern := 0xC87F8000, mask := 0xFFFF8000
      fixed := [⟨15, 17, 0b11001000011111111⟩]
      build := fun w => .ldaxp64 (field w 10 5) (field w 5 5) (field w 0 5) },
    { pattern := 0xC8208000, mask := 0xFFE08000
      fixed := [⟨15, 1, 0b1⟩, ⟨21, 11, 0b11001000001⟩]
      build := fun w => .stlxp64 (field w 16 5) (field w 10 5) (field w 5 5) (field w 0 5) } ]

/-- Instructions introduced in FEAT_LRCPC (R123 to R125). -/
def rcpcRows : List Row :=
  [ { pattern := 0xB8BFC000, mask := 0xFFFFFC00
      fixed := [⟨10, 22, 0b1011100010111111110000⟩]
      build := fun w => .ldapr32 (field w 5 5) (field w 0 5) },
    { pattern := 0xF8BFC000, mask := 0xFFFFFC00
      fixed := [⟨10, 22, 0b1111100010111111110000⟩]
      build := fun w => .ldapr64 (field w 5 5) (field w 0 5) },
    { pattern := 0x78BFC000, mask := 0xFFFFFC00
      fixed := [⟨10, 22, 0b0111100010111111110000⟩]
      build := fun w => .ldaprh (field w 5 5) (field w 0 5) },
    { pattern := 0x38BFC000, mask := 0xFFFFFC00
      fixed := [⟨10, 22, 0b0011100010111111110000⟩]
      build := fun w => .ldaprb (field w 5 5) (field w 0 5) } ]

/-- 64-byte loads and stores, of low confidence (R98, R126 to R129). -/
def ls64Rows : List Row :=
  [ { pattern := 0xF83FD000, mask := 0xFFFFFC00
      fixed := [⟨10, 22, 0b1111100000111111110100⟩]
      build := fun w => .ld64b (field w 5 5) (field w 0 5) },
    { pattern := 0xF83F9000, mask := 0xFFFFFC00
      fixed := [⟨10, 22, 0b1111100000111111100100⟩]
      build := fun w => .st64b (field w 5 5) (field w 0 5) },
    { pattern := 0xF820B000, mask := 0xFFE0FC00
      fixed := [⟨10, 6, 0b101100⟩, ⟨21, 11, 0b11111000001⟩]
      build := fun w => .st64bv (field w 16 5) (field w 5 5) (field w 0 5) },
    { pattern := 0xF820A000, mask := 0xFFE0FC00
      fixed := [⟨10, 6, 0b101000⟩, ⟨21, 11, 0b11111000001⟩]
      build := fun w => .st64bv0 (field w 16 5) (field w 5 5) (field w 0 5) } ]

/-- Atomic instructions (R193 to R195). -/
def atomicRows : List Row :=
  [ { pattern := 0xB8200000, mask := 0xFFE0FC00
      fixed := [⟨10, 6, 0b000000⟩, ⟨21, 11, 0b10111000001⟩]
      build := fun w => .ldadd32 (field w 16 5) (field w 5 5) (field w 0 5) },
    { pattern := 0xF8200000, mask := 0xFFE0FC00
      fixed := [⟨10, 6, 0b000000⟩, ⟨21, 11, 0b11111000001⟩]
      build := fun w => .ldadd64 (field w 16 5) (field w 5 5) (field w 0 5) },
    { pattern := 0xB8208000, mask := 0xFFE0FC00
      fixed := [⟨10, 6, 0b100000⟩, ⟨21, 11, 0b10111000001⟩]
      build := fun w => .swp32 (field w 16 5) (field w 5 5) (field w 0 5) },
    { pattern := 0xF8208000, mask := 0xFFE0FC00
      fixed := [⟨10, 6, 0b100000⟩, ⟨21, 11, 0b11111000001⟩]
      build := fun w => .swp64 (field w 16 5) (field w 5 5) (field w 0 5) },
    { pattern := 0x88A07C00, mask := 0xFFE0FC00
      fixed := [⟨10, 6, 0b011111⟩, ⟨21, 11, 0b10001000101⟩]
      build := fun w => .cas32 (field w 16 5) (field w 5 5) (field w 0 5) },
    { pattern := 0xC8A07C00, mask := 0xFFE0FC00
      fixed := [⟨10, 6, 0b011111⟩, ⟨21, 11, 0b11001000101⟩]
      build := fun w => .cas64 (field w 16 5) (field w 5 5) (field w 0 5) } ]

/-- Every row of the opcode table (R101). -/
def rows : List Row :=
  branchRows ++ (compareRows ++ (systemRows ++ (singleRows ++ (pair32Rows ++ (pair64Rows ++
    (fpPairRows ++ (exclusiveRows ++ (rcpcRows ++ (ls64Rows ++ atomicRows)))))))))

/-- The instruction a word is, if it matches a row and its operands are ones the row admits (R99, R101). -/
def decodeWord (w : Word32) : Option Instr :=
  match rows.find? fun r => r.accepts w with
  | some r => if (r.build w).wellFormed then some (r.build w) else none
  | none => none

/-- The number whose bytes these are, the first byte in bits 7:0 (20_memory.md rule R82). -/
def leValue : List Byte → Nat
  | [] => 0
  | b :: bs => b.toNat + 256 * leValue bs

/-- The low `n` bytes of a number, bits 7:0 first (R82). -/
def leBytes : Nat → Nat → List Byte
  | 0, _ => []
  | n + 1, v => BitVec.ofNat 8 v :: leBytes n (v / 256)

/-- What the decoder answers on a list of bytes. -/
inductive Decoded
  /-- The instruction that the first four bytes hold, and the bytes after it. -/
  | instr (i : Instr) (rest : List Byte)
  /-- Fewer than four bytes: no instruction (R95, R96). -/
  | tooShort
  /-- The word matches no row of R101 (R103). -/
  | noRow (w : Word32)
deriving DecidableEq, Repr

/-- The decoder reads four bytes, little-endian, and needs no length decision (R96). -/
def decode : List Byte → Decoded
  | b0 :: b1 :: b2 :: b3 :: rest =>
    match decodeWord (BitVec.ofNat 32 (leValue [b0, b1, b2, b3])) with
    | some i => .instr i rest
    | none => .noRow (BitVec.ofNat 32 (leValue [b0, b1, b2, b3]))
  | _ => .tooShort

/-- A word with the fixed bits of `pattern` and the given fields, each with its lowest bit's place. -/
def packWord (pattern : Nat) (fields : List (Nat × Nat)) : Word32 :=
  BitVec.ofNat 32 (fields.foldl (fun acc f => acc + f.2 * 2 ^ f.1) pattern)

/-- The word of an instruction (R97, R101). -/
def encode : Instr → Word32
  | .b imm26 => packWord 0x14000000 [(0, imm26.toNat)]
  | .bl imm26 => packWord 0x94000000 [(0, imm26.toNat)]
  | .bCond imm19 cond => packWord 0x54000000 [(5, imm19.toNat), (0, cond.toNat)]
  | .cbz sf imm19 rt => packWord 0x34000000 [(31, sf.toNat), (5, imm19.toNat), (0, rt.toNat)]
  | .cbnz sf imm19 rt => packWord 0x35000000 [(31, sf.toNat), (5, imm19.toNat), (0, rt.toNat)]
  | .tbz b5 b40 imm14 rt => packWord 0x36000000 [(31, b5.toNat), (19, b40.toNat), (5, imm14.toNat), (0, rt.toNat)]
  | .tbnz b5 b40 imm14 rt => packWord 0x37000000 [(31, b5.toNat), (19, b40.toNat), (5, imm14.toNat), (0, rt.toNat)]
  | .cbReg sf cc rm imm9 rt => packWord 0x74000000 [(31, sf.toNat), (21, cc.toNat), (16, rm.toNat), (5, imm9.toNat), (0, rt.toNat)]
  | .cbImm sf cc imm6 imm9 rt => packWord 0x75000000 [(31, sf.toNat), (21, cc.toNat), (15, imm6.toNat), (5, imm9.toNat), (0, rt.toNat)]
  | .cbb cc rm imm9 rt => packWord 0x74008000 [(21, cc.toNat), (16, rm.toNat), (5, imm9.toNat), (0, rt.toNat)]
  | .cbh cc rm imm9 rt => packWord 0x7400C000 [(21, cc.toNat), (16, rm.toNat), (5, imm9.toNat), (0, rt.toNat)]
  | .brk imm16 => packWord 0xD4200000 [(5, imm16.toNat)]
  | .svc imm16 => packWord 0xD4000001 [(5, imm16.toNat)]
  | .hvc imm16 => packWord 0xD4000002 [(5, imm16.toNat)]
  | .smc imm16 => packWord 0xD4000003 [(5, imm16.toNat)]
  | .nop => packWord 0xD503201F []
  | .trcit rt => packWord 0xD50B72E0 [(0, rt.toNat)]
  | .dcCvau rt => packWord 0xD50B7B20 [(0, rt.toNat)]
  | .icIvau rt => packWord 0xD50B7520 [(0, rt.toNat)]
  | .dcZva rt => packWord 0xD50B7420 [(0, rt.toNat)]
  | .dsbIsh => packWord 0xD5033B9F []
  | .isb crm => packWord 0xD50330DF [(8, crm.toNat)]
  | .strImm32 imm12 rn rt => packWord 0xB9000000 [(10, imm12.toNat), (5, rn.toNat), (0, rt.toNat)]
  | .strImm64 imm12 rn rt => packWord 0xF9000000 [(10, imm12.toNat), (5, rn.toNat), (0, rt.toNat)]
  | .ldrImm32 imm12 rn rt => packWord 0xB9400000 [(10, imm12.toNat), (5, rn.toNat), (0, rt.toNat)]
  | .ldrImm64 imm12 rn rt => packWord 0xF9400000 [(10, imm12.toNat), (5, rn.toNat), (0, rt.toNat)]
  | .ldpPost32 imm7 rt2 rn rt => packWord 0x28C00000 [(15, imm7.toNat), (10, rt2.toNat), (5, rn.toNat), (0, rt.toNat)]
  | .ldpOff32 imm7 rt2 rn rt => packWord 0x29400000 [(15, imm7.toNat), (10, rt2.toNat), (5, rn.toNat), (0, rt.toNat)]
  | .ldpPre32 imm7 rt2 rn rt => packWord 0x29C00000 [(15, imm7.toNat), (10, rt2.toNat), (5, rn.toNat), (0, rt.toNat)]
  | .ldnp32 imm7 rt2 rn rt => packWord 0x28400000 [(15, imm7.toNat), (10, rt2.toNat), (5, rn.toNat), (0, rt.toNat)]
  | .stpPost32 imm7 rt2 rn rt => packWord 0x28800000 [(15, imm7.toNat), (10, rt2.toNat), (5, rn.toNat), (0, rt.toNat)]
  | .stpOff32 imm7 rt2 rn rt => packWord 0x29000000 [(15, imm7.toNat), (10, rt2.toNat), (5, rn.toNat), (0, rt.toNat)]
  | .stpPre32 imm7 rt2 rn rt => packWord 0x29800000 [(15, imm7.toNat), (10, rt2.toNat), (5, rn.toNat), (0, rt.toNat)]
  | .stnp32 imm7 rt2 rn rt => packWord 0x28000000 [(15, imm7.toNat), (10, rt2.toNat), (5, rn.toNat), (0, rt.toNat)]
  | .ldpPost64 imm7 rt2 rn rt => packWord 0xA8C00000 [(15, imm7.toNat), (10, rt2.toNat), (5, rn.toNat), (0, rt.toNat)]
  | .ldpOff64 imm7 rt2 rn rt => packWord 0xA9400000 [(15, imm7.toNat), (10, rt2.toNat), (5, rn.toNat), (0, rt.toNat)]
  | .ldpPre64 imm7 rt2 rn rt => packWord 0xA9C00000 [(15, imm7.toNat), (10, rt2.toNat), (5, rn.toNat), (0, rt.toNat)]
  | .ldnp64 imm7 rt2 rn rt => packWord 0xA8400000 [(15, imm7.toNat), (10, rt2.toNat), (5, rn.toNat), (0, rt.toNat)]
  | .stpPost64 imm7 rt2 rn rt => packWord 0xA8800000 [(15, imm7.toNat), (10, rt2.toNat), (5, rn.toNat), (0, rt.toNat)]
  | .stpOff64 imm7 rt2 rn rt => packWord 0xA9000000 [(15, imm7.toNat), (10, rt2.toNat), (5, rn.toNat), (0, rt.toNat)]
  | .stpPre64 imm7 rt2 rn rt => packWord 0xA9800000 [(15, imm7.toNat), (10, rt2.toNat), (5, rn.toNat), (0, rt.toNat)]
  | .stnp64 imm7 rt2 rn rt => packWord 0xA8000000 [(15, imm7.toNat), (10, rt2.toNat), (5, rn.toNat), (0, rt.toNat)]
  | .ldpFpS imm7 rt2 rn rt => packWord 0x2D400000 [(15, imm7.toNat), (10, rt2.toNat), (5, rn.toNat), (0, rt.toNat)]
  | .stpFpS imm7 rt2 rn rt => packWord 0x2D000000 [(15, imm7.toNat), (10, rt2.toNat), (5, rn.toNat), (0, rt.toNat)]
  | .ldpFpD imm7 rt2 rn rt => packWord 0x6D400000 [(15, imm7.toNat), (10, rt2.toNat), (5, rn.toNat), (0, rt.toNat)]
  | .stpFpD imm7 rt2 rn rt => packWord 0x6D000000 [(15, imm7.toNat), (10, rt2.toNat), (5, rn.toNat), (0, rt.toNat)]
  | .ldpFpQ imm7 rt2 rn rt => packWord 0xAD400000 [(15, imm7.toNat), (10, rt2.toNat), (5, rn.toNat), (0, rt.toNat)]
  | .stpFpQ imm7 rt2 rn rt => packWord 0xAD000000 [(15, imm7.toNat), (10, rt2.toNat), (5, rn.toNat), (0, rt.toNat)]
  | .ldxp32 rt2 rn rt => packWord 0x887F0000 [(10, rt2.toNat), (5, rn.toNat), (0, rt.toNat)]
  | .stxp32 rs rt2 rn rt => packWord 0x88200000 [(16, rs.toNat), (10, rt2.toNat), (5, rn.toNat), (0, rt.toNat)]
  | .ldaxp32 rt2 rn rt => packWord 0x887F8000 [(10, rt2.toNat), (5, rn.toNat), (0, rt.toNat)]
  | .stlxp32 rs rt2 rn rt => packWord 0x88208000 [(16, rs.toNat), (10, rt2.toNat), (5, rn.toNat), (0, rt.toNat)]
  | .ldxp64 rt2 rn rt => packWord 0xC87F0000 [(10, rt2.toNat), (5, rn.toNat), (0, rt.toNat)]
  | .stxp64 rs rt2 rn rt => packWord 0xC8200000 [(16, rs.toNat), (10, rt2.toNat), (5, rn.toNat), (0, rt.toNat)]
  | .ldaxp64 rt2 rn rt => packWord 0xC87F8000 [(10, rt2.toNat), (5, rn.toNat), (0, rt.toNat)]
  | .stlxp64 rs rt2 rn rt => packWord 0xC8208000 [(16, rs.toNat), (10, rt2.toNat), (5, rn.toNat), (0, rt.toNat)]
  | .ldapr32 rn rt => packWord 0xB8BFC000 [(5, rn.toNat), (0, rt.toNat)]
  | .ldapr64 rn rt => packWord 0xF8BFC000 [(5, rn.toNat), (0, rt.toNat)]
  | .ldaprh rn rt => packWord 0x78BFC000 [(5, rn.toNat), (0, rt.toNat)]
  | .ldaprb rn rt => packWord 0x38BFC000 [(5, rn.toNat), (0, rt.toNat)]
  | .ld64b rn rt => packWord 0xF83FD000 [(5, rn.toNat), (0, rt.toNat)]
  | .st64b rn rt => packWord 0xF83F9000 [(5, rn.toNat), (0, rt.toNat)]
  | .st64bv rs rn rt => packWord 0xF820B000 [(16, rs.toNat), (5, rn.toNat), (0, rt.toNat)]
  | .st64bv0 rs rn rt => packWord 0xF820A000 [(16, rs.toNat), (5, rn.toNat), (0, rt.toNat)]
  | .ldadd32 rs rn rt => packWord 0xB8200000 [(16, rs.toNat), (5, rn.toNat), (0, rt.toNat)]
  | .ldadd64 rs rn rt => packWord 0xF8200000 [(16, rs.toNat), (5, rn.toNat), (0, rt.toNat)]
  | .swp32 rs rn rt => packWord 0xB8208000 [(16, rs.toNat), (5, rn.toNat), (0, rt.toNat)]
  | .swp64 rs rn rt => packWord 0xF8208000 [(16, rs.toNat), (5, rn.toNat), (0, rt.toNat)]
  | .cas32 rs rn rt => packWord 0x88A07C00 [(16, rs.toNat), (5, rn.toNat), (0, rt.toNat)]
  | .cas64 rs rn rt => packWord 0xC8A07C00 [(16, rs.toNat), (5, rn.toNat), (0, rt.toNat)]

/-- The bytes of an instruction, the lowest address first (R82, R95). -/
def encodeBytes (i : Instr) : List Byte := leBytes 4 (encode i).toNat

/-- The instruction is one of the list of 20_memory.md rule R73. -/
def Instr.inCmodxList : Instr → Bool
  | .b _ => true
  | .bl _ => true
  | .bCond _ _ => true
  | .cbz _ _ _ => true
  | .cbnz _ _ _ => true
  | .tbz _ _ _ _ => true
  | .tbnz _ _ _ _ => true
  | .cbReg _ _ _ _ _ => true
  | .cbImm _ _ _ _ _ => true
  | .cbb _ _ _ _ => true
  | .cbh _ _ _ _ => true
  | .brk _ => true
  | .svc _ => true
  | .hvc _ => true
  | .smc _ => true
  | .nop => true
  | .trcit _ => true
  | .dcCvau _ => false
  | .icIvau _ => false
  | .dcZva _ => false
  | .dsbIsh => false
  | .isb _ => true
  | .strImm32 _ _ _ => false
  | .strImm64 _ _ _ => false
  | .ldrImm32 _ _ _ => false
  | .ldrImm64 _ _ _ => false
  | .ldpPost32 _ _ _ _ => false
  | .ldpOff32 _ _ _ _ => false
  | .ldpPre32 _ _ _ _ => false
  | .ldnp32 _ _ _ _ => false
  | .stpPost32 _ _ _ _ => false
  | .stpOff32 _ _ _ _ => false
  | .stpPre32 _ _ _ _ => false
  | .stnp32 _ _ _ _ => false
  | .ldpPost64 _ _ _ _ => false
  | .ldpOff64 _ _ _ _ => false
  | .ldpPre64 _ _ _ _ => false
  | .ldnp64 _ _ _ _ => false
  | .stpPost64 _ _ _ _ => false
  | .stpOff64 _ _ _ _ => false
  | .stpPre64 _ _ _ _ => false
  | .stnp64 _ _ _ _ => false
  | .ldpFpS _ _ _ _ => false
  | .stpFpS _ _ _ _ => false
  | .ldpFpD _ _ _ _ => false
  | .stpFpD _ _ _ _ => false
  | .ldpFpQ _ _ _ _ => false
  | .stpFpQ _ _ _ _ => false
  | .ldxp32 _ _ _ => false
  | .stxp32 _ _ _ _ => false
  | .ldaxp32 _ _ _ => false
  | .stlxp32 _ _ _ _ => false
  | .ldxp64 _ _ _ => false
  | .stxp64 _ _ _ _ => false
  | .ldaxp64 _ _ _ => false
  | .stlxp64 _ _ _ _ => false
  | .ldapr32 _ _ => false
  | .ldapr64 _ _ => false
  | .ldaprh _ _ => false
  | .ldaprb _ _ => false
  | .ld64b _ _ => false
  | .st64b _ _ => false
  | .st64bv _ _ _ => false
  | .st64bv0 _ _ _ => false
  | .ldadd32 _ _ _ => false
  | .ldadd64 _ _ _ => false
  | .swp32 _ _ _ => false
  | .swp64 _ _ _ => false
  | .cas32 _ _ _ => false
  | .cas64 _ _ _ => false

/-- `cmodx_safe(w)`: the word decodes to an instruction of that list (R99); an unallocated condition of `CB<cc>` does not
decode and so is not safe. -/
def cmodxSafe (w : Word32) : Bool :=
  match decodeWord w with
  | some i => i.inCmodxList
  | none => false

/-- The instruction the decoder reads from the `nbits` bits `w`, laid out as the memory holds them; the bits above
`nbits` are 0 (the host's question about one row of the opcode table). -/
def decodeTableWord (nbits w : Nat) : Option Instr :=
  match decode (leBytes 4 (w % 2 ^ nbits)) with
  | .instr i _ => some i
  | _ => none

end Sys2Proof
end

