-- ==== Sys2Proof/Machine/Assoc.lean ====
section
/-! DEFINITION. Lists of (key, value) pairs with rising keys, and memory as such a list (10_state.md rule R20). -/

namespace Sys2Proof.Machine

/-- The value of a key. -/
def assocFind {α : Type} : List (Nat × α) → Nat → Option α
  | [], _ => none
  | e :: l, k => if e.1 = k then some e.2 else assocFind l k

/-- The list with the key's value set, the keys still rising. -/
def assocInsert {α : Type} : List (Nat × α) → Nat → α → List (Nat × α)
  | [], k, v => [(k, v)]
  | e :: l, k, v =>
    if k < e.1 then (k, v) :: e :: l
    else if k = e.1 then (k, v) :: l
    else e :: assocInsert l k v

/-- The list without the key. -/
def assocErase {α : Type} (l : List (Nat × α)) (k : Nat) : List (Nat × α) := l.filter fun e => e.1 != k

/-- The keys rise strictly, all above a bound. -/
def assocAbove {α : Type} (k : Nat) : List (Nat × α) → Bool
  | [] => true
  | e :: l => decide (k < e.1) && assocAbove e.1 l

/-- The keys rise strictly: the list has one form for one content. -/
def assocRising {α : Type} : List (Nat × α) → Bool
  | [] => true
  | e :: l => assocAbove e.1 l

/-- The byte at an address; none where nothing has given it a value (log 2). -/
def Memory.read (m : Memory) (a : Nat) : Option Byte := assocFind m a

/-- The memory with one byte set. -/
def Memory.write (m : Memory) (a : Nat) (b : Byte) : Memory := assocInsert m a b

/-- The memory with the bytes set, the first at `a`. -/
def Memory.writeAll (m : Memory) (a : Nat) : List Byte → Memory
  | [] => m
  | b :: bs => Memory.writeAll (m.write a b) (a + 1) bs

/-- The canonical form: addresses rise strictly. An unlisted byte holds no value, so no entry equals what an unlisted
address reads as. -/
def Memory.wf (m : Memory) : Bool := assocRising m

end Sys2Proof.Machine
end

