-- ==== Sys2Proof/Machine/Operands.lean ====
section
/-! DEFINITION. Registers as operands (10_state.md rules R13, R18) and the immediates and addresses of the instruction
formats (30_encoding.md rule R100). -/

namespace Sys2Proof.Machine

/-- `x[i]` of a data register: number 31 is the zero register (R13). -/
def PE.readX (p : PE) (r : Reg) : Word64 := if h : r.toNat < 31 then p.x[r.toNat] else 0

/-- `w[i]`: the low 32 bits (R13). -/
def PE.readW (p : PE) (r : Reg) : Word32 := (p.readX r).setWidth 32

/-- `x[i] <- v` of a data register: a write to number 31 is discarded (R13). -/
def PE.writeX (p : PE) (r : Reg) (v : Word64) : PE :=
  if h : r.toNat < 31 then { p with x := p.x.set r.toNat v h } else p

/-- `x[n]` of a base register: number 31 is the stack pointer (R13). -/
def PE.readBase (p : PE) (r : Reg) : Word64 := if r.toNat < 31 then p.readX r else p.sp

/-- `x[n] <- v` of a base register (R13). -/
def PE.writeBase (p : PE) (r : Reg) (v : Word64) : PE := if r.toNat < 31 then p.writeX r v else { p with sp := v }

/-- `V[i]` (R18). -/
def PE.readV (p : PE) (r : Reg) : Word128 := p.v[r.toNat]'r.isLt

/-- `V[i] <- v` (R18). -/
def PE.writeV (p : PE) (r : Reg) (v : Word128) : PE := { p with v := p.v.set r.toNat v r.isLt }

/-- The low `size` bytes of a data register, as an unsigned value. -/
def PE.regValue (p : PE) (r : Reg) (size : Nat) : Nat := (p.readX r).toNat % 2 ^ (8 * size)

/-- The low `size` bytes of a SIMD and floating-point register, as an unsigned value. -/
def PE.fpValue (p : PE) (r : Reg) (size : Nat) : Nat := (p.readV r).toNat % 2 ^ (8 * size)

/-- The PE whose step is being taken. -/
def State.pe (s : State) : PE := s.pes.getD s.cur (PE.start s.cfg s.cur)

/-- The state with that PE replaced. -/
def State.setPe (s : State) (p : PE) : State := { s with pes := s.pes.set s.cur p }

/-- The PE whose step is being taken exists. -/
def State.curOk (s : State) : Bool := decide (s.cur < s.pes.length)

/-- The signed byte offset of a branch: the field with two zero bits below it, extended to 64 bits (R100). -/
def branchOffset {n : Nat} (imm : BitVec n) : Word64 := (imm ++ 0#2).signExtend 64

/-- The target of a branch, modulo 2^64 (R100, 00_scope.md section 5.1). -/
def branchTarget (pc offset : Word64) : Word64 := pc + offset

/-- The target lies outside 0 to 2^64 - 1 before it is taken modulo 2^64 (R141). -/
def branchWraps (pc offset : Word64) : Bool :=
  decide ((pc.toNat : Int) + offset.toInt < 0) || decide ((addrSpace : Int) ≤ (pc.toNat : Int) + offset.toInt)

/-- The unsigned byte offset of format `LSUI`: `zext_64(imm12) * size` (R100). -/
def unsignedOffset (imm12 : BitVec 12) (size : Nat) : Nat := imm12.toNat * size

/-- The signed byte offset of format `LSPAIR`: `sext_64(imm7) * size` (R100). -/
def pairOffset (imm7 : BitVec 7) (size : Nat) : Word64 := imm7.signExtend 64 * BitVec.ofNat 64 size

/-- The address of a load with an unsigned offset, modulo 2^64 (R111; log 13). -/
def loadAddress (base : Word64) (imm12 : BitVec 12) (size : Nat) : Nat :=
  (base.toNat + unsignedOffset imm12 size) % addrSpace

/-- The address of a store with an unsigned offset, not reduced: R110 refuses one past 2^64. -/
def storeAddress (base : Word64) (imm12 : BitVec 12) (size : Nat) : Nat := base.toNat + unsignedOffset imm12 size

/-- The three indexing modes of a pair (R97, format `LSPAIR`; `mode` 000 and 010 compute the same address). -/
inductive Indexing
  | offset | post | pre
deriving DecidableEq, Repr

/-- The address a pair accesses (R112, R114). -/
def Indexing.address (m : Indexing) (base off : Word64) : Nat :=
  match m with
  | .offset => (base + off).toNat
  | .post => base.toNat
  | .pre => (base + off).toNat

/-- What the base register becomes (R112, R114). -/
def Indexing.writeback (m : Indexing) (rn : Reg) (base off : Word64) : Option (Reg × Word64) :=
  match m with
  | .offset => none
  | .post => some (rn, base + off)
  | .pre => some (rn, base + off)

/-- The base that is written back is also a data register, and is not SP (R112, R114). -/
def Indexing.overlaps (m : Indexing) (rn rt rt2 : Reg) : Bool :=
  match m with
  | .offset => false
  | .post => (rn == rt || rn == rt2) && rn != 31
  | .pre => (rn == rt || rn == rt2) && rn != 31

end Sys2Proof.Machine
end

