-- ==== Sys2Proof/Machine/Draws.lean ====
section
/-! DEFINITION. How an operation continues another, and how it takes a choice that the spec leaves to the environment
(92_eei_decisions.md D12, D13; 93_implementation_defined.md, treatment `any value`; log 4). -/

namespace Sys2Proof.Machine

/-- Go on with the value, or stop as the operation stopped. -/
def andThen {α β : Type} (r : Res α) (f : α → Res β) : Res β :=
  match r with
  | .next a => f a
  | .fault x => .fault x
  | .refused x => .refused x

/-- The next choice: the next pending one, or else a free one. -/
def State.draw (s : State) : Nat × State :=
  match s.pending with
  | d :: ds => (d, { s with pending := ds })
  | [] => (Config.freeDraw s.drawCount, { s with drawCount := s.drawCount + 1 })

/-- A choice below `n`; where there is only one, none is taken. -/
def State.drawBelow (s : State) (n : Nat) : Nat × State := if n ≤ 1 then (0, s) else (s.draw.1 % n, s.draw.2)

/-- The next move of the schedule, which then is no longer fixed (R228; log 5). -/
def State.takeTurn (s : State) : Move × State :=
  match s.turn with
  | some m => (m, { s with turn := none })
  | none => (Config.freeMove s.drawCount, { s with drawCount := s.drawCount + 1 })

end Sys2Proof.Machine
end

