-- ==== Sys2Proof/Machine/Fetch.lean ====
section
/-! DEFINITION. The model of instruction fetch: candidates, stages and the steps of 20_memory.md rule R81, with the
maintenance and barrier effects of 42_cache_barrier.md rules R170, R171, R173, R174. -/

namespace Sys2Proof.Machine

/-- The address of the 4-byte aligned word that holds a byte. -/
def wordAddr (a : Nat) : Nat := a / 4 * 4

/-- The values of a list of bytes, if every byte has one. -/
def allBytes : List (Option Byte) → Option (List Byte)
  | [] => some []
  | none :: _ => none
  | some b :: l =>
    match allBytes l with
    | some bs => some (b :: bs)
    | none => none

/-- The four bytes of the word at `a`. -/
def wordBytes (m : Memory) (a : Nat) : List (Option Byte) := (byteAddrs a 4).map m.read

/-- The word that four bytes hold, little-endian (R82); none if one of them holds no value. -/
def wordOfBytes (l : List (Option Byte)) : Option Word32 := (allBytes l).map fun bs => BitVec.ofNat 32 (leValue bs)

/-- The word in memory at `a`. -/
def memWord (m : Memory) (a : Nat) : Option Word32 := wordOfBytes (wordBytes m a)

/-- `cand(q, a)` (R81): a word nobody has written since the PE synchronized has one candidate, the word in memory. -/
def PE.candidates (p : PE) (m : Memory) (a : Nat) : List (Option Word32) :=
  match assocFind p.cand a with
  | some l => l
  | none => [memWord m a]

/-- A set of candidates with one more. -/
def addCandidate (l : List (Option Word32)) (w : Option Word32) : List (Option Word32) :=
  if l.contains w then l else l ++ [w]

/-- `sync(a)` (R81). -/
def State.syncOf (s : State) (a : Nat) : SyncStage :=
  match assocFind s.sync a with
  | some e => e.stage
  | none => .observable

/-- The word at `a` as a write of `bytes` over the memory `m` gives it. -/
def overlayWord (m : Memory) (bytes : List (Nat × Byte)) (a : Nat) : List (Option Byte) :=
  (byteAddrs a 4).map fun b =>
    match assocFind bytes b with
    | some v => some v
    | none => m.read b

/-- Step (1) of R81 for the word at `a`: if the unit changes a byte of it, every PE may from now on fetch the new word as
well, and the word is `written` by the agent. `old` is memory before the unit (log 27). -/
def State.noteWord (s : State) (agent : Agent) (old : Memory) (bytes : List (Nat × Byte)) (a : Nat) : State :=
  if overlayWord old bytes a = wordBytes old a then s
  else
    { s with
      pes := s.pes.map fun p =>
        { p with
          cand := assocInsert p.cand a
            (addCandidate (addCandidate (p.candidates old a) (wordOfBytes (overlayWord old bytes a))) (memWord s.mem a)) }
      sync := assocInsert s.sync a { stage := .written, writer := agent } }

/-- The words a unit touches. -/
def wordsOf (u : MUnit) : List Nat :=
  if u.size = 0 then []
  else (List.range ((u.addr + u.size - 1) / 4 - u.addr / 4 + 1)).map fun i => wordAddr u.addr + 4 * i

/-- Step (1) of R81 for a unit. -/
def State.noteWrite (s : State) (agent : Agent) (old : Memory) (u : MUnit) (bytes : List (Nat × Byte)) : State :=
  (wordsOf u).foldl (fun s a => s.noteWord agent old bytes a) s

/-- The word moves from one stage to another if it is in the first and this PE wrote it. -/
def State.moveStage (s : State) (a : Nat) (src dst : SyncStage) : State :=
  match assocFind s.sync a with
  | some e =>
    if e.stage = src ∧ e.writer = .pe s.cur then
      { s with sync := assocInsert s.sync a { stage := dst, writer := e.writer } }
    else s
  | none => s

/-- Step (2) of R81: `DC CVAU` (R170). -/
def State.cleanWord (s : State) (va : Word64) : State := s.moveStage (wordAddr va.toNat) .written .cleaned

/-- Step (4) of R81: `IC IVAU` (R171). -/
def State.invalidateWord (s : State) (va : Word64) : State := s.moveStage (wordAddr va.toNat) .cleanDone .invalidated

/-- The word needs no `DC CVAU`: every byte is Non-cacheable or Write-Through (R77). -/
def needsNoClean (cfg : Config) (a : Nat) : Bool := everyByte (byteHas cfg MemAttr.needsNoClean) a 4

/-- The stage one `DSB ISH` of the writer moves a word to (R173). -/
def dsbStage (cfg : Config) (a : Nat) : SyncStage → SyncStage
  | .written => if needsNoClean cfg a then .cleanDone else .written
  | .cleaned => .cleanDone
  | .cleanDone => .cleanDone
  | .invalidated => .observable
  | .observable => .observable

/-- Step (3) of R81: `DSB ISH` moves every word this PE wrote (R173). -/
def State.dsbIsh (s : State) : State :=
  { s with
    sync := s.sync.map fun e =>
      if e.2.writer = .pe s.cur then (e.1, { e.2 with stage := dsbStage s.cfg e.1 e.2.stage }) else e }

/-- Step (5) of R81: a context synchronization event of this PE leaves one candidate, the word in memory, for every word
that is observable (R174, R175). -/
def State.contextSync (s : State) : State :=
  s.setPe { s.pe with cand := s.pe.cand.filter fun e => s.syncOf e.1 != .observable }

/-- A candidate may be executed while the word is modified (R73, R81 (6)). -/
def candidateSafe : Option Word32 → Bool
  | some w => cmodxSafe w
  | none => false

/-- The candidate is executed; a word with a byte nothing has written is not (log 28). -/
def deliver (addr : Nat) (c : Option Word32) (s : State) : Res (Word32 × State) :=
  match c with
  | some w => .next (w, s)
  | none => .fault (.unwrittenRead addr)

/-- Step (6) of R81: the word the PE fetches at its `pc` (R14, R83, R84). That a fetch, an implicit access of the PE (R10 (d))
which R62 gives no unit, records no effect in the history of R23 is the model's choice (DESIGN CHOICE; log 41). -/
def State.fetch (s : State) : Res (Word32 × State) :=
  if s.pe.pc.toNat % 4 ≠ 0 then .refused (.pcMisaligned s.pe.pc.toNat)
  else
    match (byteAddrs s.pe.pc.toNat 4).find? fun b => !inMemMap s.cfg b with
    | some b => .fault (.outsideMemMap b)
    | none =>
      match s.pe.candidates s.mem s.pe.pc.toNat with
      | [c] => deliver s.pe.pc.toNat c s
      | cs =>
        if cs.all candidateSafe then
          deliver s.pe.pc.toNat (cs.getD (s.drawBelow cs.length).1 none) (s.drawBelow cs.length).2
        else .fault (.cmodxUnpredictable s.cur s.pe.pc.toNat)

end Sys2Proof.Machine
end

