-- ==== Sys2Proof/Machine/Effects.lean ====
section
/-! DEFINITION. Memory effects: the oracle that answers a read unit, the place a write unit takes in the coherence order
of each byte, and the read and write of an atomic instruction (20_memory.md rules R30, R63 to R66, R86;
92_eei_decisions.md D12; 43_atomics.md rule R180; 40_loads_stores.md rule R121). A choice the rules do not admit is
replaced by the one of the simulator of R86: the latest write, the end of the order (log 10, 11). -/

namespace Sys2Proof.Machine

/-- The addresses of a unit's bytes. -/
def MUnit.bytes (u : MUnit) : List Nat := byteAddrs u.addr u.size

/-- The coherence order of a byte: one nobody has written holds the initial value only (R24, R65 (a)). -/
def State.orderAt (s : State) (a : Nat) : ByteOrder :=
  match assocFind s.coh a with
  | some o => o
  | none => { init := s.mem.read a, writes := [] }

/-- The value at a place of the order: place 0 is the initial value, place `k + 1` the write with `k` writes before it. -/
def ByteOrder.valueAt (o : ByteOrder) : Nat → Option Byte
  | 0 => o.init
  | k + 1 => o.writes[k]?.map (·.value)

/-- The write at a place of the order. -/
def ByteOrder.sourceAt (o : ByteOrder) : Nat → Source
  | 0 => .initial
  | k + 1 =>
    match o.writes[k]? with
    | some w => .unit w.unit
    | none => .initial

/-- The place of the coherence-last write. -/
def ByteOrder.lastPlace (o : ByteOrder) : Nat := o.writes.length

/-- The units of the writes after the first `k`. -/
def ByteOrder.unitsFrom (o : ByteOrder) (k : Nat) : List Nat := (o.writes.drop k).map (·.unit)

/-- The units of the first `k` writes. -/
def ByteOrder.unitsUpTo (o : ByteOrder) (k : Nat) : List Nat := (o.writes.take k).map (·.unit)

/-- The place of a source in the order, if it is there. -/
def ByteOrder.placeOf (o : ByteOrder) (src : Source) : Option Nat :=
  match src with
  | .initial => some 0
  | .unit u => (o.writes.findIdx? fun w => w.unit == u).map (· + 1)

/-- The order with one more write, after the first `k`. -/
def ByteOrder.insertAt (o : ByteOrder) (k : Nat) (w : CohWrite) : ByteOrder :=
  { o with writes := o.writes.take k ++ w :: o.writes.drop k }

/-- A byte, its coherence order, and a place in it: the write a read takes its data from, or the writes a new write comes
after. -/
structure Pick where
  addr : Nat
  order : ByteOrder
  place : Nat
deriving DecidableEq, Repr

/-- The value a read of the byte returns. -/
def Pick.got (p : Pick) : Option GotByte :=
  (p.order.valueAt p.place).map fun v => { addr := p.addr, value := v, source := p.order.sourceAt p.place }

/-- The choice of the simulator: the end of the order. -/
def latestPick (s : State) (a : Nat) : Pick := { addr := a, order := s.orderAt a, place := (s.orderAt a).lastPlace }

/-- A place for every byte, each drawn among all places of its order; a draw of 0 is the end of the order. -/
def drawPicks : List Nat → State → List Pick × State
  | [], s => ([], s)
  | a :: as, s =>
    match s.drawBelow ((s.orderAt a).lastPlace + 1) with
    | (d, s₁) =>
      match drawPicks as s₁ with
      | (ps, s₂) => ({ addr := a, order := s.orderAt a, place := (s.orderAt a).lastPlace - d } :: ps, s₂)

/-- The bytes read, if each has a value. -/
def gotAll : List Pick → Option (List GotByte)
  | [] => some []
  | p :: ps =>
    match p.got, gotAll ps with
    | some g, some gs => some (g :: gs)
    | _, _ => none

/-- R64 for a read unit: no unit it reads from has a later write on another byte of it. -/
def readAdmitted (ps : List Pick) : Bool :=
  ps.all fun p =>
    match p.order.sourceAt p.place with
    | .initial => true
    | .unit u => ps.all fun q => !(q.order.unitsFrom q.place).contains u

/-- The write that would come right after the new one does not have to succeed its predecessor (R180, R121 (b)). -/
def Pick.splitsNothing (p : Pick) : Bool :=
  match p.order.writes[p.place]? with
  | some w => w.follows.isNone
  | none => true

/-- R63 for a write unit, and the successions of R180 and R121 (b): no unit is before the new one on one byte and after it
on another, and no write that must succeed its predecessor is parted from it. -/
def placementAdmitted (ps : List Pick) : Bool :=
  ps.all Pick.splitsNothing &&
    ps.all fun p => (p.order.unitsUpTo p.place).all fun u => ps.all fun q => !(q.order.unitsFrom q.place).contains u

/-- The bytes a list of read bytes holds, as memory effects. -/
def readEffects (agent : Agent) (inst unit : Nat) (l : List GotByte) : List Effect :=
  l.map fun g => { agent := agent, inst := inst, kind := .read g.source, addr := g.addr, value := g.value, unit := unit }

/-- The bytes of a write unit, as memory effects. -/
def writeEffects (agent : Agent) (inst unit : Nat) (l : List (Nat × Byte)) : List Effect :=
  l.map fun e => { agent := agent, inst := inst, kind := .write, addr := e.1, value := e.2, unit := unit }

/-- A read unit is recorded in the history (R23). -/
def State.recordRead (s : State) (agent : Agent) (inst : Nat) (l : List GotByte) : State :=
  { s with history := s.history ++ readEffects agent inst s.nextUnit l, nextUnit := s.nextUnit + 1 }

/-- Places for the bytes of a unit: the drawn ones if the rules admit them, else the end of every order. -/
def choosePicks (admitted : List Pick → Bool) (s : State) (u : MUnit) : List Pick × State :=
  match drawPicks u.bytes s with
  | (ps, s₁) => (if admitted ps then ps else u.bytes.map (latestPick s), s₁)

/-- A read unit of `agent`: each byte from any write of the history or the initial value, within R64 (R65, R86; log 10).
`admitted` says which choices stand; it asks for R64 at least. -/
def readUnit (admitted : List Pick → Bool) (agent : Agent) (inst : Nat) (u : MUnit) (s : State) :
    Res (List GotByte × State) :=
  match choosePicks admitted s u with
  | (ps, s₁) =>
    match gotAll ps with
    | some l => .next (l, s₁.recordRead agent inst l)
    | none => .fault (.unwrittenRead u.addr)

/-- The order of a byte with the new write at its place. -/
def Pick.placed (p : Pick) (unit : Nat) (v : Byte) (adjacent : Bool) : ByteOrder :=
  p.order.insertAt p.place
    { unit := unit, value := v, follows := if adjacent then some (p.order.sourceAt p.place) else none }

/-- The coherence orders with the new write of every byte in its place. -/
def placeAll (unit : Nat) (adjacent : Bool) :
    List Pick → List Byte → List (Nat × ByteOrder) → List (Nat × ByteOrder)
  | p :: ps, v :: vs, coh => placeAll unit adjacent ps vs (assocInsert coh p.addr (p.placed unit v adjacent))
  | _, _, coh => coh

/-- Memory after the new write of every byte: the coherence-last value (log 11). -/
def storeAll : List Pick → List Byte → Memory → Memory
  | p :: ps, v :: vs, m =>
    if p.place = p.order.lastPlace then storeAll ps vs (m.write p.addr v) else storeAll ps vs m
  | _, _, m => m

/-- The bytes of a write unit with their addresses. -/
def addressed (ps : List Pick) (data : List Byte) : List (Nat × Byte) := (ps.map (·.addr)).zip data

/-- A write unit with its places: the orders, memory, the history and the fetch model all move at once (R23, R63, R81). -/
def State.placeWrite (s : State) (agent : Agent) (inst : Nat) (u : MUnit) (ps : List Pick) (data : List Byte)
    (adjacent : Bool) : State :=
  { s with
    coh := placeAll s.nextUnit adjacent ps data s.coh
    mem := storeAll ps data s.mem
    history := s.history ++ writeEffects agent inst s.nextUnit (addressed ps data)
    nextUnit := s.nextUnit + 1 }.noteWrite agent s.mem u (addressed ps data)

/-- A write unit of `agent` (R63, R65, R86). -/
def writeUnit (agent : Agent) (inst : Nat) (u : MUnit) (data : List Byte) (s : State) : State :=
  match choosePicks placementAdmitted s u with
  | (ps, s₁) => s₁.placeWrite agent inst u ps data false

/-- The value that `n` read bytes hold, the lowest address first (R82). -/
def gotValue (l : List GotByte) : Nat := leValue (l.map (·.value))

/-- What an atomic instruction writes over the old value, none where it does not write (R193 to R195). -/
def AtomicOp.apply (op : AtomicOp) (n old : Nat) : Option Nat :=
  match op with
  | .add v => some ((old + v) % 2 ^ (8 * n))
  | .swap v => some v
  | .compareSwap cmp new => if old = cmp then some new else none

/-- The places an atomic instruction may read from: those R64 admits and, if it will write, those that its write can come
right after on every byte (R180); a place that cannot be followed now never can be. -/
def rmwAdmitted (op : AtomicOp) (n : Nat) (ps : List Pick) : Bool :=
  readAdmitted ps &&
    match gotAll ps with
    | some l => (op.apply n (gotValue l)).isNone || placementAdmitted ps
    | none => true

/-- For each byte the place right after the write that was read there, if that write is still in the order. -/
def successorPicks (s : State) (reads : List GotByte) : List Nat → Option (List Pick)
  | [] => some []
  | a :: as =>
    match reads.find? fun g => g.addr == a with
    | some g =>
      match (s.orderAt a).placeOf g.source, successorPicks s reads as with
      | some k, some ps => some ({ addr := a, order := s.orderAt a, place := k } :: ps)
      | _, _ => none
    | none => none

/-- The places of a write that must be the immediate successor of what was read on every byte, if the orders still admit
it there (R63, R180, R121 (b)). -/
def successorPlaces (s : State) (reads : List GotByte) (addr size : Nat) : Option (List Pick) :=
  match successorPicks s reads (byteAddrs addr size) with
  | some ps => if placementAdmitted ps then some ps else none
  | none => none

/-- The places of a Store-Exclusive pair that may succeed: the last exclusive instruction of this PE was a Load-Exclusive
pair of the same address and size (R121 (a)), and its write can be the immediate successor of the write that was read,
on every byte (R121 (b)). -/
def exclusivePlaces (s : State) (addr size : Nat) : Option (List Pick) :=
  match s.pe.excl with
  | some e => if e.addr = addr ∧ e.size = size then successorPlaces s e.reads addr size else none
  | none => none

end Sys2Proof.Machine
end

