-- ==== Sys2Proof/Machine/Ops.lean ====
section
/-! DEFINITION. The operations the meanings share: taking an exception and coming back from an interruption
(60_exceptions.md), ending an instruction, and an access performed as units (20_memory.md rules R56, R62;
40_loads_stores.md; 43_atomics.md rule R191; 70_reset_and_hazards.md rule R228). -/

namespace Sys2Proof.Machine

/-! ### Exceptions -/

/-- The exception class of a Data Abort taken to `target` by code at `el` (10_state.md rule R17). It is the value that R17
states; no step writes it (R204; log 8). -/
def dataAbortClass (el target : EL) : BitVec 6 := if target = el then 0b100101 else 0b100100

/-- `ESR_ELx.DFSC <- dfsc`: bits 5:0; every other bit stays (R17, R204, R205; log 8). -/
def withDfsc (esr : Word64) (dfsc : BitVec 6) : Word64 := (esr.extractLsb' 6 58 ++ dfsc).setWidth 64

/-- `ESR_ELx <- v` for the level an exception is taken to; none is taken to EL0 (R16, R214). -/
def PE.setEsr (p : PE) (target : EL) (v : Word64) : PE :=
  match target with
  | .el0 => p
  | .el1 => { p with esrEl1 := v }
  | .el2 => { p with esrEl2 := v }
  | .el3 => { p with esrEl3 := v }

/-- `ESR_ELx` (R16). -/
def PE.esr (p : PE) (target : EL) : Word64 :=
  match target with
  | .el0 => 0
  | .el1 => p.esrEl1
  | .el2 => p.esrEl2
  | .el3 => p.esrEl3

/-- `ESR_ELx.DFSC`: bits 5:0 (R17). -/
def dfscOf (v : Word64) : BitVec 6 := v.extractLsb' 0 6

/-- `ESR_ELx.EC`: bits 31:26 (R17). -/
def ecOf (v : Word64) : BitVec 6 := v.extractLsb' 26 6

/-- The run of this PE ends with the outcome: it takes no further step (60_exceptions.md rule R208,
92_eei_decisions.md D18). -/
def State.endRun (o : PeOutcome) (s : State) : State :=
  s.setPe { s.pe with run := .ended o, phase := .atStart }

/-- Taking an exception: a Data Abort reports its code in `DFSC` of the `ESR_ELx` of the level it is taken to and writes no
other register (R203 to R205); every exception ends the run of the PE with its outcome, and no handler runs (R200, R208;
log 7). -/
def State.takeException (o : PeOutcome) (s : State) : State :=
  match o with
  | .dataAbort dfsc _ _ target => (s.setPe (s.pe.setEsr target (withDfsc (s.pe.esr target) dfsc))).endRun o
  | _ => s.endRun o

/-- The one trace of exception return: an interrupted instruction is executed again from its start (R56, R206, R209;
log 19). -/
def State.returnToInterrupted (s : State) (i : Instr) : State := s.setPe { s.pe with phase := .restart i }

/-- Where the MMU fault of an unsupported atomic instruction is taken: the stage and the level (R205). With the second
stage enabled the cause is a free choice, because translation is not modelled. -/
def State.abortRouting (s : State) : (AbortStage × EL) × State :=
  match s.cfg.el with
  | .el2 => ((.first, .el2), s)
  | .el3 => ((.first, .el3), s)
  | _ =>
    if s.cfg.stage2Enabled then
      match s.drawBelow 2 with
      | (0, s₁) => ((.first, .el1), s₁)
      | (_, s₁) => ((.second, .el2), s₁)
    else ((.first, .el1), s)

/-- The fault status code of the IMPLEMENTATION DEFINED MMU fault (R203). -/
def mmuFaultDfsc : BitVec 6 := 0b110101

/-- The IMPLEMENTATION DEFINED MMU fault at an address (R203, R205). -/
def State.takeMmuFault (s : State) (addr : Nat) : State :=
  match s.abortRouting with
  | ((stage, target), s₁) => s₁.takeException (.dataAbort mmuFaultDfsc addr stage target)

/-! ### The end of an instruction -/

/-- An instruction that does not branch ends with `pc <- pc + 4` (R14). -/
def State.endInstr (s : State) : Res State :=
  if s.pe.pc.toNat + 4 < addrSpace then .next (s.setPe { s.pe with pc := s.pe.pc + 4, phase := .atStart })
  else .refused (.pcWrap s.pe.pc.toNat)

/-- A branch that is taken ends with `pc <- target`. -/
def State.jump (s : State) (target : Word64) : Res State :=
  .next (s.setPe { s.pe with pc := target, phase := .atStart })

/-- A conditional branch (R143 to R151). -/
def State.branchIf (s : State) (taken : Bool) (offset : Word64) : Res State :=
  if taken then s.jump (branchTarget s.pe.pc offset) else s.endInstr

/-- An instruction of low confidence: R98 has a model refuse it; under the alternative policy it is executed (log 14). -/
def State.lowConfidence (s : State) (mnemonic : String) (meaning : Res State) : Res State :=
  match s.cfg.lowConfidence with
  | .execute => meaning
  | .refuse => .refused (.lowConfidence mnemonic)

/-! ### Units of an access -/

/-- The bytes read, from the lowest address up. -/
def inOrder (addr size : Nat) (l : List GotByte) : List GotByte :=
  (byteAddrs addr size).filterMap fun a => l.find? fun g => g.addr == a

/-- The base register written back. -/
def PE.writeback (p : PE) : Option (Reg × Word64) → PE
  | some (rn, v) => p.writeBase rn v
  | none => p

/-- The value of `size` read bytes from the `k`-th on. -/
def sliceValue (l : List GotByte) (k size : Nat) : Nat := gotValue ((l.drop k).take size)

/-- Eight consecutive registers from the values of 64 bytes, the lowest address into the first (R126). -/
def PE.writeEight (p : PE) (rt : Reg) (l : List GotByte) : PE :=
  (List.range 8).foldl
    (fun p i => p.writeX (BitVec.ofNat 5 (rt.toNat + i)) (BitVec.ofNat 64 (sliceValue l (8 * i) 8))) p

/-- The registers a PE writes when the last unit of an instruction is done (R228 (b)); `l` are the bytes read, from the
lowest address `addr` up. -/
def PE.complete (p : PE) (addr : Nat) (l : List GotByte) : Completion → PE
  | .loadGpr rt => p.writeX rt (BitVec.ofNat 64 (gotValue l))
  | .loadPair rt rt2 size wb =>
    ((p.writeX rt (BitVec.ofNat 64 (sliceValue l 0 size))).writeX rt2
      (BitVec.ofNat 64 (sliceValue l size size))).writeback wb
  | .loadFpPair rt rt2 size =>
    (p.writeV rt (BitVec.ofNat 128 (sliceValue l 0 size))).writeV rt2 (BitVec.ofNat 128 (sliceValue l size size))
  | .loadExclusive rt rt2 size =>
    { (p.writeX rt (BitVec.ofNat 64 (sliceValue l 0 size))).writeX rt2
        (BitVec.ofNat 64 (sliceValue l size size)) with
      excl := some { addr := addr, size := 2 * size, reads := l } }
  | .load64 rt => p.writeEight rt l
  | .store wb => p.writeback wb
  | .store64Status _ => p
  | .atomic rd _ => p.writeX rd (BitVec.ofNat 64 (gotValue l))

/-- The end of an instruction whose units are all done: its registers, then `pc` (R228 (b)). The status result of a
64-byte store is a value the spec does not give (R128; log 16); the System Error interrupt of a non-atomic performance
comes after the instruction has completed (R190, 90_conflicts.md C12). -/
def State.finish (s : State) (addr : Nat) (l : List GotByte) (done : Completion) : Res State :=
  match done with
  | .store64Status rs =>
    match s.draw with
    | (d, s₁) => (s₁.setPe (s₁.pe.writeX rs (BitVec.ofNat 64 d))).endInstr
  | .atomic _ true =>
    andThen ((s.setPe (s.pe.complete addr l done)).endInstr) fun s₁ => .next (s₁.takeException (.sError addr))
  | _ => (s.setPe (s.pe.complete addr l done)).endInstr

/-- The `k`-th of the units left (counted round), and the others. -/
def pickUnit (k : Nat) (us : List MUnit) : Option (MUnit × List MUnit) :=
  match us[k % us.length]? with
  | some u => some (u, us.eraseIdx (k % us.length))
  | none => none

/-- The bytes a write unit of the instruction writes. -/
def InFlight.dataOf (fl : InFlight) (u : MUnit) : List Byte := (fl.data.drop (u.addr - fl.addr)).take u.size

/-- When all of an atomic instruction's reads are done: what it writes, if it writes (R190, R191). -/
def InFlight.applyRmw (fl : InFlight) : InFlight :=
  match fl.rmw with
  | none => fl
  | some op =>
    match op.apply fl.size (gotValue (inOrder fl.addr fl.size fl.got)) with
    | none => { fl with rmw := none, writes := [] }
    | some v => { fl with rmw := none, data := leBytes fl.size v }

/-- The instruction with its reads turned into writes, if they are all done. -/
def InFlight.settled (fl : InFlight) : InFlight := if fl.reads.isEmpty then fl.applyRmw else fl

/-- After a unit: the instruction ends if no unit is left, else the PE stays inside it (R228 (b)). -/
def State.settle (s : State) (fl : InFlight) : Res State :=
  if fl.settled.reads.isEmpty && fl.settled.writes.isEmpty then
    s.finish fl.addr (inOrder fl.addr fl.size fl.got) fl.done
  else .next (s.setPe { s.pe with phase := .inside fl.settled })

/-- The choices that a read of the instruction may take: R64, and R180 where the write has to succeed it. -/
def InFlight.admits (fl : InFlight) : List Pick → Bool :=
  if fl.adjacent then
    match fl.rmw with
    | some op => rmwAdmitted op fl.size
    | none => readAdmitted
  else readAdmitted

/-- A write unit of the instruction. Where it has to succeed what was read, it goes right after that on every byte (R180);
none if another agent has taken such a place, so that the history would be one R191 rejects (log 9). -/
def State.performWrite (s : State) (fl : InFlight) (u : MUnit) : Option State :=
  if fl.adjacent then
    match successorPlaces s fl.got u.addr u.size with
    | some ps => some (s.placeWrite (.pe s.cur) s.pe.inst u ps (fl.dataOf u) true)
    | none => none
  else some (writeUnit (.pe s.cur) s.pe.inst u (fl.dataOf u) s)

/-- The PE performs one more unit of the instruction, the reads before the writes and otherwise in any order
(R228 (b), 92_eei_decisions.md D13). A PE whose write has no place left has no step: nothing changes (log 9). -/
def State.advance (s : State) (fl : InFlight) (k : Nat) : Res State :=
  match pickUnit k fl.reads with
  | some (u, rest) =>
    andThen (readUnit fl.admits (.pe s.cur) s.pe.inst u s) fun r =>
      r.2.settle { fl with reads := rest, got := fl.got ++ r.1 }
  | none =>
    match pickUnit k fl.writes with
    | some (u, rest) =>
      match s.performWrite fl u with
      | some s₁ => s₁.settle { fl with writes := rest }
      | none => .next s
    | none => s.settle fl

/-- An instruction begins: one of at most one unit completes in this step, any other waits for its units (R228 (a)). -/
def State.begin (s : State) (fl : InFlight) : Res State :=
  if fl.reads.length + fl.writes.length ≤ 1 then s.advance fl 0
  else .next (s.setPe { s.pe with phase := .inside fl })

/-- What `MISALIGNED_POLICY` makes of a misaligned access it turns away: a refusal, or the Alignment fault of its open
alternative (R83, 92_eei_decisions.md D4; log 25). -/
def turnAway (cfg : Config) (addr : Nat) : Res (Option PeOutcome) :=
  match cfg.misalignedPolicy with
  | .refuse => .refused (.misaligned addr)
  | .alignmentFault => .next (some (.alignmentFault addr))

/-- The alignment that the class of an access requires (R83 (c)); an outcome if a misaligned one raises it. -/
def checkClass (cfg : Config) (a : Access) : Res (Option PeOutcome) :=
  if a.misalignedByClass then turnAway cfg a.addr else .next none

/-- The last byte of the access, or of one of the elements it touches, would lie past 2^64. -/
def Access.pastEnd (a : Access) : Bool :=
  match a.cls with
  | .svePred => a.elems.any fun e => decide (addrSpace < e + a.size)
  | _ => decide (addrSpace < a.addr + a.total)

/-- What stands before an access: R83, the end of the address space, and `MEMMAP` (R84); an outcome if the access raises
one (log 23). -/
def checkAccess (cfg : Config) (a : Access) : Res (Option PeOutcome) :=
  if a.misalignedByClass then turnAway cfg a.addr
  else if a.pastEnd then .refused (.addressWrap a.addr)
  else
    match a.bytes.find? fun b => !inMemMap cfg b with
    | some b => .fault (.outsideMemMap b)
    | none => if a.misalignedByMemory cfg then turnAway cfg a.addr else .next none

/-- What passed a check goes on; what raises an exception takes it. -/
def State.afterCheck (s : State) (check : Res (Option PeOutcome)) (go : Res State) : Res State :=
  andThen check fun o =>
    match o with
    | some e => .next (s.takeException e)
    | none => go

/-- An access that passes the checks goes on; one that raises an exception takes it. -/
def State.checked (s : State) (a : Access) (go : Res State) : Res State := s.afterCheck (checkAccess s.cfg a) go

/-- `MemRead` or `MemWrite` of an instruction: the checks, then the units of `SCAUnits` (00_scope.md section 5.2, R62).
`data` are the bytes a write stores. -/
def State.access (s : State) (i : Instr) (a : Access) (data : List Byte) (done : Completion) : Res State :=
  s.checked a <|
    match scaUnits s.cfg a with
    | none => .refused (.misaligned a.addr)
    | some us =>
      s.begin
        { instr := i
          addr := a.addr
          size := a.total
          reads := if a.dir = .read then us else []
          got := []
          rmw := none
          writes := if a.dir = .read then [] else us
          data := data
          interruptible := decide (1 < us.length)
          done := done }

/-! ### Atomic instructions -/

/-- The access of an atomic instruction of `n` bytes at `addr`. -/
def atomicAccess (addr n : Nat) : Access := { cls := .atomic, dir := .read, addr := addr, size := n, count := 1 }

/-- The effects the system may show at an unsupported location: all of them where the configuration names none (R188,
92_eei_decisions.md D16; log 31). -/
def effectSet (cfg : Config) : List UnsupportedEffect :=
  if cfg.atomicUnsupportedEffect.isEmpty then
    [.externalAbort, .sError, .mmuFault, .nop, .nopThenSError, .nonAtomic, .nonAtomicThenSError]
  else cfg.atomicUnsupportedEffect

/-- The instruction performed without being atomic in regard to other agents: its read units, then its write units, other
agents free to step between them (R190; log 20). -/
def State.performNonAtomic (s : State) (i : Instr) (addr n : Nat) (op : AtomicOp) (rd : Reg) (thenSError : Bool) :
    Res State :=
  s.begin
    { instr := i
      addr := addr
      size := n
      reads := atomicUnits s.cfg (atomicAccess addr n)
      got := []
      rmw := some op
      writes := atomicUnits s.cfg (atomicAccess addr n)
      data := []
      interruptible := decide (1 < (atomicUnits s.cfg (atomicAccess addr n)).length)
      done := .atomic rd thenSError }

/-- One of the effects of R188 (R191). -/
def State.unsupportedAtomic (s : State) (i : Instr) (addr n : Nat) (op : AtomicOp) (rd : Reg) :
    UnsupportedEffect → Res State
  | .externalAbort => .next (s.takeException (.synchronousExternalAbort addr))
  | .sError => .next (s.takeException (.sError addr))
  | .mmuFault => .next (s.takeMmuFault addr)
  | .nop => s.endInstr
  | .nopThenSError => .next (s.takeException (.sError addr))
  | .nonAtomic => s.performNonAtomic i addr n op rd false
  | .nonAtomicThenSError => s.performNonAtomic i addr n op rd true

/-- The instruction performed where it is supported: one read unit and one write unit (R53), two steps of the PE between
which other agents may step (R191); the write immediately succeeds what was read (R180), and the PE is not interrupted
between the two (R191). -/
def State.supportedAtomic (s : State) (i : Instr) (addr n : Nat) (op : AtomicOp) (rd : Reg) : Res State :=
  s.begin
    { instr := i
      addr := addr
      size := n
      reads := [{ addr := addr, size := n }]
      got := []
      rmw := some op
      writes := [{ addr := addr, size := n }]
      data := []
      interruptible := false
      adjacent := true
      done := .atomic rd false }

/-- `AtomicRMW` and what its caller does with the value (R191, R193 to R195). -/
def State.atomicRmw (s : State) (i : Instr) (addr n : Nat) (op : AtomicOp) (rd : Reg) : Res State :=
  if s.cfg.featAtomics then
    s.checked (atomicAccess addr n) <|
      if (byteAddrs addr n).all (atomicSupported s.cfg) then s.supportedAtomic i addr n op rd
      else
        match s.drawBelow (effectSet s.cfg).length with
        | (d, s₁) => s₁.unsupportedAtomic i addr n op rd ((effectSet s.cfg).getD d .nonAtomic)
  else .refused (.featureAbsent .atomics)

end Sys2Proof.Machine
end

