-- ==== Sys2Proof/Machine/Atomics.lean ====
section
/-! DEFINITION. The members of the class of atomic instructions (43_atomics.md rules R193 to R195). -/

namespace Sys2Proof.Machine

/-- LDADD of `n` bytes (R193). -/
def State.ldadd (s : State) (i : Instr) (n : Nat) (rs rn rt : Reg) : Res State :=
  s.atomicRmw i (s.pe.readBase rn).toNat n (.add (s.pe.regValue rs n)) rt

/-- SWP of `n` bytes (R194). -/
def State.swp (s : State) (i : Instr) (n : Nat) (rs rn rt : Reg) : Res State :=
  s.atomicRmw i (s.pe.readBase rn).toNat n (.swap (s.pe.regValue rs n)) rt

/-- CAS of `n` bytes (R195): `rs` holds the value to compare with and receives the value read. -/
def State.cas (s : State) (i : Instr) (n : Nat) (rs rn rt : Reg) : Res State :=
  s.atomicRmw i (s.pe.readBase rn).toNat n (.compareSwap (s.pe.regValue rs n) (s.pe.regValue rt n)) rs

/-- LDADD (32-bit) (R193). -/
def execLdadd32 (rs rn rt : Reg) (s : State) : Res State := s.ldadd (.ldadd32 rs rn rt) 4 rs rn rt

/-- LDADD (64-bit) (R193). -/
def execLdadd64 (rs rn rt : Reg) (s : State) : Res State := s.ldadd (.ldadd64 rs rn rt) 8 rs rn rt

/-- SWP (32-bit) (R194). -/
def execSwp32 (rs rn rt : Reg) (s : State) : Res State := s.swp (.swp32 rs rn rt) 4 rs rn rt

/-- SWP (64-bit) (R194). -/
def execSwp64 (rs rn rt : Reg) (s : State) : Res State := s.swp (.swp64 rs rn rt) 8 rs rn rt

/-- CAS (32-bit) (R195). -/
def execCas32 (rs rn rt : Reg) (s : State) : Res State := s.cas (.cas32 rs rn rt) 4 rs rn rt

/-- CAS (64-bit) (R195). -/
def execCas64 (rs rn rt : Reg) (s : State) : Res State := s.cas (.cas64 rs rn rt) 8 rs rn rt

end Sys2Proof.Machine
end

