-- ==== Sys2Proof/Machine/Flags.lean ====
section
/-! DEFINITION. Conditions: the table of `B.cond` over N, Z, C, V (10_state.md rule R15) and the comparisons of
`CB<cc>`, `CBB<cc>` and `CBH<cc>` (41_branch_system.md rules R148 to R151). No instruction writes a flag (R15). -/

namespace Sys2Proof.Machine

/-- `ConditionHolds(cond)` (R15). -/
def condHolds (f : Flags) (cond : BitVec 4) : Bool :=
  match cond.toNat with
  | 0 => f.z
  | 1 => !f.z
  | 2 => f.c
  | 3 => !f.c
  | 4 => f.n
  | 5 => !f.n
  | 6 => f.v
  | 7 => !f.v
  | 8 => f.c && !f.z
  | 9 => !(f.c && !f.z)
  | 10 => f.n == f.v
  | 11 => f.n != f.v
  | 12 => !f.z && f.n == f.v
  | 13 => !(!f.z && f.n == f.v)
  | _ => true

/-- A comparison of `CB<cc>`: GT, GE, LT signed; HI, HS, LO unsigned (R148, R149; log 15). -/
inductive Comparison
  | gt | ge | lt | hi | hs | lo | eq | ne
deriving DecidableEq, Repr

/-- The comparison holds of the two values. -/
def Comparison.holds {n : Nat} (c : Comparison) (a b : BitVec n) : Bool :=
  match c with
  | .gt => b.slt a
  | .ge => b.sle a
  | .lt => a.slt b
  | .hi => b.ult a
  | .hs => b.ule a
  | .lo => a.ult b
  | .eq => a == b
  | .ne => a != b

/-- The comparison a `cc` field names in the register forms (R148). -/
def comparisonOfReg (cc : BitVec 3) : Option Comparison :=
  match cc.toNat with
  | 0 => some .gt
  | 1 => some .ge
  | 2 => some .hi
  | 3 => some .hs
  | 6 => some .eq
  | 7 => some .ne
  | _ => none

/-- The comparison a `cc` field names in the immediate form (R149). -/
def comparisonOfImm (cc : BitVec 3) : Option Comparison :=
  match cc.toNat with
  | 0 => some .gt
  | 1 => some .lt
  | 2 => some .hi
  | 3 => some .lo
  | 6 => some .eq
  | 7 => some .ne
  | _ => none

end Sys2Proof.Machine
end

