-- ==== Sys2Proof/Machine/Branches.lean ====
section
/-! DEFINITION. Branches (41_branch_system.md rules R141 to R147). -/

namespace Sys2Proof.Machine

/-- B (R141). -/
def execB (imm26 : BitVec 26) (s : State) : Res State :=
  if branchWraps s.pe.pc (branchOffset imm26) then .refused (.branchWrap s.pe.pc.toNat)
  else s.jump (branchTarget s.pe.pc (branchOffset imm26))

/-- BL (R142): `x[30] <- pc + 4`. -/
def execBl (imm26 : BitVec 26) (s : State) : Res State :=
  (s.setPe (s.pe.writeX 30 (s.pe.pc + 4))).jump (branchTarget s.pe.pc (branchOffset imm26))

/-- B.cond (R143). -/
def execBCond (imm19 : BitVec 19) (cond : BitVec 4) (s : State) : Res State :=
  s.branchIf (condHolds s.pe.flags cond) (branchOffset imm19)

/-- The register that CBZ and CBNZ test is zero: `x[t]` or `w[t]` (R144). -/
def PE.isZero (p : PE) (sf : BitVec 1) (rt : Reg) : Bool := if sf = 1 then p.readX rt == 0 else p.readW rt == 0

/-- CBZ (R144). -/
def execCbz (sf : BitVec 1) (imm19 : BitVec 19) (rt : Reg) (s : State) : Res State :=
  s.branchIf (s.pe.isZero sf rt) (branchOffset imm19)

/-- CBNZ (R145). -/
def execCbnz (sf : BitVec 1) (imm19 : BitVec 19) (rt : Reg) (s : State) : Res State :=
  s.branchIf (!s.pe.isZero sf rt) (branchOffset imm19)

/-- The bit that TBZ and TBNZ test: number `b5 : b40` of `x[t]` (R100, R146). -/
def PE.testedBit (p : PE) (b5 : BitVec 1) (b40 : BitVec 5) (rt : Reg) : Bool :=
  (p.readX rt).getLsbD (b5.toNat * 32 + b40.toNat)

/-- TBZ (R146). -/
def execTbz (b5 : BitVec 1) (b40 : BitVec 5) (imm14 : BitVec 14) (rt : Reg) (s : State) : Res State :=
  s.branchIf (!s.pe.testedBit b5 b40 rt) (branchOffset imm14)

/-- TBNZ (R147). -/
def execTbnz (b5 : BitVec 1) (b40 : BitVec 5) (imm14 : BitVec 14) (rt : Reg) (s : State) : Res State :=
  s.branchIf (s.pe.testedBit b5 b40 rt) (branchOffset imm14)

end Sys2Proof.Machine
end

