-- ==== Sys2Proof/Machine/Cache.lean ====
section
/-! DEFINITION. Cache maintenance and barriers (42_cache_barrier.md rules R170 to R174). They act through the fetch model
of 20_memory.md rule R81 and, for DC ZVA, through memory (R87, R88; log 32). -/

namespace Sys2Proof.Machine

/-- DC CVAU (R170). -/
def execDcCvau (rt : Reg) (s : State) : Res State := (s.cleanWord (s.pe.readX rt)).endInstr

/-- IC IVAU (R171). -/
def execIcIvau (rt : Reg) (s : State) : Res State := (s.invalidateWord (s.pe.readX rt)).endInstr

/-- The access of DC ZVA: the naturally aligned block of `ZVA_BLOCK_BYTES` bytes that holds the address (R172; log 26). -/
def zvaAccess (cfg : Config) (va : Word64) : Access :=
  { cls := .dcZva
    dir := .write
    addr := va.toNat - va.toNat % cfg.zvaBlockBytes
    size := cfg.zvaBlockBytes
    count := 1 }

/-- Some byte of the block is Device memory. -/
def zvaOnDevice (cfg : Config) (va : Word64) : Bool := (zvaAccess cfg va).bytes.any (byteHas cfg MemAttr.isDevice)

/-- DC ZVA (R172): writes zeros to the block, each byte a unit of its own (R55). The spec gives no order among the reasons to
stop; that a Device byte of the block is looked for before `MEMMAP` and the end of the address space is the model's choice
(DESIGN CHOICE; log 23). -/
def execDcZva (rt : Reg) (s : State) : Res State :=
  if zvaOnDevice s.cfg (s.pe.readX rt) then .refused (.zvaDevice (zvaAccess s.cfg (s.pe.readX rt)).addr)
  else
    s.access (.dcZva rt) (zvaAccess s.cfg (s.pe.readX rt)) (List.replicate s.cfg.zvaBlockBytes 0) (.store none)

/-- DSB ISH (R173). -/
def execDsbIsh (s : State) : Res State := s.dsbIsh.endInstr

/-- ISB (R174): a context synchronization event, with any `CRm` (R99). -/
def execIsb (_crm : BitVec 4) (s : State) : Res State := s.contextSync.endInstr

end Sys2Proof.Machine
end

