-- ==== Sys2Proof/Machine/Compare.lean ====
section
/-! DEFINITION. Compare and branch with a condition (41_branch_system.md rules R148 to R151), of low confidence (R98;
log 14, 15). -/

namespace Sys2Proof.Machine

/-- Branch if the comparison that `cc` names holds. -/
def State.compareBranch {n : Nat} (s : State) (c : Option Comparison) (cc : BitVec 3) (a b : BitVec n)
    (offset : Word64) : Res State :=
  match c with
  | some c => s.branchIf (c.holds a b) offset
  | none => .refused (.unallocatedCondition cc)

/-- CB<cc> (register) (R148): the 64-bit registers if `sf`, else the 32-bit ones. -/
def execCbReg (sf : BitVec 1) (cc : BitVec 3) (rm : Reg) (imm9 : BitVec 9) (rt : Reg) (s : State) : Res State :=
  s.lowConfidence "CB_cc___register" <|
    if sf = 1 then s.compareBranch (comparisonOfReg cc) cc (s.pe.readX rt) (s.pe.readX rm) (branchOffset imm9)
    else s.compareBranch (comparisonOfReg cc) cc (s.pe.readW rt) (s.pe.readW rm) (branchOffset imm9)

/-- CB<cc> (immediate) (R149): the register against `zext(imm6)`. -/
def execCbImm (sf : BitVec 1) (cc : BitVec 3) (imm6 : BitVec 6) (imm9 : BitVec 9) (rt : Reg) (s : State) : Res State :=
  s.lowConfidence "CB_cc___immediate" <|
    if sf = 1 then
      s.compareBranch (comparisonOfImm cc) cc (s.pe.readX rt) (imm6.setWidth 64) (branchOffset imm9)
    else s.compareBranch (comparisonOfImm cc) cc (s.pe.readW rt) (imm6.setWidth 32) (branchOffset imm9)

/-- CBB<cc> (R150): the low bytes of the two registers. -/
def execCbb (cc : BitVec 3) (rm : Reg) (imm9 : BitVec 9) (rt : Reg) (s : State) : Res State :=
  s.lowConfidence "CBB<cc>" <|
    s.compareBranch (comparisonOfReg cc) cc ((s.pe.readX rt).setWidth 8) ((s.pe.readX rm).setWidth 8)
      (branchOffset imm9)

/-- CBH<cc> (R151): the low halfwords of the two registers. -/
def execCbh (cc : BitVec 3) (rm : Reg) (imm9 : BitVec 9) (rt : Reg) (s : State) : Res State :=
  s.lowConfidence "CBH<cc>" <|
    s.compareBranch (comparisonOfReg cc) cc ((s.pe.readX rt).setWidth 16) ((s.pe.readX rm).setWidth 16)
      (branchOffset imm9)

end Sys2Proof.Machine
end

