-- ==== Sys2Proof/Machine/Exclusive.lean ====
section
/-! DEFINITION. Exclusive pairs (40_loads_stores.md rules R118 to R122). The acquire and release semantics of LDAXP and
STLXP are ordering, which the spec does not give (R120, R122; log 32). -/

namespace Sys2Proof.Machine

/-- The class of an exclusive pair of registers of `size` bytes (R30). -/
def exclusiveClass (size : Nat) : AccessClass := if size = 4 then .exclPair32 else .exclPair64

/-- The access of an exclusive pair of registers of `size` bytes each. -/
def exclusiveAccess (dir : Direction) (addr size : Nat) : Access :=
  { cls := exclusiveClass size, dir := dir, addr := addr, size := size, count := 2 }

/-- LDXP and LDAXP (R118, R120). -/
def State.loadExclusive (s : State) (i : Instr) (size : Nat) (rt2 rn rt : Reg) : Res State :=
  if rt = rt2 then .refused (.constrainedUnpredictable .loadPairSameRegister)
  else s.access i (exclusiveAccess .read (s.pe.readBase rn).toNat size) [] (.loadExclusive rt rt2 size)

/-- The end of a Store-Exclusive pair: the status, and no exclusive outstanding (R119). -/
def State.endExclusive (s : State) (rs : Reg) (status : Word64) : Res State :=
  (s.setPe { s.pe.writeX rs status with excl := none }).endInstr

/-- The write of a Store-Exclusive pair that succeeds: its units are those of `SCAUnits`, one of the whole access (R35,
R44), each byte right after what was read (R121 (b)). -/
def State.exclusiveWrite (s : State) (a : Access) (ps : List Pick) (data : List Byte) : State :=
  match scaUnits s.cfg a with
  | some (u :: _) => s.placeWrite (.pe s.cur) s.pe.inst u ps data true
  | _ => s

/-- STXP and STLXP (R119, R121, R122): the operands and the alignment, then whether the store succeeds, which where it may
is drawn by the environment; a store that fails makes no access, and one that succeeds makes the access of R119 with its
checks (R84). -/
def State.storeExclusive (s : State) (size : Nat) (rs rt2 rn rt : Reg) : Res State :=
  if rs = rt ∨ rs = rt2 ∨ (rs = rn ∧ rn ≠ 31) then .refused (.constrainedUnpredictable .statusOverlap)
  else
    s.afterCheck (checkClass s.cfg (exclusiveAccess .write (s.pe.readBase rn).toNat size)) <|
      match exclusivePlaces s (s.pe.readBase rn).toNat (2 * size) with
      | none => s.endExclusive rs 1
      | some ps =>
        match s.drawBelow 2 with
        | (0, s₁) => s₁.endExclusive rs 1
        | (_, s₁) =>
          s₁.checked (exclusiveAccess .write (s.pe.readBase rn).toNat size) <|
            (s₁.exclusiveWrite (exclusiveAccess .write (s.pe.readBase rn).toNat size) ps
              (leBytes size (s.pe.regValue rt size) ++ leBytes size (s.pe.regValue rt2 size))).endExclusive rs 0

/-- LDXP (32-bit) (R118). -/
def execLdxp32 (rt2 rn rt : Reg) (s : State) : Res State := s.loadExclusive (.ldxp32 rt2 rn rt) 4 rt2 rn rt

/-- STXP (32-bit) (R119). -/
def execStxp32 (rs rt2 rn rt : Reg) (s : State) : Res State := s.storeExclusive 4 rs rt2 rn rt

/-- LDAXP (32-bit) (R120). -/
def execLdaxp32 (rt2 rn rt : Reg) (s : State) : Res State := s.loadExclusive (.ldaxp32 rt2 rn rt) 4 rt2 rn rt

/-- STLXP (32-bit) (R122). -/
def execStlxp32 (rs rt2 rn rt : Reg) (s : State) : Res State := s.storeExclusive 4 rs rt2 rn rt

/-- LDXP (64-bit) (R118). -/
def execLdxp64 (rt2 rn rt : Reg) (s : State) : Res State := s.loadExclusive (.ldxp64 rt2 rn rt) 8 rt2 rn rt

/-- STXP (64-bit) (R119). -/
def execStxp64 (rs rt2 rn rt : Reg) (s : State) : Res State := s.storeExclusive 8 rs rt2 rn rt

/-- LDAXP (64-bit) (R120). -/
def execLdaxp64 (rt2 rn rt : Reg) (s : State) : Res State := s.loadExclusive (.ldaxp64 rt2 rn rt) 8 rt2 rn rt

/-- STLXP (64-bit) (R122). -/
def execStlxp64 (rs rt2 rn rt : Reg) (s : State) : Res State := s.storeExclusive 8 rs rt2 rn rt

end Sys2Proof.Machine
end

