-- ==== Sys2Proof/Machine/FpPairs.lean ====
section
/-! DEFINITION. Pairs of SIMD and floating-point registers (40_loads_stores.md rules R116, R117). -/

namespace Sys2Proof.Machine

/-- The access of a pair of SIMD and floating-point registers of `size` bytes each. -/
def fpPairAccess (m : PairMnemonic) (dir : Direction) (addr size : Nat) : Access :=
  { cls := .fpPair, mnemonic := m, dir := dir, addr := addr, size := size, count := 2 }

/-- The bytes of two registers, the first at the lower address (R82, R117). -/
def PE.fpPairBytes (p : PE) (rt rt2 : Reg) (size : Nat) : List Byte :=
  leBytes size (p.fpValue rt size) ++ leBytes size (p.fpValue rt2 size)

/-- LDP (SIMD&FP), signed offset (R116). -/
def State.loadFpPair (s : State) (i : Instr) (size : Nat) (imm7 : BitVec 7) (rt2 rn rt : Reg) : Res State :=
  if !s.cfg.featAdvSimdFp then .refused (.featureAbsent .advSimdFp)
  else if rt = rt2 then .refused (.constrainedUnpredictable .loadPairSameRegister)
  else
    s.access i (fpPairAccess .ldp .read (Indexing.offset.address (s.pe.readBase rn) (pairOffset imm7 size)) size) []
      (.loadFpPair rt rt2 size)

/-- STP (SIMD&FP), signed offset (R117). -/
def State.storeFpPair (s : State) (i : Instr) (size : Nat) (imm7 : BitVec 7) (rt2 rn rt : Reg) : Res State :=
  if !s.cfg.featAdvSimdFp then .refused (.featureAbsent .advSimdFp)
  else
    s.access i (fpPairAccess .stp .write (Indexing.offset.address (s.pe.readBase rn) (pairOffset imm7 size)) size)
      (s.pe.fpPairBytes rt rt2 size) (.store none)

/-- LDP (SIMD&FP, S, signed offset) (R116). -/
def execLdpFpS (imm7 : BitVec 7) (rt2 rn rt : Reg) (s : State) : Res State :=
  s.loadFpPair (.ldpFpS imm7 rt2 rn rt) 4 imm7 rt2 rn rt

/-- STP (SIMD&FP, S, signed offset) (R117). -/
def execStpFpS (imm7 : BitVec 7) (rt2 rn rt : Reg) (s : State) : Res State :=
  s.storeFpPair (.stpFpS imm7 rt2 rn rt) 4 imm7 rt2 rn rt

/-- LDP (SIMD&FP, D, signed offset) (R116). -/
def execLdpFpD (imm7 : BitVec 7) (rt2 rn rt : Reg) (s : State) : Res State :=
  s.loadFpPair (.ldpFpD imm7 rt2 rn rt) 8 imm7 rt2 rn rt

/-- STP (SIMD&FP, D, signed offset) (R117). -/
def execStpFpD (imm7 : BitVec 7) (rt2 rn rt : Reg) (s : State) : Res State :=
  s.storeFpPair (.stpFpD imm7 rt2 rn rt) 8 imm7 rt2 rn rt

/-- LDP (SIMD&FP, Q, signed offset) (R116). -/
def execLdpFpQ (imm7 : BitVec 7) (rt2 rn rt : Reg) (s : State) : Res State :=
  s.loadFpPair (.ldpFpQ imm7 rt2 rn rt) 16 imm7 rt2 rn rt

/-- STP (SIMD&FP, Q, signed offset) (R117). -/
def execStpFpQ (imm7 : BitVec 7) (rt2 rn rt : Reg) (s : State) : Res State :=
  s.storeFpPair (.stpFpQ imm7 rt2 rn rt) 16 imm7 rt2 rn rt

end Sys2Proof.Machine
end

