-- ==== Sys2Proof/Machine/Ls64.lean ====
section
/-! DEFINITION. 64-byte loads and stores with FEAT_LS64 (40_loads_stores.md rules R126 to R129), of low confidence (R98;
log 14, 16). -/

namespace Sys2Proof.Machine

/-- The access of a 64-byte load or store. -/
def ls64Access (dir : Direction) (addr : Nat) : Access :=
  { cls := .ls64, dir := dir, addr := addr, size := 64, count := 1 }

/-- The 64 bytes of the eight registers from `rt` up, the first at the lowest address (R127). -/
def PE.eightBytes (p : PE) (rt : Reg) : List Byte :=
  (List.range 8).flatMap fun i => leBytes 8 (p.readX (BitVec.ofNat 5 (rt.toNat + i))).toNat

/-- The 64 bytes of ST64BV0: the low 32 bits are those of the system register (R129). -/
def PE.eightBytesWithAcc (p : PE) (rt : Reg) : List Byte := leBytes 4 p.accData.toNat ++ (p.eightBytes rt).drop 4

/-- What stands before a 64-byte access: the policy of R98, the feature (R3, R50, R51), and eight registers that exist
(R126). -/
def State.ls64 (s : State) (mnemonic : String) (rt : Reg) (meaning : Res State) : Res State :=
  s.lowConfidence mnemonic <|
    if !s.cfg.featLs64 then .refused (.featureAbsent .ls64)
    else if 24 < rt.toNat then .refused (.registerRange rt.toNat)
    else meaning

/-- LD64B (R126). -/
def execLd64b (rn rt : Reg) (s : State) : Res State :=
  s.ls64 "LD64B" rt (s.access (.ld64b rn rt) (ls64Access .read (s.pe.readBase rn).toNat) [] (.load64 rt))

/-- ST64B (R127). -/
def execSt64b (rn rt : Reg) (s : State) : Res State :=
  s.ls64 "ST64B" rt
    (s.access (.st64b rn rt) (ls64Access .write (s.pe.readBase rn).toNat) (s.pe.eightBytes rt) (.store none))

/-- ST64BV (R128): as ST64B, and a status result to `rs`. -/
def execSt64bv (rs rn rt : Reg) (s : State) : Res State :=
  s.ls64 "ST64BV" rt
    (s.access (.st64bv rs rn rt) (ls64Access .write (s.pe.readBase rn).toNat) (s.pe.eightBytes rt) (.store64Status rs))

/-- ST64BV0 (R129): as ST64BV, the low 32 bits of the data from a system register. -/
def execSt64bv0 (rs rn rt : Reg) (s : State) : Res State :=
  s.ls64 "ST64BV0" rt
    (s.access (.st64bv0 rs rn rt) (ls64Access .write (s.pe.readBase rn).toNat) (s.pe.eightBytesWithAcc rt)
      (.store64Status rs))

end Sys2Proof.Machine
end

