-- ==== Sys2Proof/Machine/Pairs.lean ====
section
/-! DEFINITION. Pairs of general-purpose registers (40_loads_stores.md rules R112 to R115). -/

namespace Sys2Proof.Machine

/-- The access of a pair of general-purpose registers of `size` bytes each. -/
def pairAccess (m : PairMnemonic) (dir : Direction) (addr size : Nat) : Access :=
  { cls := .gprPair, mnemonic := m, dir := dir, addr := addr, size := size, count := 2 }

/-- The bytes of two registers, the first at the lower address (R82, R114). -/
def PE.pairBytes (p : PE) (rt rt2 : Reg) (size : Nat) : List Byte :=
  leBytes size (p.regValue rt size) ++ leBytes size (p.regValue rt2 size)

/-- LDP and LDNP (R112, R113). -/
def State.loadPair (s : State) (i : Instr) (m : PairMnemonic) (ix : Indexing) (size : Nat) (imm7 : BitVec 7)
    (rt2 rn rt : Reg) : Res State :=
  if rt = rt2 then .refused (.constrainedUnpredictable .loadPairSameRegister)
  else if ix.overlaps rn rt rt2 then .refused (.constrainedUnpredictable .writebackOverlap)
  else
    s.access i (pairAccess m .read (ix.address (s.pe.readBase rn) (pairOffset imm7 size)) size) []
      (.loadPair rt rt2 size (ix.writeback rn (s.pe.readBase rn) (pairOffset imm7 size)))

/-- STP and STNP (R114, R115). -/
def State.storePair (s : State) (i : Instr) (m : PairMnemonic) (ix : Indexing) (size : Nat) (imm7 : BitVec 7)
    (rt2 rn rt : Reg) : Res State :=
  if ix.overlaps rn rt rt2 then .refused (.constrainedUnpredictable .writebackOverlap)
  else
    s.access i (pairAccess m .write (ix.address (s.pe.readBase rn) (pairOffset imm7 size)) size)
      (s.pe.pairBytes rt rt2 size) (.store (ix.writeback rn (s.pe.readBase rn) (pairOffset imm7 size)))

/-- LDP (32-bit, post-index) (R112). -/
def execLdpPost32 (imm7 : BitVec 7) (rt2 rn rt : Reg) (s : State) : Res State :=
  s.loadPair (.ldpPost32 imm7 rt2 rn rt) .ldp .post 4 imm7 rt2 rn rt

/-- LDP (32-bit, signed offset) (R112). -/
def execLdpOff32 (imm7 : BitVec 7) (rt2 rn rt : Reg) (s : State) : Res State :=
  s.loadPair (.ldpOff32 imm7 rt2 rn rt) .ldp .offset 4 imm7 rt2 rn rt

/-- LDP (32-bit, pre-index) (R112). -/
def execLdpPre32 (imm7 : BitVec 7) (rt2 rn rt : Reg) (s : State) : Res State :=
  s.loadPair (.ldpPre32 imm7 rt2 rn rt) .ldp .pre 4 imm7 rt2 rn rt

/-- LDNP (32-bit) (R113). -/
def execLdnp32 (imm7 : BitVec 7) (rt2 rn rt : Reg) (s : State) : Res State :=
  s.loadPair (.ldnp32 imm7 rt2 rn rt) .ldnp .offset 4 imm7 rt2 rn rt

/-- STP (32-bit, post-index) (R114). -/
def execStpPost32 (imm7 : BitVec 7) (rt2 rn rt : Reg) (s : State) : Res State :=
  s.storePair (.stpPost32 imm7 rt2 rn rt) .stp .post 4 imm7 rt2 rn rt

/-- STP (32-bit, signed offset) (R114). -/
def execStpOff32 (imm7 : BitVec 7) (rt2 rn rt : Reg) (s : State) : Res State :=
  s.storePair (.stpOff32 imm7 rt2 rn rt) .stp .offset 4 imm7 rt2 rn rt

/-- STP (32-bit, pre-index) (R114). -/
def execStpPre32 (imm7 : BitVec 7) (rt2 rn rt : Reg) (s : State) : Res State :=
  s.storePair (.stpPre32 imm7 rt2 rn rt) .stp .pre 4 imm7 rt2 rn rt

/-- STNP (32-bit) (R115). -/
def execStnp32 (imm7 : BitVec 7) (rt2 rn rt : Reg) (s : State) : Res State :=
  s.storePair (.stnp32 imm7 rt2 rn rt) .stnp .offset 4 imm7 rt2 rn rt

/-- LDP (64-bit, post-index) (R112). -/
def execLdpPost64 (imm7 : BitVec 7) (rt2 rn rt : Reg) (s : State) : Res State :=
  s.loadPair (.ldpPost64 imm7 rt2 rn rt) .ldp .post 8 imm7 rt2 rn rt

/-- LDP (64-bit, signed offset) (R112). -/
def execLdpOff64 (imm7 : BitVec 7) (rt2 rn rt : Reg) (s : State) : Res State :=
  s.loadPair (.ldpOff64 imm7 rt2 rn rt) .ldp .offset 8 imm7 rt2 rn rt

/-- LDP (64-bit, pre-index) (R112). -/
def execLdpPre64 (imm7 : BitVec 7) (rt2 rn rt : Reg) (s : State) : Res State :=
  s.loadPair (.ldpPre64 imm7 rt2 rn rt) .ldp .pre 8 imm7 rt2 rn rt

/-- LDNP (64-bit) (R113). -/
def execLdnp64 (imm7 : BitVec 7) (rt2 rn rt : Reg) (s : State) : Res State :=
  s.loadPair (.ldnp64 imm7 rt2 rn rt) .ldnp .offset 8 imm7 rt2 rn rt

/-- STP (64-bit, post-index) (R114). -/
def execStpPost64 (imm7 : BitVec 7) (rt2 rn rt : Reg) (s : State) : Res State :=
  s.storePair (.stpPost64 imm7 rt2 rn rt) .stp .post 8 imm7 rt2 rn rt

/-- STP (64-bit, signed offset) (R114). -/
def execStpOff64 (imm7 : BitVec 7) (rt2 rn rt : Reg) (s : State) : Res State :=
  s.storePair (.stpOff64 imm7 rt2 rn rt) .stp .offset 8 imm7 rt2 rn rt

/-- STP (64-bit, pre-index) (R114). -/
def execStpPre64 (imm7 : BitVec 7) (rt2 rn rt : Reg) (s : State) : Res State :=
  s.storePair (.stpPre64 imm7 rt2 rn rt) .stp .pre 8 imm7 rt2 rn rt

/-- STNP (64-bit) (R115). -/
def execStnp64 (imm7 : BitVec 7) (rt2 rn rt : Reg) (s : State) : Res State :=
  s.storePair (.stnp64 imm7 rt2 rn rt) .stnp .offset 8 imm7 rt2 rn rt

end Sys2Proof.Machine
end

