-- ==== Sys2Proof/Machine/Rcpc.lean ====
section
/-! DEFINITION. Instructions introduced in FEAT_LRCPC (40_loads_stores.md rules R123 to R125). Their acquire ordering is
not in the spec (log 32). -/

namespace Sys2Proof.Machine

/-- The access of a FEAT_LRCPC load of `size` bytes. -/
def rcpcAccess (addr size : Nat) : Access := { cls := .lrcpc, dir := .read, addr := addr, size := size, count := 1 }

/-- A FEAT_LRCPC load of `size` bytes, extended with zeros to 64 bits (R123). -/
def State.loadRcpc (s : State) (i : Instr) (size : Nat) (rn rt : Reg) : Res State :=
  if s.cfg.featLrcpc then s.access i (rcpcAccess (s.pe.readBase rn).toNat size) [] (.loadGpr rt)
  else .refused (.featureAbsent .lrcpc)

/-- LDAPR (32-bit) (R123). -/
def execLdapr32 (rn rt : Reg) (s : State) : Res State := s.loadRcpc (.ldapr32 rn rt) 4 rn rt

/-- LDAPR (64-bit) (R123). -/
def execLdapr64 (rn rt : Reg) (s : State) : Res State := s.loadRcpc (.ldapr64 rn rt) 8 rn rt

/-- LDAPRH (R124). -/
def execLdaprh (rn rt : Reg) (s : State) : Res State := s.loadRcpc (.ldaprh rn rt) 2 rn rt

/-- LDAPRB (R125). -/
def execLdaprb (rn rt : Reg) (s : State) : Res State := s.loadRcpc (.ldaprb rn rt) 1 rn rt

end Sys2Proof.Machine
end

