-- ==== Sys2Proof/Machine/Single.lean ====
section
/-! DEFINITION. Loads and stores of one general-purpose register (40_loads_stores.md rules R110, R111). -/

namespace Sys2Proof.Machine

/-- The access of a single register of `size` bytes. -/
def singleAccess (dir : Direction) (addr size : Nat) : Access :=
  { cls := .gprSingle, dir := dir, addr := addr, size := size, count := 1 }

/-- STR of `size` bytes (R110). -/
def State.storeSingle (s : State) (i : Instr) (size : Nat) (imm12 : BitVec 12) (rn rt : Reg) : Res State :=
  s.access i (singleAccess .write (storeAddress (s.pe.readBase rn) imm12 size) size)
    (leBytes size (s.pe.regValue rt size)) (.store none)

/-- LDR of `size` bytes (R111). -/
def State.loadSingle (s : State) (i : Instr) (size : Nat) (imm12 : BitVec 12) (rn rt : Reg) : Res State :=
  s.access i (singleAccess .read (loadAddress (s.pe.readBase rn) imm12 size) size) [] (.loadGpr rt)

/-- STR (32-bit, unsigned offset) (R110). -/
def execStrImm32 (imm12 : BitVec 12) (rn rt : Reg) (s : State) : Res State :=
  s.storeSingle (.strImm32 imm12 rn rt) 4 imm12 rn rt

/-- STR (64-bit, unsigned offset) (R110). -/
def execStrImm64 (imm12 : BitVec 12) (rn rt : Reg) (s : State) : Res State :=
  s.storeSingle (.strImm64 imm12 rn rt) 8 imm12 rn rt

/-- LDR (32-bit, unsigned offset) (R111). -/
def execLdrImm32 (imm12 : BitVec 12) (rn rt : Reg) (s : State) : Res State :=
  s.loadSingle (.ldrImm32 imm12 rn rt) 4 imm12 rn rt

/-- LDR (64-bit, unsigned offset) (R111). -/
def execLdrImm64 (imm12 : BitVec 12) (rn rt : Reg) (s : State) : Res State :=
  s.loadSingle (.ldrImm64 imm12 rn rt) 8 imm12 rn rt

end Sys2Proof.Machine
end

