-- ==== Sys2Proof/Machine/System.lean ====
section
/-! DEFINITION. Exception-generating instructions, NOP and TRCIT (41_branch_system.md rules R152 to R157). Each of the
first four ends the run of its PE with its outcome, at every Exception level (R208, 92_eei_decisions.md D18, D19). -/

namespace Sys2Proof.Machine

/-- BRK (R152). -/
def execBrk (imm16 : BitVec 16) (s : State) : Res State := .next (s.takeException (.breakpointInstruction imm16))

/-- SVC (R153). -/
def execSvc (imm16 : BitVec 16) (s : State) : Res State := .next (s.takeException (.supervisorCall imm16))

/-- HVC (R154). -/
def execHvc (imm16 : BitVec 16) (s : State) : Res State := .next (s.takeException (.hypervisorCall imm16))

/-- SMC (R155). -/
def execSmc (imm16 : BitVec 16) (s : State) : Res State := .next (s.takeException (.secureMonitorCall imm16))

/-- NOP (R156). -/
def execNop (s : State) : Res State := s.endInstr

/-- TRCIT (R157): it hands the value of `Xt` to the trace unit and changes no register, flag or memory location; of low
confidence (R98; log 14, 17). -/
def execTrcit (rt : Reg) (s : State) : Res State :=
  s.lowConfidence "TRCIT" (s.setPe { s.pe with trace := s.pe.trace ++ [s.pe.readX rt] }).endInstr

end Sys2Proof.Machine
end

