-- ==== Sys2Proof/Machine/Dispatch.lean ====
section
/-! DEFINITION. The dispatch: one arm per constructor of `Instr`, each one call of its meaning. -/

namespace Sys2Proof.Machine

/-- The meaning of an instruction in a state whose current PE executes it (70_reset_and_hazards.md rule R228). -/
def exec (i : Instr) (s : State) : Host.Outcome State Fault Refusal :=
  match i with
  -- Machine/Branches.lean
  | .b imm26 => Sys2Proof.Machine.execB imm26 s
  | .bl imm26 => Sys2Proof.Machine.execBl imm26 s
  | .bCond imm19 cond => Sys2Proof.Machine.execBCond imm19 cond s
  | .cbz sf imm19 rt => Sys2Proof.Machine.execCbz sf imm19 rt s
  | .cbnz sf imm19 rt => Sys2Proof.Machine.execCbnz sf imm19 rt s
  | .tbz b5 b40 imm14 rt => Sys2Proof.Machine.execTbz b5 b40 imm14 rt s
  | .tbnz b5 b40 imm14 rt => Sys2Proof.Machine.execTbnz b5 b40 imm14 rt s
  -- Machine/Compare.lean
  | .cbReg sf cc rm imm9 rt => Sys2Proof.Machine.execCbReg sf cc rm imm9 rt s
  | .cbImm sf cc imm6 imm9 rt => Sys2Proof.Machine.execCbImm sf cc imm6 imm9 rt s
  | .cbb cc rm imm9 rt => Sys2Proof.Machine.execCbb cc rm imm9 rt s
  | .cbh cc rm imm9 rt => Sys2Proof.Machine.execCbh cc rm imm9 rt s
  -- Machine/System.lean
  | .brk imm16 => Sys2Proof.Machine.execBrk imm16 s
  | .svc imm16 => Sys2Proof.Machine.execSvc imm16 s
  | .hvc imm16 => Sys2Proof.Machine.execHvc imm16 s
  | .smc imm16 => Sys2Proof.Machine.execSmc imm16 s
  | .nop => Sys2Proof.Machine.execNop s
  | .trcit rt => Sys2Proof.Machine.execTrcit rt s
  -- Machine/Cache.lean
  | .dcCvau rt => Sys2Proof.Machine.execDcCvau rt s
  | .icIvau rt => Sys2Proof.Machine.execIcIvau rt s
  | .dcZva rt => Sys2Proof.Machine.execDcZva rt s
  | .dsbIsh => Sys2Proof.Machine.execDsbIsh s
  | .isb crm => Sys2Proof.Machine.execIsb crm s
  -- Machine/Single.lean
  | .strImm32 imm12 rn rt => Sys2Proof.Machine.execStrImm32 imm12 rn rt s
  | .strImm64 imm12 rn rt => Sys2Proof.Machine.execStrImm64 imm12 rn rt s
  | .ldrImm32 imm12 rn rt => Sys2Proof.Machine.execLdrImm32 imm12 rn rt s
  | .ldrImm64 imm12 rn rt => Sys2Proof.Machine.execLdrImm64 imm12 rn rt s
  -- Machine/Pairs.lean
  | .ldpPost32 imm7 rt2 rn rt => Sys2Proof.Machine.execLdpPost32 imm7 rt2 rn rt s
  | .ldpOff32 imm7 rt2 rn rt => Sys2Proof.Machine.execLdpOff32 imm7 rt2 rn rt s
  | .ldpPre32 imm7 rt2 rn rt => Sys2Proof.Machine.execLdpPre32 imm7 rt2 rn rt s
  | .ldnp32 imm7 rt2 rn rt => Sys2Proof.Machine.execLdnp32 imm7 rt2 rn rt s
  | .stpPost32 imm7 rt2 rn rt => Sys2Proof.Machine.execStpPost32 imm7 rt2 rn rt s
  | .stpOff32 imm7 rt2 rn rt => Sys2Proof.Machine.execStpOff32 imm7 rt2 rn rt s
  | .stpPre32 imm7 rt2 rn rt => Sys2Proof.Machine.execStpPre32 imm7 rt2 rn rt s
  | .stnp32 imm7 rt2 rn rt => Sys2Proof.Machine.execStnp32 imm7 rt2 rn rt s
  | .ldpPost64 imm7 rt2 rn rt => Sys2Proof.Machine.execLdpPost64 imm7 rt2 rn rt s
  | .ldpOff64 imm7 rt2 rn rt => Sys2Proof.Machine.execLdpOff64 imm7 rt2 rn rt s
  | .ldpPre64 imm7 rt2 rn rt => Sys2Proof.Machine.execLdpPre64 imm7 rt2 rn rt s
  | .ldnp64 imm7 rt2 rn rt => Sys2Proof.Machine.execLdnp64 imm7 rt2 rn rt s
  | .stpPost64 imm7 rt2 rn rt => Sys2Proof.Machine.execStpPost64 imm7 rt2 rn rt s
  | .stpOff64 imm7 rt2 rn rt => Sys2Proof.Machine.execStpOff64 imm7 rt2 rn rt s
  | .stpPre64 imm7 rt2 rn rt => Sys2Proof.Machine.execStpPre64 imm7 rt2 rn rt s
  | .stnp64 imm7 rt2 rn rt => Sys2Proof.Machine.execStnp64 imm7 rt2 rn rt s
  -- Machine/FpPairs.lean
  | .ldpFpS imm7 rt2 rn rt => Sys2Proof.Machine.execLdpFpS imm7 rt2 rn rt s
  | .stpFpS imm7 rt2 rn rt => Sys2Proof.Machine.execStpFpS imm7 rt2 rn rt s
  | .ldpFpD imm7 rt2 rn rt => Sys2Proof.Machine.execLdpFpD imm7 rt2 rn rt s
  | .stpFpD imm7 rt2 rn rt => Sys2Proof.Machine.execStpFpD imm7 rt2 rn rt s
  | .ldpFpQ imm7 rt2 rn rt => Sys2Proof.Machine.execLdpFpQ imm7 rt2 rn rt s
  | .stpFpQ imm7 rt2 rn rt => Sys2Proof.Machine.execStpFpQ imm7 rt2 rn rt s
  -- Machine/Exclusive.lean
  | .ldxp32 rt2 rn rt => Sys2Proof.Machine.execLdxp32 rt2 rn rt s
  | .stxp32 rs rt2 rn rt => Sys2Proof.Machine.execStxp32 rs rt2 rn rt s
  | .ldaxp32 rt2 rn rt => Sys2Proof.Machine.execLdaxp32 rt2 rn rt s
  | .stlxp32 rs rt2 rn rt => Sys2Proof.Machine.execStlxp32 rs rt2 rn rt s
  | .ldxp64 rt2 rn rt => Sys2Proof.Machine.execLdxp64 rt2 rn rt s
  | .stxp64 rs rt2 rn rt => Sys2Proof.Machine.execStxp64 rs rt2 rn rt s
  | .ldaxp64 rt2 rn rt => Sys2Proof.Machine.execLdaxp64 rt2 rn rt s
  | .stlxp64 rs rt2 rn rt => Sys2Proof.Machine.execStlxp64 rs rt2 rn rt s
  -- Machine/Rcpc.lean
  | .ldapr32 rn rt => Sys2Proof.Machine.execLdapr32 rn rt s
  | .ldapr64 rn rt => Sys2Proof.Machine.execLdapr64 rn rt s
  | .ldaprh rn rt => Sys2Proof.Machine.execLdaprh rn rt s
  | .ldaprb rn rt => Sys2Proof.Machine.execLdaprb rn rt s
  -- Machine/Ls64.lean
  | .ld64b rn rt => Sys2Proof.Machine.execLd64b rn rt s
  | .st64b rn rt => Sys2Proof.Machine.execSt64b rn rt s
  | .st64bv rs rn rt => Sys2Proof.Machine.execSt64bv rs rn rt s
  | .st64bv0 rs rn rt => Sys2Proof.Machine.execSt64bv0 rs rn rt s
  -- Machine/Atomics.lean
  | .ldadd32 rs rn rt => Sys2Proof.Machine.execLdadd32 rs rn rt s
  | .ldadd64 rs rn rt => Sys2Proof.Machine.execLdadd64 rs rn rt s
  | .swp32 rs rn rt => Sys2Proof.Machine.execSwp32 rs rn rt s
  | .swp64 rs rn rt => Sys2Proof.Machine.execSwp64 rs rn rt s
  | .cas32 rs rn rt => Sys2Proof.Machine.execCas32 rs rn rt s
  | .cas64 rs rn rt => Sys2Proof.Machine.execCas64 rs rn rt s

end Sys2Proof.Machine
end

