-- ==== Sys2Proof/Machine/Run.lean ====
section
/-! DEFINITION. The steps of the machine (70_reset_and_hazards.md rule R228): a PE fetches and begins an instruction,
performs a unit, or is interrupted; an external observer performs a byte access (60_exceptions.md rules R215, R217). A move
that names an agent with no such step leaves everything else as it is (log 5). -/

namespace Sys2Proof.Machine

/-- A new instruction instance of the current PE (R23). -/
def State.newInstance (s : State) : State :=
  { s.setPe { s.pe with inst := s.nextInst } with nextInst := s.nextInst + 1 }

/-- The current PE fetches the word at its `pc`, decodes it and begins the instruction (R228 (a)); a word that matches no
row is refused (R103). -/
def State.fetchAndBegin (s : State) : Res State :=
  andThen s.fetch fun r =>
    match decodeWord r.1 with
    | some i => exec i r.2.newInstance
    | none => .refused (.noRow s.pe.pc.toNat r.1)

/-- The step of a PE that is running: (a) or (b) of R228, or the re-execution of an interrupted instruction (R56). -/
def State.runCurrent (s : State) (k : Nat) : Res State :=
  match s.pe.phase with
  | .atStart => s.fetchAndBegin
  | .restart i => exec i s
  | .inside fl => s.advance fl k

/-- More choices than one step takes. -/
def stepChoices : Nat := 128

/-- The run of the current PE ends with the outcome of what stopped it; the choices its last step may have taken are passed
over (R208, R228; log 4). -/
def State.stopRun (s : State) (o : PeOutcome) : State :=
  State.endRun o { s with pending := s.pending.drop stepChoices, drawCount := s.drawCount + stepChoices }

/-- A step of the current PE: where the instruction stops, nothing of the step is done but that the run of this PE ends; the
other PEs run on (R200, R208, R228). -/
def State.orStop (s : State) (r : Res State) : Res State :=
  match r with
  | .next t => .next t
  | .fault f => .next (s.stopRun f.outcome)
  | .refused why => .next (s.stopRun (.refuse why))

/-- PE `p` takes its next step, if it exists and is running (R208, R228). -/
def State.runPe (s : State) (p k : Nat) : Res State :=
  match s.pes[p]? with
  | some pe => if pe.run = .running then State.orStop { s with cur := p } (State.runCurrent { s with cur := p } k) else .next s
  | none => .next s

/-- The step `Interrupted` of PE `p`: inside a multi-unit instruction, it goes back to the instruction's start and writes no
register (R56, R228 (c)). -/
def State.interruptPe (s : State) (p : Nat) : Res State :=
  match s.pes[p]? with
  | some pe =>
    if pe.run = .running then
      match pe.phase with
      | .inside fl =>
        if fl.interruptible then .next (State.returnToInterrupted { s with cur := p } fl.instr) else .next s
      | _ => .next s
    else .next s
  | none => .next s

/-- The observer is one of `EXTERNAL_OBSERVERS` and the byte exists (R84, R217). -/
def State.observerMay (s : State) (o addr : Nat) : Bool := s.cfg.externalObservers.contains o && inMemMap s.cfg addr

/-- An external observer reads a byte (R228 (d)). Where it takes its data from a byte nothing has written the machine stops,
because there is no run of a PE to end (log 6). -/
def State.observerRead (s : State) (o addr : Nat) : Res State :=
  if s.observerMay o addr then
    andThen (readUnit readAdmitted (.observer o) s.nextInst { addr := addr, size := 1 } s) fun r =>
      .next { r.2 with nextInst := r.2.nextInst + 1 }
  else .next s

/-- An external observer writes a byte (R228 (d)). -/
def State.observerWrite (s : State) (o addr : Nat) (value : Byte) : Res State :=
  if s.observerMay o addr then
    .next { writeUnit (.observer o) s.nextInst { addr := addr, size := 1 } [value] s with nextInst := s.nextInst + 1 }
  else .next s

/-- The move is made. -/
def State.makeMove (s : State) : Move → Res State
  | .run p k => s.runPe p k
  | .interrupt p => s.interruptPe p
  | .observerRead o addr => s.observerRead o addr
  | .observerWrite o addr value => s.observerWrite o addr value

/-- The state with an instruction word where the current PE fetches next, that PE about to fetch it, and its turn next
(log 22). -/
def State.placeWord (s : State) (w : Nat) : State :=
  { s.setPe { s.pe with
      cand := assocErase s.pe.cand s.pe.pc.toNat
      phase := .atStart
      run := .running } with
    mem := Memory.writeAll s.mem s.pe.pc.toNat (leBytes 4 w)
    turn := some (.run s.cur 0) }

end Sys2Proof.Machine
end

