-- ==== Sys2Proof/Machine/Step.lean ====
section
/-! DEFINITION. The step relation as a function of the state, whose schedule and choices are data of it
(70_reset_and_hazards.md rule R228; log 4, 5), and the placing of an instruction where it is fetched. -/

namespace Sys2Proof.Machine

/-- One step of the machine: the next move of the schedule is made (R228). -/
def step (s : State) : Host.Outcome State Fault Refusal :=
  match s.takeTurn with
  | (m, s₁) => s₁.makeMove m

/-- The state with the `nbits` bits `w` stored where the next step fetches its instruction, the bits above `nbits` zero
(log 22). -/
def State.withFetchWord (s : State) (nbits w : Nat) : State := s.placeWord (w % 2 ^ nbits)

end Sys2Proof.Machine
end

