-- ==== Sys2Proof/Machine/Sve.lean ====
section
/-! DEFINITION. SVE loads and stores as accesses (40_loads_stores.md rules R132, R133). No SVE instruction is in the opcode
table (10_state.md rule R19): these are the accesses, and their units, for a model that adds them (log 38). -/

namespace Sys2Proof.Machine

/-- The addresses of the elements of `size` bytes of a contiguous predicated access, one for each element of a vector. -/
def sveElements (cfg : Config) (addr size : Nat) : List Nat :=
  (List.range (cfg.sveVlBytes / size)).map fun i => addr + i * size

/-- The accessed elements: of the elements at `addrs`, those whose predicate bit is true (R132, 92_eei_decisions.md D22).
With one bit for each byte of the vector (R19), the bit of an element is that of its lowest byte (log 18). -/
def activeElements (pred : List Bool) (size : Nat) (addrs : List Nat) : List Nat :=
  (addrs.zipIdx.filter fun e => pred.getD (e.2 * size) false).map (·.1)

/-- A predicated access under the predicate register `pg`; for gather and scatter forms `addrs` is the list of addresses
(R132). -/
def PE.svePredAccess (p : PE) (pg : Fin 16) (dir : Direction) (size : Nat) (addrs : List Nat) : Access :=
  { cls := .svePred
    dir := dir
    addr := addrs.headD 0
    size := size
    count := (activeElements p.p[pg] size addrs).length
    elems := activeElements p.p[pg] size addrs }

/-- What an unpredicated access moves. -/
inductive SveRegister
  | vector | predicate
deriving DecidableEq, Repr

/-- The size of an SVE register in bytes (R133). -/
def SveRegister.bytes (cfg : Config) : SveRegister → Nat
  | .vector => cfg.sveVlBytes
  | .predicate => cfg.sveVlBytes / 8

/-- An unpredicated access (R133): one quantity of the size of the register (log 40). -/
def sveUnpredAccess (cfg : Config) (r : SveRegister) (dir : Direction) (addr : Nat) : Access :=
  { cls := .sveUnpred, dir := dir, addr := addr, size := r.bytes cfg, count := 1 }

/-- The units of an SVE access: it requires `FEAT_SVE` (R132, R133), then the checks of any access (R83, R84), then
`SCAUnits` (R62), or the exception that a check raises. -/
def sveUnits (cfg : Config) (a : Access) : Res (PeOutcome ⊕ List MUnit) :=
  if cfg.featSve then
    andThen (checkAccess cfg a) fun o =>
      match o, scaUnits cfg a with
      | some e, _ => .next (.inl e)
      | none, some us => .next (.inr us)
      | none, none => .refused (.misaligned a.addr)
  else .refused (.featureAbsent .sve)

end Sys2Proof.Machine
end

