-- ==== Sys2Proof/Safety.lean ====
section
/-! DEFINITION. What a run may be relied on for: the relations of 20_memory.md rule R65 over a state's history, the
properties of single-copy atomic accesses (R63, R64) and of atomic and exclusive accesses (43_atomics.md rule R180,
40_loads_stores.md rule R121), multi-copy atomicity (R67, R71), and the invariants of the machine. -/

namespace Sys2Proof.Machine

/-! ### Relations -/

/-- On the byte `b`, the write `w₂` is Coherence-after the write `w₁` (R65 (a), (b)). -/
def State.CoherenceAfter (s : State) (b : Nat) (w₂ w₁ : Source) : Prop :=
  ∃ k₂ k₁, (s.orderAt b).placeOf w₂ = some k₂ ∧ (s.orderAt b).placeOf w₁ = some k₁ ∧ k₁ < k₂

/-- The effect is a read that Reads-from `w` (R65 (c)). -/
def Effect.ReadsFrom (e : Effect) (w : Source) : Prop := e.kind = .read w

/-- On its byte, the write `w` is Coherence-after the read `e` (R65 (d)). -/
def State.CoherenceAfterRead (s : State) (w : Source) (e : Effect) : Prop :=
  ∃ w₁, e.ReadsFrom w₁ ∧ s.CoherenceAfter e.addr w w₁

/-- A unit has a write on the byte `b`. -/
def State.WritesByte (s : State) (u b : Nat) : Prop := ∃ k, (s.orderAt b).placeOf (.unit u) = some k

/-! ### Properties of single-copy atomic accesses -/

/-- Property 1 (R63), over units (R66): of two write units, one is Coherence-after the other on every byte of both. -/
def State.StoresOrdered (s : State) : Prop :=
  ∀ u₁ u₂ b b', s.CoherenceAfter b (.unit u₁) (.unit u₂) → s.WritesByte u₁ b' → s.WritesByte u₂ b' →
    s.CoherenceAfter b' (.unit u₁) (.unit u₂)

/-- Property 2 (R64), over units (R66): if one read of a unit Reads-from a write of the unit `u`, no write of `u` is
Coherence-after any read of that unit. -/
def State.LoadsWhole (s : State) : Prop :=
  ∀ e ∈ s.history, ∀ e' ∈ s.history, ∀ u, e.unit = e'.unit → e.ReadsFrom (.unit u) → ¬ s.CoherenceAfterRead (.unit u) e'

/-- Every write of an atomic or Store-Exclusive pair that must succeed the write it read is its immediate successor in the
coherence order (R180, R121 (b)). -/
def State.SuccessionsKept (s : State) : Prop :=
  ∀ b k w src, (s.orderAt b).writes[k]? = some w → w.follows = some src → (s.orderAt b).sourceAt k = src

/-- Every read took its value from the write it Reads-from (R65 (c)). -/
def State.ReadsHaveSources (s : State) : Prop :=
  ∀ e ∈ s.history, ∀ w, e.ReadsFrom w →
    ∃ k, (s.orderAt e.addr).placeOf w = some k ∧ (s.orderAt e.addr).valueAt k = some e.value

/-- Memory holds the coherence-last value of every byte (R228; log 11). -/
def State.MemoryIsLast (s : State) : Prop :=
  ∀ b, s.mem.read b = (s.orderAt b).valueAt (s.orderAt b).lastPlace

/-- The numbers of units are used once: on a byte each unit writes once, and no number is yet to be given out. -/
def State.UnitsNumbered (s : State) : Prop :=
  (∀ b, ((s.orderAt b).writes.map (·.unit)).Nodup) ∧
    (∀ b, ∀ w ∈ (s.orderAt b).writes, w.unit < s.nextUnit) ∧ ∀ e ∈ s.history, e.unit < s.nextUnit

/-- The invariant of the memory system: the canonical forms, the relations and the properties of R63, R64, R180. -/
structure State.Coherent (s : State) : Prop where
  mem_wf : s.mem.wf = true
  coh_rising : assocRising s.coh = true
  units_numbered : s.UnitsNumbered
  memory_is_last : s.MemoryIsLast
  reads_have_sources : s.ReadsHaveSources
  stores_ordered : s.StoresOrdered
  loads_whole : s.LoadsWhole
  successions_kept : s.SuccessionsKept

/-! ### Other invariants -/

/-- Every `pc` is a multiple of 4 (R14). -/
def State.PcsAligned (s : State) : Prop := ∀ p ∈ s.pes, p.pc.toNat % 4 = 0

/-- The word in memory is always one of the candidates of a fetch (R81). -/
def State.CandidatesCurrent (s : State) : Prop :=
  ∀ p ∈ s.pes, ∀ a, a % 4 = 0 → memWord s.mem a ∈ p.candidates s.mem a

/-- Two states of a PE that differ in nothing but the words it may fetch. -/
def PE.SameButCandidates (p q : PE) : Prop := { p with cand := [] } = { q with cand := [] }

/-! ### Multi-copy atomicity -/

/-- The reads of the byte `b`, the oldest first, each with its agent and the place of the write it read. -/
def State.readsOf (s : State) (b : Nat) : List (Agent × Source × Nat) :=
  s.history.filterMap fun e =>
    match e.kind with
    | .read src => if e.addr = b then ((s.orderAt b).placeOf src).map fun k => (e.agent, src, k) else none
    | .write => none

/-- The agent that wrote a unit. -/
def State.issuerOf (s : State) (u : Nat) : Option Agent :=
  (s.history.find? fun e => e.unit == u && e.kind == .write).map (·.agent)

/-- R67 (b): once an observer has read a write, no observer reads an older value. With R67 (a), which it implies, this is
multi-copy atomicity of the writes to `b`; no rule grants it (R69, R70; log 34). -/
def State.MultiCopyAtomic (s : State) (b : Nat) : Prop :=
  (s.readsOf b).Pairwise fun earlier later => earlier.2.2 ≤ later.2.2

/-- The read is of the reader's own write. -/
def State.OwnWrite (s : State) (a : Agent) : Source → Prop
  | .unit u => s.issuerOf u = some a
  | .initial => False

/-- The meaning of Other-multi-copy atomic (R71): as R67 (b), but an observer may read its own write early. -/
def State.OtherMultiCopyAtomic (s : State) (b : Nat) : Prop :=
  (s.readsOf b).Pairwise fun earlier later => s.OwnWrite earlier.1 earlier.2.1 ∨ earlier.2.2 ≤ later.2.2

/-! ### Where software may rely on atomic instructions -/

/-- R182: the bytes its two bullets name as ones where atomic instructions may lack support. -/
def atomicDoubtful (cfg : Config) (a : Nat) : Bool :=
  byteHas cfg
    (fun m => !m.coherent || m.isDevice || m.isNonCacheable || m.treatedAsNonCacheable) a

/-! ### Premises of an instruction -/

/-- The current PE exists and `pc + 4` does not pass 2^64 (R14). -/
def State.MayAdvance (s : State) : Prop := s.curOk = true ∧ s.pe.pc.toNat + 4 < addrSpace

/-- The `n` bytes from `addr` exist, and the last of them does not pass 2^64 (R84). -/
def State.Accessible (s : State) (addr n : Nat) : Prop :=
  addr + n ≤ addrSpace ∧ ∀ b, addr ≤ b → b < addr + n → inMemMap s.cfg b = true

/-- The `n` bytes from `addr` have initial values (R24; log 12). -/
def State.Readable (s : State) (addr n : Nat) : Prop := ∀ b, addr ≤ b → b < addr + n → (s.orderAt b).init.isSome = true

/-- An access that nothing turns away: its bytes exist and `MISALIGNED_POLICY` performs it (R83, R84). -/
def State.Clear (s : State) (a : Access) : Prop :=
  s.MayAdvance ∧ s.Accessible a.addr a.total ∧ a.misalignedByClass = false ∧ a.misalignedByMemory s.cfg = false

/-! ### What an instruction leaves behind -/

/-- The PE at the start of the next instruction in memory (R14). -/
def PE.next (p : PE) : PE := { p with pc := p.pc + 4, phase := .atStart }

/-- `l` are the `n` bytes from `addr`, each read from its initial value or from a write in its coherence order
(R65 (c)). -/
def State.Reading (s : State) (addr n : Nat) (l : List GotByte) : Prop :=
  l.map (·.addr) = byteAddrs addr n ∧
    ∀ g ∈ l, ∃ k, k ≤ (s.orderAt g.addr).lastPlace ∧ (s.orderAt g.addr).valueAt k = some g.value ∧
      (s.orderAt g.addr).sourceAt k = g.source

/-- From `s` to `t` the current PE became `p`, the bytes `l` were read as one unit, and choices were taken; nothing else
changed. -/
def State.AfterRead (s t : State) (l : List GotByte) (p : PE) : Prop :=
  t =
    { s with
      pes := s.pes.set s.cur p
      history := s.history ++ readEffects (.pe s.cur) s.pe.inst s.nextUnit l
      nextUnit := s.nextUnit + 1
      pending := t.pending
      drawCount := t.drawCount }

/-- From `s` to `t` the byte `b` got one new write, of the unit `u`, somewhere in its coherence order; memory holds it if
it is the last. -/
def State.ByteStored (s t : State) (u b : Nat) (v : Byte) (follows : Option Source) : Prop :=
  ∃ k, k ≤ (s.orderAt b).lastPlace ∧ (∀ src, follows = some src → (s.orderAt b).sourceAt k = src) ∧
    t.orderAt b = (s.orderAt b).insertAt k { unit := u, value := v, follows := follows } ∧
    t.mem.read b = if k = (s.orderAt b).lastPlace then some v else s.mem.read b

/-- From `s` to `t` the current PE became `p`, but for the words it may fetch; every other PE is as it was, but for those;
and outside the `n` bytes from `addr` memory, the coherence orders and the stages of words are as they were. -/
def State.OnlyStored (s t : State) (addr n : Nat) (p : PE) : Prop :=
  t.cfg = s.cfg ∧ t.cur = s.cur ∧ t.nextInst = s.nextInst ∧ t.turn = s.turn ∧ t.pes.length = s.pes.length ∧
    t.pe.SameButCandidates p ∧
    (∀ q a b, q ≠ s.cur → s.pes[q]? = some a → t.pes[q]? = some b → a.SameButCandidates b) ∧
    (∀ b, b < addr ∨ addr + n ≤ b → t.orderAt b = s.orderAt b ∧ t.mem.read b = s.mem.read b) ∧
    ∀ a, a + 4 ≤ addr ∨ addr + n ≤ a → assocFind t.sync a = assocFind s.sync a

/-- From `s` to `t` the bytes `data` were stored from `addr` up as one unit, and the current PE became `p`. -/
def State.AfterWrite (s t : State) (addr : Nat) (data : List Byte) (p : PE) : Prop :=
  s.OnlyStored t addr data.length p ∧
    (∀ i v, data[i]? = some v → s.ByteStored t s.nextUnit (addr + i) v none) ∧
    t.nextUnit = s.nextUnit + 1 ∧
    t.history =
      s.history ++ writeEffects (.pe s.cur) s.pe.inst s.nextUnit ((byteAddrs addr data.length).zip data)

/-- From `s` to `t` the bytes `data` were stored from `addr` up by `units` units, and the current PE became `p`. -/
def State.AfterWrites (s t : State) (addr : Nat) (data : List Byte) (units : Nat) (p : PE) : Prop :=
  s.OnlyStored t addr data.length p ∧
    (∀ i v, data[i]? = some v →
      ∃ u, s.nextUnit ≤ u ∧ u < s.nextUnit + units ∧ s.ByteStored t u (addr + i) v none) ∧
    t.nextUnit = s.nextUnit + units

/-- A load of several units that has begun. -/
def Access.loadBegun (a : Access) (i : Instr) (us : List MUnit) (done : Completion) : InFlight :=
  { instr := i, addr := a.addr, size := a.total, reads := us, got := [], rmw := none, writes := [], data := []
    interruptible := true, done := done }

/-- A store of several units that has begun. -/
def Access.storeBegun (a : Access) (i : Instr) (us : List MUnit) (data : List Byte) (done : Completion) : InFlight :=
  { instr := i, addr := a.addr, size := a.total, reads := [], got := [], rmw := none, writes := us, data := data
    interruptible := true, done := done }

/-- The current PE is inside a multi-unit instruction that has begun, and nothing else happened (R228 (a)). -/
def State.inside (s : State) (fl : InFlight) : State := s.setPe { s.pe with phase := .inside fl }

/-- The current PE performs units of the instruction it is inside of, one for each choice, until the choices or the units
end (R228 (b)). -/
def State.performUnits : List Nat → State → Res State
  | [], s => .next s
  | k :: ks, s =>
    match s.pe.phase with
    | .inside fl => andThen (s.advance fl k) (State.performUnits ks)
    | _ => .next s

/-- The PE whose step the move is, if it is one of a PE. -/
def actorOf : Move → Option Nat
  | .run p _ => some p
  | .interrupt p => some p
  | .observerRead _ _ => none
  | .observerWrite _ _ _ => none

/-- The sizes and counts that the classes of R62 have. -/
def Access.Shaped (a : Access) : Prop :=
  match a.cls with
  | .gprSingle => a.count = 1 ∧ (a.size = 1 ∨ a.size = 2 ∨ a.size = 4 ∨ a.size = 8)
  | .gprPair => a.count = 2 ∧ (a.size = 4 ∨ a.size = 8)
  | .exclPair32 => a.count = 2 ∧ a.size = 4
  | .exclPair64 => a.count = 2 ∧ a.size = 8
  | .fpSingle => a.count = 1 ∧ (a.size = 1 ∨ a.size = 2 ∨ a.size = 4 ∨ a.size = 8 ∨ a.size = 16)
  | .fpPair => a.count = 2 ∧ (a.size = 4 ∨ a.size = 8 ∨ a.size = 16)
  | .fpElemStruct => a.size = 1 ∨ a.size = 2 ∨ a.size = 4 ∨ a.size = 8
  | .svePred => a.size = 1 ∨ a.size = 2 ∨ a.size = 4 ∨ a.size = 8 ∨ a.size = 16
  | .ls64 => a.count = 1 ∧ a.size = 64
  | .lrcpc => a.count = 1 ∧ (a.size = 1 ∨ a.size = 2 ∨ a.size = 4 ∨ a.size = 8)
  | _ => True

end Sys2Proof.Machine
end

