-- ==== Sys2Proof/Certificates/Slice0/Obligations.lean ====
section
/-! DEFINITION. The statements for the provers. Each docstring names the rules of the spec it formalises, and the log entry
of a clause that is the model's own choice. -/

open Sys2Proof Sys2Proof.Machine

/-! ### Decoding and encoding -/

/-- Every well-formed instruction is read back from its bytes, every operand at every value (30_encoding.md R95, R96, R97,
R101; 20_memory.md R82). -/
def Obligations.DecodeInvertsEncode : Prop :=
  ∀ (i : Instr) (rest : List Byte), i.wellFormed = true → decode (encodeBytes i ++ rest) = .instr i rest

/-- The decoder is the opcode table: a row accepts exactly the words of its match and mask, and a word that decodes has one
instruction, whose word is the word itself (R97, R101). -/
def Obligations.DecoderIsTheTable : Prop :=
  (∀ r ∈ rows, ∀ w : Word32, r.accepts w = true ↔ w &&& BitVec.ofNat 32 r.mask = BitVec.ofNat 32 r.pattern) ∧
    ∀ (w : Word32) (i : Instr), decodeWord w = some i → encode i = w ∧ i.wellFormed = true

/-- Words of 95_test_vectors.md, one of every family, decode to the instructions they stand for. -/
def Obligations.ListedWordsDecode : Prop :=
  decodeWord 0x54FFFFE1 = some (.bCond 0x7FFFF 1) ∧ decodeWord 0xD5033FDF = some (.isb 15) ∧
    decodeWord 0xB9000001 = some (.strImm32 0 0 1) ∧ decodeWord 0xA9400440 = some (.ldpOff64 0 1 2 0) ∧
    decodeWord 0xAD000440 = some (.stpFpQ 0 1 2 0) ∧ decodeWord 0xC8230440 = some (.stxp64 3 1 2 0) ∧
    decodeWord 0xF8BFC001 = some (.ldapr64 0 1) ∧ decodeWord 0x88A17C02 = some (.cas32 1 0 2) ∧
    decodeWord 0xD65F03C0 = none

/-- Which words are CMODX-safe: the words of the instructions of the list, and no others that decode; and the points of R99
that matter: bit 4 of `B.cond`, the one `NOP`, any `CRm` of `ISB`, and the unallocated values of the compare-and-branch
instructions. -/
def Obligations.CmodxSafeDecoderPoints : Prop :=
  (∀ i : Instr, i.wellFormed = true → cmodxSafe (encode i) = i.inCmodxList) ∧
    (∀ w : Word32, decodeWord w = none → cmodxSafe w = false) ∧
    (∀ w : Word32, bitsAt w 24 8 = 0b01010100 → bitsAt w 4 1 = 1 → cmodxSafe w = false) ∧
    (∀ w : Word32, bitsAt w 12 20 = 0b11010101000000110010 → w ≠ 0xD503201F → cmodxSafe w = false) ∧
    (∀ crm : BitVec 4, cmodxSafe (encode (.isb crm)) = true) ∧
    (∀ w : Word32, bitsAt w 25 6 = 0b111010 → bitsAt w 21 3 = 0b100 ∨ bitsAt w 21 3 = 0b101 → cmodxSafe w = false) ∧
    ∀ w : Word32, bitsAt w 24 7 = 0b1110100 → bitsAt w 14 2 = 0b01 → cmodxSafe w = false

/-! ### The start of a run, and the step -/

/-- The start of a run (R220; the values of registers and flags are the model's choice, log 1): every PE is at its entry
point, running, before a fetch, with no exclusive outstanding and no stale instruction; nothing has happened. -/
def Obligations.StartOfRun : Prop :=
  ∀ (cfg : Config) (p : Nat), p < cfg.nPE →
    (State.start cfg).history = [] ∧
      (∀ a, (State.start cfg).syncOf a = .observable) ∧
      ∃ pe, (State.start cfg).pes[p]? = some pe ∧ pe.pc = cfg.entryOf p ∧ pe.run = .running ∧ pe.phase = .atStart ∧
        pe.excl = none ∧
        ∀ a, pe.candidates (State.start cfg).mem a = [memWord (State.start cfg).mem a]

/-- Reset satisfies the invariants of the machine. -/
def Obligations.ResetSatisfiesInvariants : Prop :=
  State.reset.Coherent ∧ State.reset.PcsAligned ∧ State.reset.CandidatesCurrent

/-- A step of a running PE before a fetch runs the instruction that the bytes at its `pc` decode to, as a new instruction
instance (R228 (a), R81 step 6, R96), where nobody has modified the word since the PE last synchronized; where the
instruction stops, the step ends the run of this PE (`orStop`; R208). -/
def Obligations.StepRunsDecodedInstruction : Prop :=
  ∀ (s : State) (p k : Nat) (pe : PE) (b0 b1 b2 b3 : Byte) (i : Instr),
    s.turn = some (.run p k) → s.pes[p]? = some pe → pe.run = .running → pe.phase = .atStart →
    pe.pc.toNat % 4 = 0 → s.Accessible pe.pc.toNat 4 → assocFind pe.cand pe.pc.toNat = none →
    s.mem.read pe.pc.toNat = some b0 → s.mem.read (pe.pc.toNat + 1) = some b1 →
    s.mem.read (pe.pc.toNat + 2) = some b2 → s.mem.read (pe.pc.toNat + 3) = some b3 →
    decode [b0, b1, b2, b3] = .instr i [] →
      step s =
        State.orStop { s with turn := none, cur := p } (exec i (State.newInstance { s with turn := none, cur := p }))

/-- A step of a running PE inside an instruction performs a unit of it, or interrupts it: then the PE goes back to the
start of the instruction, no register is written, and what its units did to memory stays; a PE that was interrupted
executes the instruction again (R56, R206, R228 (b), (c)). That it executes the same decoded instruction, without a fetch
and under the same instance, is the model's choice (log 19), and so is which instructions are interruptible where the spec
does not say it (log 20); a unit or an execution that stops ends the run of this PE (R208). -/
def Obligations.StepInsideInstruction : Prop :=
  ∀ (s : State) (p k : Nat) (pe : PE), s.pes[p]? = some pe → pe.run = .running →
    (∀ fl, pe.phase = .inside fl →
        (s.turn = some (.run p k) →
            step s = State.orStop { s with turn := none, cur := p } (State.advance { s with turn := none, cur := p } fl k)) ∧
          (s.turn = some (.interrupt p) → fl.interruptible = true →
            step s =
              .next { s with turn := none, cur := p, pes := s.pes.set p { pe with phase := .restart fl.instr } })) ∧
      ∀ i, pe.phase = .restart i → s.turn = some (.run p k) →
        step s = State.orStop { s with turn := none, cur := p } (exec i { s with turn := none, cur := p })

/-- An instruction word placed where the current PE fetches is what the next step runs, for every instruction and every
operand; where it stops, the step ends the run of that PE. -/
def Obligations.PlacedWordIsRun : Prop :=
  ∀ (s : State) (i : Instr), i.wellFormed = true → s.curOk = true → s.pe.pc.toNat % 4 = 0 →
    s.Accessible s.pe.pc.toNat 4 →
      step (s.withFetchWord 32 (encode i).toNat) =
        State.orStop { s.withFetchWord 32 (encode i).toNat with turn := none }
          (exec i (State.newInstance { s.withFetchWord 32 (encode i).toNat with turn := none }))

/-- The end of a run is that of one PE (R200, R208, R228). What stops a step of a PE (CmodxUnpredictable, UnwrittenRead, a
byte outside `MEMMAP`, a refusal) ends the run of that PE with its outcome and does nothing else; a PE whose run has ended
takes no further step and is not interrupted; and a step stops the machine only where an external observer reads a byte
that has no value (log 6). -/
def Obligations.RunsEndOneByOne : Prop :=
  (∀ (s : State) (p k : Nat) (pe : PE) (o : PeOutcome), s.pes[p]? = some pe → s.turn = some (.run p k) →
      pe.run = .running →
      ((∃ f, State.runCurrent { s with turn := none, cur := p } k = .fault f ∧ o = f.outcome) ∨
        ∃ why, State.runCurrent { s with turn := none, cur := p } k = .refused why ∧ o = .refuse why) →
        ∃ d c, step s =
          .next { s with
            turn := none
            cur := p
            pes := s.pes.set p { pe with run := .ended o, phase := .atStart }
            pending := d
            drawCount := c }) ∧
    (∀ (s : State) (p k : Nat) (pe : PE), s.pes[p]? = some pe → pe.run ≠ .running →
      (s.turn = some (.run p k) → step s = .next { s with turn := none }) ∧
        (s.turn = some (.interrupt p) → step s = .next { s with turn := none })) ∧
    ∀ s : State, (∀ why, step s ≠ .refused why) ∧
      ∀ f, step s = .fault f → ∃ o addr, s.takeTurn.1 = .observerRead o addr ∧ f = .unwrittenRead addr

/-! ### Invariants of every step -/

/-- Every step keeps the memory system coherent: canonical forms, one order of writes for each byte with memory at its
end, every read from one write, and the properties of R63, R64, R180 and R121 (b) over units (R65, R66). -/
def Obligations.StepKeepsCoherence : Prop :=
  ∀ s s' : State, s.Coherent → step s = .next s' → s'.Coherent

/-- Every step keeps every `pc` a multiple of 4 (R14). -/
def Obligations.StepKeepsPcsAligned : Prop :=
  ∀ s s' : State, s.PcsAligned → step s = .next s' → s'.PcsAligned

/-- Every step keeps the word in memory among the candidates of every fetch (R81). -/
def Obligations.StepKeepsCandidatesCurrent : Prop :=
  ∀ s s' : State, s.CandidatesCurrent → step s = .next s' → s'.CandidatesCurrent

/-- A step of one agent changes nothing of a PE other than that agent, but for the words that PE may fetch (R215). -/
def Obligations.StepLeavesOtherPesAlone : Prop :=
  ∀ (s s' : State) (m : Move) (q : Nat) (a : PE), s.turn = some m → step s = .next s' → actorOf m ≠ some q →
    s.pes[q]? = some a → ∃ b, s'.pes[q]? = some b ∧ a.SameButCandidates b

/-- No step takes a memory effect out of the history or changes one (R23), nor changes the configuration, the number of PEs,
or a flag, an SVE register or the register behind ST64BV0 of any PE (R15, R19, R228; no instruction writes them). -/
def Obligations.NoStepWritesFlagsOrConfiguration : Prop :=
  ∀ s s' : State, step s = .next s' →
    s.history <+: s'.history ∧ s'.cfg = s.cfg ∧ s'.pes.length = s.pes.length ∧
      ∀ (q : Nat) (a b : PE), s.pes[q]? = some a → s'.pes[q]? = some b →
        b.flags = a.flags ∧ b.z = a.z ∧ b.p = a.p ∧ b.accData = a.accData

/-- The run of a PE that has ended stays ended with its outcome, and nothing of the PE changes again, but for the words it
may fetch (R208). -/
def Obligations.EndedPeStaysEnded : Prop :=
  ∀ (s s' : State) (q : Nat) (a : PE), step s = .next s' → s.pes[q]? = some a → a.run ≠ .running →
    ∃ b, s'.pes[q]? = some b ∧ a.SameButCandidates b

/-- An observer that is not one of `EXTERNAL_OBSERVERS`, or that names a byte outside `MEMMAP`, changes nothing (log 5); any
other reads one byte (log 21) and records that, or writes one byte: then that byte gets one new write, the word that holds it
is `written` by the observer if the byte is a new value, and no other byte, no other word, no register and no configuration
changes (R217, R228 (d)). -/
def Obligations.ObserversAreConfined : Prop :=
  ∀ (s : State) (o addr : Nat) (v : Byte),
    (s.cfg.externalObservers.contains o = false ∨ inMemMap s.cfg addr = false →
      (s.turn = some (.observerRead o addr) → step s = .next { s with turn := none }) ∧
        (s.turn = some (.observerWrite o addr v) → step s = .next { s with turn := none })) ∧
      (s.cfg.externalObservers.contains o = true → inMemMap s.cfg addr = true →
        (s.turn = some (.observerRead o addr) → s.Readable addr 1 →
            ∃ t l, step s = .next t ∧ s.Reading addr 1 l ∧
              t =
                { s with
                  turn := none
                  history := s.history ++ readEffects (.observer o) s.nextInst s.nextUnit l
                  nextUnit := s.nextUnit + 1
                  nextInst := s.nextInst + 1
                  pending := t.pending
                  drawCount := t.drawCount }) ∧
          (s.turn = some (.observerWrite o addr v) →
            ∃ t, step s = .next t ∧ s.ByteStored t s.nextUnit addr v none ∧
              (∀ b, b ≠ addr → t.orderAt b = s.orderAt b ∧ t.mem.read b = s.mem.read b) ∧
              t.history = s.history ++ writeEffects (.observer o) s.nextInst s.nextUnit [(addr, v)] ∧
              (∀ a, a ≠ wordAddr addr ∨ s.mem.read addr = some v → assocFind t.sync a = assocFind s.sync a) ∧
              (s.mem.read addr ≠ some v →
                assocFind t.sync (wordAddr addr) = some { stage := .written, writer := .observer o }) ∧
              (∀ (q : Nat) (a b : PE), s.pes[q]? = some a → t.pes[q]? = some b → a.SameButCandidates b) ∧
              t.pes.length = s.pes.length ∧ t.cfg = s.cfg ∧ t.cur = s.cur ∧ t.turn = none ∧
              t.nextUnit = s.nextUnit + 1 ∧ t.nextInst = s.nextInst + 1))

/-- Multi-copy atomicity is not assumed, for Normal memory nor for Device memory (R69, R70; the predicate is log 34): in each
there is a coherent state in which nothing has happened, and three moves of the machine after which one observer has read a
byte new and then another observer has read it old. -/
def Obligations.MultiCopyAtomicityNotAssumed : Prop :=
  ∀ dev : Bool, ∃ (s t : State) (b o₁ o₂ o₃ : Nat) (v : Byte),
    s.Coherent ∧ s.history = [] ∧ byteHas s.cfg MemAttr.isDevice b = dev ∧ inMemMap s.cfg b = true ∧
      o₁ ≠ o₂ ∧ o₁ ≠ o₃ ∧ o₂ ≠ o₃ ∧
      andThen (s.makeMove (.observerWrite o₁ b v)) (fun s₁ =>
        andThen (s₁.makeMove (.observerRead o₂ b)) (·.makeMove (.observerRead o₃ b))) = .next t ∧
      (∃ new old, t.readsOf b = [(.observer o₂, new, 1), (.observer o₃, old, 0)]) ∧ ¬ t.MultiCopyAtomic b

/-! ### Fetch, and the synchronization of modified instructions -/

/-- A fetch returns one of the candidates whole; with several it does so only if all are CMODX-safe, and else it faults
(R73, R74, R81 step 6, R140). -/
def Obligations.FetchReturnsOneCandidate : Prop :=
  ∀ (s : State) (ws : List Word32), s.pe.pc.toNat % 4 = 0 → s.Accessible s.pe.pc.toNat 4 →
    s.pe.candidates s.mem s.pe.pc.toNat = ws.map some →
      (ws ≠ [] → ws.length = 1 ∨ (∀ w ∈ ws, cmodxSafe w = true) →
        ∃ w ∈ ws, ∃ d c, s.fetch = .next (w, { s with pending := d, drawCount := c })) ∧
        (1 < ws.length → (∃ w ∈ ws, cmodxSafe w = false) →
          s.fetch = .fault (.cmodxUnpredictable s.cur s.pe.pc.toNat))

/-- A fetch from a `pc` that is not a multiple of 4 is refused, one that touches a byte outside `MEMMAP` is stuck, and a
word that matches no row is refused (R14, R84, R103). -/
def Obligations.FetchStops : Prop :=
  ∀ s : State,
    (s.pe.pc.toNat % 4 ≠ 0 → s.fetchAndBegin = .refused (.pcMisaligned s.pe.pc.toNat)) ∧
      (s.pe.pc.toNat % 4 = 0 → inMemMap s.cfg s.pe.pc.toNat = false →
        s.fetchAndBegin = .fault (.outsideMemMap s.pe.pc.toNat)) ∧
      ∀ (w : Word32) (s₁ : State), s.fetch = .next (w, s₁) → decodeWord w = none →
        s.fetchAndBegin = .refused (.noRow s.pe.pc.toNat w)

/-- A write unit of a whole aligned word that changes it makes the new word a candidate of every PE beside the old ones,
and the word `written` by the agent (R81 step 1). Where the write is not the last of the coherence order, the word that
memory then holds stays a candidate too (log 27). -/
def Obligations.WriteAddsCandidate : Prop :=
  ∀ (s t : State) (g : Agent) (inst a : Nat) (data : List Byte) (q : Nat) (p p' : PE),
    data.length = 4 → a % 4 = 0 → memWord s.mem a ≠ some (BitVec.ofNat 32 (leValue data)) →
    t = writeUnit g inst { addr := a, size := 4 } data s → s.pes[q]? = some p → t.pes[q]? = some p' →
      assocFind t.sync a = some { stage := .written, writer := g } ∧
        ∀ c, c ∈ p'.candidates t.mem a ↔
          c ∈ p.candidates s.mem a ∨ c = some (BitVec.ofNat 32 (leValue data)) ∨ c = memWord t.mem a

/-- DC CVAU and IC IVAU move the stage of the word at their address, if this PE wrote it and it is at the stage before;
they change nothing else and always complete (R170, R171, R81 steps 2 and 4). -/
def Obligations.CacheMaintenanceMovesOneStage : Prop :=
  ∀ (s : State) (rt : Reg), s.MayAdvance →
    ∀ f ∈ [(Instr.dcCvau rt, SyncStage.written, SyncStage.cleaned), (.icIvau rt, .cleanDone, .invalidated)],
      ∃ sync, exec f.1 s = .next { s with pes := s.pes.set s.cur s.pe.next, sync := sync } ∧
        (∀ a, a ≠ wordAddr (s.pe.readX rt).toNat → assocFind sync a = assocFind s.sync a) ∧
        assocFind sync (wordAddr (s.pe.readX rt).toNat) =
          (assocFind s.sync (wordAddr (s.pe.readX rt).toNat)).map fun e =>
            if e.stage = f.2.1 ∧ e.writer = .pe s.cur then { e with stage := f.2.2 } else e

/-- DSB ISH moves every word this PE wrote by one stage: `cleaned` to `clean_done`, `invalidated` to `observable`, and
`written` to `clean_done` where the word needs no clean; it changes nothing else and always completes (R173, R77, R81 step
3). -/
def Obligations.BarrierMovesEveryWord : Prop :=
  ∀ s : State, s.MayAdvance →
    ∃ sync, exec .dsbIsh s = .next { s with pes := s.pes.set s.cur s.pe.next, sync := sync } ∧
      ∀ a, assocFind sync a = (assocFind s.sync a).map fun e =>
        if e.writer = .pe s.cur then
          match e.stage with
          | .cleaned => { e with stage := .cleanDone }
          | .invalidated => { e with stage := .observable }
          | .written => if needsNoClean s.cfg a then { e with stage := .cleanDone } else e
          | _ => e
        else e

/-- ISB leaves this PE one candidate, the word in memory, for every word that is observable, and the candidates of every
other word; it changes nothing else and always completes (R174, R81 step 5). -/
def Obligations.IsbSynchronizesFetches : Prop :=
  ∀ (s : State) (crm : BitVec 4), s.MayAdvance →
    ∃ cand, exec (.isb crm) s = .next { s with pes := s.pes.set s.cur { s.pe.next with cand := cand } } ∧
      ∀ a, assocFind cand a = if s.syncOf a = .observable then none else assocFind s.pe.cand a

/-- The writer's sequence of R76 and then an ISB of any PE: once a PE has stored a word, cleaned it, waited, invalidated
it and waited, the word is observable, and a PE that executes an ISB fetches the word in memory and nothing else (R76,
R80, R81): the stored word, if its write is the coherence-last one (log 27). The register is not number 31, which names SP in
the store and the zero register in the maintenance instructions (R13). -/
def Obligations.WritersSequenceSynchronizes : Prop :=
  ∀ (s s₁ s₂ s₃ s₄ s₅ s₆ : State) (rn rt : Reg) (crm : BitVec 4) (q : Nat),
    s.curOk = true → rn ≠ 31 → (s.pe.readX rn).toNat % 4 = 0 → s.syncOf (s.pe.readX rn).toNat = .observable →
    exec (.strImm32 0 rn rt) s = .next s₁ → exec (.dcCvau rn) s₁ = .next s₂ → exec .dsbIsh s₂ = .next s₃ →
    exec (.icIvau rn) s₃ = .next s₄ → exec .dsbIsh s₄ = .next s₅ →
    q < s.pes.length → exec (.isb crm) { s₅ with cur := q } = .next s₆ →
      s₅.syncOf (s.pe.readX rn).toNat = .observable ∧
        s₆.pe.candidates s₆.mem (s.pe.readX rn).toNat = [memWord s₆.mem (s.pe.readX rn).toNat]

/-! ### Units of an access -/

/-- The units of an access, in order, are exactly the bytes it reads or writes, each once (R30, R62). -/
def Obligations.UnitsCoverTheAccess : Prop :=
  ∀ (cfg : Config) (a : Access) (us : List MUnit), a.Shaped → a.dir ≠ .failedWrite → a.cls ≠ .ttwRead →
    (a.cls = .dcZva → a.size = cfg.zvaBlockBytes ∧ a.count = 1) → scaUnits cfg a = some us →
      us.flatMap MUnit.bytes = a.bytes

/-- An aligned load or store of one general-purpose register is one unit (R31, R32). -/
def Obligations.AlignedSingleIsOneUnit : Prop :=
  ∀ (cfg : Config) (a : Access), a.cls = .gprSingle → a.count = 1 → a.addr % a.size = 0 →
    scaUnits cfg a = some [{ addr := a.addr, size := a.size }]

/-- A pair of general-purpose registers: one unit under the conditions of R60 and R61, which do not name STNP; else two
units, one for each register, where the address is aligned to the register (R33, R34), and else bytes (R54; that Armv8.4 is
asked for, that nothing else makes a pair one unit, and STNP's part are decisions D9, D5 and D26 of the spec). -/
def Obligations.PairUnits : Prop :=
  ∀ (cfg : Config) (a : Access) (one : Prop), a.cls = .gprPair → a.count = 2 → (a.size = 4 ∨ a.size = 8) →
    (one ↔ cfg.armv8_4OrLater = true ∧ cfg.featLse2 = true ∧ a.mnemonic ∈ [.ldp, .ldnp, .stp] ∧
      (∀ b ∈ a.bytes, iwbOwb cfg b = true) ∧
      (a.size = 8 ∧ a.addr % 16 = 0 ∨ a.size = 4 ∧ a.addr / 16 = (a.addr + 7) / 16)) →
      (one → scaUnits cfg a = some [{ addr := a.addr, size := 2 * a.size }]) ∧
        (¬ one → a.addr % a.size = 0 →
          scaUnits cfg a = some [{ addr := a.addr, size := a.size }, { addr := a.addr + a.size, size := a.size }]) ∧
        (¬ one → a.addr % a.size ≠ 0 → scaUnits cfg a = some (byteUnits a.addr (2 * a.size)))

/-- Exclusive pairs: two 32-bit quantities are one unit in both directions, a Store-Exclusive of two 64-bit quantities that
succeeds is one unit, and one that fails writes nothing (R35, R44). -/
def Obligations.ExclusivePairUnits : Prop :=
  ∀ (cfg : Config) (a : Access),
    (a.cls = .exclPair32 → a.dir ≠ .failedWrite → scaUnits cfg a = some [{ addr := a.addr, size := 8 }]) ∧
      (a.cls = .exclPair64 → a.count = 2 → a.size = 8 → a.dir = .write →
        scaUnits cfg a = some [{ addr := a.addr, size := 16 }]) ∧
      (a.cls = .exclPair32 ∨ a.cls = .exclPair64 → a.dir = .failedWrite → scaUnits cfg a = some [])

/-- SIMD and floating-point accesses: a quantity of 64 bits or fewer aligned to its size is one unit, a 128-bit value
aligned to 64 bits is two, and a pair of 128-bit registers is one unit of 32 bytes under the conditions of R46 and
otherwise two for each register (R38, R39, R42, R43, R46; the last is decision D7 of the spec). -/
def Obligations.SimdUnits : Prop :=
  ∀ (cfg : Config) (a : Access),
    (a.cls = .fpSingle → a.count = 1 → a.size ≤ 8 → a.addr % a.size = 0 →
        scaUnits cfg a = some [{ addr := a.addr, size := a.size }]) ∧
      (a.cls = .fpSingle → a.size = 16 → a.addr % 8 = 0 →
        scaUnits cfg a = some [{ addr := a.addr, size := 8 }, { addr := a.addr + 8, size := 8 }]) ∧
      (a.cls = .fpPair → a.count = 2 → a.size = 16 → cfg.featLs64wb = true → a.addr % 32 = 0 →
        (∀ b ∈ a.bytes, wbShareable cfg b = true) → scaUnits cfg a = some [{ addr := a.addr, size := 32 }]) ∧
      (a.cls = .fpPair → a.count = 2 → a.size = 16 → a.addr % 8 = 0 →
        (cfg.featLs64wb = false ∨ a.addr % 32 ≠ 0 ∨ ∃ b ∈ a.bytes, wbShareable cfg b = false) →
          scaUnits cfg a =
            some [{ addr := a.addr, size := 8 }, { addr := a.addr + 8, size := 8 }, { addr := a.addr + 16, size := 8 },
              { addr := a.addr + 24, size := 8 }])

/-- Elements and vectors: aligned elements of 64 bits or fewer are one unit each and misaligned ones are bytes, predicated
128-bit elements aligned to 64 bits are two each, and unpredicated SVE accesses and DC ZVA are bytes whatever the
configuration (R40, R41, R47, R48, R49, R54, R55; that no feature makes a misaligned element more than bytes is decision D5
of the spec, which elements are accessed is D22, and that unpredicated accesses and DC ZVA are bytes under every feature is
90_conflicts.md C2). -/
def Obligations.ElementAndByteUnits : Prop :=
  ∀ (cfg : Config) (a : Access),
    (a.cls = .fpElemStruct → a.addr % a.size = 0 →
        scaUnits cfg a =
          some ((List.range a.count).map fun i => { addr := a.addr + i * a.size, size := a.size })) ∧
      (a.cls = .fpElemStruct → a.addr % a.size ≠ 0 → scaUnits cfg a = some (byteUnits a.addr a.total)) ∧
      (a.cls = .svePred → a.size ≤ 8 → (∀ e ∈ a.elems, e % a.size = 0) →
        scaUnits cfg a = some (a.elems.map fun e => { addr := e, size := a.size })) ∧
      (a.cls = .svePred → a.size ≤ 8 → (∃ e ∈ a.elems, e % a.size ≠ 0) →
        scaUnits cfg a = some (a.elems.flatMap fun e => byteUnits e a.size)) ∧
      (a.cls = .svePred → a.size = 16 → (∀ e ∈ a.elems, e % 8 = 0) →
        scaUnits cfg a = some (a.elems.flatMap fun e => [{ addr := e, size := 8 }, { addr := e + 8, size := 8 }])) ∧
      (a.cls = .sveUnpred → scaUnits cfg a = some (byteUnits a.addr a.total)) ∧
      (a.cls = .dcZva → scaUnits cfg a = some (byteUnits a.addr cfg.zvaBlockBytes))

/-- A walk reads an entry as one unit, 64-byte accesses are one unit of 64 bytes, FEAT_LRCPC instructions are one unit inside
16 bytes of Write-Back memory, and a misaligned access of one register is one unit inside 16 bytes of Write-Back memory under
FEAT_LSE2 and bytes otherwise (R36, R50, R51, R58, R59, R52, R54; that R58 and R59 need Armv8.4 is decision D9 of the
spec). -/
def Obligations.WalkAndFeatureUnits : Prop :=
  ∀ (cfg : Config) (a : Access),
    (a.cls = .ttwRead → scaUnits cfg a = some [{ addr := a.addr, size := cfg.tteBytes }]) ∧
      (a.cls = .ls64 → cfg.featLs64 = true → a.addr % 64 = 0 → scaUnits cfg a = some [{ addr := a.addr, size := 64 }]) ∧
      (a.cls = .lrcpc → a.count = 1 → 1 ≤ a.size → cfg.armv8_4OrLater = true → cfg.featLrcpc = true →
        a.addr / 16 = (a.addr + a.size - 1) / 16 → (∀ b ∈ a.bytes, iwbOwb cfg b = true) →
          scaUnits cfg a = some [{ addr := a.addr, size := a.size }]) ∧
      (a.cls = .gprSingle ∨ a.cls = .fpSingle → a.count = 1 → 1 ≤ a.size → a.size ≤ 8 → a.addr % a.size ≠ 0 →
        ∀ one : Prop,
          (one ↔ cfg.armv8_4OrLater = true ∧ cfg.featLse2 = true ∧ a.addr / 16 = (a.addr + a.size - 1) / 16 ∧
            ∀ b ∈ a.bytes, iwbOwb cfg b = true) →
          (one → scaUnits cfg a = some [{ addr := a.addr, size := a.size }]) ∧
            (¬ one → scaUnits cfg a = some (byteUnits a.addr a.size)))

/-- SVE accesses (R132, R133): without FEAT_SVE they are refused; a predicated one accesses the elements whose predicate bit
is true (the bit of the lowest byte of the element is the model's choice, log 18), and an unpredicated one is as many bytes
as the register has, one for each 8 bytes of the vector in a predicate register. An access that passes the checks has these
units, and one that raises an exception has none. -/
def Obligations.SveAccesses : Prop :=
  ∀ (cfg : Config) (p : PE) (pg : Fin 16) (dir : Direction) (size addr : Nat) (addrs : List Nat) (r : SveRegister),
    (cfg.featSve = false → ∀ a, sveUnits cfg a = .refused (.featureAbsent .sve)) ∧
      (∀ e, e ∈ (p.svePredAccess pg dir size addrs).elems ↔
        ∃ i : Nat, addrs[i]? = some e ∧ p.p[pg][i * size]? = some true) ∧
      (cfg.featSve = true → size ≤ 8 → (∀ e ∈ (p.svePredAccess pg dir size addrs).elems, e % size = 0) →
        checkAccess cfg (p.svePredAccess pg dir size addrs) = .next none →
          sveUnits cfg (p.svePredAccess pg dir size addrs) =
            .next (.inr ((p.svePredAccess pg dir size addrs).elems.map fun e => { addr := e, size := size }))) ∧
      (cfg.featSve = true → checkAccess cfg (sveUnpredAccess cfg r dir addr) = .next none →
        sveUnits cfg (sveUnpredAccess cfg r dir addr) =
          .next (.inr (byteUnits addr (if r = .vector then cfg.sveVlBytes else cfg.sveVlBytes / 8)))) ∧
      (cfg.featSve = true → ∀ a e, checkAccess cfg a = .next (some e) → sveUnits cfg a = .next (.inl e))

/-! ### Branches and system instructions -/

/-- The table of R15, and the comparisons of R148 and R149: signed for GT, GE and LT, unsigned for HI, HS and LO (the sign of
LT and LO of the immediate form is the model's reading, log 15). -/
def Obligations.ConditionsAndComparisons : Prop :=
  (∀ f : Flags,
    (condHolds f 0 = true ↔ f.z = true) ∧ (condHolds f 1 = true ↔ f.z = false) ∧
      (condHolds f 2 = true ↔ f.c = true) ∧ (condHolds f 3 = true ↔ f.c = false) ∧
      (condHolds f 4 = true ↔ f.n = true) ∧ (condHolds f 5 = true ↔ f.n = false) ∧
      (condHolds f 6 = true ↔ f.v = true) ∧ (condHolds f 7 = true ↔ f.v = false) ∧
      (condHolds f 8 = true ↔ f.c = true ∧ f.z = false) ∧ (condHolds f 9 = true ↔ ¬ (f.c = true ∧ f.z = false)) ∧
      (condHolds f 10 = true ↔ f.n = f.v) ∧ (condHolds f 11 = true ↔ f.n ≠ f.v) ∧
      (condHolds f 12 = true ↔ f.z = false ∧ f.n = f.v) ∧ (condHolds f 13 = true ↔ ¬ (f.z = false ∧ f.n = f.v)) ∧
      condHolds f 14 = true ∧ condHolds f 15 = true) ∧
    ∀ (n : Nat) (a b : BitVec n),
      ((comparisonOfReg 0).map (·.holds a b) = some (decide (b.toInt < a.toInt)) ∧
        (comparisonOfReg 1).map (·.holds a b) = some (decide (b.toInt ≤ a.toInt)) ∧
        (comparisonOfReg 2).map (·.holds a b) = some (decide (b.toNat < a.toNat)) ∧
        (comparisonOfReg 3).map (·.holds a b) = some (decide (b.toNat ≤ a.toNat)) ∧
        comparisonOfReg 4 = none ∧ comparisonOfReg 5 = none ∧
        (comparisonOfReg 6).map (·.holds a b) = some (decide (a = b)) ∧
        (comparisonOfReg 7).map (·.holds a b) = some (decide (a ≠ b))) ∧
      (comparisonOfImm 0).map (·.holds a b) = some (decide (b.toInt < a.toInt)) ∧
        (comparisonOfImm 1).map (·.holds a b) = some (decide (a.toInt < b.toInt)) ∧
        (comparisonOfImm 2).map (·.holds a b) = some (decide (b.toNat < a.toNat)) ∧
        (comparisonOfImm 3).map (·.holds a b) = some (decide (a.toNat < b.toNat)) ∧
        comparisonOfImm 4 = none ∧ comparisonOfImm 5 = none ∧
        (comparisonOfImm 6).map (·.holds a b) = some (decide (a = b)) ∧
        (comparisonOfImm 7).map (·.holds a b) = some (decide (a ≠ b))

/-- Branches: the target, the link register, and nothing else (R141 to R147). Every form completes; B past 2^64 is
refused. -/
def Obligations.BranchesSetPc : Prop :=
  ∀ (s : State) (imm26 : BitVec 26) (imm19 : BitVec 19) (imm14 : BitVec 14) (cond : BitVec 4) (sf b5 : BitVec 1)
      (b40 : BitVec 5) (rt : Reg), s.MayAdvance →
    (branchWraps s.pe.pc (branchOffset imm26) = false →
        exec (.b imm26) s = .next (s.setPe { s.pe with pc := s.pe.pc + branchOffset imm26, phase := .atStart })) ∧
      (branchWraps s.pe.pc (branchOffset imm26) = true → exec (.b imm26) s = .refused (.branchWrap s.pe.pc.toNat)) ∧
      exec (.bl imm26) s =
        .next (s.setPe { s.pe.writeX 30 (s.pe.pc + 4) with pc := s.pe.pc + branchOffset imm26, phase := .atStart }) ∧
      ∀ f ∈ [(Instr.bCond imm19 cond, condHolds s.pe.flags cond, branchOffset imm19),
          (.cbz sf imm19 rt, if sf = 1 then s.pe.readX rt == 0 else s.pe.readW rt == 0, branchOffset imm19),
          (.cbnz sf imm19 rt, if sf = 1 then s.pe.readX rt != 0 else s.pe.readW rt != 0, branchOffset imm19),
          (.tbz b5 b40 imm14 rt, !(s.pe.readX rt).getLsbD (b5 ++ b40).toNat, branchOffset imm14),
          (.tbnz b5 b40 imm14 rt, (s.pe.readX rt).getLsbD (b5 ++ b40).toNat, branchOffset imm14)],
        exec f.1 s =
          .next (s.setPe { s.pe with pc := if f.2.1 then s.pe.pc + f.2.2 else s.pe.pc + 4, phase := .atStart })

/-- Compare and branch (R148 to R151): a model refuses to execute them (R98); under the alternative policy that executes
instructions of low confidence, which is the model's choice (log 14), every form completes with every allocated condition.
The widths and the signs of the immediate, byte and halfword comparisons are the model's reading (log 15). -/
def Obligations.CompareAndBranch : Prop :=
  ∀ (s : State) (sf : BitVec 1) (cc : BitVec 3) (rm rt : Reg) (imm6 : BitVec 6) (imm9 : BitVec 9),
    s.MayAdvance → ccAllocated cc = true →
    (s.cfg.lowConfidence = .refuse →
        ∀ i ∈ [Instr.cbReg sf cc rm imm9 rt, .cbImm sf cc imm6 imm9 rt, .cbb cc rm imm9 rt, .cbh cc rm imm9 rt],
          ∃ n, exec i s = .refused (.lowConfidence n)) ∧
      (s.cfg.lowConfidence = .execute →
        ∀ f ∈ [(Instr.cbReg 1 cc rm imm9 rt, (comparisonOfReg cc).map (·.holds (s.pe.readX rt) (s.pe.readX rm))),
            (.cbReg 0 cc rm imm9 rt, (comparisonOfReg cc).map (·.holds (s.pe.readW rt) (s.pe.readW rm))),
            (.cbImm 1 cc imm6 imm9 rt, (comparisonOfImm cc).map (·.holds (s.pe.readX rt) (imm6.setWidth 64))),
            (.cbImm 0 cc imm6 imm9 rt, (comparisonOfImm cc).map (·.holds (s.pe.readW rt) (imm6.setWidth 32))),
            (.cbb cc rm imm9 rt,
              (comparisonOfReg cc).map (·.holds ((s.pe.readX rt).setWidth 8) ((s.pe.readX rm).setWidth 8))),
            (.cbh cc rm imm9 rt,
              (comparisonOfReg cc).map (·.holds ((s.pe.readX rt).setWidth 16) ((s.pe.readX rm).setWidth 16)))],
          ∃ taken, f.2 = some taken ∧
            exec f.1 s =
              .next (s.setPe
                { s.pe with pc := if taken then s.pe.pc + branchOffset imm9 else s.pe.pc + 4, phase := .atStart }))

/-- Each exception-generating instruction ends the run of its PE with its outcome, which carries `imm16` (R207, R208); that
no register is written and `pc` stays is the model's reading of R208 and decision D18 (log 7). -/
def Obligations.ExceptionGeneratingInstructionsEndTheRun : Prop :=
  ∀ (s : State) (imm16 : BitVec 16),
    ∀ f ∈ [(Instr.brk imm16, PeOutcome.breakpointInstruction imm16), (.svc imm16, .supervisorCall imm16),
        (.hvc imm16, .hypervisorCall imm16), (.smc imm16, .secureMonitorCall imm16)],
      exec f.1 s = .next (s.setPe { s.pe with run := .ended f.2, phase := .atStart })

/-- NOP does nothing but move `pc`; TRCIT hands its register to the trace unit as well and writes no register, flag or
memory location, where it is executed, which is the model's alternative policy (R156, R157; log 14, 17); a model refuses it
(R98). -/
def Obligations.NopAndTrcit : Prop :=
  ∀ (s : State) (rt : Reg), s.MayAdvance →
    exec .nop s = .next (s.setPe s.pe.next) ∧
      (s.cfg.lowConfidence = .refuse → exec (.trcit rt) s = .refused (.lowConfidence "TRCIT")) ∧
      (s.cfg.lowConfidence = .execute →
        exec (.trcit rt) s = .next (s.setPe { s.pe.next with trace := s.pe.trace ++ [s.pe.readX rt] }))

/-! ### Loads and stores -/

/-- LDR of 4 and 8 bytes: the value of the bytes read, the first in bits 7:0, extended with zeros; nothing else changes but
the record of the read (R111, R82). An access of several units has begun (R228 (a)). -/
def Obligations.LoadRegister : Prop :=
  ∀ (s : State) (imm12 : BitVec 12) (rn rt : Reg),
    ∀ f ∈ [(Instr.ldrImm32 imm12 rn rt, 4), (.ldrImm64 imm12 rn rt, 8)],
      ∀ us, s.Clear (singleAccess .read (loadAddress (s.pe.readBase rn) imm12 f.2) f.2) →
        s.Readable (loadAddress (s.pe.readBase rn) imm12 f.2) f.2 →
        scaUnits s.cfg (singleAccess .read (loadAddress (s.pe.readBase rn) imm12 f.2) f.2) = some us →
          (us.length = 1 → ∃ t l, exec f.1 s = .next t ∧ s.Reading (loadAddress (s.pe.readBase rn) imm12 f.2) f.2 l ∧
              s.AfterRead t l (s.pe.writeX rt (BitVec.ofNat 64 (gotValue l))).next) ∧
            (1 < us.length → exec f.1 s =
              .next (s.inside ((singleAccess .read (loadAddress (s.pe.readBase rn) imm12 f.2) f.2).loadBegun f.1 us
                (.loadGpr rt))))

/-- STR of 4 and 8 bytes: the low bytes of the register at the address, the first lowest; every byte outside them is
unchanged (R110, R82). An access of several units has begun (R228 (a)). -/
def Obligations.StoreRegister : Prop :=
  ∀ (s : State) (imm12 : BitVec 12) (rn rt : Reg),
    ∀ f ∈ [(Instr.strImm32 imm12 rn rt, 4), (.strImm64 imm12 rn rt, 8)],
      ∀ us, s.Clear (singleAccess .write (storeAddress (s.pe.readBase rn) imm12 f.2) f.2) →
        scaUnits s.cfg (singleAccess .write (storeAddress (s.pe.readBase rn) imm12 f.2) f.2) = some us →
          (us.length = 1 → ∃ t, exec f.1 s = .next t ∧
              s.AfterWrite t (storeAddress (s.pe.readBase rn) imm12 f.2) (leBytes f.2 (s.pe.readX rt).toNat)
                s.pe.next) ∧
            (1 < us.length → exec f.1 s =
              .next (s.inside ((singleAccess .write (storeAddress (s.pe.readBase rn) imm12 f.2) f.2).storeBegun f.1 us
                (leBytes f.2 (s.pe.regValue rt f.2)) (.store none))))

/-- LDP and LDNP: the first register gets the lower bytes, the second the upper, and the base is written back where the
form does so (R112, R113). An access of several units has begun (R228 (a)). -/
def Obligations.LoadPair : Prop :=
  ∀ (s : State) (imm7 : BitVec 7) (rt2 rn rt : Reg), rt ≠ rt2 →
    ∀ f ∈ [(Instr.ldpPost32 imm7 rt2 rn rt, PairMnemonic.ldp, Indexing.post, 4),
        (.ldpOff32 imm7 rt2 rn rt, .ldp, .offset, 4), (.ldpPre32 imm7 rt2 rn rt, .ldp, .pre, 4),
        (.ldnp32 imm7 rt2 rn rt, .ldnp, .offset, 4), (.ldpPost64 imm7 rt2 rn rt, .ldp, .post, 8),
        (.ldpOff64 imm7 rt2 rn rt, .ldp, .offset, 8), (.ldpPre64 imm7 rt2 rn rt, .ldp, .pre, 8),
        (.ldnp64 imm7 rt2 rn rt, .ldnp, .offset, 8)],
      ∀ (a : Access) (us : List MUnit), f.2.2.1.overlaps rn rt rt2 = false →
        a = pairAccess f.2.1 .read (f.2.2.1.address (s.pe.readBase rn) (pairOffset imm7 f.2.2.2)) f.2.2.2 →
        s.Clear a → s.Readable a.addr a.total → scaUnits s.cfg a = some us →
          (us.length = 1 → ∃ t l, exec f.1 s = .next t ∧ s.Reading a.addr (2 * f.2.2.2) l ∧
              s.AfterRead t l
                (((s.pe.writeX rt (BitVec.ofNat 64 (gotValue (l.take f.2.2.2)))).writeX rt2
                  (BitVec.ofNat 64 (gotValue (l.drop f.2.2.2)))).writeback
                    (f.2.2.1.writeback rn (s.pe.readBase rn) (pairOffset imm7 f.2.2.2))).next) ∧
            (1 < us.length → exec f.1 s =
              .next (s.inside (a.loadBegun f.1 us
                (.loadPair rt rt2 f.2.2.2 (f.2.2.1.writeback rn (s.pe.readBase rn) (pairOffset imm7 f.2.2.2))))))

/-- STP and STNP: the first register at the lower address, the second above it, the base written back where the form does
so, and every byte outside them unchanged (R114, R115). An access of several units has begun (R228 (a)). -/
def Obligations.StorePair : Prop :=
  ∀ (s : State) (imm7 : BitVec 7) (rt2 rn rt : Reg),
    ∀ f ∈ [(Instr.stpPost32 imm7 rt2 rn rt, PairMnemonic.stp, Indexing.post, 4),
        (.stpOff32 imm7 rt2 rn rt, .stp, .offset, 4), (.stpPre32 imm7 rt2 rn rt, .stp, .pre, 4),
        (.stnp32 imm7 rt2 rn rt, .stnp, .offset, 4), (.stpPost64 imm7 rt2 rn rt, .stp, .post, 8),
        (.stpOff64 imm7 rt2 rn rt, .stp, .offset, 8), (.stpPre64 imm7 rt2 rn rt, .stp, .pre, 8),
        (.stnp64 imm7 rt2 rn rt, .stnp, .offset, 8)],
      ∀ (a : Access) (us : List MUnit), f.2.2.1.overlaps rn rt rt2 = false →
        a = pairAccess f.2.1 .write (f.2.2.1.address (s.pe.readBase rn) (pairOffset imm7 f.2.2.2)) f.2.2.2 →
        s.Clear a → scaUnits s.cfg a = some us →
          (us.length = 1 → ∃ t, exec f.1 s = .next t ∧
              s.AfterWrite t a.addr
                (leBytes f.2.2.2 (s.pe.readX rt).toNat ++ leBytes f.2.2.2 (s.pe.readX rt2).toNat)
                (s.pe.writeback (f.2.2.1.writeback rn (s.pe.readBase rn) (pairOffset imm7 f.2.2.2))).next) ∧
            (1 < us.length → exec f.1 s =
              .next (s.inside (a.storeBegun f.1 us (s.pe.pairBytes rt rt2 f.2.2.2)
                (.store (f.2.2.1.writeback rn (s.pe.readBase rn) (pairOffset imm7 f.2.2.2))))))

/-- LDP (SIMD&FP): the two registers get the lower and the upper bytes, extended with zeros to 128 bits (R116). An access
of several units has begun (R228 (a)); without the feature the instruction is refused. -/
def Obligations.LoadSimdPair : Prop :=
  ∀ (s : State) (imm7 : BitVec 7) (rt2 rn rt : Reg), rt ≠ rt2 →
    ∀ f ∈ [(Instr.ldpFpS imm7 rt2 rn rt, 4), (.ldpFpD imm7 rt2 rn rt, 8), (.ldpFpQ imm7 rt2 rn rt, 16)],
      (s.cfg.featAdvSimdFp = false → exec f.1 s = .refused (.featureAbsent .advSimdFp)) ∧
        ∀ (a : Access) (us : List MUnit), s.cfg.featAdvSimdFp = true →
          a = fpPairAccess .ldp .read (s.pe.readBase rn + pairOffset imm7 f.2).toNat f.2 →
          s.Clear a → s.Readable a.addr a.total → scaUnits s.cfg a = some us →
            (us.length = 1 → ∃ t l, exec f.1 s = .next t ∧ s.Reading a.addr (2 * f.2) l ∧
                s.AfterRead t l
                  ((s.pe.writeV rt (BitVec.ofNat 128 (gotValue (l.take f.2)))).writeV rt2
                    (BitVec.ofNat 128 (gotValue (l.drop f.2)))).next) ∧
              (1 < us.length → exec f.1 s = .next (s.inside (a.loadBegun f.1 us (.loadFpPair rt rt2 f.2))))

/-- STP (SIMD&FP): the low bytes of the first register at the lower address, those of the second above it (R117). An
access of several units has begun (R228 (a)). -/
def Obligations.StoreSimdPair : Prop :=
  ∀ (s : State) (imm7 : BitVec 7) (rt2 rn rt : Reg),
    ∀ f ∈ [(Instr.stpFpS imm7 rt2 rn rt, 4), (.stpFpD imm7 rt2 rn rt, 8), (.stpFpQ imm7 rt2 rn rt, 16)],
      ∀ (a : Access) (us : List MUnit), s.cfg.featAdvSimdFp = true →
        a = fpPairAccess .stp .write (s.pe.readBase rn + pairOffset imm7 f.2).toNat f.2 →
        s.Clear a → scaUnits s.cfg a = some us →
          (us.length = 1 → ∃ t, exec f.1 s = .next t ∧
              s.AfterWrite t a.addr (leBytes f.2 (s.pe.readV rt).toNat ++ leBytes f.2 (s.pe.readV rt2).toNat)
                s.pe.next) ∧
            (1 < us.length →
              exec f.1 s = .next (s.inside (a.storeBegun f.1 us (s.pe.fpPairBytes rt rt2 f.2) (.store none))))

/-- FEAT_LRCPC loads: one unit, its value extended with zeros (R123 to R125); without the feature they are refused. -/
def Obligations.LoadRcpc : Prop :=
  ∀ (s : State) (rn rt : Reg),
    ∀ f ∈ [(Instr.ldapr32 rn rt, 4), (.ldapr64 rn rt, 8), (.ldaprh rn rt, 2), (.ldaprb rn rt, 1)],
      (s.cfg.featLrcpc = false → exec f.1 s = .refused (.featureAbsent .lrcpc)) ∧
        ∀ (a : Access) (us : List MUnit), s.cfg.featLrcpc = true →
          a = rcpcAccess (s.pe.readBase rn).toNat f.2 →
          s.Clear a → s.Readable a.addr a.total → scaUnits s.cfg a = some us →
            us.length = 1 ∧
              ∃ t l, exec f.1 s = .next t ∧ s.Reading a.addr f.2 l ∧
                s.AfterRead t l (s.pe.writeX rt (BitVec.ofNat 64 (gotValue l))).next

/-- 64-byte loads and stores: a model refuses to execute them (R98); under the alternative policy, which is the model's choice
(log 14, 16), eight registers from the first up, the lowest address into or from the first, in one unit; the status that
ST64BV and ST64BV0 write is any value, and ST64BV0 takes its low 32 bits from a system register (R126 to R129, R50, R51). -/
def Obligations.SixtyFourByteAccesses : Prop :=
  ∀ (s : State) (rs rn rt : Reg) (addr : Nat),
    (s.cfg.lowConfidence = .refuse → ∀ i ∈ [Instr.ld64b rn rt, .st64b rn rt, .st64bv rs rn rt, .st64bv0 rs rn rt],
      ∃ n, exec i s = .refused (.lowConfidence n)) ∧
    (s.cfg.lowConfidence = .execute → s.cfg.featLs64 = true →
    rt.toNat ≤ 24 → s.MayAdvance → addr = (s.pe.readBase rn).toNat → addr % 64 = 0 → s.Accessible addr 64 →
      (s.Readable addr 64 → ∃ t l, exec (.ld64b rn rt) s = .next t ∧ s.Reading addr 64 l ∧
          s.AfterRead t l (s.pe.writeEight rt l).next) ∧
        (∃ t, exec (.st64b rn rt) s = .next t ∧ s.AfterWrite t addr (s.pe.eightBytes rt) s.pe.next) ∧
        (∃ t v, exec (.st64bv rs rn rt) s = .next t ∧
          s.AfterWrite t addr (s.pe.eightBytes rt) (s.pe.writeX rs v).next) ∧
        ∃ t v, exec (.st64bv0 rs rn rt) s = .next t ∧
          s.AfterWrite t addr (leBytes 4 s.pe.accData.toNat ++ (s.pe.eightBytes rt).drop 4) (s.pe.writeX rs v).next)

/-- DC ZVA on memory that is not Device begins the writing of zeros to the naturally aligned block that holds its address,
each byte a unit of its own; on Device memory it is refused (R172, R55; log 26). -/
def Obligations.ZeroBlock : Prop :=
  ∀ (s : State) (rt : Reg),
    (zvaOnDevice s.cfg (s.pe.readX rt) = true →
        exec (.dcZva rt) s = .refused (.zvaDevice (zvaAccess s.cfg (s.pe.readX rt)).addr)) ∧
      (zvaOnDevice s.cfg (s.pe.readX rt) = false → 1 < s.cfg.zvaBlockBytes →
        s.Clear (zvaAccess s.cfg (s.pe.readX rt)) →
          (zvaAccess s.cfg (s.pe.readX rt)).addr % s.cfg.zvaBlockBytes = 0 ∧
            exec (.dcZva rt) s =
              .next (s.inside ((zvaAccess s.cfg (s.pe.readX rt)).storeBegun (.dcZva rt)
                (byteUnits (zvaAccess s.cfg (s.pe.readX rt)).addr s.cfg.zvaBlockBytes)
                (List.replicate s.cfg.zvaBlockBytes 0) (.store none)))) ∧
      (zvaOnDevice s.cfg (s.pe.readX rt) = false → s.cfg.zvaBlockBytes = 1 →
        s.Clear (zvaAccess s.cfg (s.pe.readX rt)) →
          ∃ t, exec (.dcZva rt) s = .next t ∧ s.AfterWrite t (s.pe.readX rt).toNat [0] s.pe.next)

/-! ### Instructions of several units, to their end -/

/-- A load of several units that has begun completes, in whatever order its units are performed, where no other agent steps
between them: its registers get the values of bytes each read from a write of its order, and memory is unchanged (R228 (b),
R65, R82). -/
def Obligations.BegunLoadCompletes : Prop :=
  ∀ (s : State) (fl : InFlight) (ks : List Nat), s.MayAdvance → s.pe.phase = .inside fl → fl.rmw = none →
    fl.writes = [] → fl.got = [] → fl.reads ≠ [] →
    (fl.reads.flatMap MUnit.bytes).Perm (byteAddrs fl.addr fl.size) → s.Readable fl.addr fl.size →
    ks.length = fl.reads.length → (∀ rs, fl.done ≠ .store64Status rs) → (∀ rd, fl.done ≠ .atomic rd true) →
      ∃ t l, s.performUnits ks = .next t ∧ s.Reading fl.addr fl.size l ∧
        t =
          { s with
            pes := s.pes.set s.cur (s.pe.complete fl.addr l fl.done).next
            history := t.history
            nextUnit := s.nextUnit + fl.reads.length
            pending := t.pending
            drawCount := t.drawCount }

/-- A store of several units that has begun completes, in whatever order its units are performed, where no other agent steps
between them: every byte gets one new write of its value, and every other byte is unchanged (R228 (b), R65, R82). -/
def Obligations.BegunStoreCompletes : Prop :=
  ∀ (s : State) (fl : InFlight) (ks : List Nat) (wb : Option (Reg × Word64)), s.MayAdvance →
    s.pe.phase = .inside fl → fl.adjacent = false → fl.rmw = none → fl.reads = [] → fl.writes ≠ [] →
    (fl.writes.flatMap MUnit.bytes).Perm (byteAddrs fl.addr fl.size) → fl.data.length = fl.size →
    ks.length = fl.writes.length → fl.done = .store wb →
      ∃ t, s.performUnits ks = .next t ∧
        s.AfterWrites t fl.addr fl.data fl.writes.length (s.pe.writeback wb).next

/-- The non-atomic performance of an atomic instruction completes: the old value goes to its register and the new value,
if there is one, to memory; nothing is said of what comes between the read and the write (R190, R193 to R195). Where a System
Error interrupt was drawn with it, the run of the PE then ends, after the instruction has completed (R190,
90_conflicts.md C12). -/
def Obligations.NonAtomicPerformanceCompletes : Prop :=
  ∀ (s : State) (fl : InFlight) (op : AtomicOp) (rd : Reg) (thenSError : Bool) (ks : List Nat), s.MayAdvance →
    s.pe.phase = .inside fl → fl.adjacent = false →
    fl.rmw = some op → fl.got = [] → fl.reads ≠ [] → fl.writes ≠ [] →
    (fl.reads.flatMap MUnit.bytes).Perm (byteAddrs fl.addr fl.size) →
    (fl.writes.flatMap MUnit.bytes).Perm (byteAddrs fl.addr fl.size) → s.Readable fl.addr fl.size →
    ks.length = fl.reads.length + fl.writes.length → fl.done = .atomic rd thenSError →
      ∃ t l p, s.performUnits ks = .next t ∧ s.Reading fl.addr fl.size l ∧
        p = { (s.pe.writeX rd (BitVec.ofNat 64 (gotValue l))).next with
              run := if thenSError then .ended (.sError fl.addr) else s.pe.run } ∧
        t.pe.SameButCandidates p ∧
        (op.apply fl.size (gotValue l) = none → t.mem = s.mem ∧ t.coh = s.coh) ∧
        ∀ v, op.apply fl.size (gotValue l) = some v →
          s.OnlyStored t fl.addr fl.size p ∧
            ∀ i b, (leBytes fl.size v)[i]? = some b → ∃ u, s.ByteStored t u (fl.addr + i) b none

/-! ### Exclusive pairs -/

/-- LDXP and LDAXP: the two registers, and the exclusive state with the address, the size and the reads (R118, R120). The
32-bit pair is one unit and completes; the 64-bit pair has begun (R35, R44). -/
def Obligations.LoadExclusivePair : Prop :=
  ∀ (s : State) (rt2 rn rt : Reg), rt ≠ rt2 →
    (∀ f ∈ [Instr.ldxp32 rt2 rn rt, .ldaxp32 rt2 rn rt],
        s.Clear (exclusiveAccess .read (s.pe.readBase rn).toNat 4) → s.Readable (s.pe.readBase rn).toNat 8 →
          ∃ t l, exec f s = .next t ∧ s.Reading (s.pe.readBase rn).toNat 8 l ∧
            s.AfterRead t l
              { ((s.pe.writeX rt (BitVec.ofNat 64 (gotValue (l.take 4)))).writeX rt2
                  (BitVec.ofNat 64 (gotValue (l.drop 4)))).next with
                excl := some { addr := (s.pe.readBase rn).toNat, size := 8, reads := l } }) ∧
      ∀ f ∈ [Instr.ldxp64 rt2 rn rt, .ldaxp64 rt2 rn rt],
        ∀ us, s.Clear (exclusiveAccess .read (s.pe.readBase rn).toNat 8) →
          scaUnits s.cfg (exclusiveAccess .read (s.pe.readBase rn).toNat 8) = some us →
            1 < us.length ∧
              exec f s = .next (s.inside ((exclusiveAccess .read (s.pe.readBase rn).toNat 8).loadBegun f us
                (.loadExclusive rt rt2 8)))

/-- A Store-Exclusive pair with no matching Load-Exclusive outstanding fails, and one that has a match may fail for no
reason: status 1, no access made, whatever stands at the address, and no exclusive outstanding (R119, R121 (a), (c),
R122). -/
def Obligations.StoreExclusiveFails : Prop :=
  ∀ (s : State) (rs rt2 rn rt : Reg) (ds : List Nat), rs ≠ rt → rs ≠ rt2 → (rs ≠ rn ∨ rn = 31) → s.MayAdvance →
    ∀ f ∈ [(Instr.stxp32 rs rt2 rn rt, 4), (.stlxp32 rs rt2 rn rt, 4), (.stxp64 rs rt2 rn rt, 8),
        (.stlxp64 rs rt2 rn rt, 8)],
      (s.pe.readBase rn).toNat % (2 * f.2) = 0 →
        ((∀ e, s.pe.excl = some e → e.addr ≠ (s.pe.readBase rn).toNat ∨ e.size ≠ 2 * f.2) →
            exec f.1 s = .next (s.setPe { (s.pe.writeX rs 1).next with excl := none })) ∧
          (exclusivePlaces s (s.pe.readBase rn).toNat (2 * f.2) ≠ none → s.pending = 0 :: ds →
            exec f.1 s =
              .next { s with
                pes := s.pes.set s.cur { (s.pe.writeX rs 1).next with excl := none }
                pending := ds })

/-- A Store-Exclusive pair of the address and size of the outstanding Load-Exclusive, whose bytes nobody has written since
that read their latest writes, may succeed: status 0, no exclusive outstanding, and every byte's write is the immediate
successor in the coherence order of the write that the Load-Exclusive read (R119, R121 (b), R122). -/
def Obligations.StoreExclusiveSucceeds : Prop :=
  ∀ (s : State) (rs rt2 rn rt : Reg) (ds : List Nat) (reads : List GotByte), rs ≠ rt → rs ≠ rt2 →
    (rs ≠ rn ∨ rn = 31) → s.UnitsNumbered → s.pending = 1 :: ds →
    ∀ f ∈ [(Instr.stxp32 rs rt2 rn rt, 4), (.stlxp32 rs rt2 rn rt, 4), (.stxp64 rs rt2 rn rt, 8),
        (.stlxp64 rs rt2 rn rt, 8)],
      s.Clear (exclusiveAccess .write (s.pe.readBase rn).toNat f.2) →
      s.pe.excl = some { addr := (s.pe.readBase rn).toNat, size := 2 * f.2, reads := reads } →
      reads.map (·.addr) = byteAddrs (s.pe.readBase rn).toNat (2 * f.2) →
      (∀ g ∈ reads, g.source = (s.orderAt g.addr).sourceAt (s.orderAt g.addr).lastPlace) →
        ∃ t, exec f.1 s = .next t ∧
          s.OnlyStored t (s.pe.readBase rn).toNat (2 * f.2) { (s.pe.writeX rs 0).next with excl := none } ∧
          t.nextUnit = s.nextUnit + 1 ∧
          ∀ i v g, (leBytes f.2 (s.pe.readX rt).toNat ++ leBytes f.2 (s.pe.readX rt2).toNat)[i]? = some v →
            reads[i]? = some g →
              s.ByteStored t s.nextUnit ((s.pe.readBase rn).toNat + i) v (some g.source)

/-- Where a Store-Exclusive pair may succeed, the reads of its Load-Exclusive pair satisfy the property of one read unit:
no unit that one of them read from has a later write on a byte of another (R45, R64). -/
def Obligations.ExclusiveReadsCountAsOneUnit : Prop :=
  ∀ (s : State) (addr size : Nat) (ps : List Pick) (e : Exclusive), s.pe.excl = some e →
    e.reads.map (·.addr) = byteAddrs addr size → exclusivePlaces s addr size = some ps →
      ∀ g ∈ e.reads, ∀ g' ∈ e.reads, ∀ u, g.source = .unit u → ¬ s.CoherenceAfter g'.addr (.unit u) g'.source

/-! ### Atomic instructions -/

/-- LDADD, SWP and CAS where the system supports them (R53, R180, R191, R193 to R195): what each computes; the instruction
begins with one read unit and one write unit, two steps of the PE; performed with no other agent between them they complete,
the old value in the register, each byte's write the immediate successor of the write that was read, and a CAS whose
comparison fails reads only. Where other agents have stepped between the two so that no such place is left, the history is
one that R191 rejects, and the PE has no step (log 9). -/
def Obligations.SupportedAtomics : Prop :=
  (∀ n old v cmp : Nat,
    (AtomicOp.add v).apply n old = some ((old + v) % 2 ^ (8 * n)) ∧ (AtomicOp.swap v).apply n old = some v ∧
      (old = cmp → (AtomicOp.compareSwap cmp v).apply n old = some v) ∧
      (old ≠ cmp → (AtomicOp.compareSwap cmp v).apply n old = none)) ∧
    (∀ (s : State) (rs rn rt : Reg),
      ∀ f ∈ [(Instr.ldadd32 rs rn rt, 4, AtomicOp.add (s.pe.regValue rs 4), rt),
          (.ldadd64 rs rn rt, 8, .add (s.pe.regValue rs 8), rt), (.swp32 rs rn rt, 4, .swap (s.pe.regValue rs 4), rt),
          (.swp64 rs rn rt, 8, .swap (s.pe.regValue rs 8), rt),
          (.cas32 rs rn rt, 4, .compareSwap (s.pe.regValue rs 4) (s.pe.regValue rt 4), rs),
          (.cas64 rs rn rt, 8, .compareSwap (s.pe.regValue rs 8) (s.pe.regValue rt 8), rs)],
        ∀ (addr : Nat) (fl : InFlight), addr = (s.pe.readBase rn).toNat →
        fl =
          { instr := f.1, addr := addr, size := f.2.1, reads := [{ addr := addr, size := f.2.1 }], got := []
            rmw := some f.2.2.1, writes := [{ addr := addr, size := f.2.1 }], data := [], interruptible := false
            adjacent := true, done := .atomic f.2.2.2 false } →
        s.cfg.featAtomics = true → s.MayAdvance → addr % f.2.1 = 0 → s.Accessible addr f.2.1 →
        (∀ b, addr ≤ b → b < addr + f.2.1 → atomicSupported s.cfg b = true) →
          exec f.1 s = .next (s.inside fl) ∧
            ∀ ks : List Nat, ks.length = 2 → s.Readable addr f.2.1 → s.UnitsNumbered →
              ∃ t l, (s.inside fl).performUnits ks = .next t ∧ s.Reading addr f.2.1 l ∧
                (f.2.2.1.apply f.2.1 (gotValue l) = none →
                  s.AfterRead t l (s.pe.writeX f.2.2.2 (BitVec.ofNat 64 (gotValue l))).next) ∧
                ∀ v, f.2.2.1.apply f.2.1 (gotValue l) = some v →
                  s.OnlyStored t addr f.2.1 (s.pe.writeX f.2.2.2 (BitVec.ofNat 64 (gotValue l))).next ∧
                    t.nextUnit = s.nextUnit + 2 ∧
                    ∀ i b g, (leBytes f.2.1 v)[i]? = some b → l[i]? = some g →
                      s.ByteStored t (s.nextUnit + 1) (addr + i) b (some g.source)) ∧
    ∀ (s : State) (fl : InFlight) (u : MUnit) (k : Nat), fl.adjacent = true → fl.reads = [] → fl.writes = [u] →
      successorPlaces s fl.got u.addr u.size = none → s.advance fl k = .next s

/-- An atomic instruction at a location where it is not supported shows the effect of `ATOMIC_UNSUPPORTED_EFFECT` that was
drawn: the three exceptions end the run with nothing performed, a NOP moves `pc` only, and non-atomic performance begins
with its reads (R188, R189, R190, R191). Two clauses are the model's choices: that a non-atomic performance is interruptible
exactly where its read is more than one unit, as R56 says of the unit list of an access (log 20), and that an empty
`ATOMIC_UNSUPPORTED_EFFECT` is read as the default of all seven effects (`effectSet`; log 31). -/
def Obligations.UnsupportedAtomics : Prop :=
  ∀ (s : State) (rs rn rt : Reg) (addr : Nat),
    ∀ f ∈ [(Instr.ldadd32 rs rn rt, 4, AtomicOp.add (s.pe.regValue rs 4), rt),
        (.ldadd64 rs rn rt, 8, .add (s.pe.regValue rs 8), rt), (.swp32 rs rn rt, 4, .swap (s.pe.regValue rs 4), rt),
        (.swp64 rs rn rt, 8, .swap (s.pe.regValue rs 8), rt),
        (.cas32 rs rn rt, 4, .compareSwap (s.pe.regValue rs 4) (s.pe.regValue rt 4), rs),
        (.cas64 rs rn rt, 8, .compareSwap (s.pe.regValue rs 8) (s.pe.regValue rt 8), rs)],
      s.cfg.featAtomics = true → s.MayAdvance → addr = (s.pe.readBase rn).toNat → addr % f.2.1 = 0 →
      s.Accessible addr f.2.1 → (∃ b, addr ≤ b ∧ b < addr + f.2.1 ∧ atomicSupported s.cfg b = false) →
        ∃ e d c,
          (effectSet s.cfg)[if (effectSet s.cfg).length ≤ 1 then 0 else s.draw.1 % (effectSet s.cfg).length]? = some e ∧
          ∀ s₁, s₁ = { s with pending := d, drawCount := c } →
          match e with
          | .externalAbort => exec f.1 s = .next (s₁.endRun (.synchronousExternalAbort addr))
          | .sError => exec f.1 s = .next (s₁.endRun (.sError addr))
          | .mmuFault => exec f.1 s = .next (s₁.takeMmuFault addr)
          | .nop => exec f.1 s = .next (s₁.setPe s₁.pe.next)
          | .nopThenSError => exec f.1 s = .next (s₁.endRun (.sError addr))
          | .nonAtomic => exec f.1 s = .next (s₁.inside
              { instr := f.1, addr := addr, size := f.2.1, reads := atomicUnits s.cfg (atomicAccess addr f.2.1)
                got := [], rmw := some f.2.2.1, writes := atomicUnits s.cfg (atomicAccess addr f.2.1), data := []
                interruptible := decide (1 < (atomicUnits s.cfg (atomicAccess addr f.2.1)).length)
                done := .atomic f.2.2.2 false })
          | .nonAtomicThenSError => exec f.1 s = .next (s₁.inside
              { instr := f.1, addr := addr, size := f.2.1, reads := atomicUnits s.cfg (atomicAccess addr f.2.1)
                got := [], rmw := some f.2.2.1, writes := atomicUnits s.cfg (atomicAccess addr f.2.1), data := []
                interruptible := decide (1 < (atomicUnits s.cfg (atomicAccess addr f.2.1)).length)
                done := .atomic f.2.2.2 true })

/-- The IMPLEMENTATION DEFINED MMU fault: a Data Abort whose fault status code `110101` stands in `DFSC` of the `ESR_ELx` of
the level it is taken to; first stage and EL1, or second stage and EL2 where the second stage is enabled and the cause lies
there, which is a choice; from EL2 and EL3, that level (R203, R205). The run of the PE ends, and no other bit of any register
changes (R204, R208; the place of `DFSC` is R17, the rest log 7 and 8). -/
def Obligations.MmuFaultRouting : Prop :=
  ∀ (s : State) (addr : Nat), ∃ stage target esr d c,
    s.takeMmuFault addr =
        { s with
          pes := s.pes.set s.cur
            { s.pe.setEsr target esr with
              run := .ended (.dataAbort 0b110101 addr stage target), phase := .atStart }
          pending := d
          drawCount := c } ∧
      dfscOf esr = 0b110101 ∧ (∀ i, 6 ≤ i → i < 64 → esr.getLsbD i = (s.pe.esr target).getLsbD i) ∧
      (∀ p : PE, (p.setEsr target esr).esr target = esr ∧ ∀ e, e ≠ target → (p.setEsr target esr).esr e = p.esr e) ∧
      (s.cfg.el = .el0 ∨ s.cfg.el = .el1 →
        (s.cfg.stage2Enabled = false → stage = .first ∧ target = .el1) ∧
          (s.cfg.stage2Enabled = true →
            (s.draw.1 % 2 = 0 → stage = .first ∧ target = .el1) ∧
              (s.draw.1 % 2 = 1 → stage = .second ∧ target = .el2))) ∧
      (s.cfg.el = .el2 ∨ s.cfg.el = .el3 → stage = .first ∧ target = s.cfg.el)

/-- Where atomic instructions are supported: everywhere R186 and R187 guarantee it, whatever the implementation treats as
Non-cacheable (R185), and elsewhere as the system defines it (R184; log 24); atomic floating-point operations likewise, and
they may differ only at Device and Non-cacheable bytes (R192). -/
def Obligations.AtomicSupport : Prop :=
  ∀ (cfg : Config) (a : Nat) (r : Region) (guaranteed : Prop), regionOf cfg a = some r →
    (guaranteed ↔ r.attr.type = .normal .writeBack .writeBack ∧
      (r.attr.shareability = .innerShareable ∨ r.attr.shareability = .outerShareable) ∧ r.attr.conventional = true) →
      (guaranteed → atomicSupported cfg a = true ∧ atomicFpSupported cfg a = true) ∧
        (¬ guaranteed → atomicSupported cfg a = r.atomicSupported) ∧
        (r.attr.type = .device ∨ r.attr.type = .normal .nonCacheable .nonCacheable →
          atomicFpSupported cfg a = r.atomicFpSupported) ∧
        (r.attr.type ≠ .device → r.attr.type ≠ .normal .nonCacheable .nonCacheable →
          atomicFpSupported cfg a = atomicSupported cfg a)

/-! ### What is turned away -/

/-- A misaligned exclusive pair, atomic or 64-byte access, a misaligned access to memory that is not all Normal, and a
misaligned FEAT_LRCPC load that neither R58 nor R59 makes one unit are turned away as `MISALIGNED_POLICY` says: refused, or an
Alignment fault; a misaligned access to Normal memory is performed, and so is a FEAT_LRCPC load that is one unit (R83). That
an access to both kinds of memory is turned away is log 37, that 128-bit quantities are measured against 16 bytes log 40. -/
def Obligations.MisalignmentPolicy : Prop :=
  ∀ (cfg : Config) (a : Access), a.pastEnd = false → (∀ b ∈ a.bytes, inMemMap cfg b = true) →
    (a.cls ∈ [.exclPair32, .exclPair64, .atomic, .ls64] → a.Shaped → a.addr % a.total ≠ 0 →
        checkAccess cfg a = turnAway cfg a.addr) ∧
      (a.cls ∈ [.gprSingle, .gprPair, .fpSingle, .fpPair, .fpElemStruct, .sveUnpred, .other] ∧ a.addr % a.size ≠ 0 ∨
          a.cls = .svePred ∧ (∃ e ∈ a.elems, e % a.size ≠ 0) →
        ((∀ b ∈ a.bytes, isNormal cfg b = true) → checkAccess cfg a = .next none) ∧
          ((∃ b ∈ a.bytes, isNormal cfg b = false) → checkAccess cfg a = turnAway cfg a.addr)) ∧
      (a.cls = .lrcpc → a.count = 1 → 1 ≤ a.size → a.addr % a.size ≠ 0 →
        ∀ one : Prop,
          (one ↔ cfg.armv8_4OrLater = true ∧ (cfg.featLrcpc = true ∨ cfg.featLse2 = true) ∧
            a.addr / 16 = (a.addr + a.size - 1) / 16 ∧ ∀ b ∈ a.bytes, iwbOwb cfg b = true) →
          (one → checkAccess cfg a = .next none ∧ scaUnits cfg a = some [{ addr := a.addr, size := a.size }]) ∧
            (¬ one → checkAccess cfg a = turnAway cfg a.addr))

/-- The operand combinations that are CONSTRAINED UNPREDICTABLE are refused: a load pair with one destination twice, a
writeback to a data register, a Store-Exclusive whose status register is a data or base register (R112, R114, R116, R118,
R119). -/
def Obligations.UnpredictableOperandsAreRefused : Prop :=
  ∀ (s : State) (imm7 : BitVec 7) (rs rt2 rn rt : Reg),
    (∀ f ∈ [Instr.ldpPost32 imm7 rt rn rt, .ldpOff32 imm7 rt rn rt, .ldpPre32 imm7 rt rn rt, .ldnp32 imm7 rt rn rt,
          .ldpPost64 imm7 rt rn rt, .ldpOff64 imm7 rt rn rt, .ldpPre64 imm7 rt rn rt, .ldnp64 imm7 rt rn rt,
          .ldxp32 rt rn rt, .ldxp64 rt rn rt, .ldaxp32 rt rn rt, .ldaxp64 rt rn rt],
        exec f s = .refused (.constrainedUnpredictable .loadPairSameRegister)) ∧
      (s.cfg.featAdvSimdFp = true →
        ∀ f ∈ [Instr.ldpFpS imm7 rt rn rt, .ldpFpD imm7 rt rn rt, .ldpFpQ imm7 rt rn rt],
          exec f s = .refused (.constrainedUnpredictable .loadPairSameRegister)) ∧
      (rn ≠ 31 → rn = rt ∨ rn = rt2 →
        (rt ≠ rt2 → ∀ f ∈ [Instr.ldpPost32 imm7 rt2 rn rt, .ldpPre32 imm7 rt2 rn rt, .ldpPost64 imm7 rt2 rn rt,
              .ldpPre64 imm7 rt2 rn rt],
            exec f s = .refused (.constrainedUnpredictable .writebackOverlap)) ∧
          ∀ f ∈ [Instr.stpPost32 imm7 rt2 rn rt, .stpPre32 imm7 rt2 rn rt, .stpPost64 imm7 rt2 rn rt,
              .stpPre64 imm7 rt2 rn rt],
            exec f s = .refused (.constrainedUnpredictable .writebackOverlap)) ∧
      (rs = rt ∨ rs = rt2 ∨ (rs = rn ∧ rn ≠ 31) →
        ∀ f ∈ [Instr.stxp32 rs rt2 rn rt, .stlxp32 rs rt2 rn rt, .stxp64 rs rt2 rn rt, .stlxp64 rs rt2 rn rt],
          exec f s = .refused (.constrainedUnpredictable .statusOverlap))
end

