-- ==== Sys2Proof/Laws/State.lean ====
section
/-! SUPPORT. One lemma for each field of the state and each update of it, so that no proof unfolds a record update: what an
operation keeps, and the PE that `setPe` puts in place. -/

namespace Sys2Proof.Machine

/-! ### `setPe` -/

@[simp] theorem State.setPe_cfg (s : State) (p : PE) : (s.setPe p).cfg = s.cfg := rfl

@[simp] theorem State.setPe_cur (s : State) (p : PE) : (s.setPe p).cur = s.cur := rfl

@[simp] theorem State.setPe_mem (s : State) (p : PE) : (s.setPe p).mem = s.mem := rfl

@[simp] theorem State.setPe_coh (s : State) (p : PE) : (s.setPe p).coh = s.coh := rfl

@[simp] theorem State.setPe_history (s : State) (p : PE) : (s.setPe p).history = s.history := rfl

@[simp] theorem State.setPe_sync (s : State) (p : PE) : (s.setPe p).sync = s.sync := rfl

@[simp] theorem State.setPe_nextUnit (s : State) (p : PE) : (s.setPe p).nextUnit = s.nextUnit := rfl

@[simp] theorem State.setPe_nextInst (s : State) (p : PE) : (s.setPe p).nextInst = s.nextInst := rfl

@[simp] theorem State.setPe_pending (s : State) (p : PE) : (s.setPe p).pending = s.pending := rfl

@[simp] theorem State.setPe_drawCount (s : State) (p : PE) : (s.setPe p).drawCount = s.drawCount := rfl

@[simp] theorem State.setPe_turn (s : State) (p : PE) : (s.setPe p).turn = s.turn := rfl

@[simp] theorem State.setPe_pes (s : State) (p : PE) : (s.setPe p).pes = s.pes.set s.cur p := rfl

@[simp] theorem State.setPe_pe (s : State) (p : PE) (h : s.curOk = true) : (s.setPe p).pe = p := by
  have hl : s.cur < s.pes.length := by simpa [State.curOk] using h
  simp [State.pe, State.setPe, List.getD_eq_getElem?_getD, hl]

@[simp] theorem State.setPe_curOk (s : State) (p : PE) : (s.setPe p).curOk = s.curOk := by
  simp [State.curOk]

@[simp] theorem State.setPe_setPe (s : State) (p q : PE) : (s.setPe p).setPe q = s.setPe q := by
  simp [State.setPe]

theorem State.setPe_self (s : State) (h : s.curOk = true) : s.setPe s.pe = s := by
  have hl : s.cur < s.pes.length := by simpa [State.curOk] using h
  simp [State.pe, State.setPe, List.getD_eq_getElem?_getD, hl]

/-- Another PE is not touched. -/
theorem State.setPe_other (s : State) (p : PE) (q : Nat) (h : q ≠ s.cur) : (s.setPe p).pes[q]? = s.pes[q]? := by
  simp [Ne.symm h]

theorem State.pes_get_cur (s : State) (h : s.curOk = true) : s.pes[s.cur]? = some s.pe := by
  have hl : s.cur < s.pes.length := by simpa [State.curOk] using h
  simp [State.pe, List.getD_eq_getElem?_getD, hl]

/-! ### Registers -/

@[simp] theorem PE.writeX_sp (p : PE) (r : Reg) (w : Word64) : (p.writeX r w).sp = p.sp := by
  unfold PE.writeX; split <;> rfl

@[simp] theorem PE.writeX_pc (p : PE) (r : Reg) (w : Word64) : (p.writeX r w).pc = p.pc := by
  unfold PE.writeX; split <;> rfl

@[simp] theorem PE.writeX_flags (p : PE) (r : Reg) (w : Word64) : (p.writeX r w).flags = p.flags := by
  unfold PE.writeX; split <;> rfl

@[simp] theorem PE.writeX_v (p : PE) (r : Reg) (w : Word64) : (p.writeX r w).v = p.v := by
  unfold PE.writeX; split <;> rfl

@[simp] theorem PE.writeX_z (p : PE) (r : Reg) (w : Word64) : (p.writeX r w).z = p.z := by
  unfold PE.writeX; split <;> rfl

@[simp] theorem PE.writeX_p (p : PE) (r : Reg) (w : Word64) : (p.writeX r w).p = p.p := by
  unfold PE.writeX; split <;> rfl

@[simp] theorem PE.writeX_esrEl1 (p : PE) (r : Reg) (w : Word64) : (p.writeX r w).esrEl1 = p.esrEl1 := by
  unfold PE.writeX; split <;> rfl

@[simp] theorem PE.writeX_esrEl2 (p : PE) (r : Reg) (w : Word64) : (p.writeX r w).esrEl2 = p.esrEl2 := by
  unfold PE.writeX; split <;> rfl

@[simp] theorem PE.writeX_esrEl3 (p : PE) (r : Reg) (w : Word64) : (p.writeX r w).esrEl3 = p.esrEl3 := by
  unfold PE.writeX; split <;> rfl

@[simp] theorem PE.writeX_accData (p : PE) (r : Reg) (w : Word64) : (p.writeX r w).accData = p.accData := by
  unfold PE.writeX; split <;> rfl

@[simp] theorem PE.writeX_excl (p : PE) (r : Reg) (w : Word64) : (p.writeX r w).excl = p.excl := by
  unfold PE.writeX; split <;> rfl

@[simp] theorem PE.writeX_cand (p : PE) (r : Reg) (w : Word64) : (p.writeX r w).cand = p.cand := by
  unfold PE.writeX; split <;> rfl

@[simp] theorem PE.writeX_phase (p : PE) (r : Reg) (w : Word64) : (p.writeX r w).phase = p.phase := by
  unfold PE.writeX; split <;> rfl

@[simp] theorem PE.writeX_run (p : PE) (r : Reg) (w : Word64) : (p.writeX r w).run = p.run := by
  unfold PE.writeX; split <;> rfl

@[simp] theorem PE.writeX_inst (p : PE) (r : Reg) (w : Word64) : (p.writeX r w).inst = p.inst := by
  unfold PE.writeX; split <;> rfl

@[simp] theorem PE.writeX_trace (p : PE) (r : Reg) (w : Word64) : (p.writeX r w).trace = p.trace := by
  unfold PE.writeX; split <;> rfl

@[simp] theorem PE.writeBase_pc (p : PE) (r : Reg) (w : Word64) : (p.writeBase r w).pc = p.pc := by
  unfold PE.writeBase; split <;> simp

@[simp] theorem PE.writeBase_flags (p : PE) (r : Reg) (w : Word64) : (p.writeBase r w).flags = p.flags := by
  unfold PE.writeBase; split <;> simp

@[simp] theorem PE.writeBase_v (p : PE) (r : Reg) (w : Word64) : (p.writeBase r w).v = p.v := by
  unfold PE.writeBase; split <;> simp

@[simp] theorem PE.writeBase_z (p : PE) (r : Reg) (w : Word64) : (p.writeBase r w).z = p.z := by
  unfold PE.writeBase; split <;> simp

@[simp] theorem PE.writeBase_p (p : PE) (r : Reg) (w : Word64) : (p.writeBase r w).p = p.p := by
  unfold PE.writeBase; split <;> simp

@[simp] theorem PE.writeBase_esrEl1 (p : PE) (r : Reg) (w : Word64) : (p.writeBase r w).esrEl1 = p.esrEl1 := by
  unfold PE.writeBase; split <;> simp

@[simp] theorem PE.writeBase_esrEl2 (p : PE) (r : Reg) (w : Word64) : (p.writeBase r w).esrEl2 = p.esrEl2 := by
  unfold PE.writeBase; split <;> simp

@[simp] theorem PE.writeBase_esrEl3 (p : PE) (r : Reg) (w : Word64) : (p.writeBase r w).esrEl3 = p.esrEl3 := by
  unfold PE.writeBase; split <;> simp

@[simp] theorem PE.writeBase_accData (p : PE) (r : Reg) (w : Word64) : (p.writeBase r w).accData = p.accData := by
  unfold PE.writeBase; split <;> simp

@[simp] theorem PE.writeBase_excl (p : PE) (r : Reg) (w : Word64) : (p.writeBase r w).excl = p.excl := by
  unfold PE.writeBase; split <;> simp

@[simp] theorem PE.writeBase_cand (p : PE) (r : Reg) (w : Word64) : (p.writeBase r w).cand = p.cand := by
  unfold PE.writeBase; split <;> simp

@[simp] theorem PE.writeBase_phase (p : PE) (r : Reg) (w : Word64) : (p.writeBase r w).phase = p.phase := by
  unfold PE.writeBase; split <;> simp

@[simp] theorem PE.writeBase_run (p : PE) (r : Reg) (w : Word64) : (p.writeBase r w).run = p.run := by
  unfold PE.writeBase; split <;> simp

@[simp] theorem PE.writeBase_inst (p : PE) (r : Reg) (w : Word64) : (p.writeBase r w).inst = p.inst := by
  unfold PE.writeBase; split <;> simp

@[simp] theorem PE.writeBase_trace (p : PE) (r : Reg) (w : Word64) : (p.writeBase r w).trace = p.trace := by
  unfold PE.writeBase; split <;> simp

@[simp] theorem PE.writeV_x (p : PE) (r : Reg) (w : Word128) : (p.writeV r w).x = p.x := rfl

@[simp] theorem PE.writeV_sp (p : PE) (r : Reg) (w : Word128) : (p.writeV r w).sp = p.sp := rfl

@[simp] theorem PE.writeV_pc (p : PE) (r : Reg) (w : Word128) : (p.writeV r w).pc = p.pc := rfl

@[simp] theorem PE.writeV_flags (p : PE) (r : Reg) (w : Word128) : (p.writeV r w).flags = p.flags := rfl

@[simp] theorem PE.writeV_z (p : PE) (r : Reg) (w : Word128) : (p.writeV r w).z = p.z := rfl

@[simp] theorem PE.writeV_p (p : PE) (r : Reg) (w : Word128) : (p.writeV r w).p = p.p := rfl

@[simp] theorem PE.writeV_esrEl1 (p : PE) (r : Reg) (w : Word128) : (p.writeV r w).esrEl1 = p.esrEl1 := rfl

@[simp] theorem PE.writeV_esrEl2 (p : PE) (r : Reg) (w : Word128) : (p.writeV r w).esrEl2 = p.esrEl2 := rfl

@[simp] theorem PE.writeV_esrEl3 (p : PE) (r : Reg) (w : Word128) : (p.writeV r w).esrEl3 = p.esrEl3 := rfl

@[simp] theorem PE.writeV_accData (p : PE) (r : Reg) (w : Word128) : (p.writeV r w).accData = p.accData := rfl

@[simp] theorem PE.writeV_excl (p : PE) (r : Reg) (w : Word128) : (p.writeV r w).excl = p.excl := rfl

@[simp] theorem PE.writeV_cand (p : PE) (r : Reg) (w : Word128) : (p.writeV r w).cand = p.cand := rfl

@[simp] theorem PE.writeV_phase (p : PE) (r : Reg) (w : Word128) : (p.writeV r w).phase = p.phase := rfl

@[simp] theorem PE.writeV_run (p : PE) (r : Reg) (w : Word128) : (p.writeV r w).run = p.run := rfl

@[simp] theorem PE.writeV_inst (p : PE) (r : Reg) (w : Word128) : (p.writeV r w).inst = p.inst := rfl

@[simp] theorem PE.writeV_trace (p : PE) (r : Reg) (w : Word128) : (p.writeV r w).trace = p.trace := rfl

@[simp] theorem PE.writeback_pc (p : PE) (wb : Option (Reg × Word64)) : (p.writeback wb).pc = p.pc := by
  cases wb <;> simp [PE.writeback]

@[simp] theorem PE.writeback_flags (p : PE) (wb : Option (Reg × Word64)) : (p.writeback wb).flags = p.flags := by
  cases wb <;> simp [PE.writeback]

@[simp] theorem PE.writeback_v (p : PE) (wb : Option (Reg × Word64)) : (p.writeback wb).v = p.v := by
  cases wb <;> simp [PE.writeback]

@[simp] theorem PE.writeback_z (p : PE) (wb : Option (Reg × Word64)) : (p.writeback wb).z = p.z := by
  cases wb <;> simp [PE.writeback]

@[simp] theorem PE.writeback_p (p : PE) (wb : Option (Reg × Word64)) : (p.writeback wb).p = p.p := by
  cases wb <;> simp [PE.writeback]

@[simp] theorem PE.writeback_esrEl1 (p : PE) (wb : Option (Reg × Word64)) : (p.writeback wb).esrEl1 = p.esrEl1 := by
  cases wb <;> simp [PE.writeback]

@[simp] theorem PE.writeback_esrEl2 (p : PE) (wb : Option (Reg × Word64)) : (p.writeback wb).esrEl2 = p.esrEl2 := by
  cases wb <;> simp [PE.writeback]

@[simp] theorem PE.writeback_esrEl3 (p : PE) (wb : Option (Reg × Word64)) : (p.writeback wb).esrEl3 = p.esrEl3 := by
  cases wb <;> simp [PE.writeback]

@[simp] theorem PE.writeback_accData (p : PE) (wb : Option (Reg × Word64)) : (p.writeback wb).accData = p.accData := by
  cases wb <;> simp [PE.writeback]

@[simp] theorem PE.writeback_excl (p : PE) (wb : Option (Reg × Word64)) : (p.writeback wb).excl = p.excl := by
  cases wb <;> simp [PE.writeback]

@[simp] theorem PE.writeback_cand (p : PE) (wb : Option (Reg × Word64)) : (p.writeback wb).cand = p.cand := by
  cases wb <;> simp [PE.writeback]

@[simp] theorem PE.writeback_phase (p : PE) (wb : Option (Reg × Word64)) : (p.writeback wb).phase = p.phase := by
  cases wb <;> simp [PE.writeback]

@[simp] theorem PE.writeback_run (p : PE) (wb : Option (Reg × Word64)) : (p.writeback wb).run = p.run := by
  cases wb <;> simp [PE.writeback]

@[simp] theorem PE.writeback_inst (p : PE) (wb : Option (Reg × Word64)) : (p.writeback wb).inst = p.inst := by
  cases wb <;> simp [PE.writeback]

@[simp] theorem PE.writeback_trace (p : PE) (wb : Option (Reg × Word64)) : (p.writeback wb).trace = p.trace := by
  cases wb <;> simp [PE.writeback]

@[simp] theorem PE.setEsr_x (p : PE) (e : EL) (w : Word64) : (p.setEsr e w).x = p.x := by
  cases e <;> rfl

@[simp] theorem PE.setEsr_sp (p : PE) (e : EL) (w : Word64) : (p.setEsr e w).sp = p.sp := by
  cases e <;> rfl

@[simp] theorem PE.setEsr_pc (p : PE) (e : EL) (w : Word64) : (p.setEsr e w).pc = p.pc := by
  cases e <;> rfl

@[simp] theorem PE.setEsr_flags (p : PE) (e : EL) (w : Word64) : (p.setEsr e w).flags = p.flags := by
  cases e <;> rfl

@[simp] theorem PE.setEsr_v (p : PE) (e : EL) (w : Word64) : (p.setEsr e w).v = p.v := by
  cases e <;> rfl

@[simp] theorem PE.setEsr_z (p : PE) (e : EL) (w : Word64) : (p.setEsr e w).z = p.z := by
  cases e <;> rfl

@[simp] theorem PE.setEsr_p (p : PE) (e : EL) (w : Word64) : (p.setEsr e w).p = p.p := by
  cases e <;> rfl

@[simp] theorem PE.setEsr_accData (p : PE) (e : EL) (w : Word64) : (p.setEsr e w).accData = p.accData := by
  cases e <;> rfl

@[simp] theorem PE.setEsr_excl (p : PE) (e : EL) (w : Word64) : (p.setEsr e w).excl = p.excl := by
  cases e <;> rfl

@[simp] theorem PE.setEsr_cand (p : PE) (e : EL) (w : Word64) : (p.setEsr e w).cand = p.cand := by
  cases e <;> rfl

@[simp] theorem PE.setEsr_phase (p : PE) (e : EL) (w : Word64) : (p.setEsr e w).phase = p.phase := by
  cases e <;> rfl

@[simp] theorem PE.setEsr_run (p : PE) (e : EL) (w : Word64) : (p.setEsr e w).run = p.run := by
  cases e <;> rfl

@[simp] theorem PE.setEsr_inst (p : PE) (e : EL) (w : Word64) : (p.setEsr e w).inst = p.inst := by
  cases e <;> rfl

@[simp] theorem PE.setEsr_trace (p : PE) (e : EL) (w : Word64) : (p.setEsr e w).trace = p.trace := by
  cases e <;> rfl

/-! ### Choices -/

@[simp] theorem State.draw_cfg (s : State) : s.draw.2.cfg = s.cfg := by
  unfold State.draw; split <;> rfl

@[simp] theorem State.draw_pes (s : State) : s.draw.2.pes = s.pes := by
  unfold State.draw; split <;> rfl

@[simp] theorem State.draw_cur (s : State) : s.draw.2.cur = s.cur := by
  unfold State.draw; split <;> rfl

@[simp] theorem State.draw_mem (s : State) : s.draw.2.mem = s.mem := by
  unfold State.draw; split <;> rfl

@[simp] theorem State.draw_coh (s : State) : s.draw.2.coh = s.coh := by
  unfold State.draw; split <;> rfl

@[simp] theorem State.draw_history (s : State) : s.draw.2.history = s.history := by
  unfold State.draw; split <;> rfl

@[simp] theorem State.draw_sync (s : State) : s.draw.2.sync = s.sync := by
  unfold State.draw; split <;> rfl

@[simp] theorem State.draw_nextUnit (s : State) : s.draw.2.nextUnit = s.nextUnit := by
  unfold State.draw; split <;> rfl

@[simp] theorem State.draw_nextInst (s : State) : s.draw.2.nextInst = s.nextInst := by
  unfold State.draw; split <;> rfl

@[simp] theorem State.draw_turn (s : State) : s.draw.2.turn = s.turn := by
  unfold State.draw; split <;> rfl

@[simp] theorem State.drawBelow_cfg (s : State) (n : Nat) : (s.drawBelow n).2.cfg = s.cfg := by
  unfold State.drawBelow; split <;> simp

@[simp] theorem State.drawBelow_pes (s : State) (n : Nat) : (s.drawBelow n).2.pes = s.pes := by
  unfold State.drawBelow; split <;> simp

@[simp] theorem State.drawBelow_cur (s : State) (n : Nat) : (s.drawBelow n).2.cur = s.cur := by
  unfold State.drawBelow; split <;> simp

@[simp] theorem State.drawBelow_mem (s : State) (n : Nat) : (s.drawBelow n).2.mem = s.mem := by
  unfold State.drawBelow; split <;> simp

@[simp] theorem State.drawBelow_coh (s : State) (n : Nat) : (s.drawBelow n).2.coh = s.coh := by
  unfold State.drawBelow; split <;> simp

@[simp] theorem State.drawBelow_history (s : State) (n : Nat) : (s.drawBelow n).2.history = s.history := by
  unfold State.drawBelow; split <;> simp

@[simp] theorem State.drawBelow_sync (s : State) (n : Nat) : (s.drawBelow n).2.sync = s.sync := by
  unfold State.drawBelow; split <;> simp

@[simp] theorem State.drawBelow_nextUnit (s : State) (n : Nat) : (s.drawBelow n).2.nextUnit = s.nextUnit := by
  unfold State.drawBelow; split <;> simp

@[simp] theorem State.drawBelow_nextInst (s : State) (n : Nat) : (s.drawBelow n).2.nextInst = s.nextInst := by
  unfold State.drawBelow; split <;> simp

@[simp] theorem State.drawBelow_turn (s : State) (n : Nat) : (s.drawBelow n).2.turn = s.turn := by
  unfold State.drawBelow; split <;> simp

@[simp] theorem State.takeTurn_cfg (s : State) : s.takeTurn.2.cfg = s.cfg := by
  unfold State.takeTurn; split <;> rfl

@[simp] theorem State.takeTurn_pes (s : State) : s.takeTurn.2.pes = s.pes := by
  unfold State.takeTurn; split <;> rfl

@[simp] theorem State.takeTurn_cur (s : State) : s.takeTurn.2.cur = s.cur := by
  unfold State.takeTurn; split <;> rfl

@[simp] theorem State.takeTurn_mem (s : State) : s.takeTurn.2.mem = s.mem := by
  unfold State.takeTurn; split <;> rfl

@[simp] theorem State.takeTurn_coh (s : State) : s.takeTurn.2.coh = s.coh := by
  unfold State.takeTurn; split <;> rfl

@[simp] theorem State.takeTurn_history (s : State) : s.takeTurn.2.history = s.history := by
  unfold State.takeTurn; split <;> rfl

@[simp] theorem State.takeTurn_sync (s : State) : s.takeTurn.2.sync = s.sync := by
  unfold State.takeTurn; split <;> rfl

@[simp] theorem State.takeTurn_nextUnit (s : State) : s.takeTurn.2.nextUnit = s.nextUnit := by
  unfold State.takeTurn; split <;> rfl

@[simp] theorem State.takeTurn_nextInst (s : State) : s.takeTurn.2.nextInst = s.nextInst := by
  unfold State.takeTurn; split <;> rfl

@[simp] theorem State.takeTurn_pending (s : State) : s.takeTurn.2.pending = s.pending := by
  unfold State.takeTurn; split <;> rfl

@[simp] theorem State.draw_pe (s : State) : s.draw.2.pe = s.pe := by simp [State.pe]

@[simp] theorem State.drawBelow_pe (s : State) (n : Nat) : (s.drawBelow n).2.pe = s.pe := by simp [State.pe]

@[simp] theorem State.drawBelow_orderAt (s : State) (n a : Nat) : (s.drawBelow n).2.orderAt a = s.orderAt a := by
  simp [State.orderAt]

/-- A choice is below its bound. -/
theorem State.drawBelow_lt (s : State) (n : Nat) (h : 0 < n) : (s.drawBelow n).1 < n := by
  unfold State.drawBelow
  split
  · exact h
  · exact Nat.mod_lt _ h

/-- Where there is one possibility, no choice is taken. -/
theorem State.drawBelow_one (s : State) : s.drawBelow 1 = (0, s) := by simp [State.drawBelow]

/-! ### Stages of a word -/

@[simp] theorem State.moveStage_cfg (s : State) (a : Nat) (src dst : SyncStage) : (s.moveStage a src dst).cfg = s.cfg := by
  unfold State.moveStage; split <;> first | rfl | (split <;> rfl)

@[simp] theorem State.moveStage_pes (s : State) (a : Nat) (src dst : SyncStage) : (s.moveStage a src dst).pes = s.pes := by
  unfold State.moveStage; split <;> first | rfl | (split <;> rfl)

@[simp] theorem State.moveStage_cur (s : State) (a : Nat) (src dst : SyncStage) : (s.moveStage a src dst).cur = s.cur := by
  unfold State.moveStage; split <;> first | rfl | (split <;> rfl)

@[simp] theorem State.moveStage_mem (s : State) (a : Nat) (src dst : SyncStage) : (s.moveStage a src dst).mem = s.mem := by
  unfold State.moveStage; split <;> first | rfl | (split <;> rfl)

@[simp] theorem State.moveStage_coh (s : State) (a : Nat) (src dst : SyncStage) : (s.moveStage a src dst).coh = s.coh := by
  unfold State.moveStage; split <;> first | rfl | (split <;> rfl)

@[simp] theorem State.moveStage_history (s : State) (a : Nat) (src dst : SyncStage) : (s.moveStage a src dst).history = s.history := by
  unfold State.moveStage; split <;> first | rfl | (split <;> rfl)

@[simp] theorem State.moveStage_nextUnit (s : State) (a : Nat) (src dst : SyncStage) : (s.moveStage a src dst).nextUnit = s.nextUnit := by
  unfold State.moveStage; split <;> first | rfl | (split <;> rfl)

@[simp] theorem State.moveStage_nextInst (s : State) (a : Nat) (src dst : SyncStage) : (s.moveStage a src dst).nextInst = s.nextInst := by
  unfold State.moveStage; split <;> first | rfl | (split <;> rfl)

@[simp] theorem State.moveStage_pending (s : State) (a : Nat) (src dst : SyncStage) : (s.moveStage a src dst).pending = s.pending := by
  unfold State.moveStage; split <;> first | rfl | (split <;> rfl)

@[simp] theorem State.moveStage_drawCount (s : State) (a : Nat) (src dst : SyncStage) : (s.moveStage a src dst).drawCount = s.drawCount := by
  unfold State.moveStage; split <;> first | rfl | (split <;> rfl)

@[simp] theorem State.moveStage_turn (s : State) (a : Nat) (src dst : SyncStage) : (s.moveStage a src dst).turn = s.turn := by
  unfold State.moveStage; split <;> first | rfl | (split <;> rfl)

@[simp] theorem State.dsbIsh_cfg (s : State) : s.dsbIsh.cfg = s.cfg := rfl

@[simp] theorem State.dsbIsh_pes (s : State) : s.dsbIsh.pes = s.pes := rfl

@[simp] theorem State.dsbIsh_cur (s : State) : s.dsbIsh.cur = s.cur := rfl

@[simp] theorem State.dsbIsh_mem (s : State) : s.dsbIsh.mem = s.mem := rfl

@[simp] theorem State.dsbIsh_coh (s : State) : s.dsbIsh.coh = s.coh := rfl

@[simp] theorem State.dsbIsh_history (s : State) : s.dsbIsh.history = s.history := rfl

@[simp] theorem State.dsbIsh_nextUnit (s : State) : s.dsbIsh.nextUnit = s.nextUnit := rfl

@[simp] theorem State.dsbIsh_nextInst (s : State) : s.dsbIsh.nextInst = s.nextInst := rfl

@[simp] theorem State.dsbIsh_pending (s : State) : s.dsbIsh.pending = s.pending := rfl

@[simp] theorem State.dsbIsh_drawCount (s : State) : s.dsbIsh.drawCount = s.drawCount := rfl

@[simp] theorem State.dsbIsh_turn (s : State) : s.dsbIsh.turn = s.turn := rfl

@[simp] theorem State.contextSync_cfg (s : State) : s.contextSync.cfg = s.cfg := rfl

@[simp] theorem State.contextSync_cur (s : State) : s.contextSync.cur = s.cur := rfl

@[simp] theorem State.contextSync_mem (s : State) : s.contextSync.mem = s.mem := rfl

@[simp] theorem State.contextSync_coh (s : State) : s.contextSync.coh = s.coh := rfl

@[simp] theorem State.contextSync_history (s : State) : s.contextSync.history = s.history := rfl

@[simp] theorem State.contextSync_sync (s : State) : s.contextSync.sync = s.sync := rfl

@[simp] theorem State.contextSync_nextUnit (s : State) : s.contextSync.nextUnit = s.nextUnit := rfl

@[simp] theorem State.contextSync_nextInst (s : State) : s.contextSync.nextInst = s.nextInst := rfl

@[simp] theorem State.contextSync_pending (s : State) : s.contextSync.pending = s.pending := rfl

@[simp] theorem State.contextSync_drawCount (s : State) : s.contextSync.drawCount = s.drawCount := rfl

@[simp] theorem State.contextSync_turn (s : State) : s.contextSync.turn = s.turn := rfl

/-! ### Memory effects -/

@[simp] theorem State.recordRead_cfg (s : State) (g : Agent) (i : Nat) (l : List GotByte) : (s.recordRead g i l).cfg = s.cfg := rfl

@[simp] theorem State.recordRead_pes (s : State) (g : Agent) (i : Nat) (l : List GotByte) : (s.recordRead g i l).pes = s.pes := rfl

@[simp] theorem State.recordRead_cur (s : State) (g : Agent) (i : Nat) (l : List GotByte) : (s.recordRead g i l).cur = s.cur := rfl

@[simp] theorem State.recordRead_mem (s : State) (g : Agent) (i : Nat) (l : List GotByte) : (s.recordRead g i l).mem = s.mem := rfl

@[simp] theorem State.recordRead_coh (s : State) (g : Agent) (i : Nat) (l : List GotByte) : (s.recordRead g i l).coh = s.coh := rfl

@[simp] theorem State.recordRead_sync (s : State) (g : Agent) (i : Nat) (l : List GotByte) : (s.recordRead g i l).sync = s.sync := rfl

@[simp] theorem State.recordRead_nextInst (s : State) (g : Agent) (i : Nat) (l : List GotByte) : (s.recordRead g i l).nextInst = s.nextInst := rfl

@[simp] theorem State.recordRead_pending (s : State) (g : Agent) (i : Nat) (l : List GotByte) : (s.recordRead g i l).pending = s.pending := rfl

@[simp] theorem State.recordRead_drawCount (s : State) (g : Agent) (i : Nat) (l : List GotByte) : (s.recordRead g i l).drawCount = s.drawCount := rfl

@[simp] theorem State.recordRead_turn (s : State) (g : Agent) (i : Nat) (l : List GotByte) : (s.recordRead g i l).turn = s.turn := rfl

@[simp] theorem State.noteWord_cfg (s : State) (g : Agent) (m : Memory) (l : List (Nat × Byte)) (a : Nat) :
    (s.noteWord g m l a).cfg = s.cfg := by
  unfold State.noteWord; split <;> rfl

@[simp] theorem State.noteWord_cur (s : State) (g : Agent) (m : Memory) (l : List (Nat × Byte)) (a : Nat) :
    (s.noteWord g m l a).cur = s.cur := by
  unfold State.noteWord; split <;> rfl

@[simp] theorem State.noteWord_mem (s : State) (g : Agent) (m : Memory) (l : List (Nat × Byte)) (a : Nat) :
    (s.noteWord g m l a).mem = s.mem := by
  unfold State.noteWord; split <;> rfl

@[simp] theorem State.noteWord_coh (s : State) (g : Agent) (m : Memory) (l : List (Nat × Byte)) (a : Nat) :
    (s.noteWord g m l a).coh = s.coh := by
  unfold State.noteWord; split <;> rfl

@[simp] theorem State.noteWord_history (s : State) (g : Agent) (m : Memory) (l : List (Nat × Byte)) (a : Nat) :
    (s.noteWord g m l a).history = s.history := by
  unfold State.noteWord; split <;> rfl

@[simp] theorem State.noteWord_nextUnit (s : State) (g : Agent) (m : Memory) (l : List (Nat × Byte)) (a : Nat) :
    (s.noteWord g m l a).nextUnit = s.nextUnit := by
  unfold State.noteWord; split <;> rfl

@[simp] theorem State.noteWord_nextInst (s : State) (g : Agent) (m : Memory) (l : List (Nat × Byte)) (a : Nat) :
    (s.noteWord g m l a).nextInst = s.nextInst := by
  unfold State.noteWord; split <;> rfl

@[simp] theorem State.noteWord_pending (s : State) (g : Agent) (m : Memory) (l : List (Nat × Byte)) (a : Nat) :
    (s.noteWord g m l a).pending = s.pending := by
  unfold State.noteWord; split <;> rfl

@[simp] theorem State.noteWord_drawCount (s : State) (g : Agent) (m : Memory) (l : List (Nat × Byte)) (a : Nat) :
    (s.noteWord g m l a).drawCount = s.drawCount := by
  unfold State.noteWord; split <;> rfl

@[simp] theorem State.noteWord_turn (s : State) (g : Agent) (m : Memory) (l : List (Nat × Byte)) (a : Nat) :
    (s.noteWord g m l a).turn = s.turn := by
  unfold State.noteWord; split <;> rfl

@[simp] theorem State.noteWrite_cfg (s : State) (g : Agent) (m : Memory) (u : MUnit) (l : List (Nat × Byte)) :
    (s.noteWrite g m u l).cfg = s.cfg := by
  unfold State.noteWrite
  generalize wordsOf u = ws
  induction ws generalizing s with
  | nil => rfl
  | cons a ws ih => simp [ih]

@[simp] theorem State.noteWrite_cur (s : State) (g : Agent) (m : Memory) (u : MUnit) (l : List (Nat × Byte)) :
    (s.noteWrite g m u l).cur = s.cur := by
  unfold State.noteWrite
  generalize wordsOf u = ws
  induction ws generalizing s with
  | nil => rfl
  | cons a ws ih => simp [ih]

@[simp] theorem State.noteWrite_mem (s : State) (g : Agent) (m : Memory) (u : MUnit) (l : List (Nat × Byte)) :
    (s.noteWrite g m u l).mem = s.mem := by
  unfold State.noteWrite
  generalize wordsOf u = ws
  induction ws generalizing s with
  | nil => rfl
  | cons a ws ih => simp [ih]

@[simp] theorem State.noteWrite_coh (s : State) (g : Agent) (m : Memory) (u : MUnit) (l : List (Nat × Byte)) :
    (s.noteWrite g m u l).coh = s.coh := by
  unfold State.noteWrite
  generalize wordsOf u = ws
  induction ws generalizing s with
  | nil => rfl
  | cons a ws ih => simp [ih]

@[simp] theorem State.noteWrite_history (s : State) (g : Agent) (m : Memory) (u : MUnit) (l : List (Nat × Byte)) :
    (s.noteWrite g m u l).history = s.history := by
  unfold State.noteWrite
  generalize wordsOf u = ws
  induction ws generalizing s with
  | nil => rfl
  | cons a ws ih => simp [ih]

@[simp] theorem State.noteWrite_nextUnit (s : State) (g : Agent) (m : Memory) (u : MUnit) (l : List (Nat × Byte)) :
    (s.noteWrite g m u l).nextUnit = s.nextUnit := by
  unfold State.noteWrite
  generalize wordsOf u = ws
  induction ws generalizing s with
  | nil => rfl
  | cons a ws ih => simp [ih]

@[simp] theorem State.noteWrite_nextInst (s : State) (g : Agent) (m : Memory) (u : MUnit) (l : List (Nat × Byte)) :
    (s.noteWrite g m u l).nextInst = s.nextInst := by
  unfold State.noteWrite
  generalize wordsOf u = ws
  induction ws generalizing s with
  | nil => rfl
  | cons a ws ih => simp [ih]

@[simp] theorem State.noteWrite_pending (s : State) (g : Agent) (m : Memory) (u : MUnit) (l : List (Nat × Byte)) :
    (s.noteWrite g m u l).pending = s.pending := by
  unfold State.noteWrite
  generalize wordsOf u = ws
  induction ws generalizing s with
  | nil => rfl
  | cons a ws ih => simp [ih]

@[simp] theorem State.noteWrite_drawCount (s : State) (g : Agent) (m : Memory) (u : MUnit) (l : List (Nat × Byte)) :
    (s.noteWrite g m u l).drawCount = s.drawCount := by
  unfold State.noteWrite
  generalize wordsOf u = ws
  induction ws generalizing s with
  | nil => rfl
  | cons a ws ih => simp [ih]

@[simp] theorem State.noteWrite_turn (s : State) (g : Agent) (m : Memory) (u : MUnit) (l : List (Nat × Byte)) :
    (s.noteWrite g m u l).turn = s.turn := by
  unfold State.noteWrite
  generalize wordsOf u = ws
  induction ws generalizing s with
  | nil => rfl
  | cons a ws ih => simp [ih]

/-- A write changes nothing of a PE but the words it may fetch. -/
theorem State.noteWord_pes (s : State) (g : Agent) (m : Memory) (l : List (Nat × Byte)) (a : Nat) :
    ∃ f : PE → List (Nat × List (Option Word32)),
      (s.noteWord g m l a).pes = s.pes.map fun p => { p with cand := f p } := by
  unfold State.noteWord
  split
  · exact ⟨PE.cand, by simp⟩
  · exact ⟨_, rfl⟩

theorem State.noteWrite_pes (s : State) (g : Agent) (m : Memory) (u : MUnit) (l : List (Nat × Byte)) :
    ∃ f : PE → List (Nat × List (Option Word32)),
      (s.noteWrite g m u l).pes = s.pes.map fun p => { p with cand := f p } := by
  unfold State.noteWrite
  generalize wordsOf u = ws
  induction ws generalizing s with
  | nil => exact ⟨PE.cand, by simp⟩
  | cons a ws ih =>
    obtain ⟨f, hf⟩ := s.noteWord_pes g m l a
    obtain ⟨f', hf'⟩ := ih (s.noteWord g m l a)
    exact ⟨fun p => f' { p with cand := f p }, by simp [hf', hf, Function.comp_def]⟩

end Sys2Proof.Machine
end

