-- ==== Sys2Proof/Laws/Memory.lean ====
section
/-! SUPPORT. Lists with rising keys, and memory as such a list: a read after a write to the same byte gives the value
written, a write leaves every other byte alone, and every operation on memory keeps its canonical form. -/

namespace Sys2Proof.Machine

variable {α : Type}

/-! ### Lists with rising keys -/

@[simp] theorem assocFind_nil (k : Nat) : assocFind ([] : List (Nat × α)) k = none := rfl

@[simp] theorem assocFind_insert_self (l : List (Nat × α)) (k : Nat) (v : α) :
    assocFind (assocInsert l k v) k = some v := by
  induction l with
  | nil => simp [assocInsert, assocFind]
  | cons e l ih =>
    unfold assocInsert
    split
    · simp [assocFind]
    · split
      · simp [assocFind]
      · have : e.1 ≠ k := by omega
        simp [assocFind, this, ih]

theorem assocFind_insert_other (l : List (Nat × α)) (k j : Nat) (v : α) (h : j ≠ k) :
    assocFind (assocInsert l k v) j = assocFind l j := by
  induction l with
  | nil => simp [assocInsert, assocFind, h.symm]
  | cons e l ih =>
    unfold assocInsert
    split
    · simp [assocFind, h.symm]
    · split
      · rename_i he
        simp [assocFind, h.symm, ← he]
      · simp [assocFind, ih]

/-- What a lookup gives after an insertion. -/
theorem assocFind_insert (l : List (Nat × α)) (k j : Nat) (v : α) :
    assocFind (assocInsert l k v) j = if j = k then some v else assocFind l j := by
  split
  · next h => simp [h]
  · next h => exact assocFind_insert_other l k j v h

theorem assocAbove_insert (l : List (Nat × α)) (b k : Nat) (v : α) (h : assocAbove b l = true) (hb : b < k) :
    assocAbove b (assocInsert l k v) = true := by
  induction l generalizing b with
  | nil => simp [assocInsert, assocAbove, hb]
  | cons e l ih =>
    simp only [assocAbove, Bool.and_eq_true, decide_eq_true_eq] at h
    unfold assocInsert
    split
    · next hk => simp [assocAbove, hb, hk, h.2]
    · split
      · next hk => simpa [assocAbove, hk] using h
      · simp only [assocAbove, Bool.and_eq_true, decide_eq_true_eq]
        exact ⟨h.1, ih e.1 h.2 (by omega)⟩

/-- An insertion keeps the keys rising. -/
theorem assocRising_insert (l : List (Nat × α)) (k : Nat) (v : α) (h : assocRising l = true) :
    assocRising (assocInsert l k v) = true := by
  cases l with
  | nil => rfl
  | cons e l =>
    simp only [assocRising] at h
    unfold assocInsert
    split
    · next hk => simp [assocRising, assocAbove, hk, h]
    · split
      · next hk => simpa [assocRising, hk] using h
      · exact assocAbove_insert l e.1 k v h (by omega)

theorem assocAbove_weaken (l : List (Nat × α)) (a b : Nat) (hab : a ≤ b) (h : assocAbove b l = true) :
    assocAbove a l = true := by
  cases l with
  | nil => rfl
  | cons e l =>
    simp only [assocAbove, Bool.and_eq_true, decide_eq_true_eq] at h ⊢
    exact ⟨by omega, h.2⟩

theorem assocAbove_filter (l : List (Nat × α)) (b : Nat) (p : Nat × α → Bool) (h : assocAbove b l = true) :
    assocAbove b (l.filter p) = true := by
  induction l generalizing b with
  | nil => rfl
  | cons e l ih =>
    simp only [assocAbove, Bool.and_eq_true, decide_eq_true_eq] at h
    rw [List.filter_cons]
    split
    · simp [assocAbove, h.1, ih e.1 h.2]
    · exact ih b (assocAbove_weaken l b e.1 (by omega) h.2)

/-- Dropping entries keeps the keys rising. -/
theorem assocRising_filter (l : List (Nat × α)) (p : Nat × α → Bool) (h : assocRising l = true) :
    assocRising (l.filter p) = true := by
  induction l with
  | nil => rfl
  | cons e l ih =>
    simp only [assocRising] at h
    rw [List.filter_cons]
    split
    · exact assocAbove_filter l e.1 p h
    · apply ih
      cases l with
      | nil => rfl
      | cons e' l' =>
        simp only [assocAbove, Bool.and_eq_true] at h
        exact h.2

theorem assocFind_filter (l : List (Nat × α)) (p : Nat → Bool) (k : Nat) :
    assocFind (l.filter fun e => p e.1) k = if p k then assocFind l k else none := by
  induction l with
  | nil => simp
  | cons e l ih =>
    rw [List.filter_cons]
    by_cases he : p e.1 = true
    · by_cases hk : e.1 = k <;> simp_all [assocFind]
    · by_cases hk : e.1 = k
      · simp_all
      · simp_all [assocFind]

@[simp] theorem assocFind_erase_self (l : List (Nat × α)) (k : Nat) : assocFind (assocErase l k) k = none := by
  have := assocFind_filter l (fun j => j != k) k
  simpa [assocErase] using this

/-! ### Memory -/

@[simp] theorem Memory.read_write_self (m : Memory) (a : Nat) (b : Byte) : Memory.read (m.write a b) a = some b := by
  simp [Memory.read, Memory.write]

theorem Memory.read_write_other (m : Memory) (a c : Nat) (b : Byte) (h : c ≠ a) :
    Memory.read (m.write a b) c = m.read c := assocFind_insert_other m a c b h

theorem Memory.read_write (m : Memory) (a c : Nat) (b : Byte) :
    Memory.read (m.write a b) c = if c = a then some b else m.read c := assocFind_insert m a c b

/-- A byte below the bytes written is left alone. -/
theorem Memory.read_writeAll_below (bs : List Byte) (m : Memory) (a c : Nat) (h : c < a) :
    Memory.read (Memory.writeAll m a bs) c = m.read c := by
  induction bs generalizing m a with
  | nil => rfl
  | cons b bs ih => rw [Memory.writeAll, ih _ _ (by omega), Memory.read_write_other _ _ _ _ (by omega)]

/-- A byte written reads as the value written. -/
theorem Memory.read_writeAll_at (bs : List Byte) (m : Memory) (a i : Nat) (h : i < bs.length) :
    Memory.read (Memory.writeAll m a bs) (a + i) = some bs[i] := by
  induction bs generalizing m a i with
  | nil => simp at h
  | cons b bs ih =>
    cases i with
    | zero => simp [Memory.writeAll, Memory.read_writeAll_below bs _ (a + 1) a (by omega)]
    | succ i =>
      have := ih (m.write a b) (a + 1) i (by simpa using h)
      simpa [Memory.writeAll, Nat.add_assoc, Nat.add_comm, Nat.add_left_comm] using this

/-- A byte outside the bytes written is left alone. -/
theorem Memory.read_writeAll_outside (bs : List Byte) (m : Memory) (a c : Nat) (h : c < a ∨ a + bs.length ≤ c) :
    Memory.read (Memory.writeAll m a bs) c = m.read c := by
  induction bs generalizing m a with
  | nil => rfl
  | cons b bs ih =>
    simp only [List.length_cons] at h
    rw [Memory.writeAll, ih _ _ (by omega), Memory.read_write_other _ _ _ _ (by omega)]

theorem Memory.write_wf (m : Memory) (a : Nat) (b : Byte) (h : m.wf = true) : Memory.wf (m.write a b) = true :=
  assocRising_insert m a b h

theorem Memory.writeAll_wf (bs : List Byte) (m : Memory) (a : Nat) (h : m.wf = true) :
    Memory.wf (Memory.writeAll m a bs) = true := by
  induction bs generalizing m a with
  | nil => exact h
  | cons b bs ih => exact ih _ _ (Memory.write_wf m a b h)

/-- The memory after a write unit is in canonical form. -/
theorem storeAll_wf (ps : List Pick) (data : List Byte) (m : Memory) (h : m.wf = true) :
    Memory.wf (storeAll ps data m) = true := by
  induction ps generalizing data m with
  | nil => simpa [storeAll] using h
  | cons p ps ih =>
    cases data with
    | nil => simpa [storeAll] using h
    | cons v vs =>
      unfold storeAll
      split
      · exact ih vs _ (Memory.write_wf m p.addr v h)
      · exact ih vs m h

theorem placeAll_rising (unit : Nat) (adj : Bool) (ps : List Pick) (data : List Byte) (coh : List (Nat × ByteOrder))
    (h : assocRising coh = true) : assocRising (placeAll unit adj ps data coh) = true := by
  induction ps generalizing data coh with
  | nil => simpa [placeAll] using h
  | cons p ps ih =>
    cases data with
    | nil => simpa [placeAll] using h
    | cons v vs => exact ih vs _ (assocRising_insert coh p.addr _ h)

@[simp] theorem State.placeWrite_mem (s : State) (g : Agent) (i : Nat) (u : MUnit) (ps : List Pick) (data : List Byte)
    (adj : Bool) : (s.placeWrite g i u ps data adj).mem = storeAll ps data s.mem := by
  rw [State.placeWrite, State.noteWrite_mem]

/-- A write unit keeps memory in canonical form. -/
theorem State.placeWrite_wf (s : State) (g : Agent) (i : Nat) (u : MUnit) (ps : List Pick) (data : List Byte)
    (adj : Bool) (h : s.mem.wf = true) : Memory.wf (s.placeWrite g i u ps data adj).mem = true := by
  rw [State.placeWrite_mem]; exact storeAll_wf ps data s.mem h

theorem State.withFetchWord_wf (s : State) (n w : Nat) (h : s.mem.wf = true) :
    Memory.wf (s.withFetchWord n w).mem = true := Memory.writeAll_wf _ _ _ h

/-- Memory at reset is in canonical form. -/
theorem State.reset_mem_wf : State.reset.mem.wf = true := rfl

end Sys2Proof.Machine
end

