-- ==== Sys2Proof/Laws/Effects.lean ====
section
/-! SUPPORT. What a read unit and a write unit can do, said once (20_memory.md rules R63 to R65, R86): which places the
environment may choose, what a read returns, where a write goes, and what neither of them touches. -/

namespace Sys2Proof.Machine

/-! ### Orders -/

/-- A byte whose initial value is known has a value at every place of its order. -/
theorem ByteOrder.valueAt_isSome (o : ByteOrder) (k : Nat) (hi : o.init.isSome) (hk : k ≤ o.lastPlace) :
    (o.valueAt k).isSome := by
  cases k with
  | zero => exact hi
  | succ k =>
    have : k < o.writes.length := by simpa [ByteOrder.lastPlace] using hk
    simp [ByteOrder.valueAt, this]

@[simp] theorem ByteOrder.insertAt_init (o : ByteOrder) (k : Nat) (w : CohWrite) : (o.insertAt k w).init = o.init := rfl

/-- A new write makes the order one longer. -/
theorem ByteOrder.insertAt_lastPlace (o : ByteOrder) (k : Nat) (w : CohWrite) :
    (o.insertAt k w).lastPlace = o.lastPlace + 1 := by
  simp only [ByteOrder.insertAt, ByteOrder.lastPlace, List.length_append, List.length_cons, List.length_take,
    List.length_drop]
  omega

/-- The new write stands at the place after the one it was put behind. -/
theorem ByteOrder.insertAt_valueAt (o : ByteOrder) (k : Nat) (w : CohWrite) (hk : k ≤ o.lastPlace) :
    (o.insertAt k w).valueAt (k + 1) = some w.value := by
  have : k ≤ o.writes.length := hk
  simp [ByteOrder.insertAt, ByteOrder.valueAt, this]

/-! ### Places chosen -/

/-- The picks that an operation works with: one for every byte of a unit, with its order and a place in it. -/
def PicksOf (s : State) (addrs : List Nat) (ps : List Pick) : Prop :=
  ps.map (·.addr) = addrs ∧ ∀ p ∈ ps, p.order = s.orderAt p.addr ∧ p.place ≤ p.order.lastPlace

theorem drawPicks_spec (as : List Nat) (s : State) :
    PicksOf s as (drawPicks as s).1 ∧
      (drawPicks as s).2 =
        { s with pending := (drawPicks as s).2.pending, drawCount := (drawPicks as s).2.drawCount } := by
  induction as generalizing s with
  | nil => exact ⟨⟨rfl, by simp [drawPicks]⟩, rfl⟩
  | cons a as ih =>
    have hs : (s.drawBelow ((s.orderAt a).lastPlace + 1)).2 =
        { s with pending := (s.drawBelow ((s.orderAt a).lastPlace + 1)).2.pending,
                 drawCount := (s.drawBelow ((s.orderAt a).lastPlace + 1)).2.drawCount } := by
      unfold State.drawBelow; split
      · rfl
      · unfold State.draw; split <;> rfl
    obtain ⟨⟨h1, h2⟩, h3⟩ := ih (s.drawBelow ((s.orderAt a).lastPlace + 1)).2
    refine ⟨⟨by simp [drawPicks, h1], ?_⟩, ?_⟩
    · intro p hp
      simp only [drawPicks, List.mem_cons] at hp
      rcases hp with rfl | hp
      · exact ⟨rfl, by simp⟩
      · obtain ⟨h4, h5⟩ := h2 p hp
        exact ⟨by rw [h4]; simp, h5⟩
    · simp only [drawPicks]
      rw [h3, hs]

/-- The places of a unit: within their orders, and either admitted or the ends of the orders. -/
theorem choosePicks_spec (adm : List Pick → Bool) (s : State) (u : MUnit) :
    PicksOf s u.bytes (choosePicks adm s u).1 ∧
      (adm (choosePicks adm s u).1 = true ∨ (choosePicks adm s u).1 = u.bytes.map (latestPick s)) ∧
      (choosePicks adm s u).2 =
        { s with pending := (choosePicks adm s u).2.pending, drawCount := (choosePicks adm s u).2.drawCount } := by
  obtain ⟨h1, h2⟩ := drawPicks_spec u.bytes s
  refine ⟨?_, ?_, by simpa [choosePicks] using h2⟩
  · simp only [choosePicks]
    split
    · exact h1
    · refine ⟨by simp [latestPick, Function.comp_def], ?_⟩
      intro p hp
      obtain ⟨a, _, rfl⟩ := List.mem_map.mp hp
      exact ⟨rfl, Nat.le_refl _⟩
  · simp only [choosePicks]
    split
    · next h => exact .inl h
    · exact .inr rfl

/-! ### Read units -/

/-- The bytes read have the addresses of the picks, each its value and its source. -/
theorem gotAll_spec (ps : List Pick) (l : List GotByte) (h : gotAll ps = some l) :
    l.map (·.addr) = ps.map (·.addr) ∧
      ∀ g ∈ l, ∃ p ∈ ps, p.addr = g.addr ∧ p.order.valueAt p.place = some g.value ∧
        p.order.sourceAt p.place = g.source := by
  induction ps generalizing l with
  | nil =>
    obtain rfl : l = [] := by simpa [gotAll] using h.symm
    simp
  | cons p ps ih =>
    simp only [gotAll] at h
    split at h
    · next g gs hg hgs =>
      simp only [Option.some.injEq] at h
      subst h
      obtain ⟨h1, h2⟩ := ih gs hgs
      have hp : p.addr = g.addr ∧ p.order.valueAt p.place = some g.value ∧ p.order.sourceAt p.place = g.source := by
        simp only [Pick.got, Option.map_eq_some_iff] at hg
        obtain ⟨v, hv, rfl⟩ := hg
        exact ⟨rfl, hv, rfl⟩
      refine ⟨by simp [h1, hp.1], ?_⟩
      intro g' hg'
      rcases List.mem_cons.mp hg' with rfl | hg'
      · exact ⟨p, by simp, hp⟩
      · obtain ⟨q, hq, hq'⟩ := h2 g' hg'
        exact ⟨q, by simp [hq], hq'⟩
    · cases h

/-- Where every byte has a value at its place, all of them are read. -/
theorem gotAll_isSome (ps : List Pick) (h : ∀ p ∈ ps, (p.order.valueAt p.place).isSome) : (gotAll ps).isSome := by
  induction ps with
  | nil => rfl
  | cons p ps ih =>
    obtain ⟨v, hv⟩ := Option.isSome_iff_exists.mp (h p (by simp))
    obtain ⟨gs, hgs⟩ := Option.isSome_iff_exists.mp (ih fun q hq => h q (by simp [hq]))
    simp [gotAll, Pick.got, hv, hgs]

/-- Everything a read unit can do: it reads every byte of the unit, each from a write of the byte's order or from its
initial value, records that, and takes choices. -/
theorem readUnit_next (adm : List Pick → Bool) (g : Agent) (i : Nat) (u : MUnit) (s t : State) (l : List GotByte)
    (h : readUnit adm g i u s = .next (l, t)) :
    l.map (·.addr) = u.bytes ∧
      (∀ b ∈ l, ∃ k, k ≤ (s.orderAt b.addr).lastPlace ∧ (s.orderAt b.addr).valueAt k = some b.value ∧
        (s.orderAt b.addr).sourceAt k = b.source) ∧
      t = { s with history := s.history ++ readEffects g i s.nextUnit l, nextUnit := s.nextUnit + 1,
                   pending := t.pending, drawCount := t.drawCount } := by
  obtain ⟨⟨h1, h2⟩, _, h3⟩ := choosePicks_spec adm s u
  simp only [readUnit] at h
  split at h
  · next l' hl =>
    simp only [Host.Outcome.next.injEq, Prod.mk.injEq] at h
    obtain ⟨rfl, rfl⟩ := h
    obtain ⟨h4, h5⟩ := gotAll_spec _ _ hl
    refine ⟨by rw [h4, h1], ?_, ?_⟩
    · intro b hb
      obtain ⟨p, hp, hpa, hv, hs⟩ := h5 b hb
      obtain ⟨ho, hk⟩ := h2 p hp
      rw [hpa] at ho
      exact ⟨p.place, by rw [← ho]; exact hk, by rw [← ho]; exact hv, by rw [← ho]; exact hs⟩
    · rw [h3]; rfl
  · cases h

/-- A read unit of bytes whose initial values are known answers. -/
theorem readUnit_answers (adm : List Pick → Bool) (g : Agent) (i : Nat) (u : MUnit) (s : State)
    (hr : ∀ b ∈ u.bytes, (s.orderAt b).init.isSome) : ∃ l t, readUnit adm g i u s = .next (l, t) := by
  obtain ⟨⟨h1, h2⟩, _, _⟩ := choosePicks_spec adm s u
  have : (gotAll (choosePicks adm s u).1).isSome := by
    apply gotAll_isSome
    intro p hp
    obtain ⟨ho, hk⟩ := h2 p hp
    apply ByteOrder.valueAt_isSome _ _ _ hk
    rw [ho]
    exact hr _ (h1 ▸ List.mem_map_of_mem hp)
  obtain ⟨l, hl⟩ := Option.isSome_iff_exists.mp this
  refine ⟨l, (choosePicks adm s u).2.recordRead g i l, ?_⟩
  simp only [readUnit, hl]

/-! ### Write units -/

theorem State.orderAt_of_coh (s t : State) (a : Nat) (hc : assocFind t.coh a = assocFind s.coh a)
    (hm : t.mem.read a = s.mem.read a) : t.orderAt a = s.orderAt a := by
  simp [State.orderAt, hc, hm]

theorem placeAll_find_outside (unit : Nat) (adj : Bool) (ps : List Pick) (data : List Byte)
    (coh : List (Nat × ByteOrder)) (a : Nat) (h : a ∉ ps.map (·.addr)) :
    assocFind (placeAll unit adj ps data coh) a = assocFind coh a := by
  induction ps generalizing data coh with
  | nil => simp [placeAll]
  | cons p ps ih =>
    simp only [List.map_cons, List.mem_cons, not_or] at h
    cases data with
    | nil => simp [placeAll]
    | cons v vs => rw [placeAll, ih vs _ h.2, assocFind_insert_other _ _ _ _ h.1]

theorem storeAll_read_outside (ps : List Pick) (data : List Byte) (m : Memory) (a : Nat)
    (h : a ∉ ps.map (·.addr)) : Memory.read (storeAll ps data m) a = m.read a := by
  induction ps generalizing data m with
  | nil => simp [storeAll]
  | cons p ps ih =>
    simp only [List.map_cons, List.mem_cons, not_or] at h
    cases data with
    | nil => simp [storeAll]
    | cons v vs =>
      unfold storeAll
      split
      · rw [ih vs _ h.2, Memory.read_write_other _ _ _ _ h.1]
      · exact ih vs m h.2

theorem placeAll_find_at (unit : Nat) (adj : Bool) (ps : List Pick) (data : List Byte) (coh : List (Nat × ByteOrder))
    (hn : (ps.map (·.addr)).Nodup) (i : Nat) (hp : i < ps.length) (hd : i < data.length) :
    assocFind (placeAll unit adj ps data coh) ps[i].addr = some (ps[i].placed unit data[i] adj) := by
  induction ps generalizing data coh i with
  | nil => simp at hp
  | cons p ps ih =>
    simp only [List.map_cons, List.nodup_cons] at hn
    cases data with
    | nil => simp at hd
    | cons v vs =>
      cases i with
      | zero =>
        rw [placeAll, List.getElem_cons_zero, placeAll_find_outside _ _ _ _ _ _ hn.1]
        simp
      | succ i =>
        rw [placeAll]
        exact ih vs _ hn.2 i (by simpa using hp) (by simpa using hd)

theorem storeAll_read_at (ps : List Pick) (data : List Byte) (m : Memory) (hn : (ps.map (·.addr)).Nodup) (i : Nat)
    (hp : i < ps.length) (hd : i < data.length) :
    Memory.read (storeAll ps data m) ps[i].addr =
      if ps[i].place = ps[i].order.lastPlace then some data[i] else m.read ps[i].addr := by
  induction ps generalizing data m i with
  | nil => simp at hp
  | cons p ps ih =>
    simp only [List.map_cons, List.nodup_cons] at hn
    cases data with
    | nil => simp at hd
    | cons v vs =>
      cases i with
      | zero =>
        unfold storeAll
        split
        · next h => simp [storeAll_read_outside _ _ _ _ hn.1, h]
        · next h => simp [storeAll_read_outside _ _ _ _ hn.1, h]
      | succ i =>
        have hp' : i < ps.length := by simpa using hp
        have hmem : ps[i].addr ∈ ps.map (·.addr) := List.mem_map_of_mem (List.getElem_mem hp')
        have hne : ps[i].addr ≠ p.addr := fun e => hn.1 (e ▸ hmem)
        unfold storeAll
        split
        · simpa [Memory.read_write_other _ _ _ _ hne] using
            ih vs (m.write p.addr v) hn.2 i (by simpa using hp) (by simpa using hd)
        · simpa using ih vs m hn.2 i (by simpa using hp) (by simpa using hd)

theorem byteAddrs_nodup (a n : Nat) : (byteAddrs a n).Nodup := by
  unfold byteAddrs
  exact List.Nodup.map (fun x y h => by simpa using h) List.nodup_range

@[simp] theorem State.placeWrite_coh (s : State) (g : Agent) (i : Nat) (u : MUnit) (ps : List Pick)
    (data : List Byte) (adj : Bool) : (s.placeWrite g i u ps data adj).coh = placeAll s.nextUnit adj ps data s.coh := by
  rw [State.placeWrite, State.noteWrite_coh]

@[simp] theorem State.placeWrite_history (s : State) (g : Agent) (i : Nat) (u : MUnit) (ps : List Pick)
    (data : List Byte) (adj : Bool) : (s.placeWrite g i u ps data adj).history =
      s.history ++ writeEffects g i s.nextUnit (addressed ps data) := by
  rw [State.placeWrite, State.noteWrite_history]

@[simp] theorem State.placeWrite_nextUnit (s : State) (g : Agent) (i : Nat) (u : MUnit) (ps : List Pick)
    (data : List Byte) (adj : Bool) : (s.placeWrite g i u ps data adj).nextUnit = s.nextUnit + 1 := by
  rw [State.placeWrite, State.noteWrite_nextUnit]

/-- What a write unit changes and what it keeps: besides the orders, memory, the history and the fetch model, nothing;
and of a PE, the words it may fetch. -/
theorem State.placeWrite_keeps (s : State) (g : Agent) (i : Nat) (u : MUnit) (ps : List Pick) (data : List Byte)
    (adj : Bool) :
    ∃ f : PE → List (Nat × List (Option Word32)),
      s.placeWrite g i u ps data adj =
        { s with pes := s.pes.map fun p => { p with cand := f p }
                 coh := placeAll s.nextUnit adj ps data s.coh
                 mem := storeAll ps data s.mem
                 history := s.history ++ writeEffects g i s.nextUnit (addressed ps data)
                 nextUnit := s.nextUnit + 1
                 sync := (s.placeWrite g i u ps data adj).sync } := by
  obtain ⟨f, hf⟩ := State.noteWrite_pes
    { s with coh := placeAll s.nextUnit adj ps data s.coh
             mem := storeAll ps data s.mem
             history := s.history ++ writeEffects g i s.nextUnit (addressed ps data)
             nextUnit := s.nextUnit + 1 } g s.mem u (addressed ps data)
  refine ⟨f, ?_⟩
  have hp : (s.placeWrite g i u ps data adj).pes = s.pes.map fun p => { p with cand := f p } := hf
  have h1 : (s.placeWrite g i u ps data adj).cfg = s.cfg := by rw [State.placeWrite, State.noteWrite_cfg]
  have h2 : (s.placeWrite g i u ps data adj).cur = s.cur := by rw [State.placeWrite, State.noteWrite_cur]
  have h3 : (s.placeWrite g i u ps data adj).nextInst = s.nextInst := by rw [State.placeWrite, State.noteWrite_nextInst]
  have h4 : (s.placeWrite g i u ps data adj).pending = s.pending := by rw [State.placeWrite, State.noteWrite_pending]
  have h5 : (s.placeWrite g i u ps data adj).drawCount = s.drawCount := by
    rw [State.placeWrite, State.noteWrite_drawCount]
  have h6 : (s.placeWrite g i u ps data adj).turn = s.turn := by rw [State.placeWrite, State.noteWrite_turn]
  have hm := State.placeWrite_mem s g i u ps data adj
  have hc := State.placeWrite_coh s g i u ps data adj
  have hh := State.placeWrite_history s g i u ps data adj
  have hn := State.placeWrite_nextUnit s g i u ps data adj
  revert hp h1 h2 h3 h4 h5 h6 hm hc hh hn
  generalize s.placeWrite g i u ps data adj = t
  cases t
  intros
  simp_all

/-- A byte outside the unit keeps its order and its value. -/
theorem State.placeWrite_outside (s : State) (g : Agent) (i : Nat) (u : MUnit) (ps : List Pick) (data : List Byte)
    (adj : Bool) (a : Nat) (h : a ∉ ps.map (·.addr)) :
    (s.placeWrite g i u ps data adj).orderAt a = s.orderAt a ∧
      (s.placeWrite g i u ps data adj).mem.read a = s.mem.read a := by
  have hm : (s.placeWrite g i u ps data adj).mem.read a = s.mem.read a := by
    rw [State.placeWrite_mem]; exact storeAll_read_outside ps data s.mem a h
  refine ⟨State.orderAt_of_coh _ _ _ ?_ hm, hm⟩
  rw [State.placeWrite_coh]
  exact placeAll_find_outside _ _ _ _ _ _ h

/-- A byte of the unit gets one new write, at its place; memory holds it if the place is the end of the order. -/
theorem State.placeWrite_at (s : State) (g : Agent) (i : Nat) (u : MUnit) (ps : List Pick) (data : List Byte)
    (adj : Bool) (hn : (ps.map (·.addr)).Nodup) (j : Nat) (hp : j < ps.length) (hd : j < data.length) :
    (s.placeWrite g i u ps data adj).orderAt ps[j].addr = ps[j].placed s.nextUnit data[j] adj ∧
      (s.placeWrite g i u ps data adj).mem.read ps[j].addr =
        if ps[j].place = ps[j].order.lastPlace then some data[j] else s.mem.read ps[j].addr := by
  constructor
  · simp [State.orderAt, placeAll_find_at _ _ _ _ _ hn j hp hd]
  · rw [State.placeWrite_mem]; exact storeAll_read_at ps data s.mem hn j hp hd

end Sys2Proof.Machine
end

