-- ==== Sys2Proof/Laws/Registers.lean ====
section
/-! SUPPORT. Reads after writes of registers: the register written holds the value, number 31 as a data register discards
it, and every other register keeps its own (10_state.md rules R13, R18). -/

namespace Sys2Proof.Machine

/-- Number 31 as a data register reads zero. -/
theorem PE.readX_31 (p : PE) : p.readX 31 = 0 := rfl

/-- A write to number 31 as a data register is discarded. -/
theorem PE.writeX_31 (p : PE) (v : Word64) : p.writeX 31 v = p := rfl

theorem PE.readX_writeX_self (p : PE) (r : Reg) (v : Word64) (h : r ≠ 31) : (p.writeX r v).readX r = v := by
  have hr : r.toNat < 31 := by
    have := r.isLt
    have : r.toNat ≠ 31 := fun e => h (BitVec.eq_of_toNat_eq e)
    omega
  simp [PE.readX, PE.writeX, hr]

theorem PE.readX_writeX_other (p : PE) (r q : Reg) (v : Word64) (h : q ≠ r) :
    (p.writeX r v).readX q = p.readX q := by
  have hn : r.toNat ≠ q.toNat := fun e => h (BitVec.eq_of_toNat_eq e.symm)
  unfold PE.readX PE.writeX
  split
  · split
    · simp [hn]
    · rfl
  · rfl

/-- What a read of a data register gives after a write of one. -/
theorem PE.readX_writeX (p : PE) (r q : Reg) (v : Word64) :
    (p.writeX r v).readX q = if q = r ∧ r ≠ 31 then v else p.readX q := by
  by_cases hq : q = r
  · by_cases hr : r = 31
    · rw [if_neg (fun h => h.2 hr), hr, PE.writeX_31]
    · rw [if_pos ⟨hq, hr⟩, hq, PE.readX_writeX_self _ _ _ hr]
  · rw [if_neg (fun h => hq h.1), PE.readX_writeX_other _ _ _ _ hq]

/-- A write of a data register leaves the stack pointer alone. -/
theorem PE.readBase_31 (p : PE) : p.readBase 31 = p.sp := rfl

theorem PE.readBase_of_ne (p : PE) (r : Reg) (h : r ≠ 31) : p.readBase r = p.readX r := by
  have hr : r.toNat < 31 := by
    have := r.isLt
    have : r.toNat ≠ 31 := fun e => h (BitVec.eq_of_toNat_eq e)
    omega
  simp [PE.readBase, hr]

/-- A write of the base register is what the base then reads. -/
theorem PE.readBase_writeBase (p : PE) (r : Reg) (v : Word64) : (p.writeBase r v).readBase r = v := by
  by_cases h : r = 31
  · subst h; rfl
  · have hr : r.toNat < 31 := by
      have := r.isLt
      have : r.toNat ≠ 31 := fun e => h (BitVec.eq_of_toNat_eq e)
      omega
    simp [PE.readBase, PE.writeBase, hr, PE.readX_writeX_self _ _ _ h]

theorem PE.readV_writeV_self (p : PE) (r : Reg) (v : Word128) : (p.writeV r v).readV r = v := by
  simp [PE.readV, PE.writeV]

theorem PE.readV_writeV_other (p : PE) (r q : Reg) (v : Word128) (h : q ≠ r) :
    (p.writeV r v).readV q = p.readV q := by
  have hn : r.toNat ≠ q.toNat := fun e => h (BitVec.eq_of_toNat_eq e.symm)
  simp [PE.readV, PE.writeV, hn]

/-- A code written to the `ESR_ELx` of a level is what that register then holds (no exception is taken to EL0). -/
theorem PE.esr_setEsr (p : PE) (e : EL) (v : Word64) (h : e ≠ .el0) : (p.setEsr e v).esr e = v := by
  cases e <;> first | rfl | exact absurd rfl h

/-- The `ESR_ELx` of another level is as it was. -/
theorem PE.esr_setEsr_other (p : PE) (e f : EL) (v : Word64) (h : f ≠ e) : (p.setEsr e v).esr f = p.esr f := by
  cases e <;> cases f <;> first | rfl | exact absurd rfl h

/-- A code stands where R17 puts it. -/
theorem dfscOf_withDfsc (esr : Word64) (dfsc : BitVec 6) : dfscOf (withDfsc esr dfsc) = dfsc := by
  apply BitVec.eq_of_getLsbD_eq
  intro i hi
  simp only [dfscOf, withDfsc, BitVec.getLsbD_extractLsb', BitVec.getLsbD_setWidth, BitVec.getLsbD_append]
  simp [hi]
  omega

/-- Every bit above the code is as it was. -/
theorem withDfsc_other (esr : Word64) (dfsc : BitVec 6) (i : Nat) (h : 6 ≤ i) (hi : i < 64) :
    (withDfsc esr dfsc).getLsbD i = esr.getLsbD i := by
  have h1 : ¬ i < 6 := by omega
  have h2 : i - 6 < 58 := by omega
  simp only [withDfsc, BitVec.getLsbD_setWidth, BitVec.getLsbD_append, BitVec.getLsbD_extractLsb', hi, h1, h2,
    if_false, decide_true, Bool.true_and]
  congr 1
  omega

end Sys2Proof.Machine
end

