-- ==== Sys2Proof/Laws/Ops.lean ====
section
/-! SUPPORT. What the shared operations do, said once: the end of an instruction, an access that nothing turns away, and
one unit of it. -/

namespace Sys2Proof.Machine

/-! ### Results -/

@[simp] theorem andThen_next {α β : Type} (a : α) (f : α → Res β) : andThen (.next a) f = f a := rfl

@[simp] theorem andThen_fault {α β : Type} (x : Fault) (f : α → Res β) : andThen (.fault x) f = .fault x := rfl

@[simp] theorem andThen_refused {α β : Type} (x : Refusal) (f : α → Res β) : andThen (.refused x) f = .refused x := rfl

/-- A result that goes on came from a result that went on. -/
theorem andThen_eq_next {α β : Type} (r : Res α) (f : α → Res β) (b : β) (h : andThen r f = .next b) :
    ∃ a, r = .next a ∧ f a = .next b := by
  cases r with
  | next a => exact ⟨a, rfl, h⟩
  | fault x => cases h
  | refused x => cases h

/-! ### The end of an instruction -/

theorem State.MayAdvance.endInstr {s : State} (h : s.MayAdvance) : s.endInstr = .next (s.setPe s.pe.next) := by
  simp [State.endInstr, PE.next, h.2]

/-- Everything the end of an instruction can do. -/
theorem State.endInstr_next (s t : State) (h : s.endInstr = .next t) : t = s.setPe s.pe.next := by
  unfold State.endInstr at h
  split at h
  · simpa [PE.next] using h.symm
  · cases h

/-- An exception that ends the run leaves everything else as it was. -/
theorem State.endRun_eq (s : State) (o : PeOutcome) :
    s.endRun o = { s with pes := s.pes.set s.cur { s.pe with run := .ended o, phase := .atStart } } := rfl

/-! ### An access -/

theorem mem_byteAddrs (a n b : Nat) : b ∈ byteAddrs a n ↔ a ≤ b ∧ b < a + n := by
  simp only [byteAddrs, List.mem_map, List.mem_range]
  constructor
  · rintro ⟨i, hi, rfl⟩; omega
  · rintro ⟨h1, h2⟩; exact ⟨b - a, by omega, by omega⟩

@[simp] theorem byteAddrs_length (a n : Nat) : (byteAddrs a n).length = n := by simp [byteAddrs]

theorem byteAddrs_getElem (a n i : Nat) (h : i < n) : (byteAddrs a n)[i]'(by simpa using h) = a + i := by
  simp [byteAddrs]

theorem Access.bytes_contiguous (a : Access) (h : a.cls ≠ .svePred) : a.bytes = byteAddrs a.addr a.total := by
  unfold Access.bytes
  split
  · next hc => exact absurd hc h
  · rfl

/-- Nothing turns a clear access away. -/
theorem State.Clear.check {s : State} {a : Access} (h : s.Clear a) (hc : a.cls ≠ .svePred) :
    checkAccess s.cfg a = .next none := by
  obtain ⟨_, ⟨h1, h2⟩, h3, h4⟩ := h
  have hf : a.bytes.find? (fun b => !inMemMap s.cfg b) = none := by
    rw [List.find?_eq_none, Access.bytes_contiguous a hc]
    intro b hb
    obtain ⟨hb1, hb2⟩ := (mem_byteAddrs _ _ _).mp hb
    simp [h2 b hb1 hb2]
  have hp : a.pastEnd = false := by
    unfold Access.pastEnd
    split
    · next hs => exact absurd hs hc
    · simpa using h1
  simp [checkAccess, h3, h4, hf, hp]

/-- A clear access becomes the units of `SCAUnits`. -/
theorem State.Clear.access {s : State} {a : Access} (h : s.Clear a) (hc : a.cls ≠ .svePred) (us : List MUnit)
    (hu : scaUnits s.cfg a = some us) (i : Instr) (data : List Byte) (done : Completion) :
    s.access i a data done =
      s.begin
        { instr := i
          addr := a.addr
          size := a.total
          reads := if a.dir = .read then us else []
          got := []
          rmw := none
          writes := if a.dir = .read then [] else us
          data := data
          interruptible := decide (1 < us.length)
          done := done } := by
  simp [State.access, State.checked, State.afterCheck, h.check hc, hu]

/-- An instruction of several units has begun after its first step. -/
theorem State.begin_many (s : State) (fl : InFlight) (h : 1 < fl.reads.length + fl.writes.length) :
    s.begin fl = .next (s.inside fl) := by
  simp [State.begin, State.inside, Nat.not_le.mpr h]

/-- A unit picked is one of the units, and the others are left. -/
theorem pickUnit_spec (k : Nat) (us rest : List MUnit) (u : MUnit) (h : pickUnit k us = some (u, rest)) :
    (u :: rest).Perm us := by
  simp only [pickUnit] at h
  split at h
  · next v hv =>
    simp only [Option.some.injEq, Prod.mk.injEq] at h
    obtain ⟨rfl, rfl⟩ := h
    obtain ⟨hk, rfl⟩ := List.getElem?_eq_some_iff.mp hv
    exact List.getElem_cons_eraseIdx_perm hk
  · cases h

theorem pickUnit_answers (k : Nat) (us : List MUnit) (h : us ≠ []) : ∃ u rest, pickUnit k us = some (u, rest) := by
  have hk : k % us.length < us.length := Nat.mod_lt _ (List.length_pos_iff.mpr h)
  exact ⟨us[k % us.length], us.eraseIdx (k % us.length), by simp [pickUnit, hk]⟩

@[simp] theorem pickUnit_nil (k : Nat) : pickUnit k [] = none := by simp [pickUnit]

@[simp] theorem pickUnit_one (k : Nat) (u : MUnit) : pickUnit k [u] = some (u, []) := by
  simp [pickUnit, Nat.mod_one]

/-! ### A load of one unit -/

/-- The bytes of a unit, found again in the order of their addresses. -/
theorem inOrder_self (addr size : Nat) (l : List GotByte) (h : l.map (·.addr) = byteAddrs addr size) :
    inOrder addr size l = l := by
  have aux : ∀ (l all : List GotByte), (all.map (·.addr)).Nodup → (∀ g ∈ l, g ∈ all) →
      (l.map (·.addr)).filterMap (fun a => all.find? fun g => g.addr == a) = l := by
    intro l
    induction l with
    | nil => simp
    | cons g l ih =>
      intro all hn hm
      have hg : all.find? (fun g' => g'.addr == g.addr) = some g := by
        have hex : (all.find? fun g' => g'.addr == g.addr).isSome := by
          rw [List.find?_isSome]
          exact ⟨g, hm g (by simp), by simp⟩
        obtain ⟨g', hg'⟩ := Option.isSome_iff_exists.mp hex
        have h1 : g'.addr = g.addr := by simpa using List.find?_some hg'
        have h2 : g' ∈ all := List.mem_of_find?_eq_some hg'
        rw [hg', List.inj_on_of_nodup_map hn h2 (hm g (by simp)) h1]
      rw [List.map_cons, List.filterMap_cons, hg, ih all hn fun g' hg' => hm g' (by simp [hg'])]
  unfold inOrder
  rw [← h]
  exact aux l l (h ▸ byteAddrs_nodup addr size) fun g hg => hg

/-- The registers are written, and the instruction ends. -/
def Completion.plain : Completion → Bool
  | .store64Status _ => false
  | .atomic _ b => !b
  | _ => true

theorem State.finish_plain (s : State) (addr : Nat) (l : List GotByte) (done : Completion) (h : done.plain = true) :
    s.finish addr l done = (s.setPe (s.pe.complete addr l done)).endInstr := by
  unfold State.finish
  split
  · simp [Completion.plain] at h
  · simp [Completion.plain] at h
  · rfl

@[simp] theorem PE.writeEight_pc (p : PE) (rt : Reg) (l : List GotByte) : (p.writeEight rt l).pc = p.pc := by
  simp [PE.writeEight, List.range_succ]

@[simp] theorem PE.complete_pc (p : PE) (addr : Nat) (l : List GotByte) (done : Completion) :
    (p.complete addr l done).pc = p.pc := by
  cases done <;> simp [PE.complete]

theorem State.MayAdvance.setPe {s : State} (h : s.MayAdvance) (p : PE) (hp : p.pc = s.pe.pc) :
    (s.setPe p).MayAdvance := by
  refine ⟨by simpa using h.1, ?_⟩
  rw [State.setPe_pe _ _ h.1, hp]
  exact h.2

/-- A load of one unit that may advance: it reads every byte and completes. -/
theorem State.begin_read_one (s : State) (fl : InFlight) (u : MUnit) (hm : s.MayAdvance) (hr : fl.reads = [u])
    (hw : fl.writes = []) (hg : fl.got = []) (hadj : fl.adjacent = false) (hx : fl.rmw = none) (hd : fl.done.plain = true)
    (ha : fl.addr = u.addr) (hs : fl.size = u.size) (hb : s.Readable u.addr u.size) :
    ∃ t l, s.begin fl = .next t ∧ s.Reading u.addr u.size l ∧
      s.AfterRead t l (s.pe.complete u.addr l fl.done).next := by
  obtain ⟨l, s₁, h⟩ := readUnit_answers readAdmitted (.pe s.cur) s.pe.inst u s
    fun b hb' => hb b ((mem_byteAddrs _ _ _).mp hb').1 ((mem_byteAddrs _ _ _).mp hb').2
  obtain ⟨h1, h2, h3⟩ := readUnit_next _ _ _ _ _ _ _ h
  have hpe : s₁.pe = s.pe := by rw [h3]; rfl
  have hm₁ : s₁.MayAdvance := by
    refine ⟨?_, by rw [hpe]; exact hm.2⟩
    rw [h3]; exact hm.1
  have hfin : s.begin fl = .next ((s₁.setPe (s₁.pe.complete u.addr l fl.done)).setPe
      (s₁.pe.complete u.addr l fl.done).next) := by
    have hin : inOrder u.addr u.size l = l := inOrder_self _ _ _ h1
    have hra : fl.admits = readAdmitted := by simp [InFlight.admits, hadj]
    simp only [State.begin, hr, hw, State.advance, pickUnit_one, hra, h, andThen_next, hg, List.nil_append]
    simp only [State.settle, InFlight.settled, InFlight.applyRmw, hx, ha, hs, List.isEmpty_nil, if_true, hin,
      State.finish_plain _ _ _ _ hd, Bool.and_self, List.length_cons, List.length_nil, Nat.zero_add, Nat.add_zero,
      Nat.le_refl]
    rw [(hm₁.setPe _ (by simp)).endInstr]
    simp [hm₁.1]
  refine ⟨_, l, hfin, ⟨h1, h2⟩, ?_⟩
  rw [State.setPe_setPe, hpe]
  unfold State.AfterRead State.setPe
  rw [h3]

end Sys2Proof.Machine
end

