-- ==== Sys2Proof/Laws/Units.lean ====
section
/-! SUPPORT. The bytes of lists of units, and a store of one unit from its start to its end. -/

namespace Sys2Proof.Machine

/-! ### The bytes of lists of units -/

theorem byteUnits_bytes (a n : Nat) : (byteUnits a n).flatMap MUnit.bytes = byteAddrs a n := by
  simp only [byteUnits, List.flatMap_map, MUnit.bytes]
  have : (fun b => byteAddrs b 1) = fun b => [b] := by funext b; simp [byteAddrs]
  simp [this]

theorem byteAddrs_append (a m n : Nat) : byteAddrs a m ++ byteAddrs (a + m) n = byteAddrs a (m + n) := by
  simp only [byteAddrs, List.range_add, List.map_append, List.map_map]
  congr 1
  apply List.map_congr_left
  intro x _
  simp
  omega

theorem quantities_bytes (a s k : Nat) :
    ((List.range k).map fun i => ({ addr := a + i * s, size := s } : MUnit)).flatMap MUnit.bytes =
      byteAddrs a (s * k) := by
  induction k with
  | zero => simp [byteAddrs]
  | succ k ih =>
    rw [List.range_succ, List.map_append, List.flatMap_append, ih]
    simp only [List.map_cons, List.map_nil, List.flatMap_cons, List.flatMap_nil, List.append_nil, MUnit.bytes]
    rw [show a + k * s = a + s * k by rw [Nat.mul_comm], byteAddrs_append, Nat.mul_succ]

theorem doublewordUnits_bytes (a n : Nat) : (doublewordUnits a n).flatMap MUnit.bytes = byteAddrs a (8 * n) :=
  quantities_bytes a 8 n

/-- A unit whose bytes are the `n` bytes from `a`, at least one, starts at `a` and has that size. -/
theorem MUnit.eq_of_bytes (u : MUnit) (a n : Nat) (hn : 1 ≤ n) (h : u.bytes = byteAddrs a n) :
    u = { addr := a, size := n } := by
  have hs : u.size = n := by simpa [MUnit.bytes] using congrArg List.length h
  have ha : u.addr = a := by
    have h0 := congrArg (fun l => l[0]?) h
    simp [MUnit.bytes, byteAddrs, hs, List.getElem?_range hn] at h0
    exact h0
  cases u
  simp_all

/-! ### The words a unit touches -/

theorem mem_wordsOf (u : MUnit) (a : Nat) (h : a ∈ wordsOf u) : a % 4 = 0 ∧ u.addr < a + 4 ∧ a < u.addr + u.size := by
  unfold wordsOf at h
  split at h
  · cases h
  · simp only [List.mem_map, List.mem_range] at h
    obtain ⟨i, hi, rfl⟩ := h
    simp only [wordAddr]
    omega

/-- A write moves no stage of a word it does not touch. -/
theorem State.noteWrite_sync_outside (s : State) (g : Agent) (m : Memory) (u : MUnit) (l : List (Nat × Byte)) (a : Nat)
    (h : a ∉ wordsOf u) : assocFind (s.noteWrite g m u l).sync a = assocFind s.sync a := by
  unfold State.noteWrite
  generalize wordsOf u = ws at h
  induction ws generalizing s with
  | nil => rfl
  | cons w ws ih =>
    simp only [List.mem_cons, not_or] at h
    rw [List.foldl_cons, ih _ h.2]
    unfold State.noteWord
    split
    · rfl
    · exact assocFind_insert_other _ _ _ _ h.1

/-! ### A write unit -/

theorem PE.SameButCandidates.refl (p : PE) : p.SameButCandidates p := rfl

theorem PE.sameButCandidates_cand (p : PE) (l : List (Nat × List (Option Word32))) :
    p.SameButCandidates { p with cand := l } := rfl

/-- Everything a write unit of an agent does: one new write for each byte, all of one unit, somewhere in its order. -/
theorem writeUnit_spec (g : Agent) (i : Nat) (u : MUnit) (data : List Byte) (s : State) (hl : data.length = u.size) :
    (∀ j v, data[j]? = some v → s.ByteStored (writeUnit g i u data s) s.nextUnit (u.addr + j) v none) ∧
      (∀ b, b < u.addr ∨ u.addr + u.size ≤ b →
        (writeUnit g i u data s).orderAt b = s.orderAt b ∧ (writeUnit g i u data s).mem.read b = s.mem.read b) ∧
      (∀ a, a + 4 ≤ u.addr ∨ u.addr + u.size ≤ a →
        assocFind (writeUnit g i u data s).sync a = assocFind s.sync a) ∧
      (writeUnit g i u data s).nextUnit = s.nextUnit + 1 ∧
      (writeUnit g i u data s).history = s.history ++ writeEffects g i s.nextUnit (u.bytes.zip data) ∧
      (∃ f : PE → List (Nat × List (Option Word32)),
        (writeUnit g i u data s).pes = s.pes.map fun p => { p with cand := f p }) ∧
      (writeUnit g i u data s).cfg = s.cfg ∧ (writeUnit g i u data s).cur = s.cur ∧
      (writeUnit g i u data s).nextInst = s.nextInst ∧ (writeUnit g i u data s).turn = s.turn := by
  obtain ⟨⟨h1, h2⟩, _, h3⟩ := choosePicks_spec placementAdmitted s u
  have hw : writeUnit g i u data s =
      (choosePicks placementAdmitted s u).2.placeWrite g i u (choosePicks placementAdmitted s u).1 data false := rfl
  generalize (choosePicks placementAdmitted s u).1 = ps at h1 h2 hw
  generalize (choosePicks placementAdmitted s u).2 = s₁ at h3 hw
  have hn : (ps.map (·.addr)).Nodup := h1 ▸ byteAddrs_nodup _ _
  have hlen : ps.length = u.size := by simpa [MUnit.bytes] using congrArg List.length h1
  have hord : ∀ b, s₁.orderAt b = s.orderAt b := fun b => by rw [h3]; rfl
  have hunit : s₁.nextUnit = s.nextUnit := by rw [h3]
  have hmem : s₁.mem = s.mem := by rw [h3]
  have hsync : s₁.sync = s.sync := by rw [h3]
  have hhist : s₁.history = s.history := by rw [h3]
  have hpes : s₁.pes = s.pes := by rw [h3]
  have hrest : s₁.cfg = s.cfg ∧ s₁.cur = s.cur ∧ s₁.nextInst = s.nextInst ∧ s₁.turn = s.turn := by rw [h3]; simp
  clear h3
  obtain ⟨f, hf⟩ := s₁.placeWrite_keeps g i u ps data false
  rw [hw]
  refine ⟨?_, ?_, ?_, ?_, ?_, ⟨f, ?_⟩, ?_⟩
  · intro j v hv
    obtain ⟨hj, rfl⟩ := List.getElem?_eq_some_iff.mp hv
    have hp : j < ps.length := by omega
    obtain ⟨ho, hk⟩ := h2 ps[j] (List.getElem_mem hp)
    have ha : ps[j].addr = u.addr + j := by
      have := List.getElem_of_eq h1 (i := j) (by simpa using hp)
      rw [List.getElem_map] at this
      rw [this]
      exact byteAddrs_getElem _ _ _ (by omega)
    obtain ⟨hc, hm⟩ := s₁.placeWrite_at g i u ps data false hn j hp hj
    rw [ha] at hc hm ho
    refine ⟨ps[j].place, by rw [← ho]; exact hk, by simp, ?_, ?_⟩
    · rw [hc, hunit, ← ho]; rfl
    · rw [hm, hmem, ho]
  · intro b hb
    have hout : b ∉ ps.map (·.addr) := by
      rw [h1, MUnit.bytes, mem_byteAddrs]; omega
    obtain ⟨hc, hm⟩ := s₁.placeWrite_outside g i u ps data false b hout
    exact ⟨by rw [hc, hord], by rw [hm, hmem]⟩
  · intro a ha
    rw [State.placeWrite, State.noteWrite_sync_outside _ _ _ _ _ _ fun hin => ?_]
    · rw [hsync]
    · have := mem_wordsOf u a hin; omega
  · rw [State.placeWrite_nextUnit, hunit]
  · rw [State.placeWrite_history, hunit, hhist, addressed, h1]
  · rw [hf, ← hpes]
  · rw [hf]
    exact hrest

/-- The bytes of the whole of an instruction's data. -/
theorem InFlight.dataOf_whole (fl : InFlight) (u : MUnit) (ha : fl.addr = u.addr) (hl : fl.data.length = u.size) :
    fl.dataOf u = fl.data := by
  simp [InFlight.dataOf, ha, ← hl]

/-- The PE after a write unit is the PE before it, but for the words it may fetch. -/
theorem State.pe_of_pes_map (s t : State) (f : PE → List (Nat × List (Option Word32))) (hc : s.curOk = true)
    (hp : t.pes = s.pes.map fun p => { p with cand := f p }) (hcur : t.cur = s.cur) :
    t.pe = { s.pe with cand := f s.pe } ∧ t.curOk = true := by
  have hl : s.cur < s.pes.length := by simpa [State.curOk] using hc
  constructor
  · simp [State.pe, hp, hcur, List.getD_eq_getElem?_getD, hl]
  · simp [State.curOk, hp, hcur, hl]

/-- What is left after a store and the end of its instruction. -/
theorem State.OnlyStored.of_write (s t : State) (addr n : Nat) (p q : PE)
    (f : PE → List (Nat × List (Option Word32))) (hc : s.curOk = true)
    (hp : t.pes = s.pes.map fun p => { p with cand := f p }) (hcfg : t.cfg = s.cfg) (hcur : t.cur = s.cur)
    (hin : t.nextInst = s.nextInst) (ht : t.turn = s.turn)
    (hb : ∀ b, b < addr ∨ addr + n ≤ b → t.orderAt b = s.orderAt b ∧ t.mem.read b = s.mem.read b)
    (hs : ∀ a, a + 4 ≤ addr ∨ addr + n ≤ a → assocFind t.sync a = assocFind s.sync a)
    (hq : q.SameButCandidates p) : s.OnlyStored (t.setPe q) addr n p := by
  obtain ⟨_, hok⟩ := s.pe_of_pes_map t f hc hp hcur
  refine ⟨hcfg, hcur, hin, ht, by simp [hp], ?_, ?_, fun b h => hb b h, fun a h => hs a h⟩
  · rw [State.setPe_pe _ _ hok]; exact hq
  · intro j a b hj ha hb'
    rw [State.setPe_other _ _ _ (by rw [hcur]; exact hj), hp, List.getElem?_map, ha] at hb'
    simp only [Option.map_some, Option.some.injEq] at hb'
    rw [← hb']
    exact PE.sameButCandidates_cand _ _

/-- A write unit that need not succeed what was read always has a place. -/
theorem InFlight.performWrite_plain (fl : InFlight) (s : State) (u : MUnit) (h : fl.adjacent = false) :
    s.performWrite fl u = some (writeUnit (.pe s.cur) s.pe.inst u (fl.dataOf u) s) := by
  simp [State.performWrite, h]

/-- A store of one unit that may advance completes. -/
theorem State.begin_write_one (s : State) (fl : InFlight) (u : MUnit) (wb : Option (Reg × Word64)) (hm : s.MayAdvance)
    (hr : fl.reads = []) (hw : fl.writes = [u]) (hadj : fl.adjacent = false) (hx : fl.rmw = none) (hd : fl.done = .store wb)
    (ha : fl.addr = u.addr) (hl : fl.data.length = u.size) :
    ∃ t, s.begin fl = .next t ∧ s.AfterWrite t u.addr fl.data (s.pe.writeback wb).next := by
  obtain ⟨h1, h2, h3, h4, h5, ⟨f, h6⟩, h7, h8, h9, h10⟩ := writeUnit_spec (.pe s.cur) s.pe.inst u fl.data s hl
  have hwu : writeUnit (.pe s.cur) s.pe.inst u (fl.dataOf u) s = writeUnit (.pe s.cur) s.pe.inst u fl.data s := by
    rw [fl.dataOf_whole u ha hl]
  generalize hs₁ : writeUnit (.pe s.cur) s.pe.inst u fl.data s = s₁ at *
  obtain ⟨hpe, hok⟩ := s.pe_of_pes_map s₁ f hm.1 h6 h8
  have hm₁ : s₁.MayAdvance := ⟨hok, by rw [hpe]; exact hm.2⟩
  have hfin : s.begin fl = .next (s₁.setPe (s₁.pe.writeback wb).next) := by
    simp only [State.begin, hr, hw, State.advance, pickUnit_one, pickUnit_nil, fl.performWrite_plain _ _ hadj, hwu]
    simp only [State.settle, InFlight.settled, InFlight.applyRmw, hx, List.isEmpty_nil, if_true, Bool.and_self, hd,
      State.finish_plain _ _ _ _ (show (Completion.store wb).plain = true from rfl), List.length_cons, List.length_nil,
      Nat.zero_add, Nat.le_refl]
    rw [(hm₁.setPe _ (by simp)).endInstr]
    simp [hm₁.1, PE.complete]
  refine ⟨_, hfin, ?_, ?_, h4, ?_⟩
  · rw [hl]
    refine State.OnlyStored.of_write s s₁ _ _ _ _ f hm.1 h6 h7 h8 h9 h10 h2 h3 ?_
    rw [hpe]
    cases wb with
    | none => rfl
    | some e => unfold PE.writeback PE.writeBase PE.writeX; simp only; split <;> rfl
  · intro i v hv
    obtain ⟨k, hk, hsrc, ho, hmem⟩ := h1 i v hv
    exact ⟨k, hk, hsrc, ho, hmem⟩
  · rw [State.setPe_history, h5, MUnit.bytes, hl]

end Sys2Proof.Machine
end

