-- ==== Sys2Proof/Laws/Evolves.lean ====
section
/-! SUPPORT. Everything a step can do, said once: a step is a chain of changes, each a choice, a count, a new state of the
current PE, a move of stages, a context synchronization, a read unit or a write unit whose places the rules admit. Every
invariant of the machine follows from what the single changes do. -/

namespace Sys2Proof.Machine

/-- What no step changes of the PE it is a step of, and how its `pc` moves. -/
structure PE.Keeps (a b : PE) : Prop where
  flags : b.flags = a.flags
  z : b.z = a.z
  p : b.p = a.p
  accData : b.accData = a.accData
  cand : b.cand = a.cand
  pc : a.pc.toNat % 4 = 0 → b.pc.toNat % 4 = 0

theorem PE.Keeps.refl (p : PE) : p.Keeps p := ⟨rfl, rfl, rfl, rfl, rfl, id⟩

theorem PE.Keeps.trans {p q r : PE} (h : p.Keeps q) (h' : q.Keeps r) : p.Keeps r :=
  ⟨h'.flags.trans h.flags, h'.z.trans h.z, h'.p.trans h.p, h'.accData.trans h.accData, h'.cand.trans h.cand,
    fun a => h'.pc (h.pc a)⟩

/-- A single change of the state. -/
inductive Change : State → State → Prop
  | choose (s : State) (d : List Nat) (c : Nat) (t : Option Move) :
      Change s { s with pending := d, drawCount := c, turn := t }
  | count (s : State) (n : Nat) : Change s { s with nextInst := n }
  | pe (s : State) (p : PE) (h : s.pe.Keeps p) : Change s (s.setPe p)
  | sync (s : State) (l : List (Nat × SyncWord)) : Change s { s with sync := l }
  | isb (s : State) : Change s s.contextSync
  | read (s : State) (g : Agent) (i : Nat) (addrs : List Nat) (ps : List Pick) (l : List GotByte)
      (hp : PicksOf s addrs ps) (hn : addrs.Nodup) (hl : gotAll ps = some l) (ha : readAdmitted ps = true) :
      Change s (s.recordRead g i l)
  | write (s : State) (g : Agent) (i : Nat) (u : MUnit) (ps : List Pick) (data : List Byte) (adj : Bool)
      (hp : PicksOf s u.bytes ps) (ha : placementAdmitted ps = true) : Change s (s.placeWrite g i u ps data adj)

/-- A chain of changes. -/
abbrev Evolves : State → State → Prop := Relation.ReflTransGen Change

theorem Change.evolves {s t : State} (h : Change s t) : Evolves s t := Relation.ReflTransGen.single h

theorem Change.cur {s t : State} (h : Change s t) : t.cur = s.cur := by
  cases h with
  | write g i u ps data adj hp ha => rw [State.placeWrite, State.noteWrite_cur]
  | _ => rfl

theorem Evolves.cur {s t : State} (h : Evolves s t) : t.cur = s.cur := by
  induction h with
  | refl => rfl
  | tail _ h ih => rw [h.cur, ih]

/-- An invariant that every change keeps is kept by every chain of changes. -/
theorem Evolves.keeps {P : State → Prop} {s t : State} (h : Evolves s t) (hs : P s)
    (hc : ∀ a b, Change a b → P a → P b) : P t := by
  induction h with
  | refl => exact hs
  | tail _ h ih => exact hc _ _ h ih

/-! ### Admitted places -/

theorem ByteOrder.unitsFrom_last (o : ByteOrder) : o.unitsFrom o.lastPlace = [] := by
  simp [ByteOrder.unitsFrom, ByteOrder.lastPlace]

theorem latest_readAdmitted (s : State) (l : List Nat) : readAdmitted (l.map (latestPick s)) = true := by
  simp only [readAdmitted, List.all_map, List.all_eq_true]
  intro a _
  simp only [Function.comp]
  split
  · rfl
  · simp [latestPick, ByteOrder.unitsFrom_last]

theorem latest_placementAdmitted (s : State) (l : List Nat) : placementAdmitted (l.map (latestPick s)) = true := by
  have h : ∀ o : ByteOrder, o.unitsFrom o.writes.length = [] := ByteOrder.unitsFrom_last
  simp [placementAdmitted, Pick.splitsNothing, latestPick, ByteOrder.lastPlace, h]

/-- The state after the choices of a unit's places. -/
theorem choosePicks_change (adm : List Pick → Bool) (s : State) (u : MUnit) :
    Change s (choosePicks adm s u).2 ∧ PicksOf (choosePicks adm s u).2 u.bytes (choosePicks adm s u).1 := by
  obtain ⟨h1, _, h3⟩ := choosePicks_spec adm s u
  constructor
  · rw [h3]; exact Change.choose s _ _ _
  · refine ⟨h1.1, fun p hp => ⟨?_, (h1.2 p hp).2⟩⟩
    rw [(h1.2 p hp).1]
    refine (State.orderAt_of_coh _ _ _ ?_ ?_).symm <;> rw [h3]

theorem MUnit.bytes_nodup (u : MUnit) : u.bytes.Nodup := byteAddrs_nodup _ _

/-- A read unit whose choices R64 admits, at least, is a chain of changes. -/
theorem readUnit_evolves (adm : List Pick → Bool) (hadm : ∀ ps, adm ps = true → readAdmitted ps = true) (g : Agent)
    (i : Nat) (u : MUnit) (s t : State) (l : List GotByte) (h : readUnit adm g i u s = .next (l, t)) : Evolves s t := by
  obtain ⟨h1, h2⟩ := choosePicks_change adm s u
  obtain ⟨_, h3, _⟩ := choosePicks_spec adm s u
  have ha : readAdmitted (choosePicks adm s u).1 = true := by
    rcases h3 with h3 | h3
    · exact hadm _ h3
    · rw [h3]; exact latest_readAdmitted s _
  simp only [readUnit] at h
  split at h
  · next l' hl =>
    simp only [Host.Outcome.next.injEq, Prod.mk.injEq] at h
    obtain ⟨rfl, rfl⟩ := h
    exact h1.evolves.tail (Change.read _ g i _ _ _ h2 u.bytes_nodup hl ha)
  · cases h

theorem writeUnit_evolves (g : Agent) (i : Nat) (u : MUnit) (data : List Byte) (s : State) :
    Evolves s (writeUnit g i u data s) := by
  obtain ⟨h1, h2⟩ := choosePicks_change placementAdmitted s u
  obtain ⟨_, h3, _⟩ := choosePicks_spec placementAdmitted s u
  have ha : placementAdmitted (choosePicks placementAdmitted s u).1 = true := by
    rcases h3 with h3 | h3
    · exact h3
    · rw [h3]; exact latest_placementAdmitted s _
  exact h1.evolves.tail (Change.write _ g i u _ data false h2 ha)

theorem PicksOf.recordRead {s : State} {addrs : List Nat} {ps : List Pick} (h : PicksOf s addrs ps) (g : Agent)
    (i : Nat) (l : List GotByte) : PicksOf (s.recordRead g i l) addrs ps := h

/-! ### Places right after what was read -/

theorem successorPicks_spec (s : State) (reads : List GotByte) (as : List Nat) (ps : List Pick)
    (h : successorPicks s reads as = some ps) : PicksOf s as ps := by
  induction as generalizing ps with
  | nil =>
    obtain rfl : ps = [] := by simpa [successorPicks] using h.symm
    exact ⟨rfl, by simp⟩
  | cons a as ih =>
    simp only [successorPicks] at h
    split at h
    · split at h
      · next k ps' hk hps =>
        simp only [Option.some.injEq] at h
        subst h
        obtain ⟨h1, h2⟩ := ih ps' hps
        refine ⟨by simp [h1], ?_⟩
        intro p hp
        rcases List.mem_cons.mp hp with rfl | hp
        · refine ⟨rfl, ?_⟩
          simp only [ByteOrder.placeOf] at hk
          split at hk
          · simp only [Option.some.injEq] at hk; simp [← hk]
          · simp only [Option.map_eq_some_iff] at hk
            obtain ⟨j, hj, rfl⟩ := hk
            have := (List.findIdx?_eq_some_iff_findIdx_eq.mp hj).1
            simp only [ByteOrder.lastPlace]
            omega
        · exact h2 p hp
      · cases h
    · cases h

/-- The places right after what was read are admitted places of the bytes. -/
theorem successorPlaces_spec (s : State) (reads : List GotByte) (addr size : Nat) (ps : List Pick)
    (h : successorPlaces s reads addr size = some ps) :
    PicksOf s (byteAddrs addr size) ps ∧ placementAdmitted ps = true ∧
      successorPicks s reads (byteAddrs addr size) = some ps := by
  unfold successorPlaces at h
  split at h
  · next ps' hps =>
    split at h
    · next hadm =>
      simp only [Option.some.injEq] at h
      subst h
      exact ⟨successorPicks_spec _ _ _ _ hps, hadm, hps⟩
    · cases h
  · cases h

/-- A place within the order is where its own source stands. -/
theorem ByteOrder.placeOf_sourceAt (o : ByteOrder) (hn : (o.writes.map (·.unit)).Nodup) (k : Nat) (hk : k ≤ o.lastPlace) :
    o.placeOf (o.sourceAt k) = some k := by
  cases k with
  | zero => rfl
  | succ k =>
    have hk' : k < o.writes.length := hk
    have : o.writes.findIdx? (fun w => w.unit == o.writes[k].unit) = some k := by
      rw [List.findIdx?_eq_some_iff_getElem]
      refine ⟨hk', by simp, fun j hj => ?_⟩
      simp only [Bool.not_eq_true, beq_eq_false_iff_ne]
      intro he
      have hp := List.pairwise_iff_getElem.mp hn j k (by simpa using Nat.lt_trans hj hk') (by simpa using hk') hj
      exact hp (by simpa using he)
    simp [ByteOrder.sourceAt, hk', ByteOrder.placeOf, this]

/-- The places right after what was read are the places it was read from. -/
theorem successorPicks_of_reads (s : State) (l : List GotByte) (as : List Nat) (ps : List Pick)
    (hn : ∀ b, ((s.orderAt b).writes.map (·.unit)).Nodup) (hp : PicksOf s as ps)
    (hl : ∀ p ∈ ps, ∃ g, (l.find? fun g => g.addr == p.addr) = some g ∧ g.source = p.order.sourceAt p.place) :
    successorPicks s l as = some ps := by
  obtain ⟨rfl, hp⟩ := hp
  induction ps with
  | nil => rfl
  | cons p ps ih =>
    obtain ⟨g, hg, hs⟩ := hl p (by simp)
    obtain ⟨ho, hk⟩ := hp p (by simp)
    have hrest := ih (fun q hq => hl q (by simp [hq])) (fun q hq => hp q (by simp [hq]))
    have hpl := ByteOrder.placeOf_sourceAt _ (hn p.addr) p.place (ho ▸ hk)
    simp only [List.map_cons, successorPicks, hg, hs, hrest, ho, hpl]
    rw [← ho]

/-- Among bytes of different addresses, the one found by an address is the one that has it. -/
theorem find_addr (l : List GotByte) (g : GotByte) (hn : (l.map (·.addr)).Nodup) (hg : g ∈ l) :
    (l.find? fun h => h.addr == g.addr) = some g := by
  induction l with
  | nil => cases hg
  | cons h l ih =>
    simp only [List.map_cons, List.nodup_cons] at hn
    rcases List.mem_cons.mp hg with rfl | hg
    · simp
    · have : h.addr ≠ g.addr := fun he => hn.1 (he ▸ List.mem_map_of_mem hg)
      simp [this, ih hn.2 hg]

/-- The picks that a read unit took are found again from the bytes it read. -/
theorem gotAll_found (ps : List Pick) (l : List GotByte) (hn : (ps.map (·.addr)).Nodup) (h : gotAll ps = some l) :
    ∀ p ∈ ps, ∃ g, (l.find? fun g => g.addr == p.addr) = some g ∧ g.source = p.order.sourceAt p.place := by
  induction ps generalizing l with
  | nil => simp
  | cons q ps ih =>
    simp only [gotAll] at h
    split at h
    · next g gs hg hgs =>
      cases h
      have hq : g.addr = q.addr ∧ g.source = q.order.sourceAt q.place := by
        simp only [Pick.got, Option.map_eq_some_iff] at hg
        obtain ⟨v, _, rfl⟩ := hg
        exact ⟨rfl, rfl⟩
      simp only [List.map_cons, List.nodup_cons] at hn
      intro p hp
      rcases List.mem_cons.mp hp with rfl | hp
      · exact ⟨g, by simp [hq.1], hq.2⟩
      · have : q.addr ≠ p.addr := fun he => hn.1 (he ▸ List.mem_map_of_mem hp)
        obtain ⟨g', hg', hs⟩ := ih gs hn.2 hgs p hp
        exact ⟨g', by simp [hq.1, this, hg'], hs⟩
    · cases h

/-- An atomic instruction that has just read and will write has a place for its write: nothing stands between (R180). -/
theorem successorPlaces_after_read (op : AtomicOp) (n : Nat) (g : Agent) (i : Nat) (u : MUnit) (s t : State)
    (l : List GotByte) (hn : ∀ b, ((s.orderAt b).writes.map (·.unit)).Nodup)
    (h : readUnit (rmwAdmitted op n) g i u s = .next (l, t)) (hw : (op.apply n (gotValue l)).isSome = true) :
    ∃ ps, successorPlaces t l u.addr u.size = some ps := by
  obtain ⟨hp, hadm, _⟩ := choosePicks_spec (rmwAdmitted op n) s u
  have ht := (readUnit_next _ _ _ _ _ _ _ h).2.2
  have ho : ∀ b, t.orderAt b = s.orderAt b := fun b => by rw [ht]; rfl
  simp only [readUnit] at h
  split at h
  · next l' hl =>
    simp only [Host.Outcome.next.injEq, Prod.mk.injEq] at h
    obtain ⟨rfl, -⟩ := h
    have hpl : placementAdmitted (choosePicks (rmwAdmitted op n) s u).1 = true := by
      rcases hadm with hadm | hadm
      · simp only [rmwAdmitted, hl, Bool.and_eq_true, Bool.or_eq_true] at hadm
        rcases hadm.2 with h | h
        · simp only [Option.isNone_iff_eq_none] at h; simp [h] at hw
        · exact h
      · rw [hadm]; exact latest_placementAdmitted s _
    have hs : successorPicks t l' u.bytes = some (choosePicks (rmwAdmitted op n) s u).1 := by
      refine successorPicks_of_reads _ _ _ _ (fun b => by rw [ho]; exact hn b)
        ⟨hp.1, fun p hp' => by rw [ho]; exact hp.2 p hp'⟩ (gotAll_found _ _ ?_ hl)
      rw [hp.1]; exact byteAddrs_nodup _ _
    rw [MUnit.bytes] at hs
    exact ⟨(choosePicks (rmwAdmitted op n) s u).1, by simp [successorPlaces, hs, hpl]⟩
  · cases h

/-- Reads of the latest writes leave a place right after them on every byte (R121 (b), R180). -/
theorem successorPlaces_latest (s : State) (l : List GotByte) (addr size : Nat)
    (hn : ∀ b, ((s.orderAt b).writes.map (·.unit)).Nodup) (ha : l.map (·.addr) = byteAddrs addr size)
    (hl : ∀ g ∈ l, g.source = (s.orderAt g.addr).sourceAt (s.orderAt g.addr).lastPlace) :
    successorPlaces s l addr size = some ((byteAddrs addr size).map (latestPick s)) := by
  have hs : successorPicks s l (byteAddrs addr size) = some ((byteAddrs addr size).map (latestPick s)) := by
    refine successorPicks_of_reads _ _ _ _ hn ⟨by simp [latestPick, Function.comp_def], ?_⟩ ?_
    · intro p hp
      obtain ⟨a, _, rfl⟩ := List.mem_map.mp hp
      exact ⟨rfl, Nat.le_refl _⟩
    · intro p hp
      obtain ⟨a, ha', rfl⟩ := List.mem_map.mp hp
      obtain ⟨g, hg, rfl⟩ := List.mem_map.mp (ha ▸ ha')
      exact ⟨g, find_addr l g (ha ▸ byteAddrs_nodup _ _) hg, hl g hg⟩
  unfold successorPlaces
  rw [hs]
  simp [latest_placementAdmitted]

/-- The places of a Store-Exclusive pair that may succeed are the places right after what its Load-Exclusive pair read. -/
theorem exclusivePlaces_spec (s : State) (addr size : Nat) (ps : List Pick)
    (h : exclusivePlaces s addr size = some ps) :
    ∃ e, s.pe.excl = some e ∧ e.addr = addr ∧ e.size = size ∧ successorPlaces s e.reads addr size = some ps := by
  unfold exclusivePlaces at h
  split at h
  · next e he =>
    split at h
    · next heq => exact ⟨e, he, heq.1, heq.2, h⟩
    · cases h
  · cases h

/-! ### Choices, and the current PE -/

theorem State.draw_change (s : State) : Change s s.draw.2 := by
  unfold State.draw
  split
  · exact Change.choose s _ _ _
  · exact Change.choose s _ _ _

theorem State.drawBelow_evolves (s : State) (n : Nat) : Evolves s (s.drawBelow n).2 := by
  unfold State.drawBelow
  split
  · exact .refl
  · exact s.draw_change.evolves

theorem PE.Keeps.writeX (p : PE) (r : Reg) (v : Word64) : p.Keeps (p.writeX r v) := by
  constructor <;> simp

theorem PE.Keeps.writeBase (p : PE) (r : Reg) (v : Word64) : p.Keeps (p.writeBase r v) := by
  constructor <;> simp

theorem PE.Keeps.writeV (p : PE) (r : Reg) (v : Word128) : p.Keeps (p.writeV r v) := by
  constructor <;> simp

theorem PE.Keeps.writeback (p : PE) (wb : Option (Reg × Word64)) : p.Keeps (p.writeback wb) := by
  constructor <;> simp

theorem PE.Keeps.setEsr (p : PE) (e : EL) (v : Word64) : p.Keeps (p.setEsr e v) := by
  constructor <;> simp

theorem PE.Keeps.writeEight (p : PE) (rt : Reg) (l : List GotByte) : p.Keeps (p.writeEight rt l) := by
  unfold PE.writeEight
  generalize List.range 8 = is
  induction is generalizing p with
  | nil => exact .refl p
  | cons i is ih => exact (PE.Keeps.writeX p _ _).trans (ih _)

theorem PE.Keeps.complete (p : PE) (addr : Nat) (l : List GotByte) (done : Completion) :
    p.Keeps (p.complete addr l done) := by
  cases done with
  | loadGpr rt => exact .writeX p _ _
  | loadPair rt rt2 size wb => exact ((PE.Keeps.writeX p _ _).trans (.writeX _ _ _)).trans (.writeback _ _)
  | loadFpPair rt rt2 size => exact (PE.Keeps.writeV p _ _).trans (.writeV _ _ _)
  | loadExclusive rt rt2 size =>
    have h := (PE.Keeps.writeX p rt (BitVec.ofNat 64 (sliceValue l 0 size))).trans
      (.writeX _ rt2 (BitVec.ofNat 64 (sliceValue l size size)))
    exact ⟨h.flags, h.z, h.p, h.accData, h.cand, h.pc⟩
  | load64 rt => exact .writeEight p rt l
  | store wb => exact .writeback p wb
  | store64Status rs => exact .refl p
  | atomic rd b => exact .writeX p _ _

theorem PE.Keeps.next (p : PE) : p.Keeps p.next := by
  refine ⟨rfl, rfl, rfl, rfl, rfl, fun h => ?_⟩
  have h4 : (4 : Word64).toNat = 4 := rfl
  simp only [PE.next, BitVec.toNat_add, h4]
  omega

theorem State.endInstr_evolves (s t : State) (h : s.endInstr = .next t) : Evolves s t := by
  rw [s.endInstr_next t h]
  exact (Change.pe s _ (.next _)).evolves

theorem State.endRun_evolves (s : State) (o : PeOutcome) : Evolves s (s.endRun o) :=
  (Change.pe s { s.pe with run := .ended o, phase := .atStart } ⟨rfl, rfl, rfl, rfl, rfl, id⟩).evolves

theorem State.takeException_evolves (s : State) (o : PeOutcome) : Evolves s (s.takeException o) := by
  unfold State.takeException
  split
  · exact (Change.pe s _ (.setEsr _ _ _)).evolves.trans (State.endRun_evolves _ _)
  · exact s.endRun_evolves o

theorem State.takeMmuFault_evolves (s : State) (addr : Nat) : Evolves s (s.takeMmuFault addr) := by
  have : Evolves s s.abortRouting.2 := by
    unfold State.abortRouting
    split
    · exact .refl
    · exact .refl
    · split
      · have h := s.drawBelow_evolves 2
        split <;> next heq => rw [heq] at h; exact h
      · exact .refl
  unfold State.takeMmuFault
  split
  next heq =>
    rw [heq] at this
    exact this.trans (State.takeException_evolves _ _)

/-- A branch offset is a multiple of 4. -/
theorem branchOffset_aligned {n : Nat} (imm : BitVec n) : (branchOffset imm).toNat % 4 = 0 := by
  have h0 : (branchOffset imm).getLsbD 0 = false := by
    simp [branchOffset, BitVec.getElem_signExtend, BitVec.getElem_append]
  have h1 : (branchOffset imm).getLsbD 1 = false := by
    simp [branchOffset, BitVec.getElem_signExtend, BitVec.getElem_append]
  simp only [BitVec.getLsbD, Nat.testBit] at h0 h1
  simp at h0 h1
  omega

theorem branchTarget_aligned (pc off : Word64) (h : pc.toNat % 4 = 0) (ho : off.toNat % 4 = 0) :
    (branchTarget pc off).toNat % 4 = 0 := by
  simp only [branchTarget, BitVec.toNat_add]
  omega

theorem State.jump_evolves (s t : State) (off : Word64) (ho : off.toNat % 4 = 0)
    (h : s.jump (branchTarget s.pe.pc off) = .next t) : Evolves s t := by
  simp only [State.jump, Host.Outcome.next.injEq] at h
  rw [← h]
  exact (Change.pe s { s.pe with pc := branchTarget s.pe.pc off, phase := .atStart }
    ⟨rfl, rfl, rfl, rfl, rfl, fun ha => branchTarget_aligned _ _ ha ho⟩).evolves

theorem State.branchIf_evolves (s t : State) (b : Bool) (off : Word64) (ho : off.toNat % 4 = 0)
    (h : s.branchIf b off = .next t) : Evolves s t := by
  unfold State.branchIf at h
  split at h
  · exact s.jump_evolves t off ho h
  · exact s.endInstr_evolves t h

theorem State.lowConfidence_next (s t : State) (n : String) (m : Res State) (h : s.lowConfidence n m = .next t) :
    m = .next t := by
  unfold State.lowConfidence at h
  split at h
  · exact h
  · cases h

/-! ### Accesses -/

theorem State.finish_evolves (s t : State) (addr : Nat) (l : List GotByte) (done : Completion)
    (h : s.finish addr l done = .next t) : Evolves s t := by
  unfold State.finish at h
  split at h
  · exact (s.draw_change.evolves.tail (Change.pe _ _ (.writeX _ _ _))).trans (State.endInstr_evolves _ _ h)
  · obtain ⟨a, h1, h2⟩ := andThen_eq_next _ _ _ h
    simp only [Host.Outcome.next.injEq] at h2
    rw [← h2]
    exact ((Change.pe s _ (.complete _ _ _ _)).evolves.trans (State.endInstr_evolves _ _ h1)).trans
      (State.takeException_evolves _ _)
  · exact (Change.pe s _ (.complete _ _ _ _)).evolves.trans (State.endInstr_evolves _ _ h)

theorem State.settle_evolves (s t : State) (fl : InFlight) (h : s.settle fl = .next t) : Evolves s t := by
  unfold State.settle at h
  split at h
  · exact s.finish_evolves t _ _ _ h
  · simp only [Host.Outcome.next.injEq] at h
    rw [← h]
    exact (Change.pe s { s.pe with phase := .inside fl.settled } ⟨rfl, rfl, rfl, rfl, rfl, id⟩).evolves

theorem rmwAdmitted_admits (op : AtomicOp) (n : Nat) (ps : List Pick) (h : rmwAdmitted op n ps = true) :
    readAdmitted ps = true := by
  simp only [rmwAdmitted, Bool.and_eq_true] at h
  exact h.1

/-- What an instruction's read asks for is R64 at least. -/
theorem InFlight.admits_readAdmitted (fl : InFlight) (ps : List Pick) (h : fl.admits ps = true) :
    readAdmitted ps = true := by
  cases ha : fl.adjacent with
  | false => simpa [InFlight.admits, ha] using h
  | true =>
    cases hr : fl.rmw with
    | none => simpa [InFlight.admits, ha, hr] using h
    | some op => exact rmwAdmitted_admits op fl.size ps (by simpa [InFlight.admits, ha, hr] using h)

/-- A write unit of an instruction goes to places the rules admit. -/
theorem State.performWrite_evolves (s t : State) (fl : InFlight) (u : MUnit) (h : s.performWrite fl u = some t) :
    Evolves s t := by
  unfold State.performWrite at h
  split at h
  · split at h
    · next ps hps =>
      obtain ⟨h1, h2, _⟩ := successorPlaces_spec _ _ _ _ _ hps
      simp only [Option.some.injEq] at h
      rw [← h]
      exact (Change.write s _ _ u ps _ true h1 h2).evolves
    · cases h
  · simp only [Option.some.injEq] at h
    rw [← h]
    exact writeUnit_evolves _ _ _ _ _

theorem State.advance_evolves (s t : State) (fl : InFlight) (k : Nat) (h : s.advance fl k = .next t) :
    Evolves s t := by
  unfold State.advance at h
  split at h
  · obtain ⟨r, h1, h2⟩ := andThen_eq_next _ _ _ h
    exact (readUnit_evolves _ fl.admits_readAdmitted _ _ _ _ _ _ h1).trans (State.settle_evolves _ _ _ h2)
  · split at h
    · split at h
      · next s₁ hw => exact (s.performWrite_evolves s₁ fl _ hw).trans (State.settle_evolves _ _ _ h)
      · simp only [Host.Outcome.next.injEq] at h; exact h ▸ .refl
    · exact s.settle_evolves t fl h

theorem State.begin_evolves (s t : State) (fl : InFlight) (h : s.begin fl = .next t) : Evolves s t := by
  unfold State.begin at h
  split at h
  · exact s.advance_evolves t fl 0 h
  · simp only [Host.Outcome.next.injEq] at h
    rw [← h]
    exact (Change.pe s { s.pe with phase := .inside fl } ⟨rfl, rfl, rfl, rfl, rfl, id⟩).evolves

/-- What passes a check goes on from the same state. -/
theorem State.afterCheck_evolves (s t : State) (c : Res (Option PeOutcome)) (go : Res State)
    (hgo : ∀ t, go = .next t → Evolves s t) (h : s.afterCheck c go = .next t) : Evolves s t := by
  obtain ⟨o, _, h2⟩ := andThen_eq_next _ _ _ h
  cases o with
  | some e =>
    simp only [Host.Outcome.next.injEq] at h2
    rw [← h2]
    exact s.takeException_evolves e
  | none => exact hgo t h2

theorem State.checked_evolves (s t : State) (a : Access) (go : Res State) (hgo : ∀ t, go = .next t → Evolves s t)
    (h : s.checked a go = .next t) : Evolves s t := s.afterCheck_evolves t _ go hgo h

theorem State.access_evolves (s t : State) (i : Instr) (a : Access) (data : List Byte) (done : Completion)
    (h : s.access i a data done = .next t) : Evolves s t := by
  refine s.checked_evolves t a _ (fun t ht => ?_) h
  split at ht
  · cases ht
  · exact s.begin_evolves t _ ht

theorem State.performNonAtomic_evolves (s t : State) (i : Instr) (addr n : Nat) (op : AtomicOp) (rd : Reg) (b : Bool)
    (h : s.performNonAtomic i addr n op rd b = .next t) : Evolves s t := s.begin_evolves t _ h

theorem State.unsupportedAtomic_evolves (s t : State) (i : Instr) (addr n : Nat) (op : AtomicOp) (rd : Reg)
    (e : UnsupportedEffect) (h : s.unsupportedAtomic i addr n op rd e = .next t) : Evolves s t := by
  cases e <;> simp only [State.unsupportedAtomic, Host.Outcome.next.injEq] at h
  · rw [← h]; exact s.takeException_evolves _
  · rw [← h]; exact s.takeException_evolves _
  · rw [← h]; exact s.takeMmuFault_evolves _
  · exact s.endInstr_evolves t h
  · rw [← h]; exact s.takeException_evolves _
  · exact s.performNonAtomic_evolves t _ _ _ _ _ _ h
  · exact s.performNonAtomic_evolves t _ _ _ _ _ _ h

theorem State.atomicRmw_evolves (s t : State) (i : Instr) (addr n : Nat) (op : AtomicOp) (rd : Reg)
    (h : s.atomicRmw i addr n op rd = .next t) : Evolves s t := by
  unfold State.atomicRmw at h
  split at h
  · refine s.checked_evolves t _ _ (fun t ht => ?_) h
    split at ht
    · exact s.begin_evolves t _ ht
    · exact (s.drawBelow_evolves _).trans (State.unsupportedAtomic_evolves _ _ _ _ _ _ _ _ ht)
  · cases h

/-! ### Exclusive pairs -/

theorem State.endExclusive_evolves (s t : State) (rs : Reg) (v : Word64) (h : s.endExclusive rs v = .next t) :
    Evolves s t := by
  have hk := PE.Keeps.writeX s.pe rs v
  exact (Change.pe s { s.pe.writeX rs v with excl := none }
    ⟨hk.flags, hk.z, hk.p, hk.accData, hk.cand, hk.pc⟩).evolves.trans
    (State.endInstr_evolves _ _ h)

/-- The unit of a Store-Exclusive pair that succeeds is its whole access. -/
theorem exclusiveAccess_units (cfg : Config) (addr size : Nat) (h : size = 4 ∨ size = 8) :
    scaUnits cfg (exclusiveAccess .write addr size) = some [{ addr := addr, size := 2 * size }] := by
  rcases h with rfl | rfl
  · simp [scaUnits, exclusiveAccess, exclusiveClass]
  · simp [scaUnits, exclusiveAccess, exclusiveClass, exclPair64Units, Access.whole, Access.total]

theorem State.storeExclusive_evolves (s t : State) (size : Nat) (rs rt2 rn rt : Reg) (hs : size = 4 ∨ size = 8)
    (h : s.storeExclusive size rs rt2 rn rt = .next t) : Evolves s t := by
  unfold State.storeExclusive at h
  split at h
  · cases h
  · refine s.afterCheck_evolves t _ _ (fun t ht => ?_) h
    split at ht
    · exact s.endExclusive_evolves t _ _ ht
    · next ps hps =>
      obtain ⟨e, _, _, _, he⟩ := exclusivePlaces_spec _ _ _ _ hps
      obtain ⟨h1, h2, _⟩ := successorPlaces_spec _ _ _ _ _ he
      have hd := s.drawBelow_evolves 2
      split at ht
      · next s₁ heq => rw [heq] at hd; exact hd.trans (State.endExclusive_evolves _ _ _ _ ht)
      · next s₁ _ heq =>
        have ho : ∀ b, s₁.orderAt b = s.orderAt b := fun b => by
          have := State.drawBelow_orderAt s 2 b
          rwa [heq] at this
        rw [heq] at hd
        refine hd.trans (s₁.checked_evolves t _ _ (fun t ht => ?_) ht)
        refine Relation.ReflTransGen.trans ?_ (State.endExclusive_evolves _ _ _ _ ht)
        simp only [State.exclusiveWrite, exclusiveAccess_units _ _ _ hs]
        exact (Change.write s₁ _ _ { addr := (s.pe.readBase rn).toNat, size := 2 * size } ps _ true
          ⟨h1.1, fun p hp => ⟨by rw [ho]; exact (h1.2 p hp).1, (h1.2 p hp).2⟩⟩ h2).evolves

end Sys2Proof.Machine
end

