-- ==== Sys2Proof/Laws/PerInstr.lean ====
section
/-! SUPPORT. What is proved of each constructor of `Instr`: the word that `encode` gives a well-formed instruction is
accepted by the instruction's own row of the opcode table, and that row reads the instruction back, every operand at its
value (30_encoding.md rules R97, R101). That no other row accepts the word is not said here. -/

namespace Sys2Proof.Laws.RowReadsBack

/-- A row of the table accepts the instruction's word and builds the instruction from it. -/
def Statement (i : Instr) : Prop :=
  i.wellFormed = true → ∃ r ∈ rows, r.accepts (encode i) = true ∧ r.build (encode i) = i

/-- A field whose bits have the value of `f` is `f`. -/
theorem field_of_bits {n : Nat} (w : Word32) (lo : Nat) (f : BitVec n) (h : w.toNat / 2 ^ lo % 2 ^ n = f.toNat) :
    field w lo n = f := by
  apply BitVec.eq_of_toNat_eq
  simp [field, BitVec.toNat_ofNat, h]

theorem branchRows_in_rows {r : Row} (h : r ∈ branchRows) : r ∈ rows := by
  simp only [rows, List.mem_append]; tauto

theorem compareRows_in_rows {r : Row} (h : r ∈ compareRows) : r ∈ rows := by
  simp only [rows, List.mem_append]; tauto

theorem systemRows_in_rows {r : Row} (h : r ∈ systemRows) : r ∈ rows := by
  simp only [rows, List.mem_append]; tauto

theorem singleRows_in_rows {r : Row} (h : r ∈ singleRows) : r ∈ rows := by
  simp only [rows, List.mem_append]; tauto

theorem pair32Rows_in_rows {r : Row} (h : r ∈ pair32Rows) : r ∈ rows := by
  simp only [rows, List.mem_append]; tauto

theorem pair64Rows_in_rows {r : Row} (h : r ∈ pair64Rows) : r ∈ rows := by
  simp only [rows, List.mem_append]; tauto

theorem fpPairRows_in_rows {r : Row} (h : r ∈ fpPairRows) : r ∈ rows := by
  simp only [rows, List.mem_append]; tauto

theorem exclusiveRows_in_rows {r : Row} (h : r ∈ exclusiveRows) : r ∈ rows := by
  simp only [rows, List.mem_append]; tauto

theorem rcpcRows_in_rows {r : Row} (h : r ∈ rcpcRows) : r ∈ rows := by
  simp only [rows, List.mem_append]; tauto

theorem ls64Rows_in_rows {r : Row} (h : r ∈ ls64Rows) : r ∈ rows := by
  simp only [rows, List.mem_append]; tauto

theorem atomicRows_in_rows {r : Row} (h : r ∈ atomicRows) : r ∈ rows := by
  simp only [rows, List.mem_append]; tauto

theorem b (imm26 : BitVec 26) : Statement (.b imm26) := by
  intro _
  refine ⟨branchRows[0], branchRows_in_rows (List.getElem_mem _), ?_, ?_⟩
  all_goals
    have h_imm26 := imm26.isLt
    have hw : (encode (.b imm26)).toNat = 0x14000000 + imm26.toNat * 2 ^ 0 := by
      simp only [encode, packWord, List.foldl, BitVec.toNat_ofNat]; omega
  · simp [branchRows, Row.accepts, FixedBits.holds, bitsAt, hw]; omega
  · simp only [branchRows, List.getElem_cons_zero]
    congr 1; apply field_of_bits; rw [hw]; omega

theorem bl (imm26 : BitVec 26) : Statement (.bl imm26) := by
  intro _
  refine ⟨branchRows[1], branchRows_in_rows (List.getElem_mem _), ?_, ?_⟩
  all_goals
    have h_imm26 := imm26.isLt
    have hw : (encode (.bl imm26)).toNat = 0x94000000 + imm26.toNat * 2 ^ 0 := by
      simp only [encode, packWord, List.foldl, BitVec.toNat_ofNat]; omega
  · simp [branchRows, Row.accepts, FixedBits.holds, bitsAt, hw]; omega
  · simp only [branchRows, List.getElem_cons_succ, List.getElem_cons_zero]
    congr 1; apply field_of_bits; rw [hw]; omega

theorem bCond (imm19 : BitVec 19) (cond : BitVec 4) : Statement (.bCond imm19 cond) := by
  intro _
  refine ⟨branchRows[2], branchRows_in_rows (List.getElem_mem _), ?_, ?_⟩
  all_goals
    have h_imm19 := imm19.isLt
    have h_cond := cond.isLt
    have hw : (encode (.bCond imm19 cond)).toNat = 0x54000000 + imm19.toNat * 2 ^ 5 + cond.toNat * 2 ^ 0 := by
      simp only [encode, packWord, List.foldl, BitVec.toNat_ofNat]; omega
  · simp [branchRows, Row.accepts, FixedBits.holds, bitsAt, hw]; omega
  · simp only [branchRows, List.getElem_cons_succ, List.getElem_cons_zero]
    congr 1 <;> apply field_of_bits <;> rw [hw] <;> omega

theorem cbz (sf : BitVec 1) (imm19 : BitVec 19) (rt : Reg) : Statement (.cbz sf imm19 rt) := by
  intro _
  refine ⟨branchRows[3], branchRows_in_rows (List.getElem_mem _), ?_, ?_⟩
  all_goals
    have h_sf := sf.isLt
    have h_imm19 := imm19.isLt
    have h_rt := rt.isLt
    have hw : (encode (.cbz sf imm19 rt)).toNat = 0x34000000 + sf.toNat * 2 ^ 31 + imm19.toNat * 2 ^ 5 + rt.toNat * 2 ^ 0 := by
      simp only [encode, packWord, List.foldl, BitVec.toNat_ofNat]; omega
  · simp [branchRows, Row.accepts, FixedBits.holds, bitsAt, hw]; omega
  · simp only [branchRows, List.getElem_cons_succ, List.getElem_cons_zero]
    congr 1 <;> apply field_of_bits <;> rw [hw] <;> omega

theorem cbnz (sf : BitVec 1) (imm19 : BitVec 19) (rt : Reg) : Statement (.cbnz sf imm19 rt) := by
  intro _
  refine ⟨branchRows[4], branchRows_in_rows (List.getElem_mem _), ?_, ?_⟩
  all_goals
    have h_sf := sf.isLt
    have h_imm19 := imm19.isLt
    have h_rt := rt.isLt
    have hw : (encode (.cbnz sf imm19 rt)).toNat = 0x35000000 + sf.toNat * 2 ^ 31 + imm19.toNat * 2 ^ 5 + rt.toNat * 2 ^ 0 := by
      simp only [encode, packWord, List.foldl, BitVec.toNat_ofNat]; omega
  · simp [branchRows, Row.accepts, FixedBits.holds, bitsAt, hw]; omega
  · simp only [branchRows, List.getElem_cons_succ, List.getElem_cons_zero]
    congr 1 <;> apply field_of_bits <;> rw [hw] <;> omega

theorem tbz (b5 : BitVec 1) (b40 : BitVec 5) (imm14 : BitVec 14) (rt : Reg) : Statement (.tbz b5 b40 imm14 rt) := by
  intro _
  refine ⟨branchRows[5], branchRows_in_rows (List.getElem_mem _), ?_, ?_⟩
  all_goals
    have h_b5 := b5.isLt
    have h_b40 := b40.isLt
    have h_imm14 := imm14.isLt
    have h_rt := rt.isLt
    have hw : (encode (.tbz b5 b40 imm14 rt)).toNat = 0x36000000 + b5.toNat * 2 ^ 31 + b40.toNat * 2 ^ 19 + imm14.toNat * 2 ^ 5 + rt.toNat * 2 ^ 0 := by
      simp only [encode, packWord, List.foldl, BitVec.toNat_ofNat]; omega
  · simp [branchRows, Row.accepts, FixedBits.holds, bitsAt, hw]; omega
  · simp only [branchRows, List.getElem_cons_succ, List.getElem_cons_zero]
    congr 1 <;> apply field_of_bits <;> rw [hw] <;> omega

theorem tbnz (b5 : BitVec 1) (b40 : BitVec 5) (imm14 : BitVec 14) (rt : Reg) : Statement (.tbnz b5 b40 imm14 rt) := by
  intro _
  refine ⟨branchRows[6], branchRows_in_rows (List.getElem_mem _), ?_, ?_⟩
  all_goals
    have h_b5 := b5.isLt
    have h_b40 := b40.isLt
    have h_imm14 := imm14.isLt
    have h_rt := rt.isLt
    have hw : (encode (.tbnz b5 b40 imm14 rt)).toNat = 0x37000000 + b5.toNat * 2 ^ 31 + b40.toNat * 2 ^ 19 + imm14.toNat * 2 ^ 5 + rt.toNat * 2 ^ 0 := by
      simp only [encode, packWord, List.foldl, BitVec.toNat_ofNat]; omega
  · simp [branchRows, Row.accepts, FixedBits.holds, bitsAt, hw]; omega
  · simp only [branchRows, List.getElem_cons_succ, List.getElem_cons_zero]
    congr 1 <;> apply field_of_bits <;> rw [hw] <;> omega

theorem cbReg (sf : BitVec 1) (cc : BitVec 3) (rm : Reg) (imm9 : BitVec 9) (rt : Reg) : Statement (.cbReg sf cc rm imm9 rt) := by
  intro _
  refine ⟨compareRows[0], compareRows_in_rows (List.getElem_mem _), ?_, ?_⟩
  all_goals
    have h_sf := sf.isLt
    have h_cc := cc.isLt
    have h_rm := rm.isLt
    have h_imm9 := imm9.isLt
    have h_rt := rt.isLt
    have hw : (encode (.cbReg sf cc rm imm9 rt)).toNat = 0x74000000 + sf.toNat * 2 ^ 31 + cc.toNat * 2 ^ 21 + rm.toNat * 2 ^ 16 + imm9.toNat * 2 ^ 5 + rt.toNat * 2 ^ 0 := by
      simp only [encode, packWord, List.foldl, BitVec.toNat_ofNat]; omega
  · simp [compareRows, Row.accepts, FixedBits.holds, bitsAt, hw]; omega
  · simp only [compareRows, List.getElem_cons_zero]
    congr 1 <;> apply field_of_bits <;> rw [hw] <;> omega

theorem cbImm (sf : BitVec 1) (cc : BitVec 3) (imm6 : BitVec 6) (imm9 : BitVec 9) (rt : Reg) : Statement (.cbImm sf cc imm6 imm9 rt) := by
  intro _
  refine ⟨compareRows[1], compareRows_in_rows (List.getElem_mem _), ?_, ?_⟩
  all_goals
    have h_sf := sf.isLt
    have h_cc := cc.isLt
    have h_imm6 := imm6.isLt
    have h_imm9 := imm9.isLt
    have h_rt := rt.isLt
    have hw : (encode (.cbImm sf cc imm6 imm9 rt)).toNat = 0x75000000 + sf.toNat * 2 ^ 31 + cc.toNat * 2 ^ 21 + imm6.toNat * 2 ^ 15 + imm9.toNat * 2 ^ 5 + rt.toNat * 2 ^ 0 := by
      simp only [encode, packWord, List.foldl, BitVec.toNat_ofNat]; omega
  · simp [compareRows, Row.accepts, FixedBits.holds, bitsAt, hw]; omega
  · simp only [compareRows, List.getElem_cons_succ, List.getElem_cons_zero]
    congr 1 <;> apply field_of_bits <;> rw [hw] <;> omega

theorem cbb (cc : BitVec 3) (rm : Reg) (imm9 : BitVec 9) (rt : Reg) : Statement (.cbb cc rm imm9 rt) := by
  intro _
  refine ⟨compareRows[2], compareRows_in_rows (List.getElem_mem _), ?_, ?_⟩
  all_goals
    have h_cc := cc.isLt
    have h_rm := rm.isLt
    have h_imm9 := imm9.isLt
    have h_rt := rt.isLt
    have hw : (encode (.cbb cc rm imm9 rt)).toNat = 0x74008000 + cc.toNat * 2 ^ 21 + rm.toNat * 2 ^ 16 + imm9.toNat * 2 ^ 5 + rt.toNat * 2 ^ 0 := by
      simp only [encode, packWord, List.foldl, BitVec.toNat_ofNat]; omega
  · simp [compareRows, Row.accepts, FixedBits.holds, bitsAt, hw]; omega
  · simp only [compareRows, List.getElem_cons_succ, List.getElem_cons_zero]
    congr 1 <;> apply field_of_bits <;> rw [hw] <;> omega

theorem cbh (cc : BitVec 3) (rm : Reg) (imm9 : BitVec 9) (rt : Reg) : Statement (.cbh cc rm imm9 rt) := by
  intro _
  refine ⟨compareRows[3], compareRows_in_rows (List.getElem_mem _), ?_, ?_⟩
  all_goals
    have h_cc := cc.isLt
    have h_rm := rm.isLt
    have h_imm9 := imm9.isLt
    have h_rt := rt.isLt
    have hw : (encode (.cbh cc rm imm9 rt)).toNat = 0x7400C000 + cc.toNat * 2 ^ 21 + rm.toNat * 2 ^ 16 + imm9.toNat * 2 ^ 5 + rt.toNat * 2 ^ 0 := by
      simp only [encode, packWord, List.foldl, BitVec.toNat_ofNat]; omega
  · simp [compareRows, Row.accepts, FixedBits.holds, bitsAt, hw]; omega
  · simp only [compareRows, List.getElem_cons_succ, List.getElem_cons_zero]
    congr 1 <;> apply field_of_bits <;> rw [hw] <;> omega

theorem brk (imm16 : BitVec 16) : Statement (.brk imm16) := by
  intro _
  refine ⟨systemRows[0], systemRows_in_rows (List.getElem_mem _), ?_, ?_⟩
  all_goals
    have h_imm16 := imm16.isLt
    have hw : (encode (.brk imm16)).toNat = 0xD4200000 + imm16.toNat * 2 ^ 5 := by
      simp only [encode, packWord, List.foldl, BitVec.toNat_ofNat]; omega
  · simp [systemRows, Row.accepts, FixedBits.holds, bitsAt, hw]; omega
  · simp only [systemRows, List.getElem_cons_zero]
    congr 1; apply field_of_bits; rw [hw]; omega

theorem svc (imm16 : BitVec 16) : Statement (.svc imm16) := by
  intro _
  refine ⟨systemRows[1], systemRows_in_rows (List.getElem_mem _), ?_, ?_⟩
  all_goals
    have h_imm16 := imm16.isLt
    have hw : (encode (.svc imm16)).toNat = 0xD4000001 + imm16.toNat * 2 ^ 5 := by
      simp only [encode, packWord, List.foldl, BitVec.toNat_ofNat]; omega
  · simp [systemRows, Row.accepts, FixedBits.holds, bitsAt, hw]; omega
  · simp only [systemRows, List.getElem_cons_succ, List.getElem_cons_zero]
    congr 1; apply field_of_bits; rw [hw]; omega

theorem hvc (imm16 : BitVec 16) : Statement (.hvc imm16) := by
  intro _
  refine ⟨systemRows[2], systemRows_in_rows (List.getElem_mem _), ?_, ?_⟩
  all_goals
    have h_imm16 := imm16.isLt
    have hw : (encode (.hvc imm16)).toNat = 0xD4000002 + imm16.toNat * 2 ^ 5 := by
      simp only [encode, packWord, List.foldl, BitVec.toNat_ofNat]; omega
  · simp [systemRows, Row.accepts, FixedBits.holds, bitsAt, hw]; omega
  · simp only [systemRows, List.getElem_cons_succ, List.getElem_cons_zero]
    congr 1; apply field_of_bits; rw [hw]; omega

theorem smc (imm16 : BitVec 16) : Statement (.smc imm16) := by
  intro _
  refine ⟨systemRows[3], systemRows_in_rows (List.getElem_mem _), ?_, ?_⟩
  all_goals
    have h_imm16 := imm16.isLt
    have hw : (encode (.smc imm16)).toNat = 0xD4000003 + imm16.toNat * 2 ^ 5 := by
      simp only [encode, packWord, List.foldl, BitVec.toNat_ofNat]; omega
  · simp [systemRows, Row.accepts, FixedBits.holds, bitsAt, hw]; omega
  · simp only [systemRows, List.getElem_cons_succ, List.getElem_cons_zero]
    congr 1; apply field_of_bits; rw [hw]; omega

theorem nop : Statement .nop := by
  intro _
  refine ⟨systemRows[4], systemRows_in_rows (List.getElem_mem _), ?_, ?_⟩
  · simp [systemRows, Row.accepts, FixedBits.holds, bitsAt, encode, packWord]
  · rfl

theorem trcit (rt : Reg) : Statement (.trcit rt) := by
  intro _
  refine ⟨systemRows[5], systemRows_in_rows (List.getElem_mem _), ?_, ?_⟩
  all_goals
    have h_rt := rt.isLt
    have hw : (encode (.trcit rt)).toNat = 0xD50B72E0 + rt.toNat * 2 ^ 0 := by
      simp only [encode, packWord, List.foldl, BitVec.toNat_ofNat]; omega
  · simp [systemRows, Row.accepts, FixedBits.holds, bitsAt, hw]; omega
  · simp only [systemRows, List.getElem_cons_succ, List.getElem_cons_zero]
    congr 1; apply field_of_bits; rw [hw]; omega

theorem dcCvau (rt : Reg) : Statement (.dcCvau rt) := by
  intro _
  refine ⟨systemRows[6], systemRows_in_rows (List.getElem_mem _), ?_, ?_⟩
  all_goals
    have h_rt := rt.isLt
    have hw : (encode (.dcCvau rt)).toNat = 0xD50B7B20 + rt.toNat * 2 ^ 0 := by
      simp only [encode, packWord, List.foldl, BitVec.toNat_ofNat]; omega
  · simp [systemRows, Row.accepts, FixedBits.holds, bitsAt, hw]; omega
  · simp only [systemRows, List.getElem_cons_succ, List.getElem_cons_zero]
    congr 1; apply field_of_bits; rw [hw]; omega

theorem icIvau (rt : Reg) : Statement (.icIvau rt) := by
  intro _
  refine ⟨systemRows[7], systemRows_in_rows (List.getElem_mem _), ?_, ?_⟩
  all_goals
    have h_rt := rt.isLt
    have hw : (encode (.icIvau rt)).toNat = 0xD50B7520 + rt.toNat * 2 ^ 0 := by
      simp only [encode, packWord, List.foldl, BitVec.toNat_ofNat]; omega
  · simp [systemRows, Row.accepts, FixedBits.holds, bitsAt, hw]; omega
  · simp only [systemRows, List.getElem_cons_succ, List.getElem_cons_zero]
    congr 1; apply field_of_bits; rw [hw]; omega

theorem dcZva (rt : Reg) : Statement (.dcZva rt) := by
  intro _
  refine ⟨systemRows[8], systemRows_in_rows (List.getElem_mem _), ?_, ?_⟩
  all_goals
    have h_rt := rt.isLt
    have hw : (encode (.dcZva rt)).toNat = 0xD50B7420 + rt.toNat * 2 ^ 0 := by
      simp only [encode, packWord, List.foldl, BitVec.toNat_ofNat]; omega
  · simp [systemRows, Row.accepts, FixedBits.holds, bitsAt, hw]; omega
  · simp only [systemRows, List.getElem_cons_succ, List.getElem_cons_zero]
    congr 1; apply field_of_bits; rw [hw]; omega

theorem dsbIsh : Statement .dsbIsh := by
  intro _
  refine ⟨systemRows[9], systemRows_in_rows (List.getElem_mem _), ?_, ?_⟩
  · simp [systemRows, Row.accepts, FixedBits.holds, bitsAt, encode, packWord]
  · rfl

theorem isb (crm : BitVec 4) : Statement (.isb crm) := by
  intro _
  refine ⟨systemRows[10], systemRows_in_rows (List.getElem_mem _), ?_, ?_⟩
  all_goals
    have h_crm := crm.isLt
    have hw : (encode (.isb crm)).toNat = 0xD50330DF + crm.toNat * 2 ^ 8 := by
      simp only [encode, packWord, List.foldl, BitVec.toNat_ofNat]; omega
  · simp [systemRows, Row.accepts, FixedBits.holds, bitsAt, hw]; omega
  · simp only [systemRows, List.getElem_cons_succ, List.getElem_cons_zero]
    congr 1; apply field_of_bits; rw [hw]; omega

theorem strImm32 (imm12 : BitVec 12) (rn : Reg) (rt : Reg) : Statement (.strImm32 imm12 rn rt) := by
  intro _
  refine ⟨singleRows[0], singleRows_in_rows (List.getElem_mem _), ?_, ?_⟩
  all_goals
    have h_imm12 := imm12.isLt
    have h_rn := rn.isLt
    have h_rt := rt.isLt
    have hw : (encode (.strImm32 imm12 rn rt)).toNat = 0xB9000000 + imm12.toNat * 2 ^ 10 + rn.toNat * 2 ^ 5 + rt.toNat * 2 ^ 0 := by
      simp only [encode, packWord, List.foldl, BitVec.toNat_ofNat]; omega
  · simp [singleRows, Row.accepts, FixedBits.holds, bitsAt, hw]; omega
  · simp only [singleRows, List.getElem_cons_zero]
    congr 1 <;> apply field_of_bits <;> rw [hw] <;> omega

theorem strImm64 (imm12 : BitVec 12) (rn : Reg) (rt : Reg) : Statement (.strImm64 imm12 rn rt) := by
  intro _
  refine ⟨singleRows[1], singleRows_in_rows (List.getElem_mem _), ?_, ?_⟩
  all_goals
    have h_imm12 := imm12.isLt
    have h_rn := rn.isLt
    have h_rt := rt.isLt
    have hw : (encode (.strImm64 imm12 rn rt)).toNat = 0xF9000000 + imm12.toNat * 2 ^ 10 + rn.toNat * 2 ^ 5 + rt.toNat * 2 ^ 0 := by
      simp only [encode, packWord, List.foldl, BitVec.toNat_ofNat]; omega
  · simp [singleRows, Row.accepts, FixedBits.holds, bitsAt, hw]; omega
  · simp only [singleRows, List.getElem_cons_succ, List.getElem_cons_zero]
    congr 1 <;> apply field_of_bits <;> rw [hw] <;> omega

theorem ldrImm32 (imm12 : BitVec 12) (rn : Reg) (rt : Reg) : Statement (.ldrImm32 imm12 rn rt) := by
  intro _
  refine ⟨singleRows[2], singleRows_in_rows (List.getElem_mem _), ?_, ?_⟩
  all_goals
    have h_imm12 := imm12.isLt
    have h_rn := rn.isLt
    have h_rt := rt.isLt
    have hw : (encode (.ldrImm32 imm12 rn rt)).toNat = 0xB9400000 + imm12.toNat * 2 ^ 10 + rn.toNat * 2 ^ 5 + rt.toNat * 2 ^ 0 := by
      simp only [encode, packWord, List.foldl, BitVec.toNat_ofNat]; omega
  · simp [singleRows, Row.accepts, FixedBits.holds, bitsAt, hw]; omega
  · simp only [singleRows, List.getElem_cons_succ, List.getElem_cons_zero]
    congr 1 <;> apply field_of_bits <;> rw [hw] <;> omega

theorem ldrImm64 (imm12 : BitVec 12) (rn : Reg) (rt : Reg) : Statement (.ldrImm64 imm12 rn rt) := by
  intro _
  refine ⟨singleRows[3], singleRows_in_rows (List.getElem_mem _), ?_, ?_⟩
  all_goals
    have h_imm12 := imm12.isLt
    have h_rn := rn.isLt
    have h_rt := rt.isLt
    have hw : (encode (.ldrImm64 imm12 rn rt)).toNat = 0xF9400000 + imm12.toNat * 2 ^ 10 + rn.toNat * 2 ^ 5 + rt.toNat * 2 ^ 0 := by
      simp only [encode, packWord, List.foldl, BitVec.toNat_ofNat]; omega
  · simp [singleRows, Row.accepts, FixedBits.holds, bitsAt, hw]; omega
  · simp only [singleRows, List.getElem_cons_succ, List.getElem_cons_zero]
    congr 1 <;> apply field_of_bits <;> rw [hw] <;> omega

theorem ldpPost32 (imm7 : BitVec 7) (rt2 : Reg) (rn : Reg) (rt : Reg) : Statement (.ldpPost32 imm7 rt2 rn rt) := by
  intro _
  refine ⟨pair32Rows[0], pair32Rows_in_rows (List.getElem_mem _), ?_, ?_⟩
  all_goals
    have h_imm7 := imm7.isLt
    have h_rt2 := rt2.isLt
    have h_rn := rn.isLt
    have h_rt := rt.isLt
    have hw : (encode (.ldpPost32 imm7 rt2 rn rt)).toNat = 0x28C00000 + imm7.toNat * 2 ^ 15 + rt2.toNat * 2 ^ 10 + rn.toNat * 2 ^ 5 + rt.toNat * 2 ^ 0 := by
      simp only [encode, packWord, List.foldl, BitVec.toNat_ofNat]; omega
  · simp [pair32Rows, Row.accepts, FixedBits.holds, bitsAt, hw]; omega
  · simp only [pair32Rows, List.getElem_cons_zero]
    congr 1 <;> apply field_of_bits <;> rw [hw] <;> omega

theorem ldpOff32 (imm7 : BitVec 7) (rt2 : Reg) (rn : Reg) (rt : Reg) : Statement (.ldpOff32 imm7 rt2 rn rt) := by
  intro _
  refine ⟨pair32Rows[1], pair32Rows_in_rows (List.getElem_mem _), ?_, ?_⟩
  all_goals
    have h_imm7 := imm7.isLt
    have h_rt2 := rt2.isLt
    have h_rn := rn.isLt
    have h_rt := rt.isLt
    have hw : (encode (.ldpOff32 imm7 rt2 rn rt)).toNat = 0x29400000 + imm7.toNat * 2 ^ 15 + rt2.toNat * 2 ^ 10 + rn.toNat * 2 ^ 5 + rt.toNat * 2 ^ 0 := by
      simp only [encode, packWord, List.foldl, BitVec.toNat_ofNat]; omega
  · simp [pair32Rows, Row.accepts, FixedBits.holds, bitsAt, hw]; omega
  · simp only [pair32Rows, List.getElem_cons_succ, List.getElem_cons_zero]
    congr 1 <;> apply field_of_bits <;> rw [hw] <;> omega

theorem ldpPre32 (imm7 : BitVec 7) (rt2 : Reg) (rn : Reg) (rt : Reg) : Statement (.ldpPre32 imm7 rt2 rn rt) := by
  intro _
  refine ⟨pair32Rows[2], pair32Rows_in_rows (List.getElem_mem _), ?_, ?_⟩
  all_goals
    have h_imm7 := imm7.isLt
    have h_rt2 := rt2.isLt
    have h_rn := rn.isLt
    have h_rt := rt.isLt
    have hw : (encode (.ldpPre32 imm7 rt2 rn rt)).toNat = 0x29C00000 + imm7.toNat * 2 ^ 15 + rt2.toNat * 2 ^ 10 + rn.toNat * 2 ^ 5 + rt.toNat * 2 ^ 0 := by
      simp only [encode, packWord, List.foldl, BitVec.toNat_ofNat]; omega
  · simp [pair32Rows, Row.accepts, FixedBits.holds, bitsAt, hw]; omega
  · simp only [pair32Rows, List.getElem_cons_succ, List.getElem_cons_zero]
    congr 1 <;> apply field_of_bits <;> rw [hw] <;> omega

theorem ldnp32 (imm7 : BitVec 7) (rt2 : Reg) (rn : Reg) (rt : Reg) : Statement (.ldnp32 imm7 rt2 rn rt) := by
  intro _
  refine ⟨pair32Rows[3], pair32Rows_in_rows (List.getElem_mem _), ?_, ?_⟩
  all_goals
    have h_imm7 := imm7.isLt
    have h_rt2 := rt2.isLt
    have h_rn := rn.isLt
    have h_rt := rt.isLt
    have hw : (encode (.ldnp32 imm7 rt2 rn rt)).toNat = 0x28400000 + imm7.toNat * 2 ^ 15 + rt2.toNat * 2 ^ 10 + rn.toNat * 2 ^ 5 + rt.toNat * 2 ^ 0 := by
      simp only [encode, packWord, List.foldl, BitVec.toNat_ofNat]; omega
  · simp [pair32Rows, Row.accepts, FixedBits.holds, bitsAt, hw]; omega
  · simp only [pair32Rows, List.getElem_cons_succ, List.getElem_cons_zero]
    congr 1 <;> apply field_of_bits <;> rw [hw] <;> omega

theorem stpPost32 (imm7 : BitVec 7) (rt2 : Reg) (rn : Reg) (rt : Reg) : Statement (.stpPost32 imm7 rt2 rn rt) := by
  intro _
  refine ⟨pair32Rows[4], pair32Rows_in_rows (List.getElem_mem _), ?_, ?_⟩
  all_goals
    have h_imm7 := imm7.isLt
    have h_rt2 := rt2.isLt
    have h_rn := rn.isLt
    have h_rt := rt.isLt
    have hw : (encode (.stpPost32 imm7 rt2 rn rt)).toNat = 0x28800000 + imm7.toNat * 2 ^ 15 + rt2.toNat * 2 ^ 10 + rn.toNat * 2 ^ 5 + rt.toNat * 2 ^ 0 := by
      simp only [encode, packWord, List.foldl, BitVec.toNat_ofNat]; omega
  · simp [pair32Rows, Row.accepts, FixedBits.holds, bitsAt, hw]; omega
  · simp only [pair32Rows, List.getElem_cons_succ, List.getElem_cons_zero]
    congr 1 <;> apply field_of_bits <;> rw [hw] <;> omega

theorem stpOff32 (imm7 : BitVec 7) (rt2 : Reg) (rn : Reg) (rt : Reg) : Statement (.stpOff32 imm7 rt2 rn rt) := by
  intro _
  refine ⟨pair32Rows[5], pair32Rows_in_rows (List.getElem_mem _), ?_, ?_⟩
  all_goals
    have h_imm7 := imm7.isLt
    have h_rt2 := rt2.isLt
    have h_rn := rn.isLt
    have h_rt := rt.isLt
    have hw : (encode (.stpOff32 imm7 rt2 rn rt)).toNat = 0x29000000 + imm7.toNat * 2 ^ 15 + rt2.toNat * 2 ^ 10 + rn.toNat * 2 ^ 5 + rt.toNat * 2 ^ 0 := by
      simp only [encode, packWord, List.foldl, BitVec.toNat_ofNat]; omega
  · simp [pair32Rows, Row.accepts, FixedBits.holds, bitsAt, hw]; omega
  · simp only [pair32Rows, List.getElem_cons_succ, List.getElem_cons_zero]
    congr 1 <;> apply field_of_bits <;> rw [hw] <;> omega

theorem stpPre32 (imm7 : BitVec 7) (rt2 : Reg) (rn : Reg) (rt : Reg) : Statement (.stpPre32 imm7 rt2 rn rt) := by
  intro _
  refine ⟨pair32Rows[6], pair32Rows_in_rows (List.getElem_mem _), ?_, ?_⟩
  all_goals
    have h_imm7 := imm7.isLt
    have h_rt2 := rt2.isLt
    have h_rn := rn.isLt
    have h_rt := rt.isLt
    have hw : (encode (.stpPre32 imm7 rt2 rn rt)).toNat = 0x29800000 + imm7.toNat * 2 ^ 15 + rt2.toNat * 2 ^ 10 + rn.toNat * 2 ^ 5 + rt.toNat * 2 ^ 0 := by
      simp only [encode, packWord, List.foldl, BitVec.toNat_ofNat]; omega
  · simp [pair32Rows, Row.accepts, FixedBits.holds, bitsAt, hw]; omega
  · simp only [pair32Rows, List.getElem_cons_succ, List.getElem_cons_zero]
    congr 1 <;> apply field_of_bits <;> rw [hw] <;> omega

theorem stnp32 (imm7 : BitVec 7) (rt2 : Reg) (rn : Reg) (rt : Reg) : Statement (.stnp32 imm7 rt2 rn rt) := by
  intro _
  refine ⟨pair32Rows[7], pair32Rows_in_rows (List.getElem_mem _), ?_, ?_⟩
  all_goals
    have h_imm7 := imm7.isLt
    have h_rt2 := rt2.isLt
    have h_rn := rn.isLt
    have h_rt := rt.isLt
    have hw : (encode (.stnp32 imm7 rt2 rn rt)).toNat = 0x28000000 + imm7.toNat * 2 ^ 15 + rt2.toNat * 2 ^ 10 + rn.toNat * 2 ^ 5 + rt.toNat * 2 ^ 0 := by
      simp only [encode, packWord, List.foldl, BitVec.toNat_ofNat]; omega
  · simp [pair32Rows, Row.accepts, FixedBits.holds, bitsAt, hw]; omega
  · simp only [pair32Rows, List.getElem_cons_succ, List.getElem_cons_zero]
    congr 1 <;> apply field_of_bits <;> rw [hw] <;> omega

theorem ldpPost64 (imm7 : BitVec 7) (rt2 : Reg) (rn : Reg) (rt : Reg) : Statement (.ldpPost64 imm7 rt2 rn rt) := by
  intro _
  refine ⟨pair64Rows[0], pair64Rows_in_rows (List.getElem_mem _), ?_, ?_⟩
  all_goals
    have h_imm7 := imm7.isLt
    have h_rt2 := rt2.isLt
    have h_rn := rn.isLt
    have h_rt := rt.isLt
    have hw : (encode (.ldpPost64 imm7 rt2 rn rt)).toNat = 0xA8C00000 + imm7.toNat * 2 ^ 15 + rt2.toNat * 2 ^ 10 + rn.toNat * 2 ^ 5 + rt.toNat * 2 ^ 0 := by
      simp only [encode, packWord, List.foldl, BitVec.toNat_ofNat]; omega
  · simp [pair64Rows, Row.accepts, FixedBits.holds, bitsAt, hw]; omega
  · simp only [pair64Rows, List.getElem_cons_zero]
    congr 1 <;> apply field_of_bits <;> rw [hw] <;> omega

theorem ldpOff64 (imm7 : BitVec 7) (rt2 : Reg) (rn : Reg) (rt : Reg) : Statement (.ldpOff64 imm7 rt2 rn rt) := by
  intro _
  refine ⟨pair64Rows[1], pair64Rows_in_rows (List.getElem_mem _), ?_, ?_⟩
  all_goals
    have h_imm7 := imm7.isLt
    have h_rt2 := rt2.isLt
    have h_rn := rn.isLt
    have h_rt := rt.isLt
    have hw : (encode (.ldpOff64 imm7 rt2 rn rt)).toNat = 0xA9400000 + imm7.toNat * 2 ^ 15 + rt2.toNat * 2 ^ 10 + rn.toNat * 2 ^ 5 + rt.toNat * 2 ^ 0 := by
      simp only [encode, packWord, List.foldl, BitVec.toNat_ofNat]; omega
  · simp [pair64Rows, Row.accepts, FixedBits.holds, bitsAt, hw]; omega
  · simp only [pair64Rows, List.getElem_cons_succ, List.getElem_cons_zero]
    congr 1 <;> apply field_of_bits <;> rw [hw] <;> omega

theorem ldpPre64 (imm7 : BitVec 7) (rt2 : Reg) (rn : Reg) (rt : Reg) : Statement (.ldpPre64 imm7 rt2 rn rt) := by
  intro _
  refine ⟨pair64Rows[2], pair64Rows_in_rows (List.getElem_mem _), ?_, ?_⟩
  all_goals
    have h_imm7 := imm7.isLt
    have h_rt2 := rt2.isLt
    have h_rn := rn.isLt
    have h_rt := rt.isLt
    have hw : (encode (.ldpPre64 imm7 rt2 rn rt)).toNat = 0xA9C00000 + imm7.toNat * 2 ^ 15 + rt2.toNat * 2 ^ 10 + rn.toNat * 2 ^ 5 + rt.toNat * 2 ^ 0 := by
      simp only [encode, packWord, List.foldl, BitVec.toNat_ofNat]; omega
  · simp [pair64Rows, Row.accepts, FixedBits.holds, bitsAt, hw]; omega
  · simp only [pair64Rows, List.getElem_cons_succ, List.getElem_cons_zero]
    congr 1 <;> apply field_of_bits <;> rw [hw] <;> omega

theorem ldnp64 (imm7 : BitVec 7) (rt2 : Reg) (rn : Reg) (rt : Reg) : Statement (.ldnp64 imm7 rt2 rn rt) := by
  intro _
  refine ⟨pair64Rows[3], pair64Rows_in_rows (List.getElem_mem _), ?_, ?_⟩
  all_goals
    have h_imm7 := imm7.isLt
    have h_rt2 := rt2.isLt
    have h_rn := rn.isLt
    have h_rt := rt.isLt
    have hw : (encode (.ldnp64 imm7 rt2 rn rt)).toNat = 0xA8400000 + imm7.toNat * 2 ^ 15 + rt2.toNat * 2 ^ 10 + rn.toNat * 2 ^ 5 + rt.toNat * 2 ^ 0 := by
      simp only [encode, packWord, List.foldl, BitVec.toNat_ofNat]; omega
  · simp [pair64Rows, Row.accepts, FixedBits.holds, bitsAt, hw]; omega
  · simp only [pair64Rows, List.getElem_cons_succ, List.getElem_cons_zero]
    congr 1 <;> apply field_of_bits <;> rw [hw] <;> omega

theorem stpPost64 (imm7 : BitVec 7) (rt2 : Reg) (rn : Reg) (rt : Reg) : Statement (.stpPost64 imm7 rt2 rn rt) := by
  intro _
  refine ⟨pair64Rows[4], pair64Rows_in_rows (List.getElem_mem _), ?_, ?_⟩
  all_goals
    have h_imm7 := imm7.isLt
    have h_rt2 := rt2.isLt
    have h_rn := rn.isLt
    have h_rt := rt.isLt
    have hw : (encode (.stpPost64 imm7 rt2 rn rt)).toNat = 0xA8800000 + imm7.toNat * 2 ^ 15 + rt2.toNat * 2 ^ 10 + rn.toNat * 2 ^ 5 + rt.toNat * 2 ^ 0 := by
      simp only [encode, packWord, List.foldl, BitVec.toNat_ofNat]; omega
  · simp [pair64Rows, Row.accepts, FixedBits.holds, bitsAt, hw]; omega
  · simp only [pair64Rows, List.getElem_cons_succ, List.getElem_cons_zero]
    congr 1 <;> apply field_of_bits <;> rw [hw] <;> omega

theorem stpOff64 (imm7 : BitVec 7) (rt2 : Reg) (rn : Reg) (rt : Reg) : Statement (.stpOff64 imm7 rt2 rn rt) := by
  intro _
  refine ⟨pair64Rows[5], pair64Rows_in_rows (List.getElem_mem _), ?_, ?_⟩
  all_goals
    have h_imm7 := imm7.isLt
    have h_rt2 := rt2.isLt
    have h_rn := rn.isLt
    have h_rt := rt.isLt
    have hw : (encode (.stpOff64 imm7 rt2 rn rt)).toNat = 0xA9000000 + imm7.toNat * 2 ^ 15 + rt2.toNat * 2 ^ 10 + rn.toNat * 2 ^ 5 + rt.toNat * 2 ^ 0 := by
      simp only [encode, packWord, List.foldl, BitVec.toNat_ofNat]; omega
  · simp [pair64Rows, Row.accepts, FixedBits.holds, bitsAt, hw]; omega
  · simp only [pair64Rows, List.getElem_cons_succ, List.getElem_cons_zero]
    congr 1 <;> apply field_of_bits <;> rw [hw] <;> omega

theorem stpPre64 (imm7 : BitVec 7) (rt2 : Reg) (rn : Reg) (rt : Reg) : Statement (.stpPre64 imm7 rt2 rn rt) := by
  intro _
  refine ⟨pair64Rows[6], pair64Rows_in_rows (List.getElem_mem _), ?_, ?_⟩
  all_goals
    have h_imm7 := imm7.isLt
    have h_rt2 := rt2.isLt
    have h_rn := rn.isLt
    have h_rt := rt.isLt
    have hw : (encode (.stpPre64 imm7 rt2 rn rt)).toNat = 0xA9800000 + imm7.toNat * 2 ^ 15 + rt2.toNat * 2 ^ 10 + rn.toNat * 2 ^ 5 + rt.toNat * 2 ^ 0 := by
      simp only [encode, packWord, List.foldl, BitVec.toNat_ofNat]; omega
  · simp [pair64Rows, Row.accepts, FixedBits.holds, bitsAt, hw]; omega
  · simp only [pair64Rows, List.getElem_cons_succ, List.getElem_cons_zero]
    congr 1 <;> apply field_of_bits <;> rw [hw] <;> omega

theorem stnp64 (imm7 : BitVec 7) (rt2 : Reg) (rn : Reg) (rt : Reg) : Statement (.stnp64 imm7 rt2 rn rt) := by
  intro _
  refine ⟨pair64Rows[7], pair64Rows_in_rows (List.getElem_mem _), ?_, ?_⟩
  all_goals
    have h_imm7 := imm7.isLt
    have h_rt2 := rt2.isLt
    have h_rn := rn.isLt
    have h_rt := rt.isLt
    have hw : (encode (.stnp64 imm7 rt2 rn rt)).toNat = 0xA8000000 + imm7.toNat * 2 ^ 15 + rt2.toNat * 2 ^ 10 + rn.toNat * 2 ^ 5 + rt.toNat * 2 ^ 0 := by
      simp only [encode, packWord, List.foldl, BitVec.toNat_ofNat]; omega
  · simp [pair64Rows, Row.accepts, FixedBits.holds, bitsAt, hw]; omega
  · simp only [pair64Rows, List.getElem_cons_succ, List.getElem_cons_zero]
    congr 1 <;> apply field_of_bits <;> rw [hw] <;> omega

theorem ldpFpS (imm7 : BitVec 7) (rt2 : Reg) (rn : Reg) (rt : Reg) : Statement (.ldpFpS imm7 rt2 rn rt) := by
  intro _
  refine ⟨fpPairRows[0], fpPairRows_in_rows (List.getElem_mem _), ?_, ?_⟩
  all_goals
    have h_imm7 := imm7.isLt
    have h_rt2 := rt2.isLt
    have h_rn := rn.isLt
    have h_rt := rt.isLt
    have hw : (encode (.ldpFpS imm7 rt2 rn rt)).toNat = 0x2D400000 + imm7.toNat * 2 ^ 15 + rt2.toNat * 2 ^ 10 + rn.toNat * 2 ^ 5 + rt.toNat * 2 ^ 0 := by
      simp only [encode, packWord, List.foldl, BitVec.toNat_ofNat]; omega
  · simp [fpPairRows, Row.accepts, FixedBits.holds, bitsAt, hw]; omega
  · simp only [fpPairRows, List.getElem_cons_zero]
    congr 1 <;> apply field_of_bits <;> rw [hw] <;> omega

theorem stpFpS (imm7 : BitVec 7) (rt2 : Reg) (rn : Reg) (rt : Reg) : Statement (.stpFpS imm7 rt2 rn rt) := by
  intro _
  refine ⟨fpPairRows[1], fpPairRows_in_rows (List.getElem_mem _), ?_, ?_⟩
  all_goals
    have h_imm7 := imm7.isLt
    have h_rt2 := rt2.isLt
    have h_rn := rn.isLt
    have h_rt := rt.isLt
    have hw : (encode (.stpFpS imm7 rt2 rn rt)).toNat = 0x2D000000 + imm7.toNat * 2 ^ 15 + rt2.toNat * 2 ^ 10 + rn.toNat * 2 ^ 5 + rt.toNat * 2 ^ 0 := by
      simp only [encode, packWord, List.foldl, BitVec.toNat_ofNat]; omega
  · simp [fpPairRows, Row.accepts, FixedBits.holds, bitsAt, hw]; omega
  · simp only [fpPairRows, List.getElem_cons_succ, List.getElem_cons_zero]
    congr 1 <;> apply field_of_bits <;> rw [hw] <;> omega

theorem ldpFpD (imm7 : BitVec 7) (rt2 : Reg) (rn : Reg) (rt : Reg) : Statement (.ldpFpD imm7 rt2 rn rt) := by
  intro _
  refine ⟨fpPairRows[2], fpPairRows_in_rows (List.getElem_mem _), ?_, ?_⟩
  all_goals
    have h_imm7 := imm7.isLt
    have h_rt2 := rt2.isLt
    have h_rn := rn.isLt
    have h_rt := rt.isLt
    have hw : (encode (.ldpFpD imm7 rt2 rn rt)).toNat = 0x6D400000 + imm7.toNat * 2 ^ 15 + rt2.toNat * 2 ^ 10 + rn.toNat * 2 ^ 5 + rt.toNat * 2 ^ 0 := by
      simp only [encode, packWord, List.foldl, BitVec.toNat_ofNat]; omega
  · simp [fpPairRows, Row.accepts, FixedBits.holds, bitsAt, hw]; omega
  · simp only [fpPairRows, List.getElem_cons_succ, List.getElem_cons_zero]
    congr 1 <;> apply field_of_bits <;> rw [hw] <;> omega

theorem stpFpD (imm7 : BitVec 7) (rt2 : Reg) (rn : Reg) (rt : Reg) : Statement (.stpFpD imm7 rt2 rn rt) := by
  intro _
  refine ⟨fpPairRows[3], fpPairRows_in_rows (List.getElem_mem _), ?_, ?_⟩
  all_goals
    have h_imm7 := imm7.isLt
    have h_rt2 := rt2.isLt
    have h_rn := rn.isLt
    have h_rt := rt.isLt
    have hw : (encode (.stpFpD imm7 rt2 rn rt)).toNat = 0x6D000000 + imm7.toNat * 2 ^ 15 + rt2.toNat * 2 ^ 10 + rn.toNat * 2 ^ 5 + rt.toNat * 2 ^ 0 := by
      simp only [encode, packWord, List.foldl, BitVec.toNat_ofNat]; omega
  · simp [fpPairRows, Row.accepts, FixedBits.holds, bitsAt, hw]; omega
  · simp only [fpPairRows, List.getElem_cons_succ, List.getElem_cons_zero]
    congr 1 <;> apply field_of_bits <;> rw [hw] <;> omega

theorem ldpFpQ (imm7 : BitVec 7) (rt2 : Reg) (rn : Reg) (rt : Reg) : Statement (.ldpFpQ imm7 rt2 rn rt) := by
  intro _
  refine ⟨fpPairRows[4], fpPairRows_in_rows (List.getElem_mem _), ?_, ?_⟩
  all_goals
    have h_imm7 := imm7.isLt
    have h_rt2 := rt2.isLt
    have h_rn := rn.isLt
    have h_rt := rt.isLt
    have hw : (encode (.ldpFpQ imm7 rt2 rn rt)).toNat = 0xAD400000 + imm7.toNat * 2 ^ 15 + rt2.toNat * 2 ^ 10 + rn.toNat * 2 ^ 5 + rt.toNat * 2 ^ 0 := by
      simp only [encode, packWord, List.foldl, BitVec.toNat_ofNat]; omega
  · simp [fpPairRows, Row.accepts, FixedBits.holds, bitsAt, hw]; omega
  · simp only [fpPairRows, List.getElem_cons_succ, List.getElem_cons_zero]
    congr 1 <;> apply field_of_bits <;> rw [hw] <;> omega

theorem stpFpQ (imm7 : BitVec 7) (rt2 : Reg) (rn : Reg) (rt : Reg) : Statement (.stpFpQ imm7 rt2 rn rt) := by
  intro _
  refine ⟨fpPairRows[5], fpPairRows_in_rows (List.getElem_mem _), ?_, ?_⟩
  all_goals
    have h_imm7 := imm7.isLt
    have h_rt2 := rt2.isLt
    have h_rn := rn.isLt
    have h_rt := rt.isLt
    have hw : (encode (.stpFpQ imm7 rt2 rn rt)).toNat = 0xAD000000 + imm7.toNat * 2 ^ 15 + rt2.toNat * 2 ^ 10 + rn.toNat * 2 ^ 5 + rt.toNat * 2 ^ 0 := by
      simp only [encode, packWord, List.foldl, BitVec.toNat_ofNat]; omega
  · simp [fpPairRows, Row.accepts, FixedBits.holds, bitsAt, hw]; omega
  · simp only [fpPairRows, List.getElem_cons_succ, List.getElem_cons_zero]
    congr 1 <;> apply field_of_bits <;> rw [hw] <;> omega

theorem ldxp32 (rt2 : Reg) (rn : Reg) (rt : Reg) : Statement (.ldxp32 rt2 rn rt) := by
  intro _
  refine ⟨exclusiveRows[0], exclusiveRows_in_rows (List.getElem_mem _), ?_, ?_⟩
  all_goals
    have h_rt2 := rt2.isLt
    have h_rn := rn.isLt
    have h_rt := rt.isLt
    have hw : (encode (.ldxp32 rt2 rn rt)).toNat = 0x887F0000 + rt2.toNat * 2 ^ 10 + rn.toNat * 2 ^ 5 + rt.toNat * 2 ^ 0 := by
      simp only [encode, packWord, List.foldl, BitVec.toNat_ofNat]; omega
  · simp [exclusiveRows, Row.accepts, FixedBits.holds, bitsAt, hw]; omega
  · simp only [exclusiveRows, List.getElem_cons_zero]
    congr 1 <;> apply field_of_bits <;> rw [hw] <;> omega

theorem stxp32 (rs : Reg) (rt2 : Reg) (rn : Reg) (rt : Reg) : Statement (.stxp32 rs rt2 rn rt) := by
  intro _
  refine ⟨exclusiveRows[1], exclusiveRows_in_rows (List.getElem_mem _), ?_, ?_⟩
  all_goals
    have h_rs := rs.isLt
    have h_rt2 := rt2.isLt
    have h_rn := rn.isLt
    have h_rt := rt.isLt
    have hw : (encode (.stxp32 rs rt2 rn rt)).toNat = 0x88200000 + rs.toNat * 2 ^ 16 + rt2.toNat * 2 ^ 10 + rn.toNat * 2 ^ 5 + rt.toNat * 2 ^ 0 := by
      simp only [encode, packWord, List.foldl, BitVec.toNat_ofNat]; omega
  · simp [exclusiveRows, Row.accepts, FixedBits.holds, bitsAt, hw]; omega
  · simp only [exclusiveRows, List.getElem_cons_succ, List.getElem_cons_zero]
    congr 1 <;> apply field_of_bits <;> rw [hw] <;> omega

theorem ldaxp32 (rt2 : Reg) (rn : Reg) (rt : Reg) : Statement (.ldaxp32 rt2 rn rt) := by
  intro _
  refine ⟨exclusiveRows[2], exclusiveRows_in_rows (List.getElem_mem _), ?_, ?_⟩
  all_goals
    have h_rt2 := rt2.isLt
    have h_rn := rn.isLt
    have h_rt := rt.isLt
    have hw : (encode (.ldaxp32 rt2 rn rt)).toNat = 0x887F8000 + rt2.toNat * 2 ^ 10 + rn.toNat * 2 ^ 5 + rt.toNat * 2 ^ 0 := by
      simp only [encode, packWord, List.foldl, BitVec.toNat_ofNat]; omega
  · simp [exclusiveRows, Row.accepts, FixedBits.holds, bitsAt, hw]; omega
  · simp only [exclusiveRows, List.getElem_cons_succ, List.getElem_cons_zero]
    congr 1 <;> apply field_of_bits <;> rw [hw] <;> omega

theorem stlxp32 (rs : Reg) (rt2 : Reg) (rn : Reg) (rt : Reg) : Statement (.stlxp32 rs rt2 rn rt) := by
  intro _
  refine ⟨exclusiveRows[3], exclusiveRows_in_rows (List.getElem_mem _), ?_, ?_⟩
  all_goals
    have h_rs := rs.isLt
    have h_rt2 := rt2.isLt
    have h_rn := rn.isLt
    have h_rt := rt.isLt
    have hw : (encode (.stlxp32 rs rt2 rn rt)).toNat = 0x88208000 + rs.toNat * 2 ^ 16 + rt2.toNat * 2 ^ 10 + rn.toNat * 2 ^ 5 + rt.toNat * 2 ^ 0 := by
      simp only [encode, packWord, List.foldl, BitVec.toNat_ofNat]; omega
  · simp [exclusiveRows, Row.accepts, FixedBits.holds, bitsAt, hw]; omega
  · simp only [exclusiveRows, List.getElem_cons_succ, List.getElem_cons_zero]
    congr 1 <;> apply field_of_bits <;> rw [hw] <;> omega

theorem ldxp64 (rt2 : Reg) (rn : Reg) (rt : Reg) : Statement (.ldxp64 rt2 rn rt) := by
  intro _
  refine ⟨exclusiveRows[4], exclusiveRows_in_rows (List.getElem_mem _), ?_, ?_⟩
  all_goals
    have h_rt2 := rt2.isLt
    have h_rn := rn.isLt
    have h_rt := rt.isLt
    have hw : (encode (.ldxp64 rt2 rn rt)).toNat = 0xC87F0000 + rt2.toNat * 2 ^ 10 + rn.toNat * 2 ^ 5 + rt.toNat * 2 ^ 0 := by
      simp only [encode, packWord, List.foldl, BitVec.toNat_ofNat]; omega
  · simp [exclusiveRows, Row.accepts, FixedBits.holds, bitsAt, hw]; omega
  · simp only [exclusiveRows, List.getElem_cons_succ, List.getElem_cons_zero]
    congr 1 <;> apply field_of_bits <;> rw [hw] <;> omega

theorem stxp64 (rs : Reg) (rt2 : Reg) (rn : Reg) (rt : Reg) : Statement (.stxp64 rs rt2 rn rt) := by
  intro _
  refine ⟨exclusiveRows[5], exclusiveRows_in_rows (List.getElem_mem _), ?_, ?_⟩
  all_goals
    have h_rs := rs.isLt
    have h_rt2 := rt2.isLt
    have h_rn := rn.isLt
    have h_rt := rt.isLt
    have hw : (encode (.stxp64 rs rt2 rn rt)).toNat = 0xC8200000 + rs.toNat * 2 ^ 16 + rt2.toNat * 2 ^ 10 + rn.toNat * 2 ^ 5 + rt.toNat * 2 ^ 0 := by
      simp only [encode, packWord, List.foldl, BitVec.toNat_ofNat]; omega
  · simp [exclusiveRows, Row.accepts, FixedBits.holds, bitsAt, hw]; omega
  · simp only [exclusiveRows, List.getElem_cons_succ, List.getElem_cons_zero]
    congr 1 <;> apply field_of_bits <;> rw [hw] <;> omega

theorem ldaxp64 (rt2 : Reg) (rn : Reg) (rt : Reg) : Statement (.ldaxp64 rt2 rn rt) := by
  intro _
  refine ⟨exclusiveRows[6], exclusiveRows_in_rows (List.getElem_mem _), ?_, ?_⟩
  all_goals
    have h_rt2 := rt2.isLt
    have h_rn := rn.isLt
    have h_rt := rt.isLt
    have hw : (encode (.ldaxp64 rt2 rn rt)).toNat = 0xC87F8000 + rt2.toNat * 2 ^ 10 + rn.toNat * 2 ^ 5 + rt.toNat * 2 ^ 0 := by
      simp only [encode, packWord, List.foldl, BitVec.toNat_ofNat]; omega
  · simp [exclusiveRows, Row.accepts, FixedBits.holds, bitsAt, hw]; omega
  · simp only [exclusiveRows, List.getElem_cons_succ, List.getElem_cons_zero]
    congr 1 <;> apply field_of_bits <;> rw [hw] <;> omega

theorem stlxp64 (rs : Reg) (rt2 : Reg) (rn : Reg) (rt : Reg) : Statement (.stlxp64 rs rt2 rn rt) := by
  intro _
  refine ⟨exclusiveRows[7], exclusiveRows_in_rows (List.getElem_mem _), ?_, ?_⟩
  all_goals
    have h_rs := rs.isLt
    have h_rt2 := rt2.isLt
    have h_rn := rn.isLt
    have h_rt := rt.isLt
    have hw : (encode (.stlxp64 rs rt2 rn rt)).toNat = 0xC8208000 + rs.toNat * 2 ^ 16 + rt2.toNat * 2 ^ 10 + rn.toNat * 2 ^ 5 + rt.toNat * 2 ^ 0 := by
      simp only [encode, packWord, List.foldl, BitVec.toNat_ofNat]; omega
  · simp [exclusiveRows, Row.accepts, FixedBits.holds, bitsAt, hw]; omega
  · simp only [exclusiveRows, List.getElem_cons_succ, List.getElem_cons_zero]
    congr 1 <;> apply field_of_bits <;> rw [hw] <;> omega

theorem ldapr32 (rn : Reg) (rt : Reg) : Statement (.ldapr32 rn rt) := by
  intro _
  refine ⟨rcpcRows[0], rcpcRows_in_rows (List.getElem_mem _), ?_, ?_⟩
  all_goals
    have h_rn := rn.isLt
    have h_rt := rt.isLt
    have hw : (encode (.ldapr32 rn rt)).toNat = 0xB8BFC000 + rn.toNat * 2 ^ 5 + rt.toNat * 2 ^ 0 := by
      simp only [encode, packWord, List.foldl, BitVec.toNat_ofNat]; omega
  · simp [rcpcRows, Row.accepts, FixedBits.holds, bitsAt, hw]; omega
  · simp only [rcpcRows, List.getElem_cons_zero]
    congr 1 <;> apply field_of_bits <;> rw [hw] <;> omega

theorem ldapr64 (rn : Reg) (rt : Reg) : Statement (.ldapr64 rn rt) := by
  intro _
  refine ⟨rcpcRows[1], rcpcRows_in_rows (List.getElem_mem _), ?_, ?_⟩
  all_goals
    have h_rn := rn.isLt
    have h_rt := rt.isLt
    have hw : (encode (.ldapr64 rn rt)).toNat = 0xF8BFC000 + rn.toNat * 2 ^ 5 + rt.toNat * 2 ^ 0 := by
      simp only [encode, packWord, List.foldl, BitVec.toNat_ofNat]; omega
  · simp [rcpcRows, Row.accepts, FixedBits.holds, bitsAt, hw]; omega
  · simp only [rcpcRows, List.getElem_cons_succ, List.getElem_cons_zero]
    congr 1 <;> apply field_of_bits <;> rw [hw] <;> omega

theorem ldaprh (rn : Reg) (rt : Reg) : Statement (.ldaprh rn rt) := by
  intro _
  refine ⟨rcpcRows[2], rcpcRows_in_rows (List.getElem_mem _), ?_, ?_⟩
  all_goals
    have h_rn := rn.isLt
    have h_rt := rt.isLt
    have hw : (encode (.ldaprh rn rt)).toNat = 0x78BFC000 + rn.toNat * 2 ^ 5 + rt.toNat * 2 ^ 0 := by
      simp only [encode, packWord, List.foldl, BitVec.toNat_ofNat]; omega
  · simp [rcpcRows, Row.accepts, FixedBits.holds, bitsAt, hw]; omega
  · simp only [rcpcRows, List.getElem_cons_succ, List.getElem_cons_zero]
    congr 1 <;> apply field_of_bits <;> rw [hw] <;> omega

theorem ldaprb (rn : Reg) (rt : Reg) : Statement (.ldaprb rn rt) := by
  intro _
  refine ⟨rcpcRows[3], rcpcRows_in_rows (List.getElem_mem _), ?_, ?_⟩
  all_goals
    have h_rn := rn.isLt
    have h_rt := rt.isLt
    have hw : (encode (.ldaprb rn rt)).toNat = 0x38BFC000 + rn.toNat * 2 ^ 5 + rt.toNat * 2 ^ 0 := by
      simp only [encode, packWord, List.foldl, BitVec.toNat_ofNat]; omega
  · simp [rcpcRows, Row.accepts, FixedBits.holds, bitsAt, hw]; omega
  · simp only [rcpcRows, List.getElem_cons_succ, List.getElem_cons_zero]
    congr 1 <;> apply field_of_bits <;> rw [hw] <;> omega

theorem ld64b (rn : Reg) (rt : Reg) : Statement (.ld64b rn rt) := by
  intro _
  refine ⟨ls64Rows[0], ls64Rows_in_rows (List.getElem_mem _), ?_, ?_⟩
  all_goals
    have h_rn := rn.isLt
    have h_rt := rt.isLt
    have hw : (encode (.ld64b rn rt)).toNat = 0xF83FD000 + rn.toNat * 2 ^ 5 + rt.toNat * 2 ^ 0 := by
      simp only [encode, packWord, List.foldl, BitVec.toNat_ofNat]; omega
  · simp [ls64Rows, Row.accepts, FixedBits.holds, bitsAt, hw]; omega
  · simp only [ls64Rows, List.getElem_cons_zero]
    congr 1 <;> apply field_of_bits <;> rw [hw] <;> omega

theorem st64b (rn : Reg) (rt : Reg) : Statement (.st64b rn rt) := by
  intro _
  refine ⟨ls64Rows[1], ls64Rows_in_rows (List.getElem_mem _), ?_, ?_⟩
  all_goals
    have h_rn := rn.isLt
    have h_rt := rt.isLt
    have hw : (encode (.st64b rn rt)).toNat = 0xF83F9000 + rn.toNat * 2 ^ 5 + rt.toNat * 2 ^ 0 := by
      simp only [encode, packWord, List.foldl, BitVec.toNat_ofNat]; omega
  · simp [ls64Rows, Row.accepts, FixedBits.holds, bitsAt, hw]; omega
  · simp only [ls64Rows, List.getElem_cons_succ, List.getElem_cons_zero]
    congr 1 <;> apply field_of_bits <;> rw [hw] <;> omega

theorem st64bv (rs : Reg) (rn : Reg) (rt : Reg) : Statement (.st64bv rs rn rt) := by
  intro _
  refine ⟨ls64Rows[2], ls64Rows_in_rows (List.getElem_mem _), ?_, ?_⟩
  all_goals
    have h_rs := rs.isLt
    have h_rn := rn.isLt
    have h_rt := rt.isLt
    have hw : (encode (.st64bv rs rn rt)).toNat = 0xF820B000 + rs.toNat * 2 ^ 16 + rn.toNat * 2 ^ 5 + rt.toNat * 2 ^ 0 := by
      simp only [encode, packWord, List.foldl, BitVec.toNat_ofNat]; omega
  · simp [ls64Rows, Row.accepts, FixedBits.holds, bitsAt, hw]; omega
  · simp only [ls64Rows, List.getElem_cons_succ, List.getElem_cons_zero]
    congr 1 <;> apply field_of_bits <;> rw [hw] <;> omega

theorem st64bv0 (rs : Reg) (rn : Reg) (rt : Reg) : Statement (.st64bv0 rs rn rt) := by
  intro _
  refine ⟨ls64Rows[3], ls64Rows_in_rows (List.getElem_mem _), ?_, ?_⟩
  all_goals
    have h_rs := rs.isLt
    have h_rn := rn.isLt
    have h_rt := rt.isLt
    have hw : (encode (.st64bv0 rs rn rt)).toNat = 0xF820A000 + rs.toNat * 2 ^ 16 + rn.toNat * 2 ^ 5 + rt.toNat * 2 ^ 0 := by
      simp only [encode, packWord, List.foldl, BitVec.toNat_ofNat]; omega
  · simp [ls64Rows, Row.accepts, FixedBits.holds, bitsAt, hw]; omega
  · simp only [ls64Rows, List.getElem_cons_succ, List.getElem_cons_zero]
    congr 1 <;> apply field_of_bits <;> rw [hw] <;> omega

theorem ldadd32 (rs : Reg) (rn : Reg) (rt : Reg) : Statement (.ldadd32 rs rn rt) := by
  intro _
  refine ⟨atomicRows[0], atomicRows_in_rows (List.getElem_mem _), ?_, ?_⟩
  all_goals
    have h_rs := rs.isLt
    have h_rn := rn.isLt
    have h_rt := rt.isLt
    have hw : (encode (.ldadd32 rs rn rt)).toNat = 0xB8200000 + rs.toNat * 2 ^ 16 + rn.toNat * 2 ^ 5 + rt.toNat * 2 ^ 0 := by
      simp only [encode, packWord, List.foldl, BitVec.toNat_ofNat]; omega
  · simp [atomicRows, Row.accepts, FixedBits.holds, bitsAt, hw]; omega
  · simp only [atomicRows, List.getElem_cons_zero]
    congr 1 <;> apply field_of_bits <;> rw [hw] <;> omega

theorem ldadd64 (rs : Reg) (rn : Reg) (rt : Reg) : Statement (.ldadd64 rs rn rt) := by
  intro _
  refine ⟨atomicRows[1], atomicRows_in_rows (List.getElem_mem _), ?_, ?_⟩
  all_goals
    have h_rs := rs.isLt
    have h_rn := rn.isLt
    have h_rt := rt.isLt
    have hw : (encode (.ldadd64 rs rn rt)).toNat = 0xF8200000 + rs.toNat * 2 ^ 16 + rn.toNat * 2 ^ 5 + rt.toNat * 2 ^ 0 := by
      simp only [encode, packWord, List.foldl, BitVec.toNat_ofNat]; omega
  · simp [atomicRows, Row.accepts, FixedBits.holds, bitsAt, hw]; omega
  · simp only [atomicRows, List.getElem_cons_succ, List.getElem_cons_zero]
    congr 1 <;> apply field_of_bits <;> rw [hw] <;> omega

theorem swp32 (rs : Reg) (rn : Reg) (rt : Reg) : Statement (.swp32 rs rn rt) := by
  intro _
  refine ⟨atomicRows[2], atomicRows_in_rows (List.getElem_mem _), ?_, ?_⟩
  all_goals
    have h_rs := rs.isLt
    have h_rn := rn.isLt
    have h_rt := rt.isLt
    have hw : (encode (.swp32 rs rn rt)).toNat = 0xB8208000 + rs.toNat * 2 ^ 16 + rn.toNat * 2 ^ 5 + rt.toNat * 2 ^ 0 := by
      simp only [encode, packWord, List.foldl, BitVec.toNat_ofNat]; omega
  · simp [atomicRows, Row.accepts, FixedBits.holds, bitsAt, hw]; omega
  · simp only [atomicRows, List.getElem_cons_succ, List.getElem_cons_zero]
    congr 1 <;> apply field_of_bits <;> rw [hw] <;> omega

theorem swp64 (rs : Reg) (rn : Reg) (rt : Reg) : Statement (.swp64 rs rn rt) := by
  intro _
  refine ⟨atomicRows[3], atomicRows_in_rows (List.getElem_mem _), ?_, ?_⟩
  all_goals
    have h_rs := rs.isLt
    have h_rn := rn.isLt
    have h_rt := rt.isLt
    have hw : (encode (.swp64 rs rn rt)).toNat = 0xF8208000 + rs.toNat * 2 ^ 16 + rn.toNat * 2 ^ 5 + rt.toNat * 2 ^ 0 := by
      simp only [encode, packWord, List.foldl, BitVec.toNat_ofNat]; omega
  · simp [atomicRows, Row.accepts, FixedBits.holds, bitsAt, hw]; omega
  · simp only [atomicRows, List.getElem_cons_succ, List.getElem_cons_zero]
    congr 1 <;> apply field_of_bits <;> rw [hw] <;> omega

theorem cas32 (rs : Reg) (rn : Reg) (rt : Reg) : Statement (.cas32 rs rn rt) := by
  intro _
  refine ⟨atomicRows[4], atomicRows_in_rows (List.getElem_mem _), ?_, ?_⟩
  all_goals
    have h_rs := rs.isLt
    have h_rn := rn.isLt
    have h_rt := rt.isLt
    have hw : (encode (.cas32 rs rn rt)).toNat = 0x88A07C00 + rs.toNat * 2 ^ 16 + rn.toNat * 2 ^ 5 + rt.toNat * 2 ^ 0 := by
      simp only [encode, packWord, List.foldl, BitVec.toNat_ofNat]; omega
  · simp [atomicRows, Row.accepts, FixedBits.holds, bitsAt, hw]; omega
  · simp only [atomicRows, List.getElem_cons_succ, List.getElem_cons_zero]
    congr 1 <;> apply field_of_bits <;> rw [hw] <;> omega

theorem cas64 (rs : Reg) (rn : Reg) (rt : Reg) : Statement (.cas64 rs rn rt) := by
  intro _
  refine ⟨atomicRows[5], atomicRows_in_rows (List.getElem_mem _), ?_, ?_⟩
  all_goals
    have h_rs := rs.isLt
    have h_rn := rn.isLt
    have h_rt := rt.isLt
    have hw : (encode (.cas64 rs rn rt)).toNat = 0xC8A07C00 + rs.toNat * 2 ^ 16 + rn.toNat * 2 ^ 5 + rt.toNat * 2 ^ 0 := by
      simp only [encode, packWord, List.foldl, BitVec.toNat_ofNat]; omega
  · simp [atomicRows, Row.accepts, FixedBits.holds, bitsAt, hw]; omega
  · simp only [atomicRows, List.getElem_cons_succ, List.getElem_cons_zero]
    congr 1 <;> apply field_of_bits <;> rw [hw] <;> omega

end Sys2Proof.Laws.RowReadsBack
end

