-- ==== Sys2Proof/Laws/Steps.lean ====
section
/-! SUPPORT. Every instruction and every move of the machine is a chain of changes: what a proof about `step` cites in
place of the seventy meanings. -/

namespace Sys2Proof.Machine

/-! ### Families of instructions -/

theorem State.compareBranch_evolves {n m : Nat} (s t : State) (c : Option Comparison) (cc : BitVec 3) (a b : BitVec n)
    (imm : BitVec m) (h : s.compareBranch c cc a b (branchOffset imm) = .next t) : Evolves s t := by
  cases c with
  | none => cases h
  | some c => exact s.branchIf_evolves t _ _ (branchOffset_aligned imm) h

theorem State.moveStage_evolves (s : State) (a : Nat) (src dst : SyncStage) : Evolves s (s.moveStage a src dst) := by
  unfold State.moveStage
  split
  · split
    · exact (Change.sync s _).evolves
    · exact .refl
  · exact .refl

theorem State.loadPair_evolves (s t : State) (i : Instr) (m : PairMnemonic) (ix : Indexing) (size : Nat)
    (imm7 : BitVec 7) (rt2 rn rt : Reg) (h : s.loadPair i m ix size imm7 rt2 rn rt = .next t) : Evolves s t := by
  unfold State.loadPair at h
  split at h
  · cases h
  · split at h
    · cases h
    · exact s.access_evolves t _ _ _ _ h

theorem State.storePair_evolves (s t : State) (i : Instr) (m : PairMnemonic) (ix : Indexing) (size : Nat)
    (imm7 : BitVec 7) (rt2 rn rt : Reg) (h : s.storePair i m ix size imm7 rt2 rn rt = .next t) : Evolves s t := by
  unfold State.storePair at h
  split at h
  · cases h
  · exact s.access_evolves t _ _ _ _ h

theorem State.loadFpPair_evolves (s t : State) (i : Instr) (size : Nat) (imm7 : BitVec 7) (rt2 rn rt : Reg)
    (h : s.loadFpPair i size imm7 rt2 rn rt = .next t) : Evolves s t := by
  unfold State.loadFpPair at h
  split at h
  · cases h
  · split at h
    · cases h
    · exact s.access_evolves t _ _ _ _ h

theorem State.storeFpPair_evolves (s t : State) (i : Instr) (size : Nat) (imm7 : BitVec 7) (rt2 rn rt : Reg)
    (h : s.storeFpPair i size imm7 rt2 rn rt = .next t) : Evolves s t := by
  unfold State.storeFpPair at h
  split at h
  · cases h
  · exact s.access_evolves t _ _ _ _ h

theorem State.loadExclusive_evolves (s t : State) (i : Instr) (size : Nat) (rt2 rn rt : Reg)
    (h : s.loadExclusive i size rt2 rn rt = .next t) : Evolves s t := by
  unfold State.loadExclusive at h
  split at h
  · cases h
  · exact s.access_evolves t _ _ _ _ h

theorem State.loadRcpc_evolves (s t : State) (i : Instr) (size : Nat) (rn rt : Reg)
    (h : s.loadRcpc i size rn rt = .next t) : Evolves s t := by
  unfold State.loadRcpc at h
  split at h
  · exact s.access_evolves t _ _ _ _ h
  · cases h

/-- What an instruction of low confidence does is what its meaning does. -/
theorem State.lowConfidence_evolves (s t : State) (n : String) (m : Res State)
    (hm : m = .next t → Evolves s t) (h : s.lowConfidence n m = .next t) : Evolves s t :=
  hm (s.lowConfidence_next t n m h)

theorem State.ls64_evolves (s t : State) (n : String) (rt : Reg) (m : Res State)
    (hm : m = .next t → Evolves s t) (h : s.ls64 n rt m = .next t) : Evolves s t := by
  refine s.lowConfidence_evolves t n _ (fun h => ?_) h
  split at h
  · cases h
  · split at h
    · cases h
    · exact hm h

/-- A 64-byte load or store with what stands before it. -/
theorem State.ls64_access_evolves (s t : State) (n : String) (rt : Reg) (i : Instr) (a : Access) (data : List Byte)
    (done : Completion) (h : s.ls64 n rt (s.access i a data done) = .next t) : Evolves s t :=
  s.ls64_evolves t n rt _ (s.access_evolves t i a data done) h

theorem State.exception_evolves (s t : State) (o : PeOutcome) (h : Host.Outcome.next (s.takeException o) =
    (.next t : Res State)) : Evolves s t := by
  simp only [Host.Outcome.next.injEq] at h
  exact h ▸ s.takeException_evolves o

/-! ### Every instruction -/

theorem execB_evolves (imm : BitVec 26) (s t : State) (h : execB imm s = .next t) : Evolves s t := by
  unfold execB at h
  split at h
  · cases h
  · exact s.jump_evolves t _ (branchOffset_aligned imm) h

theorem execBl_evolves (imm : BitVec 26) (s t : State) (h : execBl imm s = .next t) : Evolves s t := by
  simp only [execBl, State.jump, Host.Outcome.next.injEq] at h
  rw [← h]
  have hk := PE.Keeps.writeX s.pe 30 (s.pe.pc + 4)
  refine (Change.pe s _ hk).evolves.tail (Change.pe _ _ ?_)
  refine ⟨rfl, rfl, rfl, rfl, rfl, fun ha => ?_⟩
  refine branchTarget_aligned _ _ ?_ (branchOffset_aligned imm)
  by_cases hc : s.curOk = true
  · simpa [hc] using ha
  · have hl : ¬ s.cur < s.pes.length := by simpa [State.curOk] using hc
    rwa [State.setPe, List.set_eq_of_length_le (by omega)] at ha

theorem execDcZva_evolves (rt : Reg) (s t : State) (h : execDcZva rt s = .next t) : Evolves s t := by
  unfold execDcZva at h
  split at h
  · cases h
  · exact s.access_evolves t _ _ _ _ h

theorem execCbReg_evolves (sf : BitVec 1) (cc : BitVec 3) (rm : Reg) (imm : BitVec 9) (rt : Reg) (s t : State)
    (h : execCbReg sf cc rm imm rt s = .next t) : Evolves s t := by
  refine s.lowConfidence_evolves t _ _ (fun h => ?_) h
  split at h
  · exact s.compareBranch_evolves t _ _ _ _ imm h
  · exact s.compareBranch_evolves t _ _ _ _ imm h

theorem execCbImm_evolves (sf : BitVec 1) (cc : BitVec 3) (imm6 : BitVec 6) (imm : BitVec 9) (rt : Reg) (s t : State)
    (h : execCbImm sf cc imm6 imm rt s = .next t) : Evolves s t := by
  refine s.lowConfidence_evolves t _ _ (fun h => ?_) h
  split at h
  · exact s.compareBranch_evolves t _ _ _ _ imm h
  · exact s.compareBranch_evolves t _ _ _ _ imm h

theorem execTrcit_evolves (rt : Reg) (s t : State) (h : execTrcit rt s = .next t) : Evolves s t := by
  refine s.lowConfidence_evolves t _ _ (fun h => ?_) h
  exact (Change.pe s { s.pe with trace := s.pe.trace ++ [s.pe.readX rt] } ⟨rfl, rfl, rfl, rfl, rfl, id⟩).evolves.trans
    (State.endInstr_evolves _ _ h)

/-- An instruction is a chain of changes of the state, made by the current PE. -/
theorem exec_evolves (i : Instr) (s t : State) (h : exec i s = .next t) : Evolves s t := by
  cases i
  case b => exact execB_evolves _ s t h
  case bl => exact execBl_evolves _ s t h
  case bCond imm _ => exact s.branchIf_evolves t _ _ (branchOffset_aligned imm) h
  case cbz imm _ => exact s.branchIf_evolves t _ _ (branchOffset_aligned imm) h
  case cbnz imm _ => exact s.branchIf_evolves t _ _ (branchOffset_aligned imm) h
  case tbz imm _ => exact s.branchIf_evolves t _ _ (branchOffset_aligned imm) h
  case tbnz imm _ => exact s.branchIf_evolves t _ _ (branchOffset_aligned imm) h
  case cbReg => exact execCbReg_evolves _ _ _ _ _ s t h
  case cbImm => exact execCbImm_evolves _ _ _ _ _ s t h
  case cbb => exact s.lowConfidence_evolves t _ _ (s.compareBranch_evolves t _ _ _ _ _) h
  case cbh => exact s.lowConfidence_evolves t _ _ (s.compareBranch_evolves t _ _ _ _ _) h
  case brk => exact s.exception_evolves t _ h
  case svc => exact s.exception_evolves t _ h
  case hvc => exact s.exception_evolves t _ h
  case smc => exact s.exception_evolves t _ h
  case nop => exact s.endInstr_evolves t h
  case trcit => exact execTrcit_evolves _ s t h
  case dcCvau => exact (s.moveStage_evolves _ _ _).trans (State.endInstr_evolves _ _ h)
  case icIvau => exact (s.moveStage_evolves _ _ _).trans (State.endInstr_evolves _ _ h)
  case dcZva => exact execDcZva_evolves _ s t h
  case dsbIsh => exact (Change.sync s _).evolves.trans (State.endInstr_evolves _ _ h)
  case isb => exact (Change.isb s).evolves.trans (State.endInstr_evolves _ _ h)
  case stxp32 => exact s.storeExclusive_evolves t 4 _ _ _ _ (.inl rfl) h
  case stlxp32 => exact s.storeExclusive_evolves t 4 _ _ _ _ (.inl rfl) h
  case stxp64 => exact s.storeExclusive_evolves t 8 _ _ _ _ (.inr rfl) h
  case stlxp64 => exact s.storeExclusive_evolves t 8 _ _ _ _ (.inr rfl) h
  all_goals first
    | exact s.access_evolves t _ _ _ _ h
    | exact s.loadPair_evolves t _ _ _ _ _ _ _ _ h
    | exact s.storePair_evolves t _ _ _ _ _ _ _ _ h
    | exact s.loadFpPair_evolves t _ _ _ _ _ _ h
    | exact s.storeFpPair_evolves t _ _ _ _ _ _ h
    | exact s.loadExclusive_evolves t _ _ _ _ _ h
    | exact s.loadRcpc_evolves t _ _ _ _ h
    | exact s.ls64_access_evolves t _ _ _ _ _ _ h
    | exact s.atomicRmw_evolves t _ _ _ _ _ h

/-! ### Every move -/

theorem State.fetch_change (s t : State) (w : Word32) (h : s.fetch = .next (w, t)) :
    ∃ d c, t = { s with pending := d, drawCount := c } := by
  have hd : ∀ a c u, deliver a c u = .next (w, t) → t = u := by
    intro a c u h
    cases c with
    | none => cases h
    | some v => simp only [deliver, Host.Outcome.next.injEq, Prod.mk.injEq] at h; exact h.2.symm
  unfold State.fetch at h
  split at h
  · cases h
  · split at h
    · cases h
    · split at h
      · exact ⟨s.pending, s.drawCount, hd _ _ _ h⟩
      · split at h
        · rw [hd _ _ _ h]
          unfold State.drawBelow State.draw
          split
          · exact ⟨_, _, rfl⟩
          · split
            · exact ⟨_, _, rfl⟩
            · exact ⟨_, _, rfl⟩
        · cases h

theorem State.newInstance_evolves (s : State) : Evolves s s.newInstance :=
  (Change.pe s { s.pe with inst := s.nextInst } ⟨rfl, rfl, rfl, rfl, rfl, id⟩).evolves.tail (Change.count _ _)

theorem State.fetchAndBegin_evolves (s t : State) (h : s.fetchAndBegin = .next t) : Evolves s t := by
  obtain ⟨r, h1, h2⟩ := andThen_eq_next _ _ _ h
  obtain ⟨w, u⟩ := r
  obtain ⟨d, c, rfl⟩ := s.fetch_change u w h1
  split at h2
  · exact ((Change.choose s d c s.turn).evolves.trans (State.newInstance_evolves _)).trans (exec_evolves _ _ _ h2)
  · cases h2

theorem State.runCurrent_evolves (s t : State) (k : Nat) (h : s.runCurrent k = .next t) : Evolves s t := by
  unfold State.runCurrent at h
  split at h
  · exact s.fetchAndBegin_evolves t h
  · exact exec_evolves _ _ _ h
  · exact s.advance_evolves t _ k h

theorem State.stopRun_evolves (s : State) (o : PeOutcome) : Evolves s (s.stopRun o) :=
  (Change.choose s (s.pending.drop stepChoices) (s.drawCount + stepChoices) s.turn).evolves.trans (State.endRun_evolves _ _)

/-- The step of a PE is a chain of changes also where what it does stops. -/
theorem State.orStop_evolves (s t : State) (r : Res State) (hr : ∀ t, r = .next t → Evolves s t)
    (h : s.orStop r = .next t) : Evolves s t := by
  cases r with
  | next u => exact hr t h
  | fault f => simp only [State.orStop, Host.Outcome.next.injEq] at h; exact h ▸ s.stopRun_evolves _
  | refused why => simp only [State.orStop, Host.Outcome.next.injEq] at h; exact h ▸ s.stopRun_evolves _

/-- The step of a PE always answers a next state. -/
theorem State.orStop_next (s : State) (r : Res State) : ∃ t, s.orStop r = .next t := by
  cases r <;> exact ⟨_, rfl⟩

theorem State.interruptPe_evolves (s t : State) (p : Nat) (h : s.interruptPe p = .next t) :
    t = s ∨ (p < s.pes.length ∧ Evolves { s with cur := p } t) := by
  unfold State.interruptPe at h
  split at h
  · next pe hpe =>
    have hlt : p < s.pes.length := (List.getElem?_eq_some_iff.mp hpe).1
    split at h
    · split at h
      · split at h
        · next fl _ _ =>
          simp only [Host.Outcome.next.injEq] at h
          refine .inr ⟨hlt, ?_⟩
          rw [← h]
          exact (Change.pe { s with cur := p } { State.pe { s with cur := p } with phase := .restart fl.instr }
            ⟨rfl, rfl, rfl, rfl, rfl, id⟩).evolves
        · simp only [Host.Outcome.next.injEq] at h; exact .inl h.symm
      · simp only [Host.Outcome.next.injEq] at h; exact .inl h.symm
    · simp only [Host.Outcome.next.injEq] at h; exact .inl h.symm
  · simp only [Host.Outcome.next.injEq] at h; exact .inl h.symm

theorem State.runPe_evolves (s t : State) (p k : Nat) (h : s.runPe p k = .next t) :
    t = s ∨ (p < s.pes.length ∧ Evolves { s with cur := p } t) := by
  unfold State.runPe at h
  split at h
  · next pe hpe =>
    split at h
    · exact .inr ⟨(List.getElem?_eq_some_iff.mp hpe).1,
        State.orStop_evolves _ t _ (fun t ht => State.runCurrent_evolves _ t k ht) h⟩
    · simp only [Host.Outcome.next.injEq] at h; exact .inl h.symm
  · simp only [Host.Outcome.next.injEq] at h; exact .inl h.symm

theorem State.observerRead_evolves (s t : State) (o addr : Nat) (h : s.observerRead o addr = .next t) :
    Evolves s t := by
  unfold State.observerRead at h
  split at h
  · obtain ⟨r, h1, h2⟩ := andThen_eq_next _ _ _ h
    simp only [Host.Outcome.next.injEq] at h2
    rw [← h2]
    exact (readUnit_evolves _ (fun _ h => h) _ _ _ _ _ _ h1).tail (Change.count _ _)
  · simp only [Host.Outcome.next.injEq] at h; exact h ▸ .refl

theorem State.observerWrite_evolves (s t : State) (o addr : Nat) (v : Byte) (h : s.observerWrite o addr v = .next t) :
    Evolves s t := by
  unfold State.observerWrite at h
  split at h
  · simp only [Host.Outcome.next.injEq] at h
    rw [← h]
    exact (writeUnit_evolves _ _ _ _ s).tail (Change.count _ _)
  · simp only [Host.Outcome.next.injEq] at h; exact h ▸ .refl

/-- A step takes the next move of the schedule; then either the move does nothing, or a PE that exists or an observer
makes a chain of changes. -/
theorem step_evolves (s t : State) (h : step s = .next t) :
    ∃ c m, t = { s with drawCount := c, turn := none } ∨
      ∃ p, (p = s.cur ∨ p < s.pes.length) ∧
        Evolves { s with drawCount := c, turn := none, cur := p } t ∧ (s.turn = some m ∨ s.turn = none) := by
  have ht : ∃ c, s.takeTurn.2 = { s with drawCount := c, turn := none } := by
    unfold State.takeTurn
    split
    · exact ⟨_, rfl⟩
    · next hn => exact ⟨s.drawCount + 1, by rw [← hn]⟩
  obtain ⟨c, hc⟩ := ht
  simp only [step] at h
  refine ⟨c, s.takeTurn.1, ?_⟩
  have hm : s.turn = some s.takeTurn.1 ∨ s.turn = none := by
    unfold State.takeTurn
    split
    · next m hm => exact .inl hm
    · next hm => exact .inr hm
  rw [hc] at h
  generalize s.takeTurn.1 = m at h hm
  cases m with
  | run p k =>
    rcases State.runPe_evolves _ t p k h with h | ⟨h1, h2⟩
    · exact .inl h
    · exact .inr ⟨p, .inr h1, h2, hm⟩
  | interrupt p =>
    rcases State.interruptPe_evolves _ t p h with h | ⟨h1, h2⟩
    · exact .inl h
    · exact .inr ⟨p, .inr h1, h2, hm⟩
  | observerRead o a => exact .inr ⟨s.cur, .inl rfl, State.observerRead_evolves _ t o a h, hm⟩
  | observerWrite o a v => exact .inr ⟨s.cur, .inl rfl, State.observerWrite_evolves _ t o a v h, hm⟩

/-- An invariant that does not speak of whose turn it is, and that every change keeps, is kept by every step. -/
theorem step_keeps {P : State → Prop} (hturn : ∀ s c p, P s → P { s with drawCount := c, turn := none, cur := p })
    (hc : ∀ a b, Change a b → P a → P b) (s t : State) (hs : P s) (h : step s = .next t) : P t := by
  obtain ⟨c, _, h | ⟨p, _, h, _⟩⟩ := step_evolves s t h
  · rw [h]; exact hturn s c s.cur hs
  · exact h.keeps (hturn s c p hs) hc

end Sys2Proof.Machine
end

