-- ==== Sys2Proof/Tests/Slice0.lean ====
section
/-! SUPPORT. Tests: the vectors of 95_test_vectors.md, one step each, and for every statement with hypotheses a concrete
state that meets them. Expected values come from the vectors or from the rule named, never from the model. -/

namespace Sys2Proof.Machine.Tests

open Sys2Proof

/-! ### Configurations, states and what is read of an outcome -/

/-- `NC` of 95_test_vectors.md. -/
def attrNc : MemAttr := { MemAttr.wb with type := .normal .nonCacheable .nonCacheable, conventional := false }

/-- `WBNS` of 95_test_vectors.md. -/
def attrWbns : MemAttr := { MemAttr.wb with shareability := .nonShareable }

/-- `DEV` of 95_test_vectors.md. -/
def attrDev : MemAttr := { MemAttr.wb with type := .device, conventional := false }

/-- `cfgA` of 95_test_vectors.md: no optional feature; memory of one kind, atomic instructions supported only where R186
forces it. -/
def cfgA (m : MemAttr) : Config :=
  { Config.reset with
    featLse2 := false
    featLrcpc := false
    featLs64 := false
    featLs64wb := false
    featSve := false
    featAtomics := false
    armv8_4OrLater := false
    regions := [{ base := 0, size := addrSpace, attr := m, atomicSupported := false, atomicFpSupported := false }] }

/-- `cfgB` of 95_test_vectors.md. -/
def cfgB (m : MemAttr) : Config :=
  { cfgA m with armv8_4OrLater := true, featLse2 := true, featLrcpc := true, featAtomics := true }

/-- `c` under the alternative to the policy of R98 (log 14). -/
def executing (c : Config) : Config := { c with lowConfidence := .execute }

/-- A state of `cfg` at the start of a run with these general-purpose registers of PE 0 and these bytes in memory. -/
def machine (cfg : Config) (regs : List (Nat × Word64)) (mem : List (Nat × List Byte)) : State :=
  let s := State.start cfg
  { s.setPe (regs.foldl (fun p e => p.writeX (BitVec.ofNat 5 e.1) e.2) s.pe) with
    mem := mem.foldl (fun m e => Memory.writeAll m e.1 e.2) [] }

/-- The bytes from 0x1000 up hold `first`, `first + 1` and so on. -/
def counting (first n : Nat) : List (Nat × List Byte) := [(0x1000, (List.range n).map fun i => BitVec.ofNat 8 (first + i))]

/-- A value read from the next state, none of a fault or a refusal. -/
def got {σ α : Type} (r : Res σ) (f : σ → α) : Option α :=
  match r with
  | .next t => some (f t)
  | _ => none

/-- The refusal, none if there is none. -/
def refusal {σ : Type} (r : Res σ) : Option Refusal :=
  match r with
  | .refused x => some x
  | _ => none

/-- The fault, none if there is none. -/
def fault {σ : Type} (r : Res σ) : Option Fault :=
  match r with
  | .fault x => some x
  | _ => none

/-- The outcome of the PE whose run has ended with this step, none if it runs on. -/
def ending (r : Res State) : Option PeOutcome :=
  match got r (·.pe.run) with
  | some (.ended o) => some o
  | _ => none

/-- The little-endian value of `n` bytes of memory. -/
def memValue (n a : Nat) (s : State) : Option Nat := (allBytes ((byteAddrs a n).map s.mem.read)).map leValue

/-- The word is fetched at 0x4000 and run as the first instruction, and the units of it left over are performed. -/
def run (word : Nat) (s : State) (ks : List Nat := []) : Res State :=
  andThen (step (s.withFetchWord 32 word)) (State.performUnits ks)

/-! ### Well-formedness: the one check there is, of the four instructions that have the field -/

theorem test_wf_cbReg : (Instr.cbReg 0 4 0 0 0).wellFormed = false := by decide
theorem test_wf_cbImm : (Instr.cbImm 0 5 0 0 0).wellFormed = false := by decide
theorem test_wf_cbb : (Instr.cbb 5 0 0 0).wellFormed = false := by decide
theorem test_wf_cbh : (Instr.cbh 4 0 0 0).wellFormed = false := by decide

/-! ### Decoding: one word of every row, from parts 1, 4, 5 of 95_test_vectors.md or from the formats of R97 -/

theorem test_decode_branches :
    [0x14000010, 0x94000002, 0x54FFFFE1, 0xB4000043, 0x35FFFFC3, 0x36000040, 0xB7F80040].map decodeWord =
      [some (.b 0x10), some (.bl 2), some (.bCond 0x7FFFF 1), some (.cbz 1 2 3), some (.cbnz 0 0x7FFFE 3),
        some (.tbz 0 0 2 0), some (.tbnz 1 31 2 0)] := by decide

theorem test_decode_compare :
    [0xF4C30045, 0x75220045, 0x74E38045, 0x7423C045].map decodeWord =
      [some (.cbReg 1 6 3 2 5), some (.cbImm 0 1 4 2 5), some (.cbb 7 3 2 5), some (.cbh 1 3 2 5)] := by decide

theorem test_decode_system :
    [0xD4200020, 0xD4000001, 0xD4000002, 0xD4000003, 0xD503201F, 0xD50B72E0, 0xD50B7B20, 0xD50B7520, 0xD50B7420,
        0xD5033B9F, 0xD5033FDF].map decodeWord =
      [some (.brk 1), some (.svc 0), some (.hvc 0), some (.smc 0), some .nop, some (.trcit 0), some (.dcCvau 0),
        some (.icIvau 0), some (.dcZva 0), some .dsbIsh, some (.isb 15)] := by decide

theorem test_decode_single :
    [0xB9000001, 0xF9000401, 0xB9400002, 0xF9400062].map decodeWord =
      [some (.strImm32 0 0 1), some (.strImm64 1 0 1), some (.ldrImm32 0 0 2), some (.ldrImm64 0 3 2)] := by decide

theorem test_decode_pair32 :
    [0x28C10440, 0x29400440, 0x29C10440, 0x28410440, 0x28810440, 0x29000440, 0x29810440, 0x28010440].map decodeWord =
      [some (.ldpPost32 2 1 2 0), some (.ldpOff32 0 1 2 0), some (.ldpPre32 2 1 2 0), some (.ldnp32 2 1 2 0),
        some (.stpPost32 2 1 2 0), some (.stpOff32 0 1 2 0), some (.stpPre32 2 1 2 0), some (.stnp32 2 1 2 0)] := by
  decide

theorem test_decode_pair64 :
    [0xA8C10440, 0xA9400440, 0xA9C10440, 0xA8400440, 0xA8810440, 0xA9000440, 0xA9BF0440, 0xA8000440].map decodeWord =
      [some (.ldpPost64 2 1 2 0), some (.ldpOff64 0 1 2 0), some (.ldpPre64 2 1 2 0), some (.ldnp64 0 1 2 0),
        some (.stpPost64 2 1 2 0), some (.stpOff64 0 1 2 0), some (.stpPre64 126 1 2 0), some (.stnp64 0 1 2 0)] := by
  decide

theorem test_decode_fp_pairs :
    [0x2D400440, 0x2D000440, 0x6D400440, 0x6D000440, 0xAD400440, 0xAD000440].map decodeWord =
      [some (.ldpFpS 0 1 2 0), some (.stpFpS 0 1 2 0), some (.ldpFpD 0 1 2 0), some (.stpFpD 0 1 2 0),
        some (.ldpFpQ 0 1 2 0), some (.stpFpQ 0 1 2 0)] := by decide

theorem test_decode_exclusive :
    [0x887F0440, 0x88230440, 0x887F8440, 0x88238440, 0xC87F0440, 0xC8230440, 0xC87F8440, 0xC8238440].map decodeWord =
      [some (.ldxp32 1 2 0), some (.stxp32 3 1 2 0), some (.ldaxp32 1 2 0), some (.stlxp32 3 1 2 0),
        some (.ldxp64 1 2 0), some (.stxp64 3 1 2 0), some (.ldaxp64 1 2 0), some (.stlxp64 3 1 2 0)] := by decide

theorem test_decode_rcpc_and_ls64 :
    [0xB8BFC001, 0xF8BFC001, 0x78BFC001, 0x38BFC001, 0xF83FD002, 0xF83F9002, 0xF821B002, 0xF821A002].map decodeWord =
      [some (.ldapr32 0 1), some (.ldapr64 0 1), some (.ldaprh 0 1), some (.ldaprb 0 1), some (.ld64b 0 2),
        some (.st64b 0 2), some (.st64bv 1 0 2), some (.st64bv0 1 0 2)] := by decide

theorem test_decode_atomics :
    [0xB8210002, 0xF8210002, 0xB8218002, 0xF8218002, 0x88A17C02, 0xC8A17C02].map decodeWord =
      [some (.ldadd32 1 0 2), some (.ldadd64 1 0 2), some (.swp32 1 0 2), some (.swp64 1 0 2), some (.cas32 1 0 2),
        some (.cas64 1 0 2)] := by decide

/-- Part 4: the words that match no row. -/
theorem test_decode_no_row :
    [0x54000050, 0x55000040, 0xD4000000, 0xD4400000, 0xD503203F, 0x74800000, 0xF4008000, 0xD65F03C0, 0xD61F0000,
        0x00000000].map decodeWord = List.replicate 10 none := by decide

/-- Part 4: the words of the list of R73, and rows outside it. -/
theorem test_cmodx_safe :
    ([0x14000010, 0x94000002, 0x54000040, 0x34000043, 0x36000040, 0xD4200000, 0xD503201F, 0xD50330DF, 0xD50B72E0,
        0x74000000, 0x74008000, 0x75000000].all cmodxSafe = true) ∧
      [0x54000050, 0xD503203F, 0xD5033B9F, 0xD50B7B20, 0x74800000, 0xF4008000, 0xB9000001, 0xF9400062, 0xD65F03C0].any
        cmodxSafe = false := by decide

/-- Too few bytes are no instruction, and the bytes after an instruction are left over. -/
theorem test_decode_bytes : decode [0x1F, 0x20, 0x03, 0xD5, 0xAA] = .instr .nop [0xAA] := by decide

theorem test_decode_table_word : decodeTableWord 32 0xD4200020 = some (.brk 1) := by decide

/-! ### Part 2 of 95_test_vectors.md: the units of an access -/

/-- The units of an access as (address, size) pairs. -/
def units (cfg : Config) (cls : AccessClass) (m : PairMnemonic) (dir : Direction) (addr size count : Nat) :
    Option (List (Nat × Nat)) :=
  (scaUnits cfg { cls := cls, mnemonic := m, dir := dir, addr := addr, size := size, count := count }).map fun us =>
    us.map fun u => (u.addr, u.size)

/-- `bytes(a, n)` of 95_test_vectors.md. -/
def bytes (a n : Nat) : Option (List (Nat × Nat)) := some ((List.range n).map fun i => (a + i, 1))

/-- S1 to S4, S8. -/
theorem test_units_single :
    units (cfgA .wb) .gprSingle .other .read 0x1000 8 1 = some [(0x1000, 8)] ∧
      units (cfgA .wb) .gprSingle .other .write 0x1002 4 1 = bytes 0x1002 4 ∧
      units (cfgB .wb) .gprSingle .other .write 0x1002 4 1 = some [(0x1002, 4)] ∧
      units (cfgB attrNc) .gprSingle .other .write 0x1002 4 1 = bytes 0x1002 4 ∧
      units (cfgA .wb) .gprSingle .other .read 0x1003 1 1 = some [(0x1003, 1)] := by decide

/-- S5, S6, S9. -/
theorem test_units_single_crossing :
    units (cfgB .wb) .gprSingle .other .write 0x100C 8 1 = bytes 0x100C 8 ∧
      units (cfgB .wb) .gprSingle .other .read 0x1009 8 1 = bytes 0x1009 8 ∧
      units { cfgA .wb with featLse2 := true } .gprSingle .other .write 0x1002 4 1 = bytes 0x1002 4 := by decide

/-- S10: one byte of the access is in other memory. -/
theorem test_units_mixed_memory :
    units
        { cfgB .wb with
          regions := { base := 0x1004, size := 1, attr := attrNc, atomicSupported := false
                       atomicFpSupported := false } :: (cfgB .wb).regions }
        .gprSingle .other .read 0x1002 4 1 = bytes 0x1002 4 := by decide

/-- S20 to S27. -/
theorem test_units_pair64 :
    units (cfgA .wb) .gprPair .ldp .read 0x1000 8 2 = some [(0x1000, 8), (0x1008, 8)] ∧
      units (cfgB .wb) .gprPair .ldp .read 0x1000 8 2 = some [(0x1000, 16)] ∧
      units (cfgB .wb) .gprPair .ldp .read 0x1008 8 2 = some [(0x1008, 8), (0x1010, 8)] ∧
      units (cfgB attrNc) .gprPair .ldp .read 0x1000 8 2 = some [(0x1000, 8), (0x1008, 8)] ∧
      units (cfgB .wb) .gprPair .ldp .read 0x1004 8 2 = bytes 0x1004 16 ∧
      units (cfgB .wb) .gprPair .ldnp .read 0x1000 8 2 = some [(0x1000, 16)] ∧
      units (cfgB .wb) .gprPair .stnp .write 0x1000 8 2 = some [(0x1000, 8), (0x1008, 8)] := by decide

/-- S28 to S33. -/
theorem test_units_pair32 :
    units (cfgA .wb) .gprPair .ldp .read 0x1000 4 2 = some [(0x1000, 4), (0x1004, 4)] ∧
      units (cfgB .wb) .gprPair .ldp .read 0x1000 4 2 = some [(0x1000, 8)] ∧
      units (cfgB .wb) .gprPair .ldp .read 0x1002 4 2 = some [(0x1002, 8)] ∧
      units (cfgA .wb) .gprPair .ldp .read 0x1002 4 2 = bytes 0x1002 8 ∧
      units (cfgB .wb) .gprPair .ldp .read 0x100C 4 2 = some [(0x100C, 4), (0x1010, 4)] ∧
      units (cfgB .wb) .gprPair .stp .write 0x100A 4 2 = bytes 0x100A 8 := by decide

/-- S40 to S45. -/
theorem test_units_exclusive :
    units (cfgA .wb) .exclPair32 .other .read 0x1000 4 2 = some [(0x1000, 8)] ∧
      units (cfgA .wb) .exclPair32 .other .failedWrite 0x1000 4 2 = some [] ∧
      units (cfgA .wb) .exclPair64 .other .failedWrite 0x1000 8 2 = some [] ∧
      units (cfgA .wb) .exclPair64 .other .read 0x1000 8 2 = bytes 0x1000 16 ∧
      units { cfgA .wb with ldxp64PerRegisterSca := true } .exclPair64 .other .read 0x1000 8 2 =
        some [(0x1000, 8), (0x1008, 8)] ∧
      units (cfgA .wb) .exclPair64 .other .write 0x1000 8 2 = some [(0x1000, 16)] := by decide

/-- S50 to S55. -/
theorem test_units_fp_single :
    units (cfgA .wb) .fpSingle .other .read 0x1000 8 1 = some [(0x1000, 8)] ∧
      units (cfgA .wb) .fpSingle .other .read 0x1004 8 1 = bytes 0x1004 8 ∧
      units (cfgB .wb) .fpSingle .other .read 0x1004 8 1 = some [(0x1004, 8)] ∧
      units (cfgB .wb) .fpSingle .other .write 0x1008 16 1 = some [(0x1008, 8), (0x1010, 8)] ∧
      units (cfgB .wb) .fpSingle .other .write 0x1004 16 1 = bytes 0x1004 16 := by decide

/-- S56 to S62. -/
theorem test_units_fp_pair :
    units { cfgA .wb with featLs64wb := true } .fpPair .ldp .read 0x1000 16 2 = some [(0x1000, 32)] ∧
      units { cfgA .wb with featLs64wb := true } .fpPair .ldp .read 0x1010 16 2 =
        some [(0x1010, 8), (0x1018, 8), (0x1020, 8), (0x1028, 8)] ∧
      units { cfgA attrWbns with featLs64wb := true } .fpPair .ldp .read 0x1000 16 2 =
        some [(0x1000, 8), (0x1008, 8), (0x1010, 8), (0x1018, 8)] ∧
      units (cfgA .wb) .fpPair .stp .write 0x1004 16 2 = bytes 0x1004 32 ∧
      units (cfgA .wb) .fpPair .ldp .read 0x1000 8 2 = bytes 0x1000 16 ∧
      units { cfgA .wb with fpPairPerRegisterSca := true } .fpPair .ldp .read 0x1000 8 2 =
        some [(0x1000, 8), (0x1008, 8)] := by decide

/-- S63, S64, S73, S74, S75, S77, S93. -/
theorem test_units_other_classes :
    units (cfgA .wb) .fpElemStruct .other .read 0x1000 4 4 =
        some [(0x1000, 4), (0x1004, 4), (0x1008, 4), (0x100C, 4)] ∧
      units (cfgB .wb) .fpElemStruct .other .read 0x1002 4 4 = bytes 0x1002 16 ∧
      units (cfgB .wb) .sveUnpred .other .read 0x1000 32 1 = bytes 0x1000 32 ∧
      units (cfgB .wb) .dcZva .other .write 0x1000 64 1 = bytes 0x1000 64 ∧
      units { cfgA .wb with featLs64 := true } .ls64 .other .read 0x1000 64 1 = some [(0x1000, 64)] ∧
      units (cfgA .wb) .ls64 .other .read 0x1000 64 1 = none ∧
      units (cfgA .wb) .ttwRead .other .read 0x8000 8 1 = some [(0x8000, 8)] := by decide

/-- S70 to S72: predicated SVE accesses, by the addresses of their active elements. -/
theorem test_units_sve_predicated :
    scaUnits (cfgB .wb) { cls := .svePred, dir := .read, addr := 0x1000, size := 8, count := 3
                          elems := [0x1000, 0x1010] } = some [⟨0x1000, 8⟩, ⟨0x1010, 8⟩] ∧
      scaUnits (cfgB .wb) { cls := .svePred, dir := .write, addr := 0x1008, size := 16, count := 1
                            elems := [0x1008] } = some [⟨0x1008, 8⟩, ⟨0x1010, 8⟩] ∧
      scaUnits (cfgB .wb) { cls := .svePred, dir := .read, addr := 0x1002, size := 4, count := 1
                            elems := [0x1002] } = some [⟨0x1002, 1⟩, ⟨0x1003, 1⟩, ⟨0x1004, 1⟩, ⟨0x1005, 1⟩] := by
  decide

/-- S80 to S82, S86, S91, S92. -/
theorem test_units_atomic_and_rcpc :
    units (cfgB .wb) .atomic .other .read 0x3000 4 1 = some [(0x3000, 4)] ∧
      units (cfgB attrNc) .atomic .other .read 0x3000 4 1 = bytes 0x3000 4 ∧
      units { cfgB attrNc with atomicNonAtomicSca := true } .atomic .other .read 0x3000 4 1 = some [(0x3000, 4)] ∧
      units (cfgB .wb) .lrcpc .other .read 0x1004 8 1 = some [(0x1004, 8)] ∧
      units (cfgB .wb) .lrcpc .other .read 0x1001 2 1 = some [(0x1001, 2)] ∧
      units (cfgB .wb) .lrcpc .other .read 0x100F 1 1 = some [(0x100F, 1)] := by decide

/-- S11, S46, S47, S76, S83, S87 to S90: what `MISALIGNED_POLICY` refuses. -/
theorem test_units_refused :
    [(attrDev, singleAccess .write 0x5002 4), (.wb, exclusiveAccess .read 0x1008 8), (.wb, exclusiveAccess .read 0x1004 4),
        (.wb, ls64Access .write 0x1020), (.wb, atomicAccess 0x3002 4), (.wb, rcpcAccess 0x100C 8),
        (attrNc, rcpcAccess 0x1004 8), (.wb, rcpcAccess 0x100F 2)].map
          (fun e => refusal (checkAccess (cfgB e.1) e.2)) =
      [0x5002, 0x1008, 0x1004, 0x1020, 0x3002, 0x100C, 0x1004, 0x100F].map fun a => some (.misaligned a) := by decide

/-- S94. -/
theorem test_units_outside_memmap :
    fault (checkAccess { cfgB .wb with regions := [] } (singleAccess .read 0x1000 8)) = some (.outsideMemMap 0x1000) := by
  decide

/-! ### Part 5 of 95_test_vectors.md: one step of each instruction from reset -/

/-- I1 and I3: STR of a register, and of the zero register. -/
theorem test_i1_str32 :
    got (run 0xB9000001 (machine (cfgA .wb) [(0, 0x2000), (1, 0xD503201F)] []))
      (fun t => (memValue 4 0x2000 t, t.pe.pc)) = some (some 0xD503201F, 0x4004) := by decide

theorem test_i3_str_zero_register :
    got (run 0xB900001F (machine (cfgA .wb) [(0, 0x2000), (30, 7)] [])) (memValue 4 0x2000) = some (some 0) := by decide

theorem test_i2_str64 :
    got (run 0xF9000401 (machine (cfgA .wb) [(0, 0x2000), (1, 0x1122334455667788)] []))
      (fun t => [0x2008, 0x200F, 0x2010].map t.mem.read) = some [some 0x88, some 0x11, none] := by decide

/-- The bytes 88 77 66 55 44 33 22 11 at 0x1000. -/
def eightBytes : List (Nat × List Byte) := [(0x1000, [0x88, 0x77, 0x66, 0x55, 0x44, 0x33, 0x22, 0x11])]

theorem test_i4_ldr64 :
    got (run 0xF9400002 (machine (cfgA .wb) [(0, 0x1000)] eightBytes)) (·.pe.readX 2) = some 0x1122334455667788 := by
  decide

theorem test_i5_ldr32 :
    got (run 0xB9400002 (machine (cfgA .wb) [(0, 0x1000), (2, 0xFFFFFFFFFFFFFFFF)] eightBytes)) (·.pe.readX 2) =
      some 0x55667788 := by decide

/-- I6: two units under `cfgA`, performed in the other order. -/
theorem test_i6_ldp64 :
    got (run 0xA9400440 (machine (cfgA .wb) [(2, 0x1000)] (counting 1 16)) [1, 0])
      (fun t => (t.pe.readX 0, t.pe.readX 1, t.pe.pc)) =
      some (0x0807060504030201, 0x100F0E0D0C0B0A09, 0x4004) := by decide

theorem test_i7_ldp32 :
    got (run 0x29400440 (machine (cfgB .wb) [(2, 0x1000)] (counting 1 16))) (fun t => (t.pe.readX 0, t.pe.readX 1)) =
      some (0x04030201, 0x08070605) := by decide

theorem test_i8_ldp64_post :
    got (run 0xA8C10440 (machine (cfgB .wb) [(2, 0x1000)] (counting 1 16)))
      (fun t => (t.pe.readX 0, t.pe.readX 1, t.pe.readX 2)) =
      some (0x0807060504030201, 0x100F0E0D0C0B0A09, 0x1010) := by decide

/-- R112: pre-index, and a base that is the stack pointer. -/
theorem test_ldp32_pre_sp :
    got (run 0x29C107E0 (let s := machine (cfgB .wb) [] (counting 1 16); s.setPe { s.pe with sp := 0x1000 }))
      (fun t => (t.pe.readX 0, t.pe.readX 1, t.pe.sp)) = some (0x0C0B0A09, 0x100F0E0D, 0x1008) := by decide

theorem test_ldp32_post :
    got (run 0x28C10440 (machine (cfgB .wb) [(2, 0x1000)] (counting 1 16))) (fun t => (t.pe.readX 1, t.pe.readX 2)) =
      some (0x08070605, 0x1008) := by decide

theorem test_ldp64_pre :
    got (run 0xA9FF0440 (machine (cfgB .wb) [(2, 0x1010)] (counting 1 16))) (fun t => (t.pe.readX 0, t.pe.readX 2)) =
      some (0x0807060504030201, 0x1000) := by decide

theorem test_i9_ldnp64 :
    got (run 0xA8400440 (machine (cfgB .wb) [(2, 0x1000)] (counting 1 16))) (fun t => (t.pe.readX 0, t.pe.readX 1)) =
      some (0x0807060504030201, 0x100F0E0D0C0B0A09) := by decide

theorem test_ldnp32 :
    got (run 0x28410440 (machine (cfgB .wb) [(2, 0x1000)] (counting 1 16))) (fun t => (t.pe.readX 0, t.pe.readX 1)) =
      some (0x0C0B0A09, 0x100F0E0D) := by decide

/-- The registers of I10 and I11. -/
def pairRegs (base : Word64) : List (Nat × Word64) := [(0, 0xAAAAAAAAAAAAAAAA), (1, 0xBBBBBBBBBBBBBBBB), (2, base)]

theorem test_i10_stp64 :
    got (run 0xA9000440 (machine (cfgA .wb) (pairRegs 0x1000) []) [1, 0])
      (fun t => (memValue 16 0x1000 t, t.mem.read 0x1010)) =
      some (some 0xBBBBBBBBBBBBBBBBAAAAAAAAAAAAAAAA, none) := by decide

theorem test_i11_stp64_pre :
    got (run 0xA9BF0440 (machine (cfgB .wb) (pairRegs 0x1010) [])) (fun t => (memValue 16 0x1000 t, t.pe.readX 2)) =
      some (some 0xBBBBBBBBBBBBBBBBAAAAAAAAAAAAAAAA, 0x1000) := by decide

theorem test_stp64_post :
    got (run 0xA8810440 (machine (cfgB .wb) (pairRegs 0x1000) [])) (fun t => (memValue 16 0x1000 t, t.pe.readX 2)) =
      some (some 0xBBBBBBBBBBBBBBBBAAAAAAAAAAAAAAAA, 0x1010) := by decide

theorem test_i12_stp32 :
    got (run 0x29000440 (machine (cfgB .wb) [(0, 0x9911111111), (1, 0x22222222), (2, 0x1000)] []))
      (fun t => (memValue 8 0x1000 t, t.mem.read 0x1008)) = some (some 0x2222222211111111, none) := by decide

theorem test_stp32_writeback :
    got (run 0x28810440 (machine (cfgB .wb) (pairRegs 0x1000) [])) (fun t => (memValue 8 0x1000 t, t.pe.readX 2)) =
        some (some 0xBBBBBBBBAAAAAAAA, 0x1008) ∧
      got (run 0x29810440 (machine (cfgB .wb) (pairRegs 0x1000) [])) (fun t => (memValue 8 0x1008 t, t.pe.readX 2)) =
        some (some 0xBBBBBBBBAAAAAAAA, 0x1008) := by decide

/-- I13: two units even under `cfgB`. -/
theorem test_i13_stnp64 :
    got (run 0xA8000440 (machine (cfgB .wb) (pairRegs 0x1000) [])) (memValue 16 0x1000) = some none ∧
      got (run 0xA8000440 (machine (cfgB .wb) (pairRegs 0x1000) []) [0, 0]) (memValue 16 0x1000) =
        some (some 0xBBBBBBBBBBBBBBBBAAAAAAAAAAAAAAAA) := by decide

theorem test_stnp32 :
    got (run 0x28010440 (machine (cfgB .wb) (pairRegs 0x1000) []) [0, 0]) (memValue 8 0x1008) =
      some (some 0xBBBBBBBBAAAAAAAA) := by decide

/-- I14 with the single unit of S56. -/
theorem test_i14_ldp_q :
    got (run 0xAD400440 (machine { cfgB .wb with featLs64wb := true } [(2, 0x1000)] (counting 0 32)))
      (fun t => (t.pe.readV 0, t.pe.readV 1)) =
      some (0x0F0E0D0C0B0A09080706050403020100, 0x1F1E1D1C1B1A19181716151413121110) := by decide

theorem test_i15_ldp_d :
    got (run 0x6D400440 (machine { cfgB .wb with fpPairPerRegisterSca := true } [(2, 0x1000)] (counting 0 16)) [0, 0])
      (fun t => (t.pe.readV 0, t.pe.readV 1)) = some (0x0706050403020100, 0x0F0E0D0C0B0A0908) := by decide

theorem test_ldp_s :
    got (run 0x2D400440 (machine { cfgB .wb with fpPairPerRegisterSca := true } [(2, 0x1000)] (counting 0 16)) [0, 0])
      (fun t => (t.pe.readV 0, t.pe.readV 1)) = some (0x03020100, 0x07060504) := by decide

/-- A machine whose SIMD and floating-point registers 0 and 1 hold a value. -/
def fpMachine (cfg : Config) : State :=
  let s := machine cfg [(2, 0x1000)] []
  s.setPe ((s.pe.writeV 0 0x0F0E0D0C0B0A09080706050403020100).writeV 1 0x1F1E1D1C1B1A19181716151413121110)

theorem test_i16_stp_q :
    got (run 0xAD000440 (fpMachine { cfgB .wb with featLs64wb := true })) (memValue 32 0x1000) =
      some (some 0x1F1E1D1C1B1A191817161514131211100F0E0D0C0B0A09080706050403020100) := by decide

theorem test_stp_d_and_s :
    got (run 0x6D000440 (fpMachine { cfgB .wb with fpPairPerRegisterSca := true }) [0, 0]) (memValue 16 0x1000) =
        some (some 0x17161514131211100706050403020100) ∧
      got (run 0x2D000440 (fpMachine { cfgB .wb with fpPairPerRegisterSca := true }) [0, 0]) (memValue 8 0x1000) =
        some (some 0x1312111003020100) := by decide

/-- A configuration whose LDXP of 64-bit registers is two units (S44). -/
def cfgX : Config := { cfgA .wb with ldxp64PerRegisterSca := true }

theorem test_i17_ldxp64 :
    got (run 0xC87F0440 (machine cfgX [(2, 0x1000)] (counting 1 16)) [0, 0])
      (fun t => (t.pe.readX 0, t.pe.readX 1, t.pe.excl.map fun e => (e.addr, e.size, e.reads.length))) =
      some (0x0807060504030201, 0x100F0E0D0C0B0A09, some (0x1000, 16, 16)) := by decide

theorem test_i18_ldxp32 :
    got (run 0x887F0440 (machine (cfgA .wb) [(2, 0x1000)] (counting 1 16)))
      (fun t => (t.pe.readX 0, t.pe.readX 1, t.pe.excl.map fun e => (e.addr, e.size, e.reads.length))) =
      some (0x04030201, 0x08070605, some (0x1000, 8, 8)) := by decide

/-- A machine after a load-exclusive of `n` bytes at 0x1000, with registers 0 and 1 to store and the choice `d`. -/
def afterLoadExclusive (n d : Nat) : State :=
  let s := machine (cfgA .wb) (pairRegs 0x1000) (counting 1 16)
  { s.setPe { s.pe with
      excl := some { addr := 0x1000, size := n, reads := (List.range n).map fun i =>
        { addr := 0x1000 + i, value := BitVec.ofNat 8 (1 + i), source := .initial } } } with
    pending := [d] }

theorem test_i19_stxp64_succeeds :
    got (run 0xC8230440 (afterLoadExclusive 16 1)) (fun t => (memValue 16 0x1000 t, t.pe.readX 3, t.pe.excl)) =
      some (some 0xBBBBBBBBBBBBBBBBAAAAAAAAAAAAAAAA, 0, none) := by decide

theorem test_i20_stxp64_fails :
    got (run 0xC8230440 (afterLoadExclusive 16 0)) (fun t => (memValue 16 0x1000 t, t.pe.readX 3, t.pe.excl)) =
        some (some 0x100F0E0D0C0B0A090807060504030201, 1, none) ∧
      got (run 0xC8230440 (machine (cfgA .wb) (pairRegs 0x1000) (counting 1 16)))
        (fun t => (memValue 16 0x1000 t, t.pe.readX 3)) = some (some 0x100F0E0D0C0B0A090807060504030201, 1) := by decide

theorem test_i21_stxp32_succeeds :
    got (run 0x88230440 (afterLoadExclusive 8 1))
      (fun t => (memValue 8 0x1000 t, t.pe.readX 3, (t.history.map (·.unit)).dedup.length)) =
      some (some 0xBBBBBBBBAAAAAAAA, 0, 1) := by decide

theorem test_i22_ldaxp :
    got (run 0xC87F8440 (machine cfgX [(2, 0x1000)] (counting 1 16)) [0, 0]) (fun t => (t.pe.readX 0, t.pe.readX 1)) =
        some (0x0807060504030201, 0x100F0E0D0C0B0A09) ∧
      got (run 0x887F8440 (machine (cfgA .wb) [(2, 0x1000)] (counting 1 16))) (fun t => (t.pe.readX 0, t.pe.readX 1)) =
        some (0x04030201, 0x08070605) := by decide

theorem test_i23_stlxp :
    got (run 0xC8238440 (afterLoadExclusive 16 1)) (fun t => (memValue 16 0x1000 t, t.pe.readX 3)) =
        some (some 0xBBBBBBBBBBBBBBBBAAAAAAAAAAAAAAAA, 0) ∧
      got (run 0x88238440 (afterLoadExclusive 8 1)) (fun t => (memValue 8 0x1000 t, t.pe.readX 3)) =
        some (some 0xBBBBBBBBAAAAAAAA, 0) := by decide

theorem test_i24_i25_ldapr :
    got (run 0xF8BFC001 (machine (cfgB .wb) [(0, 0x1004)] (counting 0 16))) (·.pe.readX 1) =
        some 0x0B0A090807060504 ∧
      got (run 0xB8BFC001 (machine (cfgB .wb) [(0, 0x1004)] (counting 0 16))) (·.pe.readX 1) = some 0x07060504 := by
  decide

theorem test_i26_ldaprh_refused :
    ending (run 0x78BFC001 (machine (cfgB .wb) [(0, 0x100F)] (counting 0 17))) = some (.refuse (.misaligned 0x100F)) := by
  decide

theorem test_ldaprh_and_i27_ldaprb :
    got (run 0x78BFC001 (machine (cfgB .wb) [(0, 0x1002)] (counting 0 16))) (·.pe.readX 1) = some 0x0302 ∧
      got (run 0x38BFC001 (machine (cfgB .wb) [(0, 0x100F)] (counting 0 16))) (·.pe.readX 1) = some 0x0F := by decide

/-- I28 under the policy that executes: eight registers (R126). -/
theorem test_i28_ld64b :
    got (run 0xF83FD002 (machine (executing Config.reset) [(0, 0x1000)] (counting 0 64))) (fun t => (t.pe.readX 2, t.pe.readX 9)) =
      some (0x0706050403020100, 0x3F3E3D3C3B3A3938) := by decide

/-- I28 under the policy of R98. -/
theorem test_i28_ld64b_refused :
    ending (run 0xF83FD002 (machine Config.reset [(0, 0x1000)] (counting 0 64))) =
      some (.refuse (.lowConfidence "LD64B")) := by decide

theorem test_i29_st64b :
    got (run 0xF83F9002 (machine (executing Config.reset) [(0, 0x1000), (2, 0x0706050403020100), (9, 0x3F00000000000000)] []))
      (fun t => [0x1000, 0x1007, 0x1008, 0x103F, 0x1040].map t.mem.read) =
      some [some 0, some 7, some 0, some 0x3F, none] := by decide

/-- I30: the status is the choice that was pending. -/
theorem test_i30_st64bv :
    got (run 0xF821B002 { machine (executing Config.reset) [(0, 0x1000), (2, 0x0706050403020100)] [] with pending := [77] })
      (fun t => (memValue 8 0x1000 t, t.pe.readX 1)) = some (some 0x0706050403020100, 77) := by decide

/-- I31: the low 32 bits come from the system register (R129). -/
theorem test_i31_st64bv0 :
    got (run 0xF821A002 (let s := machine (executing Config.reset) [(0, 0x1000), (2, 0x0706050403020100)] []
                         { s.setPe { s.pe with accData := 0xA1B2C3D4 } with pending := [77] }))
      (fun t => (memValue 8 0x1000 t, t.pe.readX 1)) = some (some 0x07060504A1B2C3D4, 77) := by decide

theorem test_i32_b : got (run 0x14000010 (machine (cfgA .wb) [] [])) (·.pe.pc) = some 0x4040 := by decide

theorem test_i33_bl :
    got (run 0x94000002 (machine (cfgA .wb) [] [])) (fun t => (t.pe.pc, t.pe.readX 30)) = some (0x4008, 0x4004) := by
  decide

/-- A machine with the given flags. -/
def flagMachine (n z c v : Bool) : State :=
  let s := machine (cfgA .wb) [] []
  s.setPe { s.pe with flags := { n := n, z := z, c := c, v := v } }

theorem test_i34_i35_b_eq :
    got (run 0x54000040 (flagMachine false true false false)) (·.pe.pc) = some 0x4008 ∧
      got (run 0x54000040 (flagMachine false false false false)) (·.pe.pc) = some 0x4004 := by decide

/-- The table of R15: the conditions that hold with N = 1, Z = 0, C = 1, V = 0, from 0000 up. -/
theorem test_conditions :
    (List.range 16).map (fun c => condHolds { n := true, z := false, c := true, v := false } (BitVec.ofNat 4 c)) =
      [false, true, true, false, true, false, false, true, true, false, false, true, false, true, true, true] := by
  decide

/-- I37 to I40. -/
theorem test_cbz_cbnz :
    got (run 0x34000043 (machine (cfgA .wb) [(3, 0xFFFFFFFF00000000)] [])) (·.pe.pc) = some 0x4008 ∧
      got (run 0xB4000043 (machine (cfgA .wb) [(3, 0xFFFFFFFF00000000)] [])) (·.pe.pc) = some 0x4004 ∧
      got (run 0x35FFFFC3 (machine (cfgA .wb) [(3, 1)] [])) (·.pe.pc) = some 0x3FF8 ∧
      got (run 0x35FFFFC3 (machine (cfgA .wb) [(3, 0)] [])) (·.pe.pc) = some 0x4004 := by decide

/-- I41 and I42. -/
theorem test_tbz_tbnz :
    got (run 0x36000040 (machine (cfgA .wb) [(0, 2)] [])) (·.pe.pc) = some 0x4008 ∧
      got (run 0xB7F80040 (machine (cfgA .wb) [(0, 0x8000000000000000)] [])) (·.pe.pc) = some 0x4008 := by decide

/-- R148: `CBGT` compares signed, `CBHI` unsigned, and the 32-bit form sees the low words. -/
theorem test_cb_register :
    got (run 0xF4030045 (machine (executing (cfgA .wb)) [(5, 0xFFFFFFFFFFFFFFFF), (3, 1)] [])) (·.pe.pc) = some 0x4004 ∧
      got (run 0xF4430045 (machine (executing (cfgA .wb)) [(5, 0xFFFFFFFFFFFFFFFF), (3, 1)] [])) (·.pe.pc) = some 0x4008 ∧
      got (run 0x74C30045 (machine (executing (cfgA .wb)) [(5, 0x500000001), (3, 1)] [])) (·.pe.pc) = some 0x4008 := by decide

/-- R149: `CBLT` and `CBLO` against an immediate. -/
theorem test_cb_immediate :
    got (run 0x75220045 (machine (executing (cfgA .wb)) [(5, 0xFFFFFFFF)] [])) (·.pe.pc) = some 0x4008 ∧
      got (run 0x75620045 (machine (executing (cfgA .wb)) [(5, 0xFFFFFFFF)] [])) (·.pe.pc) = some 0x4004 := by decide

/-- R150, R151: only the low byte, only the low halfword. -/
theorem test_cbb_cbh :
    got (run 0x74C38045 (machine (executing (cfgA .wb)) [(5, 0x101), (3, 0x201)] [])) (·.pe.pc) = some 0x4008 ∧
      got (run 0x74C3C045 (machine (executing (cfgA .wb)) [(5, 0x101), (3, 0x201)] [])) (·.pe.pc) = some 0x4004 := by decide

/-- I44 to I47. -/
theorem test_exception_generating :
    [0xD4200020, 0xD4000001, 0xD4000002, 0xD4000003].map
        (fun w => got (run w (machine (cfgA .wb) [] [])) fun t => (t.pe.run, t.pe.pc)) =
      [some (.ended (.breakpointInstruction 1), 0x4000), some (.ended (.supervisorCall 0), 0x4000),
        some (.ended (.hypervisorCall 0), 0x4000), some (.ended (.secureMonitorCall 0), 0x4000)] := by decide

theorem test_i48_nop : got (run 0xD503201F (machine (cfgA .wb) [] [])) (·.pe.pc) = some 0x4004 := by decide

theorem test_i49_trcit :
    got (run 0xD50B72E0 (machine (executing (cfgA .wb)) [(0, 9)] [])) (fun t => (t.pe.pc, t.pe.trace)) = some (0x4004, [9]) := by
  decide

/-- A machine in which PE 0 wrote the word at 0x6000, now in the given stage. -/
def staged (addr : Word64) (stage : SyncStage) (writer : Agent) : State :=
  { machine (cfgA .wb) [(0, addr)] [] with sync := [(0x6000, { stage := stage, writer := writer })] }

/-- I50 to I53. -/
theorem test_cache_maintenance :
    got (run 0xD50B7B20 (staged 0x6002 .written (.pe 0))) (·.syncOf 0x6000) = some .cleaned ∧
      got (run 0xD50B7B20 (staged 0x6002 .written (.pe 1))) (·.syncOf 0x6000) = some .written ∧
      got (run 0xD50B7520 (staged 0x6000 .cleanDone (.pe 0))) (·.syncOf 0x6000) = some .invalidated ∧
      got (run 0xD50B7520 (staged 0x6000 .cleaned (.pe 0))) (·.syncOf 0x6000) = some .cleaned := by decide

/-- I54, with the last of its four words in Non-cacheable memory. -/
theorem test_i54_dsb_ish :
    got (run 0xD5033B9F
        { machine { cfgA .wb with
            regions := { base := 0x600C, size := 4, attr := attrNc, atomicSupported := false
                         atomicFpSupported := false } :: (cfgA .wb).regions } [] [] with
          sync := [(0x6000, ⟨.cleaned, .pe 0⟩), (0x6004, ⟨.invalidated, .pe 0⟩), (0x6008, ⟨.written, .pe 0⟩),
            (0x600C, ⟨.written, .pe 0⟩), (0x6010, ⟨.cleaned, .pe 1⟩)] })
      (fun t => [0x6000, 0x6004, 0x6008, 0x600C, 0x6010].map t.syncOf) =
      some [.cleanDone, .observable, .written, .cleanDone, .cleaned] := by decide

/-- I55. -/
theorem test_i55_isb :
    got (run 0xD5033FDF
        (let s := machine (cfgA .wb) [] [(0x6000, leBytes 4 0x14000002)]
         { s.setPe { s.pe with
             cand := [(0x6000, [some 0xD503201F, some 0x14000002]), (0x6004, [some 0xD503201F, some 0xD4200000])] } with
           sync := [(0x6000, ⟨.observable, .pe 1⟩), (0x6004, ⟨.invalidated, .pe 1⟩)] }))
      (fun t => [0x6000, 0x6004].map (t.pe.candidates t.mem)) =
      some [[some 0x14000002], [some 0xD503201F, some 0xD4200000]] := by decide

/-- I56 with a block of 4 bytes. -/
theorem test_i56_dc_zva :
    got (run 0xD50B7420 (machine { cfgA .wb with zvaBlockBytes := 4 } [(0, 0x1006)] (counting 1 9)) [3, 0, 1, 0])
      (fun t => ([0x1003, 0x1004, 0x1005, 0x1006, 0x1007, 0x1008].map t.mem.read, t.pe.pc)) =
      some ([some 4, some 0, some 0, some 0, some 0, some 9], 0x4004) := by decide

theorem test_i57_i58_ldadd32 :
    got (run 0xB8210002 (machine (cfgB .wb) [(0, 0x3000), (1, 1)] [(0x3000, [5, 0, 0, 0])]) [0, 0])
        (fun t => (memValue 4 0x3000 t, t.pe.readX 2)) = some (some 6, 5) ∧
      got (run 0xB8210002 (machine (cfgB .wb) [(0, 0x3000), (1, 1)] [(0x3000, [255, 255, 255, 255, 1])]) [0, 0])
        (fun t => (memValue 5 0x3000 t, t.pe.readX 2)) = some (some 0x100000000, 0xFFFFFFFF) := by decide

theorem test_i59_ldadd64 :
    got (run 0xF8210002 (machine (cfgB .wb) [(0, 0x3000), (1, 2)] [(0x3000, leBytes 8 0xFFFFFFFF)]) [0, 0])
      (fun t => (memValue 8 0x3000 t, t.pe.readX 2)) = some (some 0x100000001, 0xFFFFFFFF) := by decide

theorem test_i60_swp :
    got (run 0xB8218002 (machine (cfgB .wb) [(0, 0x3000), (1, 0xFFFFFFFF)] [(0x3000, [6, 0, 0, 0])]) [0, 0])
        (fun t => (memValue 4 0x3000 t, t.pe.readX 2)) = some (some 0xFFFFFFFF, 6) ∧
      got (run 0xF8218002 (machine (cfgB .wb) [(0, 0x3000), (1, 0x77)] [(0x3000, leBytes 8 0x1122334455667788)]) [0, 0])
        (fun t => (memValue 8 0x3000 t, t.pe.readX 2)) = some (some 0x77, 0x1122334455667788) := by decide

theorem test_i61_i62_cas32 :
    got (run 0x88A17C02 (machine (cfgB .wb) [(0, 0x3000), (1, 6), (2, 9)] [(0x3000, [6, 0, 0, 0])]) [0, 0])
        (fun t => (memValue 4 0x3000 t, t.pe.readX 1)) = some (some 9, 6) ∧
      got (run 0x88A17C02 (machine (cfgB .wb) [(0, 0x3000), (1, 6), (2, 9)] [(0x3000, [7, 0, 0, 0])]) [0, 0])
        (fun t => (memValue 4 0x3000 t, t.pe.readX 1, t.history.all (·.kind != .write))) = some (some 7, 7, true) := by
  decide

theorem test_i63_cas64 :
    got (run 0xC8A17C02 (machine (cfgB .wb) [(0, 0x3000), (2, 0x0123456789ABCDEF)] [(0x3000, leBytes 8 0)]) [0, 0])
      (fun t => (memValue 8 0x3000 t, t.pe.readX 1)) = some (some 0x0123456789ABCDEF, 0) := by decide

/-! ### Part 6 of 95_test_vectors.md: unsupported atomic instructions and fault routing -/

/-- I57 where 0x3000 is not supported; the choice `d` names the effect. -/
def unsupported (cfg : Config) (d : List Nat) : State :=
  { machine cfg [(0, 0x3000), (1, 1), (2, 0xDEAD)] [(0x3000, [5, 0, 0, 0])] with pending := d }

/-- A1, A2, A4, A5. -/
theorem test_unsupported_effects :
    [0, 1, 3, 4].map (fun d => got (run 0xB8210002 (unsupported (cfgB attrNc) [d])) fun t =>
        (memValue 4 0x3000 t, t.pe.readX 2, t.pe.pc, t.pe.run)) =
      [some (some 5, 0xDEAD, 0x4000, .ended (.synchronousExternalAbort 0x3000)),
        some (some 5, 0xDEAD, 0x4000, .ended (.sError 0x3000)), some (some 5, 0xDEAD, 0x4004, .running),
        some (some 5, 0xDEAD, 0x4000, .ended (.sError 0x3000))] := by decide

/-- A6 and A7, each byte a unit: the old value, the new memory, and the interrupt after the instruction. -/
theorem test_unsupported_non_atomic :
    [5, 6].map (fun d => got (run 0xB8210002 (unsupported (cfgB attrNc) [d]) [0, 0, 0, 0, 0, 0, 0, 0]) fun t =>
        (memValue 4 0x3000 t, t.pe.readX 2, t.pe.pc, t.pe.run)) =
      [some (some 6, 5, 0x4004, .running), some (some 6, 5, 0x4004, .ended (.sError 0x3000))] := by decide

/-- A3 with F1 to F4: the outcome and the code in the register of the level it is taken to. -/
theorem test_unsupported_mmu_fault :
    [(EL.el0, false, 0), (.el1, true, 0), (.el1, true, 1), (.el2, true, 0), (.el3, false, 0)].map (fun e =>
        got (run 0xB8210002
            (unsupported { cfgB attrNc with el := e.1, stage2Enabled := e.2.1 }
              (if e.2.1 && e.1 != .el2 then [2, e.2.2] else [2]))) fun t =>
          (t.pe.run, [EL.el1, .el2, .el3].map fun l => (dfscOf (t.pe.esr l)).toNat)) =
      [some (.ended (.dataAbort 53 0x3000 .first .el1), [53, 0, 0]),
        some (.ended (.dataAbort 53 0x3000 .first .el1), [53, 0, 0]),
        some (.ended (.dataAbort 53 0x3000 .second .el2), [0, 53, 0]),
        some (.ended (.dataAbort 53 0x3000 .first .el2), [0, 53, 0]),
        some (.ended (.dataAbort 53 0x3000 .first .el3), [0, 0, 53])] := by decide

/-! ### Fetch and the order of effects (parts 3 and 7 of 95_test_vectors.md) -/

/-- PE 0 after another PE replaced the word at 0x4000 without synchronization, with the choice `d`. -/
def patched (old new : Word32) (d : Nat) : State :=
  let s := machine (cfgA .wb) [] [(0x4000, leBytes 4 new.toNat)]
  { s.setPe { s.pe with cand := [(0x4000, [some old, some new])] } with pending := [d], turn := some (.run 0 0) }

/-- P4: both words are in the list of R73, so either is executed. -/
theorem test_p4_either_word :
    got (step (patched 0xD503201F 0x14000002 0)) (·.pe.pc) = some 0x4004 ∧
      got (step (patched 0xD503201F 0x14000002 1)) (·.pe.pc) = some 0x4008 := by decide

/-- P4a and P4b: one of the words is not. -/
theorem test_p4_unpredictable :
    ending (step (patched 0xD503201F 0xD65F03C0 0)) = some (.cmodxUnpredictable 0x4000) ∧
      ending (step (patched 0xF9400062 0xD503201F 0)) = some (.cmodxUnpredictable 0x4000) := by decide

/-- L8: an interrupted pair store goes back to its start; the unit it performed stays. -/
theorem test_l8_interrupted :
    got (andThen (run 0xA9000440 (machine (cfgA .wb) (pairRegs 0x1000) []) [1])
        fun t => step { t with turn := some (.interrupt 0) })
      (fun t => (memValue 8 0x1008 t, t.mem.read 0x1000, t.pe.phase, t.pe.pc)) =
      some (some 0xBBBBBBBBBBBBBBBB, none, .restart (.stpOff64 0 1 2 0), 0x4000) := by decide

/-- L3: a read of one unit does not mix two writes; the drawn mixture is replaced by the latest. -/
theorem test_l3_no_mixture :
    got (run 0xB9400002
        { machine (cfgA .wb) [(0, 0x1000)] [(0x1000, [1, 1, 1, 1])] with
          coh := (List.range 4).map fun i => (0x1000 + i, ⟨some 0, [⟨0, 1, none⟩]⟩)
          nextUnit := 1
          pending := [1, 0, 0, 0] })
      (·.pe.readX 2) = some 0x01010101 := by decide

/-- A byte nothing has written has no value (R24). -/
theorem test_unwritten_read :
    ending (run 0xF9400002 (machine (cfgA .wb) [(0, 0x1000)] [])) = some (.unwrittenRead 0x1000) := by decide

/-- R200, R208: the run of PE 1 ends at a word of no row, and PE 0 runs on. -/
theorem test_other_pes_run_on :
    got (step { machine (cfgA .wb) [] [(0x5000, leBytes 4 0xD65F03C0)] with turn := some (.run 1 0) })
      (fun t => t.pes.map (·.run)) =
      some [.running, .ended (.refuse (.noRow 0x5000 0xD65F03C0))] := by decide

/-- PE 0 inside the `LDADD` of P5 after its read unit, which read the initial value of a byte whose next write is another
atomic instruction's: it must come right after the initial value too. -/
def ldaddOvertaken : InFlight :=
  { instr := .ldadd32 1 0 2, addr := 0x1000, size := 1, reads := [], got := [⟨0x1000, 0, .initial⟩], rmw := none
    writes := [⟨0x1000, 1⟩], data := [1], interruptible := false, adjacent := true, done := .atomic 2 false }

/-- The state of P5 case 1 in which the other PE has written first. -/
def overtaken : State :=
  { (machine (cfgB .wb) [] (counting 1 1)).inside ldaddOvertaken with
    coh := [(0x1000, ⟨some 0, [⟨0, 1, some .initial⟩]⟩)]
    nextUnit := 1 }

/-- P5 case 1: two writes cannot both be the immediate successor of the initial value, so the second has no step. -/
theorem test_p5_never_both :
    got (step { overtaken with turn := some (.run 0 0) }) id = some overtaken := by decide

/-- R119: a Store-Exclusive pair that fails makes no access, also where no memory exists. -/
theorem test_stxp_fails_outside_memmap :
    got (run 0xC8230440
        (machine { cfgA .wb with regions := [{ base := 0x4000, size := 4, attr := .wb, atomicSupported := false
                                               atomicFpSupported := false }] } (pairRegs 0x1000) []))
      (fun t => (t.pe.readX 3, t.pe.run)) = some (1, .running) := by decide

/-- Part 2, S70: the elements whose predicate bit is true, here the first and the third of 8 bytes. -/
def predicated : PE :=
  { PE.start (cfgB .wb) 0 with
    p := Vector.replicate 16 (List.replicate 8 true ++ List.replicate 8 false ++ [true]) }

theorem test_sve_accesses :
    got (sveUnits { cfgB .wb with featSve := true } (predicated.svePredAccess 3 .read 8 [0x1000, 0x1008, 0x1010]))
        id = some (.inr [⟨0x1000, 8⟩, ⟨0x1010, 8⟩]) ∧
      got (sveUnits { cfgB .wb with featSve := true } (sveUnpredAccess (cfgB .wb) .predicate .write 0x1000))
        id = some (.inr [⟨0x1000, 1⟩, ⟨0x1001, 1⟩]) ∧
      refusal (sveUnits (cfgB .wb) (sveUnpredAccess (cfgB .wb) .vector .read 0x1000)) = some (.featureAbsent .sve) := by
  decide
/-! ### Witnesses: for every statement with hypotheses, a concrete state and operands that meet all of them -/

/-- A machine of `cfgB` on `WB` memory: registers 0 to 6 and the bytes 0x1000 to 0x103F hold values. -/
def sample (cfg : Config) : State :=
  machine cfg [(0, 0x1000), (1, 0x1122334455667788), (2, 0x1000), (3, 0x5000), (4, 4), (5, 5), (6, 0x1004)] (counting 0 64)

theorem test_witness_DecodeInvertsEncode :
    (Instr.cbReg 1 6 3 2 5).wellFormed = true ∧ (Instr.stpPre64 126 1 2 31).wellFormed = true := by decide

theorem test_witness_DecoderIsTheTable :
    decodeWord 0xC8A17C02 = some (.cas64 1 0 2) ∧ ∃ r ∈ rows, r.accepts 0xC8A17C02 = true := by decide

theorem test_witness_CmodxSafeDecoderPoints :
    ((Instr.cbReg 1 6 3 2 5).wellFormed = true ∧ decodeWord 0xD65F03C0 = none) ∧
      (bitsAt 0x54000050 24 8 = 0b01010100 ∧ bitsAt 0x54000050 4 1 = 1) ∧
      (bitsAt 0xD503203F 12 20 = 0b11010101000000110010 ∧ (0xD503203F : Word32) ≠ 0xD503201F) ∧
      (bitsAt 0x74800000 25 6 = 0b111010 ∧ bitsAt 0x74800000 21 3 = 0b100) ∧
      (bitsAt 0xF5A00000 25 6 = 0b111010 ∧ bitsAt 0xF5A00000 21 3 = 0b101) ∧
      bitsAt 0x74004000 24 7 = 0b1110100 ∧ bitsAt 0x74004000 14 2 = 0b01 := by decide

theorem test_witness_StartOfRun : 0 < Config.reset.nPE ∧ 1 < Config.reset.nPE := by decide

/-- `NOP` at the `pc` of PE 1, whose turn it is. -/
def nopState : State :=
  { machine (cfgA .wb) [] [(0x5000, leBytes 4 0xD503201F)] with turn := some (.run 1 0) }

theorem test_witness_StepRunsDecodedInstruction :
    nopState.turn = some (.run 1 0) ∧ ∃ pe, nopState.pes[1]? = some pe ∧ pe.run = .running ∧ pe.phase = .atStart ∧
      pe.pc.toNat % 4 = 0 ∧ nopState.Accessible pe.pc.toNat 4 ∧ assocFind pe.cand pe.pc.toNat = none ∧
      nopState.mem.read pe.pc.toNat = some 0x1F ∧ nopState.mem.read (pe.pc.toNat + 1) = some 0x20 ∧
      nopState.mem.read (pe.pc.toNat + 2) = some 0x03 ∧ nopState.mem.read (pe.pc.toNat + 3) = some 0xD5 ∧
      decode [0x1F, 0x20, 0x03, 0xD5] = .instr .nop [] :=
  ⟨rfl, PE.start (cfgA .wb) 1, by unfold State.Accessible; decide⟩

/-- `sample` inside an instruction. -/
def insideOf (s : State) (fl : InFlight) (m : Option Move) : State := { s.inside fl with turn := m }

/-- The two units of an `LDP` that has begun. -/
def ldpBegun : InFlight :=
  (pairAccess .ldp .read 0x1000 8).loadBegun (.ldpOff64 0 5 2 4) [⟨0x1000, 8⟩, ⟨0x1008, 8⟩] (.loadPair 4 5 8 none)

/-- The two units of an `STP` that has begun. -/
def stpBegun : InFlight :=
  (pairAccess .stp .write 0x1000 8).storeBegun (.stpOff64 0 5 2 4) [⟨0x1000, 8⟩, ⟨0x1008, 8⟩]
    (List.replicate 16 7) (.store none)

theorem test_witness_StepInsideInstruction :
    (∃ pe, (insideOf (sample (cfgA .wb)) ldpBegun (some (.interrupt 0))).pes[0]? = some pe ∧ pe.run = .running ∧
        pe.phase = .inside ldpBegun ∧ ldpBegun.interruptible = true) ∧
      ∃ pe, ((sample (cfgA .wb)).returnToInterrupted .nop).pes[0]? = some pe ∧ pe.run = .running ∧
        pe.phase = .restart .nop := by
  refine ⟨⟨_, rfl, ?_⟩, _, rfl, ?_⟩ <;> decide

theorem test_witness_PlacedWordIsRun :
    (Instr.ldrImm64 0 0 2).wellFormed = true ∧ (sample (cfgA .wb)).curOk = true ∧
      (sample (cfgA .wb)).pe.pc.toNat % 4 = 0 ∧
      (sample (cfgA .wb)).Accessible (sample (cfgA .wb)).pe.pc.toNat 4 := by
  unfold State.Accessible; decide

/-- A machine whose PE 0 has ended, and whose next move is the given one. -/
def endedState (m : Move) : State := { (sample (cfgA .wb)).endRun (.supervisorCall 3) with turn := some m }

/-- A step of PE 0 that a fault stops (no word at its `pc`), and one that a refusal stops (a word of no row). -/
theorem test_witness_RunsEndOneByOne_stops :
    fault (State.runCurrent (sample (cfgA .wb)) 0) = some (.unwrittenRead 0x4000) ∧
      refusal (State.runCurrent ((sample (cfgA .wb)).withFetchWord 32 0xD65F03C0) 0) =
        some (.noRow 0x4000 0xD65F03C0) ∧
      (sample (cfgA .wb)).pe.run = .running := by decide

/-- A PE that has ended and is to step or to be interrupted, and the one fault of a step. -/
theorem test_witness_RunsEndOneByOne :
    (∀ m ∈ [Move.run 0 0, .interrupt 0], (endedState m).turn = some m ∧
        ((endedState m).pes[0]?).map (·.run) = some (.ended (.supervisorCall 3))) ∧
      fault (step { sample { cfgA .wb with externalObservers := [7] } with turn := some (.observerRead 7 0x2000) }) =
        some (.unwrittenRead 0x2000) := by decide

/-- A state that nobody has written or read in yet is coherent if its memory is in canonical form. -/
theorem coherent_of_no_effects (s : State) (hm : s.mem.wf = true) (hc : s.coh = []) (hh : s.history = []) :
    s.Coherent := by
  have ho : ∀ b, s.orderAt b = { init := s.mem.read b, writes := [] } := fun b => by simp [State.orderAt, hc]
  constructor
  · exact hm
  · rw [hc]; rfl
  · refine ⟨fun b => ?_, fun b w hw => ?_, fun e he => ?_⟩
    · simp [ho]
    · simp [ho] at hw
    · simp [hh] at he
  · intro b
    rw [ho]; rfl
  · intro e he
    simp [hh] at he
  · intro u₁ u₂ b b' h
    obtain ⟨k₂, k₁, h2, _⟩ := h
    simp [ho, ByteOrder.placeOf] at h2
  · intro e he
    simp [hh] at he
  · intro b k w src hw
    simp [ho] at hw

/-- Every state of the tests at the start of a run has one candidate for every word. -/
theorem current_of_no_candidates (s : State) (h : ∀ p ∈ s.pes, p.cand = []) : s.CandidatesCurrent := by
  intro p hp a _
  simp [PE.candidates, h p hp]

/-- One step of a coherent machine that stores. -/
def storeState : State := (sample (cfgA .wb)).withFetchWord 32 0xF9000001

theorem test_witness_step_keeps_invariants :
    storeState.Coherent ∧ storeState.PcsAligned ∧ storeState.CandidatesCurrent ∧
      got (step storeState) (fun t => (t.history.length, memValue 8 0x1000 t)) = some (8, some 0x1122334455667788) := by
  refine ⟨coherent_of_no_effects _ (by decide) rfl rfl, ?_, current_of_no_candidates _ (by decide), by decide⟩
  unfold State.PcsAligned; decide

/-- For the statements about the PEs a step is not one of: PE 0 stores, PE 1 stays. -/
theorem test_witness_StepLeavesOtherPesAlone :
    storeState.turn = some (.run 0 0) ∧ got (step storeState) (fun _ => true) = some true ∧
      actorOf (.run 0 0) ≠ some 1 ∧ ∃ a, storeState.pes[1]? = some a :=
  ⟨rfl, by decide, by decide, _, rfl⟩

/-- PE 0 has ended and PE 1 takes a step. -/
theorem test_witness_EndedPeStaysEnded :
    got (step { nopState.endRun (.supervisorCall 3) with turn := some (.run 1 0) }) (fun _ => true) = some true ∧
      ∃ a, (nopState.endRun (.supervisorCall 3)).pes[0]? = some a ∧ a.run ≠ .running :=
  ⟨by decide, _, rfl, by decide⟩

/-- A machine with one external observer. -/
def observed (m : Move) : State := { sample { cfgA .wb with externalObservers := [7] } with turn := some m }

/-- An observer that is not listed, a byte that does not exist, a readable byte, and the writes of a new value and of the
value that memory holds. -/
theorem test_witness_ObserversAreConfined :
    ((cfgA .wb).externalObservers.contains 8 = false ∧ inMemMap (cfgA .wb) addrSpace = false) ∧
      ((observed (.observerRead 7 0x1000)).cfg.externalObservers.contains 7 = true ∧
        inMemMap (observed (.observerRead 7 0x1000)).cfg 0x1000 = true ∧
        (observed (.observerRead 7 0x1000)).Readable 0x1000 1 ∧
        (observed (.observerRead 7 0x1000)).turn = some (.observerRead 7 0x1000)) ∧
      (observed (.observerWrite 7 0x1003 5)).turn = some (.observerWrite 7 0x1003 5) ∧
      (observed (.observerWrite 7 0x1003 5)).mem.read 0x1003 ≠ some 5 ∧
      (observed (.observerWrite 7 0x1003 3)).mem.read 0x1003 = some 3 := by
  unfold State.Readable; decide

theorem test_witness_FetchReturnsOneCandidate :
    ∀ f ∈ [(patched 0xD503201F 0x14000002 1, [0xD503201F, 0x14000002], true),
        (patched 0xF9400062 0xD503201F 0, [0xF9400062, 0xD503201F], false),
        (nopState.withFetchWord 32 0xF9400062, [0xF9400062], false)],
      f.1.pe.pc.toNat % 4 = 0 ∧ f.1.Accessible f.1.pe.pc.toNat 4 ∧
        f.1.pe.candidates f.1.mem f.1.pe.pc.toNat = f.2.1.map some ∧ f.2.1.all cmodxSafe = f.2.2 := by
  unfold State.Accessible; decide

theorem test_witness_FetchStops :
    (let s := sample (cfgA .wb)
     (s.setPe { s.pe with pc := 0x4002 }).pe.pc.toNat % 4 ≠ 0) ∧
      ((sample { cfgA .wb with regions := [] }).pe.pc.toNat % 4 = 0 ∧
        inMemMap { cfgA .wb with regions := [] } (sample { cfgA .wb with regions := [] }).pe.pc.toNat = false) ∧
      got ((sample (cfgA .wb)).withFetchWord 32 0xD65F03C0).fetch (·.1) = some 0xD65F03C0 ∧
      decodeWord 0xD65F03C0 = none := by decide

theorem test_witness_WriteAddsCandidate :
    (leBytes 4 0xF9400062).length = 4 ∧ 0x5000 % 4 = 0 ∧
      memWord nopState.mem 0x5000 ≠ some (BitVec.ofNat 32 (leValue (leBytes 4 0xF9400062))) ∧
      nopState.pes[1]?.isSome = true ∧
      (writeUnit (.pe 0) 0 ⟨0x5000, 4⟩ (leBytes 4 0xF9400062) nopState).pes[1]?.isSome = true := by decide

/-- For every statement whose hypothesis is that the PE exists and may advance. -/
theorem test_witness_MayAdvance : ∀ c ∈ [cfgA .wb, cfgB attrNc, Config.reset], (sample c).MayAdvance := by
  unfold State.MayAdvance; decide

/-- The stages at which `DC CVAU`, `IC IVAU`, `DSB ISH` and `ISB` act, and one at which they do not. -/
theorem test_witness_stages :
    ∀ st ∈ [SyncStage.written, .cleaned, .cleanDone, .invalidated, .observable],
      (staged 0x6000 st (.pe 0)).MayAdvance ∧
        assocFind (staged 0x6000 st (.pe 0)).sync (wordAddr ((staged 0x6000 st (.pe 0)).pe.readX 0).toNat) =
          some { stage := st, writer := .pe 0 } := by
  unfold State.MayAdvance; decide

/-- PE 0 stores a new word over one that PE 1 fetches, and makes it observable; PE 1 executes an ISB. -/
theorem test_witness_WritersSequenceSynchronizes :
    (sample (cfgA .wb)).curOk = true ∧ (3 : Reg) ≠ 31 ∧ ((sample (cfgA .wb)).pe.readX 3).toNat % 4 = 0 ∧
      (sample (cfgA .wb)).syncOf ((sample (cfgA .wb)).pe.readX 3).toNat = .observable ∧ 1 < (sample (cfgA .wb)).pes.length ∧
      got (andThen (exec (.strImm32 0 3 1) (sample (cfgA .wb))) fun s₁ => andThen (exec (.dcCvau 3) s₁) fun s₂ =>
          andThen (exec .dsbIsh s₂) fun s₃ => andThen (exec (.icIvau 3) s₃) fun s₄ => andThen (exec .dsbIsh s₄) fun s₅ =>
          exec (.isb 15) { s₅ with cur := 1 })
        (fun t => (t.cur, t.syncOf 0x5000)) = some (1, .observable) := by decide

/-- Accesses of the shapes that the statements about units speak of. -/
theorem test_witness_UnitsCoverTheAccess :
    (fpPairAccess .ldp .read 0x1000 16).Shaped ∧ (exclusiveAccess .read 0x1000 8).Shaped ∧
      (rcpcAccess 0x1000 8).Shaped ∧ (singleAccess .write 0x1002 4).Shaped :=
  ⟨⟨rfl, .inr (.inr rfl)⟩, ⟨rfl, rfl⟩, ⟨rfl, .inr (.inr (.inr rfl))⟩, rfl, .inr (.inr (.inl rfl))⟩

/-- Pairs at the addresses where the clauses of R60 and R61 meet: one unit, two units, bytes. -/
theorem test_witness_PairUnits :
    (∀ f ∈ [(0x1000, 8), (0x1000, 4), (0x1006, 4)],
        (pairAccess .ldp .read f.1 f.2).count = 2 ∧ (∀ b ∈ (pairAccess .ldp .read f.1 f.2).bytes,
          iwbOwb (cfgB .wb) b = true) ∧ (f.2 = 8 ∧ f.1 % 16 = 0 ∨ f.2 = 4 ∧ f.1 / 16 = (f.1 + 7) / 16)) ∧
      (∀ f ∈ [(0x1008, 8), (0x100C, 4)], f.1 % f.2 = 0 ∧
        ¬ (f.2 = 8 ∧ f.1 % 16 = 0 ∨ f.2 = 4 ∧ f.1 / 16 = (f.1 + 7) / 16)) ∧
      (∀ f ∈ [(0x1004, 8), (0x100A, 4)], f.1 % f.2 ≠ 0 ∧
        ¬ (f.2 = 8 ∧ f.1 % 16 = 0 ∨ f.2 = 4 ∧ f.1 / 16 = (f.1 + 7) / 16)) ∧
      ∃ b ∈ (pairAccess .ldp .read 0x1000 8).bytes, iwbOwb (cfgB attrNc) b = false := by decide

/-- The conditions on configuration, memory and address that the other statements about units name. -/
theorem test_witness_units :
    (scaUnits (cfgA .wb) (fpPairAccess .ldp .read 0x1004 16)).isSome = true ∧
      (zvaAccess (cfgA .wb) 0x1010).size = (cfgA .wb).zvaBlockBytes ∧
      (∀ b ∈ (fpPairAccess .ldp .read 0x1000 16).bytes, wbShareable (cfgB .wb) b = true) ∧
      (∀ b ∈ (rcpcAccess 0x1004 8).bytes, iwbOwb (cfgB .wb) b = true) ∧ 0x1004 / 16 = (0x1004 + 8 - 1) / 16 ∧
      0x1004 % 8 ≠ 0 ∧ 0x100C / 16 ≠ (0x100C + 8 - 1) / 16 ∧ (cfgA .wb).featLse2 = false ∧
      (ls64Access .read 0x1040).addr % 64 = 0 ∧ Config.reset.featLs64 = true := by
  decide

/-- Aligned active elements of an access that passes the checks, an unpredicated access of each register, and an access that
raises the Alignment fault of the open policy. -/
theorem test_witness_SveAccesses :
    (∀ e ∈ (predicated.svePredAccess 3 .read 8 [0x1000, 0x1008, 0x1010]).elems, e % 8 = 0) ∧
      (predicated.svePredAccess 3 .read 8 [0x1000, 0x1008, 0x1010]).elems = [0x1000, 0x1010] ∧
      got (checkAccess Config.reset (predicated.svePredAccess 3 .read 8 [0x1000, 0x1008, 0x1010])) id = some none ∧
      (∀ r ∈ [SveRegister.vector, .predicate],
        got (checkAccess Config.reset (sveUnpredAccess Config.reset r .read 0x1001)) id = some none) ∧
      got (checkAccess { cfgA attrDev with featSve := true, misalignedPolicy := .alignmentFault }
        (sveUnpredAccess (cfgA attrDev) .vector .read 0x1001)) id = some (some (.alignmentFault 0x1001)) := by decide

theorem test_witness_BranchesSetPc :
    (sample (cfgA .wb)).MayAdvance ∧ branchWraps (sample (cfgA .wb)).pe.pc (branchOffset (0x10 : BitVec 26)) = false ∧
      branchWraps (sample (cfgA .wb)).pe.pc (branchOffset (0x3FFE000 : BitVec 26)) = true := by
  unfold State.MayAdvance; decide

/-- Both policies, for the compare and branch instructions and for TRCIT. -/
theorem test_witness_CompareAndBranch_NopAndTrcit :
    ∀ p ∈ [LowConfidencePolicy.execute, .refuse], (sample { cfgA .wb with lowConfidence := p }).MayAdvance ∧
      (sample { cfgA .wb with lowConfidence := p }).cfg.lowConfidence = p ∧ ccAllocated 7 = true ∧
      ccAllocated 3 = true := by
  unfold State.MayAdvance; decide

/-- One unit and several, for the loads and stores of one register. -/
theorem test_witness_LoadRegister_StoreRegister :
    (∀ a ∈ [singleAccess .read (loadAddress ((sample (cfgB .wb)).pe.readBase 0) 1 8) 8,
        singleAccess .write (storeAddress ((sample (cfgB .wb)).pe.readBase 0) 1 8) 8],
      (sample (cfgB .wb)).Clear a ∧ (sample (cfgB .wb)).Readable a.addr 8 ∧
        (scaUnits (cfgB .wb) a).map List.length = some 1) ∧
      ∀ a ∈ [singleAccess .read (loadAddress ((sample (cfgA .wb)).pe.readBase 6) 0 8) 8,
          singleAccess .write (storeAddress ((sample (cfgA .wb)).pe.readBase 6) 0 8) 8],
        (sample (cfgA .wb)).Clear a ∧ (sample (cfgA .wb)).Readable a.addr 8 ∧
          (scaUnits (cfgA .wb) a).map List.length = some 8 := by
  unfold State.Clear State.MayAdvance State.Accessible State.Readable; decide

/-- One unit and several, for the pairs, with and without writeback. -/
theorem test_witness_LoadPair_StorePair :
    (4 : Reg) ≠ 5 ∧ ∀ ix ∈ [Indexing.offset, .post, .pre], ix.overlaps 2 4 5 = false ∧
      (∀ dir ∈ [Direction.read, .write],
        (sample (cfgB .wb)).Clear (pairAccess .ldp dir (ix.address 0x1000 (pairOffset 2 8)) 8) ∧
          (sample (cfgB .wb)).Readable (ix.address 0x1000 (pairOffset 2 8)) 16 ∧
          (scaUnits (cfgB .wb) (pairAccess .ldp dir (ix.address 0x1000 (pairOffset 2 8)) 8)).map List.length = some 1 ∧
          (scaUnits (cfgB .wb) (pairAccess .stnp dir (ix.address 0x1000 (pairOffset 2 8)) 8)).map List.length =
            some 2) := by
  unfold State.Clear State.MayAdvance State.Accessible State.Readable; decide

theorem test_witness_LoadSimdPair_StoreSimdPair :
    (4 : Reg) ≠ 5 ∧ (cfgB .wb).featAdvSimdFp = true ∧ { cfgB .wb with featAdvSimdFp := false }.featAdvSimdFp = false ∧
      ∀ dir ∈ [Direction.read, .write],
        (sample (cfgB .wb)).Clear (fpPairAccess .ldp dir 0x1000 16) ∧ (sample (cfgB .wb)).Readable 0x1000 32 ∧
          (scaUnits { cfgB .wb with featLs64wb := true } (fpPairAccess .ldp dir 0x1000 16)).map List.length = some 1 ∧
          (scaUnits (cfgB .wb) (fpPairAccess .ldp dir 0x1000 16)).map List.length = some 4 := by
  unfold State.Clear State.MayAdvance State.Accessible State.Readable; decide

theorem test_witness_LoadRcpc :
    (cfgA .wb).featLrcpc = false ∧ (cfgB .wb).featLrcpc = true ∧
      ∀ n ∈ [1, 2, 4, 8], (sample (cfgB .wb)).Clear (rcpcAccess ((sample (cfgB .wb)).pe.readBase 6).toNat n) ∧
        (sample (cfgB .wb)).Readable 0x1004 n ∧ (scaUnits (cfgB .wb) (rcpcAccess 0x1004 n)).isSome = true := by
  unfold State.Clear State.MayAdvance State.Accessible State.Readable; decide

theorem test_witness_SixtyFourByteAccesses :
    (sample (executing Config.reset)).cfg.lowConfidence = .execute ∧
      (sample (executing Config.reset)).cfg.featLs64 = true ∧ (24 : Reg).toNat ≤ 24 ∧
      (sample (executing Config.reset)).MayAdvance ∧
      ((sample (executing Config.reset)).pe.readBase 0).toNat = 0x1000 ∧ 0x1000 % 64 = 0 ∧
      (sample (executing Config.reset)).Accessible 0x1000 64 ∧ (sample (executing Config.reset)).Readable 0x1000 64 ∧
      (sample Config.reset).cfg.lowConfidence = .refuse := by
  unfold State.MayAdvance State.Accessible State.Readable; decide

theorem test_witness_ZeroBlock :
    zvaOnDevice (cfgA attrDev) 0x1010 = true ∧
      ∀ n ∈ [1, 64], zvaOnDevice { cfgA .wb with zvaBlockBytes := n } 0x1010 = false ∧
        (sample { cfgA .wb with zvaBlockBytes := n }).Clear (zvaAccess { cfgA .wb with zvaBlockBytes := n } 0x1010) := by
  unfold State.Clear State.MayAdvance State.Accessible; decide

theorem test_witness_BegunLoadCompletes :
    (insideOf (sample (cfgA .wb)) ldpBegun none).MayAdvance ∧
      (insideOf (sample (cfgA .wb)) ldpBegun none).pe.phase = .inside ldpBegun ∧ ldpBegun.rmw = none ∧
      ldpBegun.writes = [] ∧ ldpBegun.got = [] ∧ ldpBegun.reads ≠ [] ∧
      (ldpBegun.reads.flatMap MUnit.bytes).Perm (byteAddrs ldpBegun.addr ldpBegun.size) ∧
      (insideOf (sample (cfgA .wb)) ldpBegun none).Readable ldpBegun.addr ldpBegun.size ∧
      [1, 0].length = ldpBegun.reads.length ∧ ldpBegun.done = .loadPair 4 5 8 none := by
  unfold State.MayAdvance State.Readable; decide

theorem test_witness_BegunStoreCompletes :
    (insideOf (sample (cfgA .wb)) stpBegun none).MayAdvance ∧
      (insideOf (sample (cfgA .wb)) stpBegun none).pe.phase = .inside stpBegun ∧ stpBegun.adjacent = false ∧ stpBegun.rmw = none ∧
      stpBegun.reads = [] ∧ stpBegun.writes ≠ [] ∧
      (stpBegun.writes.flatMap MUnit.bytes).Perm (byteAddrs stpBegun.addr stpBegun.size) ∧
      stpBegun.data.length = stpBegun.size ∧ [1, 0].length = stpBegun.writes.length ∧ stpBegun.done = .store none := by
  unfold State.MayAdvance; decide

/-- The reads and writes of an atomic instruction performed byte by byte, for each operation and with or without the System
Error interrupt. -/
def atomicBegun (op : AtomicOp) (thenSError : Bool) : InFlight :=
  { instr := .ldadd32 1 0 2, addr := 0x1000, size := 2, reads := [⟨0x1000, 1⟩, ⟨0x1001, 1⟩], got := [], rmw := some op
    writes := [⟨0x1000, 1⟩, ⟨0x1001, 1⟩], data := [], interruptible := true, done := .atomic 2 thenSError }

theorem test_witness_NonAtomicPerformanceCompletes :
    ∀ op ∈ [AtomicOp.add 1, .compareSwap 9 1], ∀ b ∈ [true, false],
      (insideOf (sample (cfgB attrNc)) (atomicBegun op b) none).MayAdvance ∧
        (insideOf (sample (cfgB attrNc)) (atomicBegun op b) none).pe.phase = .inside (atomicBegun op b) ∧
        (atomicBegun op b).adjacent = false ∧
        ((atomicBegun op b).reads.flatMap MUnit.bytes).Perm (byteAddrs 0x1000 2) ∧
        (insideOf (sample (cfgB attrNc)) (atomicBegun op b) none).Readable 0x1000 2 ∧ [1, 0, 1, 0].length = 4 := by
  unfold State.MayAdvance State.Readable; decide

theorem test_witness_LoadExclusivePair :
    (4 : Reg) ≠ 5 ∧ (sample (cfgA .wb)).Clear (exclusiveAccess .read ((sample (cfgA .wb)).pe.readBase 0).toNat 4) ∧
      (sample (cfgA .wb)).Readable ((sample (cfgA .wb)).pe.readBase 0).toNat 8 ∧
      (sample (cfgA .wb)).Clear (exclusiveAccess .read ((sample (cfgA .wb)).pe.readBase 0).toNat 8) ∧
      (scaUnits (cfgA .wb) (exclusiveAccess .read 0x1000 8)).isSome = true := by
  unfold State.Clear State.MayAdvance State.Accessible State.Readable; decide

/-- The state after a load-exclusive, with its places and both choices, and one without it. -/
theorem test_witness_StoreExclusive :
    (3 : Reg) ≠ 0 ∧ (3 : Reg) ≠ 1 ∧ (3 : Reg) ≠ 2 ∧
      (∀ n ∈ [4, 8], (afterLoadExclusive (2 * n) 0).Clear (exclusiveAccess .write 0x1000 n) ∧
        (afterLoadExclusive (2 * n) 0).pending = [0] ∧ (afterLoadExclusive (2 * n) 1).pending = [1] ∧
        exclusivePlaces (afterLoadExclusive (2 * n) 0) 0x1000 (2 * n) ≠ none ∧
        (afterLoadExclusive (2 * n) 1).pe.excl.map (fun e => (e.addr, e.size, e.reads.map (·.addr))) =
          some (0x1000, 2 * n, byteAddrs 0x1000 (2 * n)) ∧
        (afterLoadExclusive (2 * n) 1).pe.excl.map (fun e => e.reads.all fun g =>
            g.source == ((afterLoadExclusive (2 * n) 1).orderAt g.addr).sourceAt
              ((afterLoadExclusive (2 * n) 1).orderAt g.addr).lastPlace) = some true) ∧
      (sample (cfgA .wb)).pe.excl = none ∧ (sample (cfgA .wb)).MayAdvance ∧
      (∀ n ∈ [4, 8], ((sample (cfgA .wb)).pe.readBase 2).toNat % (2 * n) = 0) := by
  unfold State.Clear State.MayAdvance State.Accessible; decide

/-- The same state meets the hypothesis on the numbers of units. -/
theorem test_witness_StoreExclusive_numbers : (afterLoadExclusive 16 1).UnitsNumbered :=
  (coherent_of_no_effects _ (by decide) rfl rfl).units_numbered

/-- `cfgB` on `WB` memory supports atomic instructions, on `NC` memory it does not. -/
theorem test_witness_atomics :
    ∀ n ∈ [4, 8], (sample (cfgB .wb)).cfg.featAtomics = true ∧ (sample (cfgB .wb)).MayAdvance ∧
      ((sample (cfgB .wb)).pe.readBase 0).toNat % n = 0 ∧ (sample (cfgB .wb)).Accessible 0x1000 n ∧
      (sample (cfgB .wb)).Readable 0x1000 n ∧
      (∀ b, 0x1000 ≤ b → b < 0x1000 + n → atomicSupported (cfgB .wb) b = true) ∧
      (sample (cfgB attrNc)).MayAdvance ∧ (sample (cfgB attrNc)).Accessible 0x1000 n ∧
      ∃ b, 0x1000 ≤ b ∧ b < 0x1000 + n ∧ atomicSupported (cfgB attrNc) b = false := by
  unfold State.MayAdvance State.Accessible State.Readable
  intro n hn
  fin_cases hn
  · refine ⟨?_, ?_, ?_, ?_, ?_, ?_, ?_, ?_, 0x1000, ?_⟩ <;> decide
  · refine ⟨?_, ?_, ?_, ?_, ?_, ?_, ?_, ?_, 0x1000, ?_⟩ <;> decide

/-- The same state meets the hypothesis on the numbers of units. -/
theorem test_witness_SupportedAtomics_numbers : (sample (cfgB .wb)).UnitsNumbered :=
  (coherent_of_no_effects _ (by decide) rfl rfl).units_numbered

/-- A write of an atomic instruction that has no place left. -/
theorem test_witness_SupportedAtomics_waits :
    ldaddOvertaken.adjacent = true ∧ ldaddOvertaken.reads = [] ∧ ldaddOvertaken.writes = [⟨0x1000, 1⟩] ∧
      successorPlaces overtaken ldaddOvertaken.got 0x1000 1 = none := by decide

/-- A location where R186 and R187 guarantee support, one of each kind where they do not. -/
theorem test_witness_AtomicSupport :
    ∀ m ∈ [MemAttr.wb, attrNc, attrWbns, attrDev],
      (regionOf (cfgA m) 0x1000).map (·.attr) = some m ∧
        (m = .wb ↔ m.type = .normal .writeBack .writeBack ∧
          (m.shareability = .innerShareable ∨ m.shareability = .outerShareable) ∧ m.conventional = true) := by decide

theorem test_witness_MmuFaultRouting :
    ∀ e ∈ [EL.el0, .el1, .el2, .el3], ∀ b ∈ [true, false],
      (unsupported { cfgB attrNc with el := e, stage2Enabled := b } [1]).curOk = true ∧
        (unsupported { cfgB attrNc with el := e, stage2Enabled := b } [1]).pending = [1] := by decide

/-- A misaligned access for every clause: of the class, on Normal memory, on Device memory, by elements, and a FEAT_LRCPC
load that is one unit and three that are not (it crosses 16 bytes, the memory is not Write-Back, before Armv8.4). -/
theorem test_witness_MisalignmentPolicy :
    (∀ a ∈ [atomicAccess 0x3002 4, exclusiveAccess .read 0x1008 8, exclusiveAccess .read 0x1004 4,
        ls64Access .write 0x1020, singleAccess .read 0x1001 4, rcpcAccess 0x1004 8, rcpcAccess 0x100C 8,
        { cls := .svePred, dir := .read, addr := 0x1002, size := 4, count := 1, elems := [0x1002] }],
      a.pastEnd = false ∧ (∀ b ∈ a.bytes, inMemMap (cfgB .wb) b = true ∧ isNormal (cfgB .wb) b = true ∧
        isNormal (cfgB attrDev) b = false) ∧ a.addr % a.total ≠ 0) ∧
      (atomicAccess 0x3002 4).Shaped ∧ (exclusiveAccess .read 0x1008 8).Shaped ∧ (ls64Access .write 0x1020).Shaped ∧
      (cfgB .wb).armv8_4OrLater = true ∧ 0x1004 / 16 = (0x1004 + 8 - 1) / 16 ∧ 0x100C / 16 ≠ (0x100C + 8 - 1) / 16 ∧
      (∃ b ∈ (rcpcAccess 0x1004 8).bytes, iwbOwb (cfgB attrNc) b = false) ∧ (cfgA .wb).armv8_4OrLater = false := by
  refine ⟨by decide, trivial, ⟨rfl, rfl⟩, ⟨rfl, rfl⟩, ?_⟩
  decide

theorem test_witness_UnpredictableOperandsAreRefused :
    (sample (cfgA .wb)).cfg.featAdvSimdFp = true ∧ (4 : Reg) ≠ 31 ∧ (4 : Reg) ≠ 5 := by decide

end Sys2Proof.Machine.Tests
end

namespace Sys2Proof.Machine

/-! ### What every step keeps (10_state.md rules R14, R15, R19, R23; 60_exceptions.md rule R217)

The chains of changes of Laws/Evolves.lean all stay inside one relation between states. It is proved once of a single
change; the statements on the `pc` and on what no step writes are read off it. -/

/-- The PE kept what no instruction writes, and an aligned `pc` stayed aligned; the words it may fetch are free, because
the write units of every agent change them (20_memory.md rule R81). -/
def PE.KeepsButCandidates (a b : PE) : Prop := a.Keeps { b with cand := a.cand }

theorem PE.KeepsButCandidates.refl (p : PE) : p.KeepsButCandidates p := PE.Keeps.refl p

theorem PE.KeepsButCandidates.trans {p q r : PE} (h : p.KeepsButCandidates q) (h' : q.KeepsButCandidates r) :
    p.KeepsButCandidates r :=
  ⟨h'.flags.trans h.flags, h'.z.trans h.z, h'.p.trans h.p, h'.accData.trans h.accData, rfl,
    fun ha => h'.pc (h.pc ha)⟩

theorem PE.Keeps.keepsButCandidates {a b : PE} (h : a.Keeps b) : a.KeepsButCandidates b :=
  ⟨h.flags, h.z, h.p, h.accData, rfl, h.pc⟩

theorem PE.keepsButCandidates_cand (p : PE) (l : List (Nat × List (Option Word32))) :
    p.KeepsButCandidates { p with cand := l } := PE.KeepsButCandidates.refl p

/-- What holds between a state and any later one. -/
structure State.Keeps (s t : State) : Prop where
  cfg : t.cfg = s.cfg
  history : s.history <+: t.history
  pes_length : t.pes.length = s.pes.length
  pes : ∀ (q : Nat) (b : PE), t.pes[q]? = some b → ∃ a, s.pes[q]? = some a ∧ a.KeepsButCandidates b

theorem State.Keeps.refl (s : State) : s.Keeps s := ⟨rfl, List.prefix_rfl, rfl, fun _ b hb => ⟨b, hb, .refl b⟩⟩

theorem State.Keeps.trans {s t u : State} (h : s.Keeps t) (h' : t.Keeps u) : s.Keeps u := by
  refine ⟨h'.cfg.trans h.cfg, h.history.trans h'.history, h'.pes_length.trans h.pes_length, fun q c hc => ?_⟩
  obtain ⟨b, hb, hbc⟩ := h'.pes q c hc
  obtain ⟨a, ha, hab⟩ := h.pes q b hb
  exact ⟨a, ha, hab.trans hbc⟩

/-- Where the PEs are the same ones, only the configuration and the history are in question. -/
theorem State.Keeps.of_pes_eq {s t : State} (hcfg : t.cfg = s.cfg) (hist : s.history <+: t.history)
    (hpes : t.pes = s.pes) : s.Keeps t :=
  ⟨hcfg, hist, by rw [hpes], fun _ b hb => ⟨b, hpes ▸ hb, .refl b⟩⟩

/-- A new state of the current PE. Where there is no such PE, nothing is put in place. -/
theorem State.Keeps.setPe (s : State) (p : PE) (h : s.pe.KeepsButCandidates p) : s.Keeps (s.setPe p) := by
  refine ⟨rfl, List.prefix_rfl, List.length_set, fun q b hb => ?_⟩
  by_cases hq : q = s.cur
  · subst hq
    obtain ⟨hlt, rfl⟩ : s.cur < s.pes.length ∧ p = b := by simpa [List.getElem?_set] using hb
    exact ⟨s.pe, s.pes_get_cur (by simpa [State.curOk] using hlt), h⟩
  · exact ⟨b, s.setPe_other p q hq ▸ hb, .refl b⟩

/-- A write unit adds its effects at the end of the history and candidates to the PEs. -/
theorem State.Keeps.placeWrite (s : State) (g : Agent) (i : Nat) (u : MUnit) (ps : List Pick) (data : List Byte)
    (adj : Bool) : s.Keeps (s.placeWrite g i u ps data adj) := by
  obtain ⟨f, hf⟩ := s.placeWrite_keeps g i u ps data adj
  rw [hf]
  refine ⟨rfl, List.prefix_append _ _, List.length_map _, fun q b hb => ?_⟩
  obtain ⟨a, ha, rfl⟩ : ∃ a, s.pes[q]? = some a ∧ { a with cand := f a } = b := by
    simpa [List.getElem?_map] using hb
  exact ⟨a, ha, a.keepsButCandidates_cand _⟩

theorem Change.keeps {s t : State} (h : Change s t) : s.Keeps t := by
  cases h with
  | choose | count | sync => exact .of_pes_eq rfl List.prefix_rfl rfl
  | pe p hp => exact .setPe s p hp.keepsButCandidates
  | isb => exact .setPe s _ (s.pe.keepsButCandidates_cand _)
  | read => exact .of_pes_eq rfl (List.prefix_append _ _) rfl
  | write => exact .placeWrite s _ _ _ _ _ _

theorem State.Keeps.of_step {s t : State} (h : step s = .next t) : s.Keeps t :=
  step_keeps (P := s.Keeps) (fun _ _ _ hu => hu.trans (.of_pes_eq rfl List.prefix_rfl rfl))
    (fun _ _ hc hu => hu.trans hc.keeps) s t (.refl s) h

/-- Aligned `pc`s stay aligned. -/
theorem State.Keeps.pcsAligned {s t : State} (h : s.Keeps t) (hs : s.PcsAligned) : t.PcsAligned := by
  intro b hb
  obtain ⟨q, hq⟩ := List.mem_iff_getElem?.mp hb
  obtain ⟨a, ha, hab⟩ := h.pes q b hq
  exact hab.pc (hs a (List.mem_of_getElem? ha))

/-- Settles O12: alignment is one of the things every change keeps. -/
theorem stepKeepsPcsAligned : Obligations.StepKeepsPcsAligned :=
  fun _ _ hs h => (State.Keeps.of_step h).pcsAligned hs

/-- Settles O15: what a step answers is a later state. -/
theorem noStepWritesFlagsOrConfiguration : Obligations.NoStepWritesFlagsOrConfiguration := by
  intro s t h
  have hk := State.Keeps.of_step h
  refine ⟨hk.history, hk.cfg, hk.pes_length, fun q a b ha hb => ?_⟩
  obtain ⟨a', ha', hab⟩ := hk.pes q b hb
  obtain rfl : a = a' := Option.some.inj (ha.symm.trans ha')
  exact ⟨hab.flags, hab.z, hab.p, hab.accData⟩

/-! ### Where a fetch stops (R14; 20_memory.md rule R84; 30_encoding.md rule R103) -/

theorem State.fetch_of_misaligned (s : State) (h : s.pe.pc.toNat % 4 ≠ 0) :
    s.fetch = .refused (.pcMisaligned s.pe.pc.toNat) := if_pos h

/-- The byte at the `pc` is the first one a fetch looks for. -/
theorem State.fetch_of_outsideMemMap (s : State) (ha : s.pe.pc.toNat % 4 = 0)
    (ho : inMemMap s.cfg s.pe.pc.toNat = false) : s.fetch = .fault (.outsideMemMap s.pe.pc.toNat) := by
  have hfirst : (byteAddrs s.pe.pc.toNat 4).find? (fun b => !inMemMap s.cfg b) = some s.pe.pc.toNat :=
    List.find?_cons_of_pos (by simp [ho])
  simp only [State.fetch, ha, ne_eq, not_true_eq_false, if_false, hfirst]

theorem State.fetchAndBegin_of_refused {s : State} {why : Refusal} (h : s.fetch = .refused why) :
    s.fetchAndBegin = .refused why := by
  rw [State.fetchAndBegin, h, andThen_refused]

theorem State.fetchAndBegin_of_fault {s : State} {f : Fault} (h : s.fetch = .fault f) : s.fetchAndBegin = .fault f := by
  rw [State.fetchAndBegin, h, andThen_fault]

theorem State.fetchAndBegin_of_noRow {s s₁ : State} {w : Word32} (h : s.fetch = .next (w, s₁))
    (hw : decodeWord w = none) : s.fetchAndBegin = .refused (.noRow s.pe.pc.toNat w) := by
  simp only [State.fetchAndBegin, h, andThen_next, hw]

/-- Settles O20: the `pc` is checked before the address, and the word is decoded only once it is fetched. -/
theorem fetchStops : Obligations.FetchStops := fun s =>
  ⟨fun h => State.fetchAndBegin_of_refused (s.fetch_of_misaligned h),
    fun ha ho => State.fetchAndBegin_of_fault (s.fetch_of_outsideMemMap ha ho),
    fun _ _ hf hw => State.fetchAndBegin_of_noRow hf hw⟩

/-! ### Conditions and comparisons (R15; 41_branch_system.md rules R148, R149) -/

theorem condHolds_hi (f : Flags) : condHolds f 8 = true ↔ f.c = true ∧ f.z = false := by
  change (f.c && !f.z) = true ↔ _
  rw [Bool.and_eq_true, Bool.not_eq_true']

theorem condHolds_ge (f : Flags) : condHolds f 10 = true ↔ f.n = f.v := beq_iff_eq

theorem condHolds_gt (f : Flags) : condHolds f 12 = true ↔ f.z = false ∧ f.n = f.v := by
  change (!f.z && f.n == f.v) = true ↔ _
  rw [Bool.and_eq_true, Bool.not_eq_true', beq_iff_eq]

/-- An odd condition is the negation of the even one before it. -/
theorem condHolds_iff_not {f : Flags} {c d : BitVec 4} {P : Prop} (hP : condHolds f c = true ↔ P)
    (h : condHolds f d = !condHolds f c) : condHolds f d = true ↔ ¬ P := by
  rw [h, Bool.not_eq_true', ← hP, Bool.not_eq_true]

section Comparisons

variable {n : Nat} (a b : BitVec n)

@[simp] theorem Comparison.holds_gt : Comparison.gt.holds a b = decide (b.toInt < a.toInt) := rfl

@[simp] theorem Comparison.holds_ge : Comparison.ge.holds a b = decide (b.toInt ≤ a.toInt) := rfl

@[simp] theorem Comparison.holds_lt : Comparison.lt.holds a b = decide (a.toInt < b.toInt) := rfl

@[simp] theorem Comparison.holds_hi : Comparison.hi.holds a b = decide (b.toNat < a.toNat) := rfl

@[simp] theorem Comparison.holds_hs : Comparison.hs.holds a b = decide (b.toNat ≤ a.toNat) := rfl

@[simp] theorem Comparison.holds_lo : Comparison.lo.holds a b = decide (a.toNat < b.toNat) := rfl

@[simp] theorem Comparison.holds_eq : Comparison.eq.holds a b = decide (a = b) := beq_eq_decide a b

@[simp] theorem Comparison.holds_ne : Comparison.ne.holds a b = decide (a ≠ b) := by
  rw [decide_not, ← Comparison.holds_eq]; rfl

end Comparisons

/-- Settles O34: the flags row by row, then the two tables of `cc`. -/
theorem conditionsAndComparisons : Obligations.ConditionsAndComparisons := by
  refine ⟨fun f => ⟨Iff.rfl, .of_eq (Bool.not_eq_true' f.z), Iff.rfl, .of_eq (Bool.not_eq_true' f.c), Iff.rfl,
    .of_eq (Bool.not_eq_true' f.n), Iff.rfl, .of_eq (Bool.not_eq_true' f.v), condHolds_hi f,
    condHolds_iff_not (condHolds_hi f) rfl, condHolds_ge f, condHolds_iff_not (condHolds_ge f) rfl, condHolds_gt f,
    condHolds_iff_not (condHolds_gt f) rfl, rfl, rfl⟩, fun n a b => ⟨?registerForms, ?immediateForms⟩⟩
  case registerForms => simp [comparisonOfReg]
  case immediateForms => simp [comparisonOfImm]

end Sys2Proof.Machine

namespace Sys2Proof.Machine

/-! ### Places of a coherence order (20_memory.md rule R65)

The place of a unit is where its write stands, and a write put into the order shifts the places after it and no others;
everything on coherence below is read off these two facts. -/

/-- A unit stands one place after the writes before its own. -/
theorem ByteOrder.writes_of_placeOf {o : ByteOrder} {u j : Nat} (h : o.placeOf (.unit u) = some j) :
    ∃ i w, j = i + 1 ∧ o.writes[i]? = some w ∧ w.unit = u := by
  obtain ⟨i, hi, rfl⟩ : ∃ i, o.writes.findIdx? (fun w => w.unit == u) = some i ∧ i + 1 = j := by
    simpa [ByteOrder.placeOf] using h
  obtain ⟨hlt, hu, _⟩ := List.findIdx?_eq_some_iff_getElem.mp hi
  exact ⟨i, o.writes[i], rfl, List.getElem?_eq_getElem hlt, by simpa using hu⟩

theorem ByteOrder.placeOf_of_writes {o : ByteOrder} (hn : (o.writes.map (·.unit)).Nodup) {i : Nat} {w : CohWrite}
    (h : o.writes[i]? = some w) : o.placeOf (.unit w.unit) = some (i + 1) := by
  have hs : o.sourceAt (i + 1) = .unit w.unit := by simp [ByteOrder.sourceAt, h]
  rw [← hs]
  exact o.placeOf_sourceAt hn (i + 1) (List.getElem?_eq_some_iff.mp h).1

/-- On an order in which every unit writes once, the place of a unit is where its write stands. -/
theorem ByteOrder.placeOf_unit_iff {o : ByteOrder} (hn : (o.writes.map (·.unit)).Nodup) (u j : Nat) :
    o.placeOf (.unit u) = some j ↔ ∃ i w, j = i + 1 ∧ o.writes[i]? = some w ∧ w.unit = u := by
  refine ⟨ByteOrder.writes_of_placeOf, ?_⟩
  rintro ⟨i, w, rfl, hw, rfl⟩
  exact ByteOrder.placeOf_of_writes hn hw

theorem ByteOrder.mem_unitsFrom {o : ByteOrder} {u j k : Nat} (h : o.placeOf (.unit u) = some j) (hk : k < j) :
    u ∈ o.unitsFrom k := by
  obtain ⟨i, w, rfl, hw, rfl⟩ := ByteOrder.writes_of_placeOf h
  refine List.mem_map.mpr ⟨w, List.mem_of_getElem? (i := i - k) ?_, rfl⟩
  rwa [List.getElem?_drop, Nat.add_sub_cancel' (by omega)]

theorem ByteOrder.mem_unitsUpTo {o : ByteOrder} {u j k : Nat} (h : o.placeOf (.unit u) = some j) (hk : j ≤ k) :
    u ∈ o.unitsUpTo k := by
  obtain ⟨i, w, rfl, hw, rfl⟩ := ByteOrder.writes_of_placeOf h
  refine List.mem_map.mpr ⟨w, List.mem_of_getElem? (i := i) ?_, rfl⟩
  rwa [List.getElem?_take_of_lt (by omega)]

/-! ### A write put into an order -/

/-- Where the place `j` of an order is once a write stands after the first `k`. -/
def shiftPlace (k j : Nat) : Nat := if j ≤ k then j else j + 1

theorem shiftPlace_lt {k i j : Nat} : shiftPlace k i < shiftPlace k j ↔ i < j := by
  unfold shiftPlace; split <;> split <;> omega

theorem ByteOrder.insertAt_writes (o : ByteOrder) (k : Nat) (w : CohWrite) (hk : k ≤ o.lastPlace) (i : Nat) :
    (o.insertAt k w).writes[i]? =
      if i < k then o.writes[i]? else if i = k then some w else o.writes[i - 1]? := by
  have hl : (o.writes.take k).length = k := List.length_take_of_le hk
  simp only [ByteOrder.insertAt, List.getElem?_append, hl]
  split
  · next h => exact List.getElem?_take_of_lt h
  · next h =>
    split
    · next h' => simp [h']
    · next h' =>
      obtain ⟨d, rfl⟩ : ∃ d, i = k + 1 + d := ⟨i - (k + 1), by omega⟩
      rw [show k + 1 + d - k = d + 1 by omega, List.getElem?_cons_succ, List.getElem?_drop]
      congr 1
      omega

/-- The write put into the order stands at its place. -/
theorem ByteOrder.insertAt_writes_self (o : ByteOrder) (k : Nat) (w : CohWrite) (hk : k ≤ o.lastPlace) :
    (o.insertAt k w).writes[k]? = some w := by
  simp [o.insertAt_writes k w hk]

theorem ByteOrder.insertAt_writes_shift (o : ByteOrder) (k : Nat) (w : CohWrite) (hk : k ≤ o.lastPlace) (i : Nat) :
    (o.insertAt k w).writes[shiftPlace k (i + 1) - 1]? = o.writes[i]? := by
  unfold shiftPlace
  rw [o.insertAt_writes k w hk]
  split
  · rw [if_pos (by omega), Nat.add_sub_cancel]
  · rw [if_neg (by omega), if_neg (by omega), Nat.add_sub_cancel, Nat.add_sub_cancel]

theorem ByteOrder.insertAt_units_perm (o : ByteOrder) (k : Nat) (w : CohWrite) :
    ((o.insertAt k w).writes.map (·.unit)).Perm (w.unit :: o.writes.map (·.unit)) := by
  have h : (o.insertAt k w).writes.Perm (w :: (o.writes.take k ++ o.writes.drop k)) := List.perm_middle
  rw [List.take_append_drop] at h
  exact h.map (·.unit)

section Insertion

variable {o : ByteOrder} {k : Nat} {w : CohWrite}

theorem ByteOrder.insertAt_nodup (hn : (o.writes.map (·.unit)).Nodup) (hw : w.unit ∉ o.writes.map (·.unit)) :
    ((o.insertAt k w).writes.map (·.unit)).Nodup :=
  (o.insertAt_units_perm k w).nodup_iff.mpr (List.nodup_cons.mpr ⟨hw, hn⟩)

theorem ByteOrder.insertAt_placeOf_self (hk : k ≤ o.lastPlace) (hn : (o.writes.map (·.unit)).Nodup)
    (hw : w.unit ∉ o.writes.map (·.unit)) : (o.insertAt k w).placeOf (.unit w.unit) = some (k + 1) :=
  ByteOrder.placeOf_of_writes (ByteOrder.insertAt_nodup hn hw) (o.insertAt_writes_self k w hk)

/-- Every other write keeps its place, but for the shift. -/
theorem ByteOrder.insertAt_placeOf_other (hk : k ≤ o.lastPlace) (hn : (o.writes.map (·.unit)).Nodup)
    (hw : w.unit ∉ o.writes.map (·.unit)) {src : Source} (hs : src ≠ .unit w.unit) :
    (o.insertAt k w).placeOf src = (o.placeOf src).map (shiftPlace k) := by
  have hn' := ByteOrder.insertAt_nodup (k := k) hn hw
  cases src with
  | initial => simp [ByteOrder.placeOf, shiftPlace]
  | unit u =>
    have hu : w.unit ≠ u := fun h => hs (h ▸ rfl)
    ext j
    rw [ByteOrder.placeOf_unit_iff hn', Option.map_eq_some_iff]
    constructor
    · rintro ⟨i, v, rfl, hv, rfl⟩
      rw [o.insertAt_writes k w hk] at hv
      split at hv
      · exact ⟨i + 1, ByteOrder.placeOf_of_writes hn hv, if_pos (by omega)⟩
      · split at hv
        · exact absurd (congrArg CohWrite.unit (Option.some.inj hv)) hu
        · refine ⟨i, ?_, if_neg (by omega)⟩
          have h := ByteOrder.placeOf_of_writes hn hv
          rwa [Nat.sub_add_cancel (by omega)] at h
    · rintro ⟨j, hj, rfl⟩
      obtain ⟨i, v, rfl, hv, rfl⟩ := ByteOrder.writes_of_placeOf hj
      refine ⟨shiftPlace k (i + 1) - 1, v, ?_, by rw [o.insertAt_writes_shift k w hk, hv], rfl⟩
      unfold shiftPlace; split <;> omega

/-- A write put into an order changes no value that was there. -/
theorem ByteOrder.insertAt_valueAt_shift (hk : k ≤ o.lastPlace) (j : Nat) :
    (o.insertAt k w).valueAt (shiftPlace k j) = o.valueAt j := by
  cases j with
  | zero => simp [shiftPlace, ByteOrder.valueAt]
  | succ i =>
    have hpos : shiftPlace k (i + 1) = shiftPlace k (i + 1) - 1 + 1 := by unfold shiftPlace; split <;> omega
    rw [hpos, ByteOrder.valueAt, o.insertAt_writes_shift k w hk, ByteOrder.valueAt]

theorem ByteOrder.insertAt_sourceAt_of_le {j : Nat} (hk : k ≤ o.lastPlace) (hj : j ≤ k) :
    (o.insertAt k w).sourceAt j = o.sourceAt j := by
  cases j with
  | zero => rfl
  | succ i => simp only [ByteOrder.sourceAt, o.insertAt_writes k w hk, if_pos (show i < k by omega)]

theorem ByteOrder.insertAt_sourceAt_of_gt {j : Nat} (hk : k ≤ o.lastPlace) (hj : k < j) :
    (o.insertAt k w).sourceAt (j + 1) = o.sourceAt j := by
  obtain ⟨i, rfl⟩ : ∃ i, j = i + 1 := ⟨j - 1, by omega⟩
  simp only [ByteOrder.sourceAt, o.insertAt_writes k w hk, if_neg (show ¬ i + 1 < k by omega),
    if_neg (show i + 1 ≠ k by omega), Nat.add_sub_cancel]

/-- The last value of the order is the new one exactly where the write was put at the end. -/
theorem ByteOrder.insertAt_last (hk : k ≤ o.lastPlace) :
    (o.insertAt k w).valueAt (o.insertAt k w).lastPlace =
      if k = o.lastPlace then some w.value else o.valueAt o.lastPlace := by
  rw [o.insertAt_lastPlace]
  split
  · next h => rw [← h, o.insertAt_valueAt k w hk]
  · rw [← ByteOrder.insertAt_valueAt_shift hk o.lastPlace (w := w), shiftPlace, if_neg (by omega)]

end Insertion

/-! ### Coherence is kept (R63, R64, R180; 40_loads_stores.md rule R121)

Only a read unit and a write unit move what coherence speaks of. -/

theorem State.Coherent.of_eq {s t : State} (h : s.Coherent) (hmem : t.mem = s.mem) (hcoh : t.coh = s.coh)
    (hhist : t.history = s.history) (hunit : t.nextUnit = s.nextUnit) : t.Coherent := by
  cases s; cases t
  cases hmem; cases hcoh; cases hhist; cases hunit
  exact ⟨h.mem_wf, h.coh_rising, h.units_numbered, h.memory_is_last, h.reads_have_sources, h.stores_ordered,
    h.loads_whole, h.successions_kept⟩

/-! #### A read unit -/

theorem mem_readEffects {g : Agent} {i n : Nat} {l : List GotByte} {e : Effect} :
    e ∈ readEffects g i n l ↔
      ∃ b ∈ l, { agent := g, inst := i, kind := .read b.source, addr := b.addr, value := b.value, unit := n } = e :=
  List.mem_map

/-- What the effects of a read unit say: each stands for a pick, whose place is that of its source. -/
theorem readEffects_of_picks {s : State} {addrs : List Nat} {ps : List Pick} {l : List GotByte} (hu : s.UnitsNumbered)
    (hp : PicksOf s addrs ps) (hl : gotAll ps = some l) {g : Agent} {i n : Nat} {e : Effect}
    (he : e ∈ readEffects g i n l) :
    e.unit = n ∧ ∃ p ∈ ps, p.addr = e.addr ∧ p.order = s.orderAt e.addr ∧ e.kind = .read (p.order.sourceAt p.place) ∧
      p.order.placeOf (p.order.sourceAt p.place) = some p.place ∧ p.order.valueAt p.place = some e.value := by
  obtain ⟨b, hb, rfl⟩ := mem_readEffects.mp he
  obtain ⟨p, hp', ha, hv, hs⟩ := (gotAll_spec ps l hl).2 b hb
  obtain ⟨ho, hk⟩ := hp.2 p hp'
  exact ⟨rfl, p, hp', ha, ha ▸ ho, by rw [hs], p.order.placeOf_sourceAt (ho ▸ hu.1 p.addr) p.place hk, hv⟩

theorem readAdmitted_iff {ps : List Pick} : readAdmitted ps = true ↔
    ∀ p ∈ ps, ∀ u, p.order.sourceAt p.place = .unit u → ∀ q ∈ ps, u ∉ q.order.unitsFrom q.place := by
  simp only [readAdmitted, List.all_eq_true]
  refine forall₂_congr fun p _ => ?_
  cases p.order.sourceAt p.place <;> simp

/-- A read unit within R64 keeps the memory system coherent. -/
theorem State.Coherent.recordRead {s : State} (h : s.Coherent) (g : Agent) (i : Nat) {addrs : List Nat}
    {ps : List Pick} {l : List GotByte} (hp : PicksOf s addrs ps) (hl : gotAll ps = some l)
    (ha : readAdmitted ps = true) : (s.recordRead g i l).Coherent := by
  have hold : ∀ e ∈ s.history, e.unit < s.nextUnit := h.units_numbered.2.2
  have hnew {e : Effect} (he : e ∈ readEffects g i s.nextUnit l) := readEffects_of_picks h.units_numbered hp hl he
  refine ⟨h.mem_wf, h.coh_rising, ⟨h.units_numbered.1, ?_, ?_⟩, h.memory_is_last, ?_, h.stores_ordered, ?_,
    h.successions_kept⟩
  · exact fun b w hw => Nat.lt_succ_of_lt (h.units_numbered.2.1 b w hw)
  · intro e he
    rcases List.mem_append.mp he with he | he
    · exact Nat.lt_succ_of_lt (hold e he)
    · exact (hnew he).1 ▸ Nat.lt_succ_self _
  · intro e he w hw
    rcases List.mem_append.mp he with he | he
    · exact h.reads_have_sources e he w hw
    · obtain ⟨_, p, _, _, ho, hk, hpl, hv⟩ := hnew he
      obtain rfl : p.order.sourceAt p.place = w := by simpa using hk.symm.trans hw
      exact ⟨p.place, ho ▸ hpl, ho ▸ hv⟩
  · intro e he e' he' u hunit hread
    rcases List.mem_append.mp he with he | he <;> rcases List.mem_append.mp he' with he' | he'
    · exact h.loads_whole e he e' he' u hunit hread
    · exact absurd (hold e he) (by rw [hunit, (hnew he').1]; exact Nat.lt_irrefl _)
    · exact absurd (hold e' he') (by rw [← hunit, (hnew he).1]; exact Nat.lt_irrefl _)
    · obtain ⟨_, p, hpm, _, _, hk, _, _⟩ := hnew he
      obtain ⟨_, q, hqm, _, hqo, hqk, hql, _⟩ := hnew he'
      have hsrc : p.order.sourceAt p.place = .unit u := by simpa using hk.symm.trans hread
      rintro ⟨w₁, hw₁, k₂, k₁, hk₂, hk₁, hlt⟩
      obtain rfl : q.order.sourceAt q.place = w₁ := by simpa using hqk.symm.trans hw₁
      have hplace : k₁ = q.place := Option.some.inj (hk₁.symm.trans (hqo ▸ hql))
      exact readAdmitted_iff.mp ha p hpm u hsrc q hqm (hqo ▸ ByteOrder.mem_unitsFrom hk₂ (hplace ▸ hlt))

/-! #### A write unit -/

/-- What a write unit does to one byte: nothing where it brings no data for it, else one new write at the place picked,
which memory holds if the place is the end of the order. -/
theorem placeAll_storeAll_byte (unit : Nat) (adj : Bool) {ps : List Pick} (data : List Byte)
    (coh : List (Nat × ByteOrder)) (m : Memory) (b : Nat) (hn : (ps.map (·.addr)).Nodup) :
    (assocFind (addressed ps data) b = none ∧ assocFind (placeAll unit adj ps data coh) b = assocFind coh b ∧
        Memory.read (storeAll ps data m) b = m.read b) ∨
      ∃ p ∈ ps, ∃ v, p.addr = b ∧ assocFind (addressed ps data) b = some v ∧
        assocFind (placeAll unit adj ps data coh) b = some (p.placed unit v adj) ∧
        Memory.read (storeAll ps data m) b = if p.place = p.order.lastPlace then some v else m.read b := by
  induction ps generalizing data coh m with
  | nil => exact .inl ⟨rfl, by simp [placeAll], by simp [storeAll]⟩
  | cons p ps ih =>
    obtain ⟨hout, hn⟩ := List.nodup_cons.mp hn
    cases data with
    | nil => exact .inl ⟨rfl, by simp [placeAll], by simp [storeAll]⟩
    | cons v vs =>
      have hst : storeAll (p :: ps) (v :: vs) m =
          storeAll ps vs (if p.place = p.order.lastPlace then m.write p.addr v else m) := by
        rw [storeAll]; split <;> rfl
      rw [placeAll, hst]
      by_cases hb : p.addr = b
      · subst hb
        refine .inr ⟨p, by simp, v, rfl, by simp [addressed, assocFind], ?_, ?_⟩
        · rw [placeAll_find_outside _ _ _ _ _ _ hout, assocFind_insert_self]
        · rw [storeAll_read_outside _ _ _ _ hout]
          split <;> simp
      · have haddr : assocFind (addressed (p :: ps) (v :: vs)) b = assocFind (addressed ps vs) b := if_neg hb
        have hmem : Memory.read (if p.place = p.order.lastPlace then m.write p.addr v else m) b = m.read b := by
          split
          · exact Memory.read_write_other _ _ _ _ (Ne.symm hb)
          · rfl
        rw [haddr, ← assocFind_insert_other coh p.addr b (p.placed unit v adj) (Ne.symm hb), ← hmem]
        rcases ih vs (assocInsert coh p.addr (p.placed unit v adj))
          (if p.place = p.order.lastPlace then m.write p.addr v else m) hn with h | ⟨q, hq, h⟩
        · exact .inl h
        · exact .inr ⟨q, by simp [hq], h⟩

/-- From `s` to `t` the byte of the pick got the write `w` of a new unit, at the place picked; memory holds it if the
place is the end of the order. -/
structure State.WrittenAt (s t : State) (p : Pick) (w : CohWrite) : Prop where
  order : p.order = s.orderAt p.addr
  place : p.place ≤ p.order.lastPlace
  unit : w.unit = s.nextUnit
  follows : ∀ src, w.follows = some src → p.order.sourceAt p.place = src
  orderAt : t.orderAt p.addr = p.order.insertAt p.place w
  read : t.mem.read p.addr = if p.place = p.order.lastPlace then some w.value else s.mem.read p.addr

/-- From `s` to `t` one write unit took the places `ps`, or some of them: every other byte is as it was. -/
def State.WrittenBy (s t : State) (ps : List Pick) : Prop :=
  ∀ b, (t.orderAt b = s.orderAt b ∧ t.mem.read b = s.mem.read b) ∨ ∃ p ∈ ps, ∃ w, p.addr = b ∧ s.WrittenAt t p w

theorem State.placeWrite_writtenBy {s : State} {u : MUnit} {ps : List Pick} (hp : PicksOf s u.bytes ps) (g : Agent)
    (i : Nat) (data : List Byte) (adj : Bool) : s.WrittenBy (s.placeWrite g i u ps data adj) ps := by
  intro b
  have hn : (ps.map (·.addr)).Nodup := hp.1 ▸ u.bytes_nodup
  rcases placeAll_storeAll_byte s.nextUnit adj data s.coh s.mem b hn with ⟨_, hc, hm⟩ | ⟨p, hpm, v, rfl, _, hc, hm⟩
  · have hm' : (s.placeWrite g i u ps data adj).mem.read b = s.mem.read b := by rw [State.placeWrite_mem, hm]
    exact .inl ⟨State.orderAt_of_coh _ _ _ (by rw [State.placeWrite_coh, hc]) hm', hm'⟩
  · obtain ⟨ho, hk⟩ := hp.2 p hpm
    refine .inr ⟨p, hpm,
      { unit := s.nextUnit, value := v, follows := if adj then some (p.order.sourceAt p.place) else none }, rfl,
      ho, hk, rfl, ?_, ?_, by rw [State.placeWrite_mem, hm]⟩
    · intro src hsrc
      cases adj <;> simp at hsrc
      exact hsrc
    · simp only [State.orderAt, State.placeWrite_coh, hc, Pick.placed]

/-- One order grew into another by a write of the unit `n`, if at all: every other write is there as before, in the same
sequence and with its value. -/
def ByteOrder.GrowsBy (n : Nat) (o o' : ByteOrder) : Prop :=
  ∃ f : Nat → Nat, (∀ i j, f i < f j ↔ i < j) ∧
    (∀ src, src ≠ .unit n → o'.placeOf src = (o.placeOf src).map f) ∧ ∀ j, o'.valueAt (f j) = o.valueAt j

theorem ByteOrder.GrowsBy.refl (n : Nat) (o : ByteOrder) : o.GrowsBy n o := ⟨id, by simp, by simp, fun _ => rfl⟩

theorem ByteOrder.GrowsBy.insertAt {o : ByteOrder} {k : Nat} {w : CohWrite} (hk : k ≤ o.lastPlace)
    (hn : (o.writes.map (·.unit)).Nodup) (hw : w.unit ∉ o.writes.map (·.unit)) :
    o.GrowsBy w.unit (o.insertAt k w) :=
  ⟨shiftPlace k, fun _ _ => shiftPlace_lt, fun _ hs => ByteOrder.insertAt_placeOf_other hk hn hw hs,
    ByteOrder.insertAt_valueAt_shift hk⟩

theorem State.UnitsNumbered.fresh {s : State} (h : s.UnitsNumbered) (b : Nat) :
    s.nextUnit ∉ (s.orderAt b).writes.map (·.unit) := by
  intro hm
  obtain ⟨w, hw, hu⟩ := List.mem_map.mp hm
  exact absurd (h.2.1 b w hw) (by omega)

theorem State.UnitsNumbered.not_writesByte {s : State} (h : s.UnitsNumbered) (b : Nat) :
    ¬ s.WritesByte s.nextUnit b := by
  rintro ⟨j, hj⟩
  obtain ⟨i, w, _, hw, hu⟩ := ByteOrder.writes_of_placeOf hj
  exact h.fresh b (List.mem_map.mpr ⟨w, List.mem_of_getElem? hw, hu⟩)

theorem State.CoherenceAfter.asymm {s : State} {b : Nat} {x y : Source} (h : s.CoherenceAfter b x y) :
    ¬ s.CoherenceAfter b y x := by
  rintro ⟨i, j, hi, hj, hlt⟩
  obtain ⟨i', j', hi', hj', hlt'⟩ := h
  obtain rfl : i' = j := Option.some.inj (hi'.symm.trans hj)
  obtain rfl : j' = i := Option.some.inj (hj'.symm.trans hi)
  omega

theorem State.CoherenceAfter.writesByte_left {s : State} {b u : Nat} {y : Source} (h : s.CoherenceAfter b (.unit u) y) :
    s.WritesByte u b := h.imp fun _ ⟨_, hk, _⟩ => hk

theorem State.CoherenceAfter.writesByte_right {s : State} {b u : Nat} {x : Source}
    (h : s.CoherenceAfter b x (.unit u)) : s.WritesByte u b := by
  obtain ⟨_, k, _, hk, _⟩ := h
  exact ⟨k, hk⟩

theorem placementAdmitted_iff {ps : List Pick} : placementAdmitted ps = true ↔
    (∀ p ∈ ps, p.splitsNothing = true) ∧
      ∀ p ∈ ps, ∀ u ∈ p.order.unitsUpTo p.place, ∀ q ∈ ps, u ∉ q.order.unitsFrom q.place := by
  simp [placementAdmitted]

section WriteUnit

variable {s t : State} {ps : List Pick}

theorem State.WrittenBy.growsBy (h : s.WrittenBy t ps) (hu : s.UnitsNumbered) (b : Nat) :
    (s.orderAt b).GrowsBy s.nextUnit (t.orderAt b) := by
  rcases h b with ⟨ho, _⟩ | ⟨p, _, w, rfl, hw⟩
  · exact ho ▸ .refl _ _
  · rw [hw.orderAt, ← hw.unit, ← hw.order]
    exact .insertAt hw.place (hw.order ▸ hu.1 _) (by rw [hw.order, hw.unit]; exact hu.fresh _)

/-- Between writes that were there, nothing changed. -/
theorem State.WrittenBy.coherenceAfter_iff (h : s.WrittenBy t ps) (hu : s.UnitsNumbered) (b : Nat) {x y : Source}
    (hx : x ≠ .unit s.nextUnit) (hy : y ≠ .unit s.nextUnit) : t.CoherenceAfter b x y ↔ s.CoherenceAfter b x y := by
  obtain ⟨f, hf, hpl, _⟩ := h.growsBy hu b
  simp only [State.CoherenceAfter, hpl x hx, hpl y hy, Option.map_eq_some_iff]
  constructor
  · rintro ⟨_, _, ⟨i, hi, rfl⟩, ⟨j, hj, rfl⟩, hlt⟩
    exact ⟨i, j, hi, hj, (hf j i).mp hlt⟩
  · rintro ⟨i, j, hi, hj, hlt⟩
    exact ⟨f i, f j, ⟨i, hi, rfl⟩, ⟨j, hj, rfl⟩, (hf j i).mpr hlt⟩

theorem State.WrittenBy.writesByte_iff (h : s.WrittenBy t ps) (hu : s.UnitsNumbered) (b : Nat) {u : Nat}
    (hne : u ≠ s.nextUnit) : t.WritesByte u b ↔ s.WritesByte u b := by
  obtain ⟨f, _, hpl, _⟩ := h.growsBy hu b
  simp [State.WritesByte, hpl (.unit u) (by simpa using hne)]

/-- A byte that the new unit writes and an old one too: the old write is among those before the new one, and the new one
is Coherence-after it, or among those behind, and it is Coherence-after the new one. -/
theorem State.WrittenBy.new_against_old (h : s.WrittenBy t ps) (hu : s.UnitsNumbered) {b u : Nat}
    (hnew : t.WritesByte s.nextUnit b) (hold : t.WritesByte u b) (hne : u ≠ s.nextUnit) :
    ∃ p ∈ ps, (u ∈ p.order.unitsUpTo p.place ∧ t.CoherenceAfter b (.unit s.nextUnit) (.unit u)) ∨
      (u ∈ p.order.unitsFrom p.place ∧ t.CoherenceAfter b (.unit u) (.unit s.nextUnit)) := by
  rcases h b with ⟨ho, _⟩ | ⟨p, hp, w, rfl, hw⟩
  · exact absurd (by simpa [State.WritesByte, ho] using hnew) (hu.not_writesByte b)
  · obtain ⟨j, hj⟩ := (h.writesByte_iff hu p.addr hne).mp hold
    have hn := hw.order ▸ hu.1 p.addr
    have hfr : w.unit ∉ p.order.writes.map (·.unit) := by rw [hw.order, hw.unit]; exact hu.fresh _
    have hself := ByteOrder.insertAt_placeOf_self hw.place hn hfr
    have hother := ByteOrder.insertAt_placeOf_other (src := .unit u) hw.place hn hfr (by simpa [hw.unit] using hne)
    rw [← hw.order] at hj
    rw [← hw.orderAt, hj, Option.map_some] at hother
    rw [← hw.orderAt, hw.unit] at hself
    refine ⟨p, hp, ?_⟩
    rcases Nat.lt_or_ge p.place j with hlt | hle
    · refine .inr ⟨ByteOrder.mem_unitsFrom hj hlt, _, _, hother, hself, ?_⟩
      rw [shiftPlace, if_neg (by omega)]; omega
    · refine .inl ⟨ByteOrder.mem_unitsUpTo hj hle, _, _, hself, hother, ?_⟩
      rw [shiftPlace, if_pos hle]; omega

theorem State.WrittenBy.unitsNumbered (h : s.WrittenBy t ps) (hu : s.UnitsNumbered)
    (hnext : t.nextUnit = s.nextUnit + 1) (hist : ∀ e ∈ t.history, e ∈ s.history ∨ e.unit = s.nextUnit) :
    t.UnitsNumbered := by
  have hperm : ∀ b, ∃ l, ((t.orderAt b).writes.map (·.unit)).Perm (l ++ (s.orderAt b).writes.map (·.unit)) ∧
      (l = [] ∨ l = [s.nextUnit]) := by
    intro b
    rcases h b with ⟨ho, _⟩ | ⟨p, _, w, rfl, hw⟩
    · exact ⟨[], by rw [ho, List.nil_append], .inl rfl⟩
    · exact ⟨[w.unit], by rw [hw.orderAt, ← hw.order]; exact p.order.insertAt_units_perm _ w, .inr (by rw [hw.unit])⟩
  refine ⟨fun b => ?_, fun b w hw => ?_, fun e he => ?_⟩
  · obtain ⟨l, hl, rfl | rfl⟩ := hperm b
    · exact hl.nodup_iff.mpr (hu.1 b)
    · exact hl.nodup_iff.mpr (List.nodup_cons.mpr ⟨hu.fresh b, hu.1 b⟩)
  · obtain ⟨l, hl, hl'⟩ := hperm b
    rw [hnext]
    rcases List.mem_append.mp (hl.mem_iff.mp (List.mem_map_of_mem hw)) with hm | hm
    · rcases hl' with rfl | rfl
      · cases hm
      · rw [List.mem_singleton.mp hm]; exact Nat.lt_succ_self _
    · obtain ⟨v, hv, hvu⟩ := List.mem_map.mp hm
      exact hvu ▸ Nat.lt_succ_of_lt (hu.2.1 b v hv)
  · rw [hnext]
    rcases hist e he with h | h
    · exact Nat.lt_succ_of_lt (hu.2.2 e h)
    · exact h ▸ Nat.lt_succ_self _

theorem State.WrittenBy.memoryIsLast (h : s.WrittenBy t ps) (hm : s.MemoryIsLast) : t.MemoryIsLast := by
  intro b
  rcases h b with ⟨ho, hr⟩ | ⟨p, _, w, rfl, hw⟩
  · rw [ho, hr, hm b]
  · rw [hw.orderAt, hw.read, ByteOrder.insertAt_last hw.place, hm p.addr, ← hw.order]

theorem State.WrittenBy.readsHaveSources (h : s.WrittenBy t ps) (hu : s.UnitsNumbered) (hr : s.ReadsHaveSources)
    (hist : ∀ e ∈ t.history, e ∈ s.history ∨ e.kind = .write) : t.ReadsHaveSources := by
  intro e he w hw
  rcases hist e he with he | hk
  · obtain ⟨k, hk, hv⟩ := hr e he w hw
    obtain ⟨f, _, hpl, hval⟩ := h.growsBy hu e.addr
    have hne : w ≠ .unit s.nextUnit := by rintro rfl; exact hu.not_writesByte e.addr ⟨k, hk⟩
    exact ⟨f k, by rw [hpl w hne, hk, Option.map_some], by rw [hval, hv]⟩
  · exact absurd (hk.symm.trans hw) (by simp)

/-- R63: a unit goes behind or before another one on every byte, as its places were admitted. -/
theorem State.WrittenBy.storesOrdered (h : s.WrittenBy t ps) (hu : s.UnitsNumbered) (hs : s.StoresOrdered)
    (ha : placementAdmitted ps = true) : t.StoresOrdered := by
  have hadm := (placementAdmitted_iff.mp ha).2
  intro u₁ u₂ b b' hc hw₁ hw₂
  by_cases h₁ : u₁ = s.nextUnit <;> by_cases h₂ : u₂ = s.nextUnit
  · exact absurd (h₁.trans h₂.symm ▸ hc) (h₁.trans h₂.symm ▸ hc).asymm
  · subst h₁
    obtain ⟨p, hp, ⟨hup, _⟩ | ⟨_, hc'⟩⟩ := h.new_against_old hu hc.writesByte_left hc.writesByte_right h₂
    · obtain ⟨q, hq, ⟨_, hq'⟩ | ⟨hfrom, _⟩⟩ := h.new_against_old hu hw₁ hw₂ h₂
      · exact hq'
      · exact absurd hfrom (hadm p hp u₂ hup q hq)
    · exact absurd hc' hc.asymm
  · subst h₂
    obtain ⟨p, hp, ⟨_, hc'⟩ | ⟨hfrom, _⟩⟩ := h.new_against_old hu hc.writesByte_right hc.writesByte_left h₁
    · exact absurd hc' hc.asymm
    · obtain ⟨q, hq, ⟨hup, _⟩ | ⟨_, hq'⟩⟩ := h.new_against_old hu hw₂ hw₁ h₁
      · exact absurd hfrom (hadm q hq u₁ hup p hp)
      · exact hq'
  · have hx {u : Nat} (hne : u ≠ s.nextUnit) : Source.unit u ≠ .unit s.nextUnit := by simpa using hne
    rw [h.coherenceAfter_iff hu _ (hx h₁) (hx h₂)] at hc ⊢
    exact hs u₁ u₂ b b' hc ((h.writesByte_iff hu b' h₁).mp hw₁) ((h.writesByte_iff hu b' h₂).mp hw₂)

/-- R64: no read that was made is of the new unit, so no read unit sees the new unit in part. -/
theorem State.WrittenBy.loadsWhole (h : s.WrittenBy t ps) (hu : s.UnitsNumbered) (hr : s.ReadsHaveSources)
    (hl : s.LoadsWhole) (hist : ∀ e ∈ t.history, e ∈ s.history ∨ e.kind = .write) : t.LoadsWhole := by
  have hold {e : Effect} {w : Source} (he : e ∈ t.history) (hw : e.ReadsFrom w) :
      e ∈ s.history ∧ w ≠ .unit s.nextUnit := by
    rcases hist e he with he | hk
    · refine ⟨he, ?_⟩
      rintro rfl
      obtain ⟨k, hk, _⟩ := hr e he _ hw
      exact hu.not_writesByte e.addr ⟨k, hk⟩
    · exact absurd (hk.symm.trans hw) (by simp)
  rintro e he e' he' u hunit hread ⟨w₁, hw₁, hc⟩
  obtain ⟨hes, hune⟩ := hold he hread
  obtain ⟨hes', hwne⟩ := hold he' hw₁
  exact hl e hes e' hes' u hunit hread ⟨w₁, hw₁, (h.coherenceAfter_iff hu _ hune hwne).mp hc⟩

/-- R180, R121 (b): the new write succeeds what it must, and parts no write from the one that must precede it. -/
theorem State.WrittenBy.successionsKept (h : s.WrittenBy t ps) (hk : s.SuccessionsKept)
    (ha : placementAdmitted ps = true) : t.SuccessionsKept := by
  intro b k v src hv hf
  rcases h b with ⟨ho, _⟩ | ⟨p, hp, w, rfl, hw⟩
  · rw [ho] at hv ⊢
    exact hk b k v src hv hf
  · have hkeep (j : Nat) (hj : p.order.writes[j]? = some v) : p.order.sourceAt j = src := by
      rw [hw.order] at hj ⊢
      exact hk p.addr j v src hj hf
    rw [hw.orderAt, p.order.insertAt_writes _ _ hw.place] at hv
    rw [hw.orderAt]
    split at hv
    · next hlt => rw [ByteOrder.insertAt_sourceAt_of_le hw.place (by omega), hkeep k hv]
    · split at hv
      · next heq =>
        obtain rfl : w = v := Option.some.inj hv
        rw [ByteOrder.insertAt_sourceAt_of_le hw.place (by omega), heq, hw.follows src hf]
      · next hge hne =>
        obtain ⟨j, rfl⟩ : ∃ j, k = j + 1 := ⟨k - 1, by omega⟩
        rw [Nat.add_sub_cancel] at hv
        by_cases hj : j = p.place
        · have hsplit := (placementAdmitted_iff.mp ha).1 p hp
          subst hj
          simp [Pick.splitsNothing, hv, hf] at hsplit
        · rw [ByteOrder.insertAt_sourceAt_of_gt hw.place (by omega), hkeep j hv]

end WriteUnit

/-- A write unit at admitted places keeps the memory system coherent. -/
theorem State.Coherent.placeWrite {s : State} (h : s.Coherent) (g : Agent) (i : Nat) {u : MUnit} {ps : List Pick}
    (data : List Byte) (adj : Bool) (hp : PicksOf s u.bytes ps) (ha : placementAdmitted ps = true) :
    (s.placeWrite g i u ps data adj).Coherent := by
  have hw := State.placeWrite_writtenBy hp g i data adj
  have hist : ∀ e ∈ (s.placeWrite g i u ps data adj).history,
      e ∈ s.history ∨ (e.kind = .write ∧ e.unit = s.nextUnit) := by
    intro e he
    rw [State.placeWrite_history, List.mem_append] at he
    refine he.imp_right fun he => ?_
    obtain ⟨_, _, rfl⟩ := List.mem_map.mp he
    exact ⟨rfl, rfl⟩
  have hkind := fun e he => (hist e he).imp_right And.left
  refine ⟨s.placeWrite_wf g i u ps data adj h.mem_wf, ?_,
    hw.unitsNumbered h.units_numbered (s.placeWrite_nextUnit g i u ps data adj)
      fun e he => (hist e he).imp_right And.right,
    hw.memoryIsLast h.memory_is_last, hw.readsHaveSources h.units_numbered h.reads_have_sources hkind,
    hw.storesOrdered h.units_numbered h.stores_ordered ha,
    hw.loadsWhole h.units_numbered h.reads_have_sources h.loads_whole hkind, hw.successionsKept h.successions_kept ha⟩
  rw [State.placeWrite_coh]
  exact placeAll_rising _ _ _ _ _ h.coh_rising

theorem Change.coherent {s t : State} (h : Change s t) (hs : s.Coherent) : t.Coherent := by
  cases h with
  | choose | count | pe | sync | isb => exact hs.of_eq rfl rfl rfl rfl
  | read g i addrs ps l hp hn hl ha => exact hs.recordRead g i hp hl ha
  | write g i u ps data adj hp ha => exact hs.placeWrite g i data adj hp ha

/-- Settles O11: a step is a chain of changes, and each keeps the memory system coherent. -/
theorem stepKeepsCoherence : Obligations.StepKeepsCoherence :=
  step_keeps (fun _ _ _ hs => hs.of_eq rfl rfl rfl rfl) (fun _ _ hc hs => hc.coherent hs)

/-! ### Exclusive pairs (R45, R64) -/

/-- The bytes of different addresses that were read, each with the pick that comes right after it. -/
theorem successorPicks_pick {s : State} {reads : List GotByte} {as : List Nat} {ps : List Pick}
    (h : successorPicks s reads as = some ps) {a : Nat} (ha : a ∈ as) :
    ∃ g p, (reads.find? fun g => g.addr == a) = some g ∧ p ∈ ps ∧ p.order = s.orderAt a ∧
      p.order.placeOf g.source = some p.place := by
  induction as generalizing ps with
  | nil => cases ha
  | cons a' as ih =>
    simp only [successorPicks] at h
    split at h
    · next g hg =>
      split at h
      · next k ps' hk hps =>
        obtain rfl := Option.some.inj h
        rcases List.mem_cons.mp ha with rfl | ha
        · exact ⟨g, _, hg, List.mem_cons_self, rfl, hk⟩
        · obtain ⟨g', p, hg', hp, h'⟩ := ih hps ha
          exact ⟨g', p, hg', List.mem_cons_of_mem _ hp, h'⟩
      · cases h
    · cases h

/-- Settles O54: the write of the Store-Exclusive has an admitted place right after every byte that was read, so R63 for
that write is R64 for the reads. -/
theorem exclusiveReadsCountAsOneUnit : Obligations.ExclusiveReadsCountAsOneUnit := by
  intro s addr size ps e he haddr hps g hg g' hg' u hsrc
  obtain ⟨e', he', _, _, hsp⟩ := exclusivePlaces_spec s addr size ps hps
  obtain rfl : e = e' := Option.some.inj (he.symm.trans he')
  obtain ⟨_, hadm, hpicks⟩ := successorPlaces_spec _ _ _ _ _ hsp
  have hpick {g : GotByte} (hg : g ∈ e.reads) :
      ∃ p ∈ ps, p.order = s.orderAt g.addr ∧ p.order.placeOf g.source = some p.place := by
    obtain ⟨h, p, hf, hp, ho, hk⟩ := successorPicks_pick hpicks (haddr ▸ List.mem_map_of_mem hg)
    obtain rfl : h = g := Option.some.inj (hf.symm.trans (find_addr _ g (haddr ▸ byteAddrs_nodup _ _) hg))
    exact ⟨p, hp, ho, hk⟩
  obtain ⟨p, hp, _, hk⟩ := hpick hg
  obtain ⟨q, hq, ho, hk'⟩ := hpick hg'
  rintro ⟨k₂, k₁, hk₂, hk₁, hlt⟩
  obtain rfl : k₁ = q.place := Option.some.inj (hk₁.symm.trans (ho ▸ hk'))
  exact (placementAdmitted_iff.mp hadm).2 p hp u (ByteOrder.mem_unitsUpTo (hsrc ▸ hk) (Nat.le_refl _)) q hq
    (ho ▸ ByteOrder.mem_unitsFrom hk₂ hlt)

/-! ### The words a PE may fetch (20_memory.md rules R73, R74, R81) -/

theorem mem_addCandidate {l : List (Option Word32)} {w c : Option Word32} :
    c ∈ addCandidate l w ↔ c ∈ l ∨ c = w := by
  unfold addCandidate
  split
  · next h =>
    refine ⟨.inl, ?_⟩
    rintro (hc | rfl)
    · exact hc
    · exact List.contains_iff_mem.mp h
  · simp

/-- The candidates for a word depend on memory through that word only. -/
theorem PE.candidates_congr (p : PE) {m m' : Memory} {a : Nat} (h : memWord m a = memWord m' a) :
    p.candidates m a = p.candidates m' a := by
  simp only [PE.candidates, h]

theorem PE.candidates_insert (p : PE) (m : Memory) (a b : Nat) (l : List (Option Word32)) :
    PE.candidates { p with cand := assocInsert p.cand a l } m b = if b = a then l else p.candidates m b := by
  by_cases h : b = a <;> simp [PE.candidates, assocFind_insert, h]

/-- Every aligned word with a byte in the unit is one of the words the unit touches. -/
theorem mem_wordsOf_of_byte {u : MUnit} {a b : Nat} (ha : a % 4 = 0) (hb : b ∈ u.bytes) (hab : b ∈ byteAddrs a 4) :
    a ∈ wordsOf u := by
  obtain ⟨h1, h2⟩ := (mem_byteAddrs _ _ _).mp hb
  obtain ⟨h3, h4⟩ := (mem_byteAddrs _ _ _).mp hab
  rw [wordsOf, if_neg (by omega), List.mem_map]
  refine ⟨(a - wordAddr u.addr) / 4, List.mem_range.mpr ?_, ?_⟩ <;> simp only [wordAddr] <;> omega

theorem State.noteWord_of_unchanged {s : State} {old : Memory} {bytes : List (Nat × Byte)} {a : Nat}
    (h : overlayWord old bytes a = wordBytes old a) (g : Agent) : s.noteWord g old bytes a = s := if_pos h

/-- A word that the unit changes: what its stage is, and what every PE may fetch there, from now on. -/
theorem State.noteWord_of_changed {s : State} {old : Memory} {bytes : List (Nat × Byte)} {a : Nat}
    (h : overlayWord old bytes a ≠ wordBytes old a) (g : Agent) :
    (s.noteWord g old bytes a).sync = assocInsert s.sync a { stage := .written, writer := g } ∧
      (s.noteWord g old bytes a).pes = s.pes.map fun p =>
        { p with cand := assocInsert p.cand a
                  (addCandidate (addCandidate (p.candidates old a) (wordOfBytes (overlayWord old bytes a)))
                    (memWord s.mem a)) } := by
  rw [State.noteWord, if_neg h]
  exact ⟨rfl, rfl⟩

/-- Where each word either is one that the unit changes, or already has the word in memory among its candidates, the
word in memory is a candidate everywhere once the unit is noted. -/
theorem State.noteWrite_candidatesCurrent {s : State} {g : Agent} {old : Memory} {u : MUnit} {bytes : List (Nat × Byte)}
    (h : ∀ p ∈ s.pes, ∀ a, a % 4 = 0 →
      (a ∈ wordsOf u ∧ overlayWord old bytes a ≠ wordBytes old a) ∨ memWord s.mem a ∈ p.candidates s.mem a) :
    (s.noteWrite g old u bytes).CandidatesCurrent := by
  unfold State.noteWrite
  generalize wordsOf u = ws at h
  induction ws generalizing s with
  | nil => exact fun p hp a ha => (h p hp a ha).resolve_left (by simp)
  | cons w ws ih =>
    simp only [List.foldl_cons]
    refine ih fun p hp a ha => ?_
    by_cases hw : overlayWord old bytes w = wordBytes old w
    · rw [State.noteWord_of_unchanged hw] at hp ⊢
      refine (h p hp a ha).imp_left ?_
      rintro ⟨hmem, hne⟩
      exact ⟨(List.mem_cons.mp hmem).resolve_left (fun he => hne (he ▸ hw)), hne⟩
    · rw [(State.noteWord_of_changed hw g).2] at hp
      obtain ⟨p', hp', rfl⟩ := List.mem_map.mp hp
      rw [State.noteWord_mem, PE.candidates_insert]
      by_cases haw : a = w
      · rw [if_pos haw, haw]
        exact .inr (mem_addCandidate.mpr (.inr rfl))
      · rw [if_neg haw]
        exact (h p' hp' a ha).imp_left fun ⟨hmem, hne⟩ => ⟨(List.mem_cons.mp hmem).resolve_left haw, hne⟩

/-- A write unit that does not change a word leaves that word in memory. -/
theorem storeAll_memWord {ps : List Pick} {data : List Byte} {m : Memory} {a : Nat} (hn : (ps.map (·.addr)).Nodup)
    (h : overlayWord m (addressed ps data) a = wordBytes m a) : memWord (storeAll ps data m) a = memWord m a := by
  refine congrArg wordOfBytes (List.map_congr_left fun b hb => ?_)
  have hover := List.map_inj_left.mp h b hb
  rcases placeAll_storeAll_byte 0 false data [] m b hn with ⟨_, _, hr⟩ | ⟨p, _, v, _, hv, _, hr⟩
  · exact hr
  · rw [hv] at hover
    rw [hr, ← hover, ite_self]

/-- So does one that does not touch the word. -/
theorem storeAll_memWord_outside {ps : List Pick} {data : List Byte} {m : Memory} {u : MUnit} {a : Nat}
    (hp : ps.map (·.addr) = u.bytes) (ha : a % 4 = 0) (h : a ∉ wordsOf u) :
    memWord (storeAll ps data m) a = memWord m a :=
  congrArg wordOfBytes (List.map_congr_left fun _ hb =>
    storeAll_read_outside _ _ _ _ (hp ▸ fun hu => h (mem_wordsOf_of_byte ha hu hb)))

theorem State.CandidatesCurrent.placeWrite {s : State} (h : s.CandidatesCurrent) (g : Agent) (i : Nat) {u : MUnit}
    {ps : List Pick} (data : List Byte) (adj : Bool) (hp : PicksOf s u.bytes ps) :
    (s.placeWrite g i u ps data adj).CandidatesCurrent := by
  refine State.noteWrite_candidatesCurrent fun p hpm a ha => or_iff_not_imp_left.mpr fun hsame => ?_
  have hword : memWord (storeAll ps data s.mem) a = memWord s.mem a := by
    by_cases hin : a ∈ wordsOf u
    · exact storeAll_memWord (hp.1 ▸ u.bytes_nodup) (not_not.mp fun hne => hsame ⟨hin, hne⟩)
    · exact storeAll_memWord_outside hp.1 ha hin
  change memWord (storeAll ps data s.mem) a ∈ p.candidates (storeAll ps data s.mem) a
  rw [p.candidates_congr hword, hword]
  exact h p hpm a ha

/-- A new state of the current PE that may fetch the word in memory wherever the old one could. -/
theorem State.CandidatesCurrent.setPe {s : State} (h : s.CandidatesCurrent) {p : PE}
    (hp : s.pe ∈ s.pes → ∀ a, a % 4 = 0 → memWord s.mem a ∈ p.candidates s.mem a) : (s.setPe p).CandidatesCurrent := by
  intro q hq a ha
  by_cases hc : s.curOk = true
  · rcases List.mem_or_eq_of_mem_set hq with hq | rfl
    · exact h q hq a ha
    · exact hp (List.mem_of_getElem? (s.pes_get_cur hc)) a ha
  · rw [State.setPe_pes, List.set_eq_of_length_le (by simpa [State.curOk] using hc)] at hq
    exact h q hq a ha

theorem Change.candidatesCurrent {s t : State} (h : Change s t) (hs : s.CandidatesCurrent) : t.CandidatesCurrent := by
  cases h with
  | choose | count | sync | read => exact hs
  | pe p hp =>
    refine hs.setPe fun hpe a ha => ?_
    simpa only [PE.candidates, hp.cand] using hs s.pe hpe a ha
  | isb =>
    refine hs.setPe fun hpe a ha => ?_
    have hcand := hs s.pe hpe a ha
    simp only [PE.candidates] at hcand ⊢
    rw [assocFind_filter s.pe.cand (fun k => s.syncOf k != .observable)]
    split_ifs
    · exact hcand
    · exact List.mem_singleton_self _
  | write g i u ps data adj hp _ => exact hs.placeWrite g i data adj hp

/-- Settles O13: a step is a chain of changes, and each leaves the word in memory a candidate. -/
theorem stepKeepsCandidatesCurrent : Obligations.StepKeepsCandidatesCurrent :=
  step_keeps (fun _ _ _ hs => hs) fun _ _ hc hs => hc.candidatesCurrent hs

/-! #### A fetch of one of several candidates -/

theorem State.Accessible.find_none {s : State} {a n : Nat} (h : s.Accessible a n) :
    (byteAddrs a n).find? (fun b => !inMemMap s.cfg b) = none := by
  rw [List.find?_eq_none]
  intro b hb
  obtain ⟨h1, h2⟩ := (mem_byteAddrs _ _ _).mp hb
  simp [h.2 b h1 h2]

section Fetch

variable {s : State} (ha : s.pe.pc.toNat % 4 = 0) (hm : s.Accessible s.pe.pc.toNat 4)

include ha hm

theorem State.fetch_of_one {c : Option Word32} (hc : s.pe.candidates s.mem s.pe.pc.toNat = [c]) :
    s.fetch = deliver s.pe.pc.toNat c s := by
  simp only [State.fetch, ha, ne_eq, not_true_eq_false, if_false, hm.find_none, hc]

theorem State.fetch_of_several {cs : List (Option Word32)} (hc : s.pe.candidates s.mem s.pe.pc.toNat = cs)
    (hl : 1 < cs.length) :
    s.fetch =
      if cs.all candidateSafe then
        deliver s.pe.pc.toNat (cs.getD (s.drawBelow cs.length).1 none) (s.drawBelow cs.length).2
      else .fault (.cmodxUnpredictable s.cur s.pe.pc.toNat) := by
  match cs, hl with
  | _ :: _ :: _, _ => simp only [State.fetch, ha, ne_eq, not_true_eq_false, if_false, hm.find_none, hc]

end Fetch

theorem State.drawBelow_eq (s : State) (n : Nat) :
    ∃ d c, (s.drawBelow n).2 = { s with pending := d, drawCount := c } := by
  unfold State.drawBelow State.draw
  split
  · exact ⟨_, _, rfl⟩
  · split
    · exact ⟨_, _, rfl⟩
    · exact ⟨_, _, rfl⟩

/-- Settles O19: one candidate is delivered as it is; of several, the drawn one, if all are safe. -/
theorem fetchReturnsOneCandidate : Obligations.FetchReturnsOneCandidate := by
  intro s ws ha hm hc
  have hall : (ws.map some).all candidateSafe = true ↔ ∀ w ∈ ws, cmodxSafe w = true := by
    simp [List.all_eq_true, candidateSafe]
  refine ⟨fun hne hsafe => ?_, fun hl ⟨w, hw, hunsafe⟩ => ?_⟩
  · by_cases hl : ws.length = 1
    · obtain ⟨w, rfl⟩ := List.length_eq_one_iff.mp hl
      exact ⟨w, List.mem_singleton_self w, s.pending, s.drawCount, State.fetch_of_one ha hm hc⟩
    · have hpos := List.length_pos_iff.mpr hne
      have hlt := s.drawBelow_lt ws.length hpos
      obtain ⟨d, c, hd⟩ := s.drawBelow_eq ws.length
      refine ⟨ws[(s.drawBelow ws.length).1], List.getElem_mem hlt, d, c, ?_⟩
      rw [State.fetch_of_several ha hm hc (by rw [List.length_map]; omega), if_pos (hall.mpr (hsafe.resolve_left hl)),
        List.length_map, hd]
      simp [List.getD_eq_getElem?_getD, hlt, deliver]
  · rw [State.fetch_of_several ha hm hc (by rwa [List.length_map]), if_neg]
    exact fun hsafe => by simp [hall.mp hsafe w hw] at hunsafe

/-! #### A store to an instruction word -/

theorem allBytes_map_some (l : List Byte) : allBytes (l.map some) = some l := by
  induction l with
  | nil => rfl
  | cons b l ih => simp [allBytes, ih]

/-- A unit that brings a byte for every address of a word makes it the word of those bytes. -/
theorem wordOfBytes_overlayWord {data : List Byte} (hd : data.length = 4) (m : Memory) (a : Nat) :
    wordOfBytes (overlayWord m ((byteAddrs a 4).zip data) a) = some (BitVec.ofNat 32 (leValue data)) := by
  have h : overlayWord m ((byteAddrs a 4).zip data) a = data.map some := by
    match data, hd with
    | [b0, b1, b2, b3], _ => simp [overlayWord, byteAddrs, List.range_succ, assocFind]
  rw [wordOfBytes, h, allBytes_map_some, Option.map_some]

/-- An aligned word is the only word its own unit touches. -/
theorem wordsOf_word {a : Nat} (ha : a % 4 = 0) : wordsOf { addr := a, size := 4 } = [a] := by
  have h1 : (a + 4 - 1) / 4 - a / 4 + 1 = 1 := by omega
  have h2 : wordAddr a = a := by simp only [wordAddr]; omega
  simp only [wordsOf, h1, h2, OfNat.ofNat_ne_zero, if_false, List.range_one, List.map_cons, List.map_nil, Nat.mul_zero,
    Nat.add_zero]

/-- A write unit of a whole aligned word is noted for that word, and for the bytes it brings. -/
theorem State.placeWrite_word (s : State) (g : Agent) (i : Nat) {a : Nat} (ha : a % 4 = 0) {ps : List Pick}
    (hp : ps.map (·.addr) = byteAddrs a 4) (data : List Byte) (adj : Bool) :
    ∃ s₁ : State, s.placeWrite g i { addr := a, size := 4 } ps data adj =
        s₁.noteWord g s.mem ((byteAddrs a 4).zip data) a ∧
      s₁.cfg = s.cfg ∧ s₁.pes = s.pes ∧ s₁.cur = s.cur ∧ s₁.sync = s.sync := by
  rw [State.placeWrite, State.noteWrite, wordsOf_word ha, addressed, hp]
  exact ⟨_, rfl, rfl, rfl, rfl, rfl⟩

theorem writeUnit_eq (g : Agent) (i : Nat) (u : MUnit) (data : List Byte) (s : State) :
    writeUnit g i u data s =
      (choosePicks placementAdmitted s u).2.placeWrite g i u (choosePicks placementAdmitted s u).1 data false := rfl

theorem writeUnit_word (g : Agent) (i : Nat) {a : Nat} (ha : a % 4 = 0) (data : List Byte) (s : State) :
    ∃ s₁ : State, writeUnit g i { addr := a, size := 4 } data s =
        s₁.noteWord g s.mem ((byteAddrs a 4).zip data) a ∧
      s₁.cfg = s.cfg ∧ s₁.pes = s.pes ∧ s₁.cur = s.cur ∧ s₁.sync = s.sync := by
  obtain ⟨⟨hp, _⟩, _, hs⟩ := choosePicks_spec placementAdmitted s { addr := a, size := 4 }
  rw [writeUnit_eq]
  generalize choosePicks placementAdmitted s { addr := a, size := 4 } = r at hp hs ⊢
  have hmem : r.2.mem = s.mem := by rw [hs]
  have hcfg : r.2.cfg = s.cfg := by rw [hs]
  have hpes : r.2.pes = s.pes := by rw [hs]
  have hcur : r.2.cur = s.cur := by rw [hs]
  have hsync : r.2.sync = s.sync := by rw [hs]
  rw [← hmem, ← hcfg, ← hpes, ← hcur, ← hsync]
  exact r.2.placeWrite_word g i ha hp data false

/-- Settles O21: the unit changes the word, because its bytes make another one than memory holds. -/
theorem writeAddsCandidate : Obligations.WriteAddsCandidate := by
  intro s t g inst a data q p p' hd ha hne ht hp hp'
  have hover := wordOfBytes_overlayWord hd s.mem a
  have hchanged : overlayWord s.mem ((byteAddrs a 4).zip data) a ≠ wordBytes s.mem a :=
    fun h => hne (by rw [← hover, h]; rfl)
  obtain ⟨s₁, hw, _, hpes, _, _⟩ := writeUnit_word g inst ha data s
  obtain ⟨hsync, hcand⟩ := State.noteWord_of_changed (s := s₁) hchanged g
  rw [hw] at ht
  subst ht
  refine ⟨by rw [hsync, assocFind_insert_self], fun c => ?_⟩
  rw [hcand, hpes, List.getElem?_map, hp, Option.map_some] at hp'
  obtain rfl := Option.some.inj hp'
  rw [PE.candidates_insert, if_pos rfl, mem_addCandidate, mem_addCandidate, hover, State.noteWord_mem, or_assoc]

/-! ### Units of an access (20_memory.md rules R30 to R62)

The conditions of the rules as the model tests them, then the units of each class. -/

@[simp] theorem aligned_iff {a n : Nat} : aligned a n = true ↔ a % n = 0 := beq_iff_eq

@[simp] theorem aligned_eq_false_iff {a n : Nat} : aligned a n = false ↔ a % n ≠ 0 := beq_eq_false_iff_ne

theorem within16_iff {a n : Nat} (hn : 1 ≤ n) : within16 a n = true ↔ a / 16 = (a + n - 1) / 16 := by
  simp [within16, hn]

@[simp] theorem Access.writeBack_iff {cfg : Config} {a : Access} :
    a.writeBack cfg = true ↔ ∀ b ∈ a.bytes, iwbOwb cfg b = true := List.all_eq_true

theorem Access.lse2Unaligned_iff {cfg : Config} {a : Access} (hn : 1 ≤ a.size) :
    a.lse2Unaligned cfg = true ↔ cfg.armv8_4OrLater = true ∧ cfg.featLse2 = true ∧
      (∀ b ∈ a.bytes, iwbOwb cfg b = true) ∧ a.addr % a.size ≠ 0 ∧ a.addr / 16 = (a.addr + a.size - 1) / 16 := by
  simp [Access.lse2Unaligned, within16_iff hn, and_assoc]

theorem Access.lrcpcUnit_iff {cfg : Config} {a : Access} (hn : 1 ≤ a.size) :
    a.lrcpcUnit cfg = true ↔ cfg.armv8_4OrLater = true ∧ cfg.featLrcpc = true ∧
      (∀ b ∈ a.bytes, iwbOwb cfg b = true) ∧ a.addr / 16 = (a.addr + a.size - 1) / 16 := by
  simp [Access.lrcpcUnit, within16_iff hn, and_assoc]

theorem PairMnemonic.inLse2Lists_iff {m : PairMnemonic} : m.inLse2Lists = true ↔ m ∈ [.ldp, .ldnp, .stp] := by
  cases m <;> decide

theorem Access.lse2Pair_iff {cfg : Config} {a : Access} :
    a.lse2Pair cfg = true ↔ cfg.armv8_4OrLater = true ∧ cfg.featLse2 = true ∧ a.mnemonic ∈ [.ldp, .ldnp, .stp] ∧
      (∀ b ∈ a.bytes, iwbOwb cfg b = true) ∧
      (a.size = 8 ∧ a.addr % 16 = 0 ∨ a.size = 4 ∧ a.addr / 16 = (a.addr + 7) / 16) := by
  have h8 : within16 a.addr 8 = true ↔ a.addr / 16 = (a.addr + 7) / 16 := within16_iff (by decide)
  simp only [Access.lse2Pair, Bool.and_eq_true, Bool.or_eq_true, beq_iff_eq, aligned_iff, h8, Access.writeBack_iff,
    PairMnemonic.inLse2Lists_iff]
  tauto

/-! #### Accesses of one quantity -/

theorem Access.whole_of_one {a : Access} (hc : a.count = 1) : a.whole = { addr := a.addr, size := a.size } := by
  simp [Access.whole, Access.total, hc]

theorem singleUnits_of_aligned {cfg : Config} {a : Access} (hc : a.count = 1) (h : a.addr % a.size = 0) :
    singleUnits cfg a = [{ addr := a.addr, size := a.size }] := by
  rw [singleUnits, aligned_iff.mpr h, Bool.true_or, if_pos rfl, Access.whole_of_one hc]

theorem singleUnits_of_misaligned {cfg : Config} {a : Access} (hc : a.count = 1) (h : a.addr % a.size ≠ 0) :
    singleUnits cfg a =
      if a.lse2Unaligned cfg then [{ addr := a.addr, size := a.size }] else byteUnits a.addr a.size := by
  rw [singleUnits, aligned_eq_false_iff.mpr h, Bool.false_or, Access.whole_of_one hc]

/-- `GPR_SINGLE`, and `FP_SINGLE` up to 8 bytes, have the units of a single quantity. -/
theorem scaUnits_single {cfg : Config} {a : Access} (h : a.cls = .gprSingle ∨ a.cls = .fpSingle) (hs : a.size ≤ 8) :
    scaUnits cfg a = some (singleUnits cfg a) := by
  rcases h with h | h
  · simp only [scaUnits, h]
  · simp only [scaUnits, h, fpSingleUnits, if_pos hs]

/-- Settles O27: the aligned case of a single quantity. -/
theorem alignedSingleIsOneUnit : Obligations.AlignedSingleIsOneUnit := by
  intro cfg a hcls hc ha
  simp only [scaUnits, hcls, singleUnits_of_aligned hc ha]

/-- Settles O28: `lse2Pair` is the condition of R60 and R61; where it fails, alignment decides. -/
theorem pairUnits : Obligations.PairUnits := by
  intro cfg a one hcls hc _ hone
  have hsca : scaUnits cfg a = some (gprPairUnits cfg a) := by simp only [scaUnits, hcls]
  rw [← Access.lse2Pair_iff] at hone
  have htotal : a.total = 2 * a.size := by rw [Access.total, hc, Nat.mul_comm]
  rw [hsca, hone, gprPairUnits]
  refine ⟨fun h => ?_, fun h ha => ?_, fun h ha => ?_⟩
  · rw [if_pos h, Access.whole, htotal]
  · rw [if_neg h, if_pos (aligned_iff.mpr ha)]
    simp [Access.perQuantity, hc, List.range_succ]
  · rw [if_neg h, if_neg (by simpa using ha), htotal]

/-- Settles O29: the two classes, by the direction of the access. -/
theorem exclusivePairUnits : Obligations.ExclusivePairUnits := by
  intro cfg a
  refine ⟨fun hcls hd => ?_, fun hcls hc hs hd => ?_, fun hcls hd => ?_⟩
  · simp only [scaUnits, hcls, if_neg hd]
  · simp only [scaUnits, hcls, exclPair64Units, hd, Access.whole, Access.total, hc, hs]
  · rcases hcls with hcls | hcls
    · simp only [scaUnits, hcls, if_pos hd]
    · simp only [scaUnits, hcls, exclPair64Units, hd]

/-- Settles O30: `FP_SINGLE` by its size, then a pair of 128-bit registers under R46 and outside it. -/
theorem simdUnits : Obligations.SimdUnits := by
  intro cfg a
  refine ⟨fun hcls hc hs ha => ?_, fun hcls hs ha => ?_, fun hcls hc hs hf ha hb => ?_, fun hcls hc hs ha hn => ?_⟩
  · rw [scaUnits_single (.inr hcls) hs, singleUnits_of_aligned hc ha]
  · simp [scaUnits, hcls, fpSingleUnits, hs, aligned_iff.mpr ha, doublewordUnits, List.range_succ]
  · have hall : a.bytes.all (wbShareable cfg) = true := List.all_eq_true.mpr hb
    simp [scaUnits, hcls, fpPairUnits, hs, hf, aligned_iff.mpr ha, hall, Access.whole, Access.total, hc]
  · have hr46 : (cfg.featLs64wb && aligned a.addr 32 && a.bytes.all (wbShareable cfg)) = false := by
      rcases hn with h | h | ⟨b, hb, h⟩
      · simp [h]
      · simp [aligned_eq_false_iff.mpr h]
      · rw [List.all_eq_false.mpr ⟨b, hb, by simp [h]⟩, Bool.and_false]
    simp [scaUnits, hcls, fpPairUnits, hs, hr46, aligned_iff.mpr ha, doublewordUnits, List.range_succ]

/-! #### Elements -/

theorem all_aligned_iff {l : List Nat} {n : Nat} : l.all (aligned · n) = true ↔ ∀ e ∈ l, e % n = 0 := by
  simp [List.all_eq_true]

/-- Settles O31: one clause for each class and each branch of its units. -/
theorem elementAndByteUnits : Obligations.ElementAndByteUnits := by
  intro cfg a
  refine ⟨fun hcls ha => ?_, fun hcls ha => ?_, fun hcls hs ha => ?_, fun hcls hs ⟨e, he, hne⟩ => ?_,
    fun hcls hs ha => ?_, fun hcls => ?_, fun hcls => ?_⟩
  · simp only [scaUnits, hcls, if_pos (aligned_iff.mpr ha), Access.perQuantity]
  · simp only [scaUnits, hcls, aligned_eq_false_iff.mpr ha, Bool.false_eq_true, if_false]
  · simp only [scaUnits, hcls, svePredUnits, all_aligned_iff.mpr ha, hs, decide_true, Bool.and_self, if_true]
  · have hmis : a.elems.all (aligned · a.size) = false := List.all_eq_false.mpr ⟨e, he, by simpa using hne⟩
    have h16 : (a.size == 16) = false := beq_false_of_ne (by omega)
    simp only [scaUnits, hcls, svePredUnits, hmis, h16, Bool.and_false, Bool.false_and, Bool.false_eq_true, if_false]
  · simp [scaUnits, hcls, svePredUnits, hs, all_aligned_iff.mpr ha, doublewordUnits, List.range_succ]
  · simp only [scaUnits, hcls]
  · simp only [scaUnits, hcls]

/-- A FEAT_LRCPC access that R58 or R59 makes one unit, or that is aligned. -/
theorem lrcpcUnits_of_one {cfg : Config} {a : Access} (hc : a.count = 1)
    (h : a.addr % a.size = 0 ∨ a.lrcpcUnit cfg = true ∨ a.lse2Unaligned cfg = true) :
    lrcpcUnits cfg a = [{ addr := a.addr, size := a.size }] := by
  rw [lrcpcUnits, if_pos, Access.whole_of_one hc]
  simpa [or_assoc] using h

/-- Settles O32: a misaligned access of one register is one unit exactly where `lse2Unaligned` holds (R59). -/
theorem walkAndFeatureUnits : Obligations.WalkAndFeatureUnits := by
  intro cfg a
  refine ⟨fun hcls => ?_, fun hcls hf ha => ?_, fun hcls hc hs h84 hf hin hwb => ?_,
    fun hcls hc h1 h8 ha one hone => ?_⟩
  · simp only [scaUnits, hcls]
  · simp only [scaUnits, hcls, hf, aligned_iff.mpr ha, Bool.and_self, if_true]
  · have hone := (Access.lrcpcUnit_iff hs).mpr ⟨h84, hf, hwb, hin⟩
    simp only [scaUnits, hcls, lrcpcUnits_of_one hc (.inr (.inl hone))]
  · have hcond : one ↔ a.lse2Unaligned cfg = true := by
      rw [hone, Access.lse2Unaligned_iff h1]; tauto
    rw [scaUnits_single hcls h8, singleUnits_of_misaligned hc ha, hcond]
    exact ⟨fun h => by rw [if_pos h], fun h => by rw [if_neg h]⟩

/-! #### The units of an access are its bytes (R30, R62) -/

theorem MUnit.flatMap_one (u : MUnit) : [u].flatMap MUnit.bytes = u.bytes := by simp

theorem singleUnits_bytes (cfg : Config) {a : Access} (hc : a.count = 1) :
    (singleUnits cfg a).flatMap MUnit.bytes = byteAddrs a.addr a.total := by
  have htotal : a.total = a.size := by rw [Access.total, hc, Nat.mul_one]
  unfold singleUnits
  split
  · exact a.whole.flatMap_one
  · rw [byteUnits_bytes, htotal]

theorem Access.perQuantity_bytes (a : Access) : a.perQuantity.flatMap MUnit.bytes = byteAddrs a.addr a.total :=
  quantities_bytes a.addr a.size a.count

theorem gprPairUnits_bytes (cfg : Config) (a : Access) :
    (gprPairUnits cfg a).flatMap MUnit.bytes = byteAddrs a.addr a.total := by
  unfold gprPairUnits
  split
  · exact a.whole.flatMap_one
  · split
    · exact a.perQuantity_bytes
    · exact byteUnits_bytes _ _

theorem exclPair64Units_bytes (cfg : Config) {a : Access} (ht : a.total = 16) (hd : a.dir ≠ .failedWrite) :
    (exclPair64Units cfg a).flatMap MUnit.bytes = byteAddrs a.addr a.total := by
  unfold exclPair64Units
  split
  · next h => exact absurd h hd
  · exact a.whole.flatMap_one
  · split
    · rw [doublewordUnits_bytes, ht]
    · rw [byteUnits_bytes, ht]

theorem fpSingleUnits_bytes (cfg : Config) {a : Access} (hc : a.count = 1) (hs : a.size ≤ 8 ∨ a.size = 16) :
    (fpSingleUnits cfg a).flatMap MUnit.bytes = byteAddrs a.addr a.total := by
  unfold fpSingleUnits
  split
  · exact singleUnits_bytes cfg hc
  · next h =>
    have ht : a.total = 16 := by rw [Access.total, hc, hs.resolve_left h]
    split
    · rw [doublewordUnits_bytes, ht]
    · rw [byteUnits_bytes, ht]

theorem fpPairUnits_bytes (cfg : Config) {a : Access} (hc : a.count = 2) :
    (fpPairUnits cfg a).flatMap MUnit.bytes = byteAddrs a.addr a.total := by
  unfold fpPairUnits
  split
  · next h =>
    have ht : a.total = 32 := by rw [Access.total, hc, h]
    split
    · exact a.whole.flatMap_one
    · split
      · rw [doublewordUnits_bytes, ht]
      · rw [byteUnits_bytes, ht]
  · split
    · exact a.perQuantity_bytes
    · exact byteUnits_bytes _ _

theorem svePredUnits_bytes (a : Access) :
    (svePredUnits a).flatMap MUnit.bytes = a.elems.flatMap fun e => byteAddrs e a.size := by
  unfold svePredUnits
  split
  · rw [List.flatMap_map]; rfl
  · split
    · next h =>
      have h16 : a.size = 16 := by simp at h; exact h.1
      simp only [List.flatMap_assoc, doublewordUnits_bytes, h16]
    · simp only [List.flatMap_assoc, byteUnits_bytes]

theorem atomicUnits_bytes (cfg : Config) (a : Access) :
    (atomicUnits cfg a).flatMap MUnit.bytes = byteAddrs a.addr a.total := by
  unfold atomicUnits
  split
  · exact a.whole.flatMap_one
  · exact byteUnits_bytes _ _

theorem lrcpcUnits_bytes (cfg : Config) {a : Access} (hc : a.count = 1) :
    (lrcpcUnits cfg a).flatMap MUnit.bytes = byteAddrs a.addr a.total := by
  have htotal : a.total = a.size := by rw [Access.total, hc, Nat.mul_one]
  unfold lrcpcUnits
  split
  · exact a.whole.flatMap_one
  · rw [byteUnits_bytes, htotal]

/-- Settles O26: class by class, the units of `SCAUnits` are the bytes of the access. -/
theorem unitsCoverTheAccess : Obligations.UnitsCoverTheAccess := by
  intro cfg a us hshape hdir hwalk hzva hus
  cases hcls : a.cls
  case svePred =>
    obtain rfl : svePredUnits a = us := by simpa only [scaUnits, hcls, Option.some.injEq] using hus
    simp only [svePredUnits_bytes, Access.bytes, hcls]
  case ttwRead => exact absurd hcls hwalk
  case ifetch => simp only [scaUnits, hcls, reduceCtorEq] at hus
  all_goals
    rw [a.bytes_contiguous (by rw [hcls]; decide)]
    simp only [Access.Shaped, hcls] at hshape
    simp only [scaUnits, hcls, Option.some.injEq] at hus
  case gprSingle => exact hus ▸ singleUnits_bytes cfg hshape.1
  case gprPair => exact hus ▸ gprPairUnits_bytes cfg a
  case exclPair32 =>
    rw [← hus, if_neg hdir, Access.total, hshape.1, hshape.2]
    exact MUnit.flatMap_one _
  case exclPair64 => exact hus ▸ exclPair64Units_bytes cfg (by rw [Access.total, hshape.1, hshape.2]) hdir
  case fpSingle => exact hus ▸ fpSingleUnits_bytes cfg hshape.1 (by omega)
  case fpPair => exact hus ▸ fpPairUnits_bytes cfg hshape.1
  case fpElemStruct =>
    rw [← hus]
    split
    · exact a.perQuantity_bytes
    · exact byteUnits_bytes _ _
  case sveUnpred => exact hus ▸ byteUnits_bytes _ _
  case ls64 =>
    split at hus
    · rw [← Option.some.inj hus, Access.total, hshape.1, hshape.2]
      exact MUnit.flatMap_one _
    · cases hus
  case atomic => exact hus ▸ atomicUnits_bytes cfg a
  case dcZva =>
    obtain ⟨hsize, hcount⟩ := hzva hcls
    rw [← hus, byteUnits_bytes, Access.total, hsize, hcount, Nat.mul_one]
  case lrcpc => exact hus ▸ lrcpcUnits_bytes cfg hshape.1
  case other => exact hus ▸ byteUnits_bytes _ _

/-! ### Misaligned accesses (20_memory.md rule R83; 92_eei_decisions.md D4) -/

theorem checkAccess_of_class {cfg : Config} {a : Access} (h : a.misalignedByClass = true) :
    checkAccess cfg a = turnAway cfg a.addr := if_pos h

/-- An access inside `MEMMAP` and the address space that its class does not turn away: what is left is the memory. -/
theorem checkAccess_of_memory {cfg : Config} {a : Access} (hcls : a.misalignedByClass = false)
    (hend : a.pastEnd = false) (hmap : ∀ b ∈ a.bytes, inMemMap cfg b = true) :
    checkAccess cfg a = if a.misalignedByMemory cfg then turnAway cfg a.addr else .next none := by
  have hf : a.bytes.find? (fun b => !inMemMap cfg b) = none :=
    List.find?_eq_none.mpr fun b hb => by simp [hmap b hb]
  simp only [checkAccess, hcls, hend, hf, Bool.false_eq_true, if_false]

/-- Registers and elements that are misaligned are judged by the memory they touch alone (R83 (b)). -/
theorem misalignedByMemory_of_misaligned {cfg : Config} {a : Access}
    (h : a.cls ∈ [.gprSingle, .gprPair, .fpSingle, .fpPair, .fpElemStruct, .sveUnpred, .other] ∧ a.addr % a.size ≠ 0 ∨
      a.cls = .svePred ∧ ∃ e ∈ a.elems, e % a.size ≠ 0) :
    a.misalignedByClass = false ∧ a.misalignedByMemory cfg = !a.bytes.all (isNormal cfg) := by
  rcases h with ⟨hcls, ha⟩ | ⟨hcls, e, he, hne⟩
  · have hal := aligned_eq_false_iff.mpr ha
    simp only [List.mem_cons, List.not_mem_nil, or_false] at hcls
    rcases hcls with hcls | hcls | hcls | hcls | hcls | hcls | hcls <;>
      exact ⟨by simp only [Access.misalignedByClass, hcls],
        by simp only [Access.misalignedByMemory, hcls, hal, Bool.not_false, Bool.true_and]⟩
  · have hmis : a.elems.all (aligned · a.size) = false := List.all_eq_false.mpr ⟨e, he, by simpa using hne⟩
    exact ⟨by simp only [Access.misalignedByClass, hcls],
      by simp only [Access.misalignedByMemory, hcls, hmis, Bool.not_false, Bool.true_and]⟩

/-- Settles O59: by class, by memory, and for FEAT_LRCPC by whether R58 or R59 makes one unit of the access. -/
theorem misalignmentPolicy : Obligations.MisalignmentPolicy := by
  intro cfg a hend hmap
  refine ⟨fun hcls hshape ha => checkAccess_of_class ?_, fun h => ?_, fun hcls hc hs ha one hone => ?_⟩
  · have hal := aligned_eq_false_iff.mpr ha
    simp only [List.mem_cons, List.not_mem_nil, or_false] at hcls
    rcases hcls with hcls | hcls | hcls | hcls
    · simp only [Access.misalignedByClass, hcls, hal, Bool.not_false]
    · simp only [Access.misalignedByClass, hcls, hal, Bool.not_false]
    · simp only [Access.misalignedByClass, hcls, hal, Bool.not_false]
    · simp only [Access.Shaped, hcls] at hshape
      rw [Access.total, hshape.1, hshape.2] at hal
      simp only [Access.misalignedByClass, hcls, hal, Bool.not_false]
  · obtain ⟨hclass, hmem⟩ := misalignedByMemory_of_misaligned (cfg := cfg) h
    rw [checkAccess_of_memory hclass hend hmap, hmem]
    refine ⟨fun hnormal => ?_, fun ⟨b, hb, hdev⟩ => ?_⟩
    · rw [List.all_eq_true.mpr hnormal]; rfl
    · rw [List.all_eq_false.mpr ⟨b, hb, by simp [hdev]⟩]; rfl
  · have hcond : one ↔ a.lrcpcUnit cfg = true ∨ a.lse2Unaligned cfg = true := by
      rw [hone, Access.lrcpcUnit_iff hs, Access.lse2Unaligned_iff hs]; tauto
    have hclass : a.misalignedByClass = false := by simp only [Access.misalignedByClass, hcls]
    have hmem : a.misalignedByMemory cfg = !(a.lrcpcUnit cfg || a.lse2Unaligned cfg) := by
      simp only [Access.misalignedByMemory, hcls, aligned_eq_false_iff.mpr ha, Bool.not_false, Bool.true_and,
        Bool.not_or]
    rw [checkAccess_of_memory hclass hend hmap, hmem, hcond, ← Bool.or_eq_true]
    refine ⟨fun h => ⟨by rw [h]; rfl, ?_⟩, fun h => by rw [Bool.eq_false_iff.mpr h]; rfl⟩
    simp only [scaUnits, hcls, lrcpcUnits_of_one hc (.inr (by simpa using h))]

/-! ### The writer's sequence (20_memory.md rules R76, R80, R81)

Every instruction of the sequence leaves the registers and the PEs in their places, and moves the stage of the word. -/

/-- The same PE is current, among as many, and its data registers are as they were. -/
structure State.SameRegisters (s t : State) : Prop where
  cur : t.cur = s.cur
  pes_length : t.pes.length = s.pes.length
  x : t.pe.x = s.pe.x

theorem State.SameRegisters.trans {s t u : State} (h : s.SameRegisters t) (h' : t.SameRegisters u) :
    s.SameRegisters u :=
  ⟨h'.cur.trans h.cur, h'.pes_length.trans h.pes_length, h'.x.trans h.x⟩

theorem State.SameRegisters.curOk {s t : State} (h : s.SameRegisters t) (hs : s.curOk = true) : t.curOk = true := by
  simpa only [State.curOk, h.cur, h.pes_length] using hs

theorem State.SameRegisters.readX {s t : State} (h : s.SameRegisters t) (r : Reg) : t.pe.readX r = s.pe.readX r := by
  simp only [PE.readX, h.x]

theorem State.SameRegisters.of_pes_eq {s t : State} (hcur : t.cur = s.cur) (hpes : t.pes = s.pes)
    (hcfg : t.cfg = s.cfg) : s.SameRegisters t :=
  ⟨hcur, by rw [hpes], by simp only [State.pe, hcur, hpes, hcfg]⟩

/-- The end of an instruction moves the `pc` and nothing that the sequence depends on. -/
theorem State.endInstr_sameRegisters {s t : State} (hc : s.curOk = true) (h : s.endInstr = .next t) :
    s.SameRegisters t ∧ t.sync = s.sync := by
  obtain rfl := s.endInstr_next t h
  exact ⟨⟨rfl, List.length_set, by rw [State.setPe_pe _ _ hc]; rfl⟩, rfl⟩

/-- The word at `a` is observable, or its writer is the current PE and has brought it to the stage. -/
def State.WordAt (s : State) (stage : SyncStage) (a : Nat) : Prop :=
  s.syncOf a = .observable ∨ assocFind s.sync a = some { stage := stage, writer := .pe s.cur }

theorem State.WordAt.of_eq {s t : State} {stage : SyncStage} {a : Nat} (h : s.WordAt stage a) (hcur : t.cur = s.cur)
    (hsync : t.sync = s.sync) : t.WordAt stage a := by
  simpa only [State.WordAt, State.syncOf, hcur, hsync] using h

theorem State.WordAt.observable {s : State} {a : Nat} (h : s.WordAt .observable a) : s.syncOf a = .observable :=
  h.elim id fun h => by simp only [State.syncOf, h]

theorem State.syncOf_eq_observable {s : State} {a : Nat} :
    s.syncOf a = .observable ↔ ∀ e, assocFind s.sync a = some e → e.stage = .observable := by
  unfold State.syncOf
  cases assocFind s.sync a <;> simp

/-- A maintenance instruction on the word moves it on (steps (2) and (4) of R81). -/
theorem State.WordAt.moveStage {s : State} {src dst : SyncStage} {a : Nat} (h : s.WordAt src a)
    (hsrc : src ≠ .observable) : (s.moveStage a src dst).WordAt dst a := by
  rcases h with h | h
  · have hstay : s.moveStage a src dst = s := by
      unfold State.moveStage
      split
      · next e he => rw [if_neg fun hs => hsrc (hs.1.symm.trans (State.syncOf_eq_observable.mp h e he))]
      · rfl
    rw [hstay]
    exact .inl h
  · refine .inr ?_
    simp only [State.moveStage, h, true_and, if_true, assocFind_insert_self]

theorem assocFind_map_value {α : Type} (f : Nat → α → α) (l : List (Nat × α)) (k : Nat) :
    assocFind (l.map fun e => (e.1, f e.1 e.2)) k = (assocFind l k).map (f k) := by
  induction l with
  | nil => rfl
  | cons e l ih =>
    by_cases he : e.1 = k
    · simp [assocFind, he]
    · simp [assocFind, he, ih]

theorem State.dsbIsh_find (s : State) (a : Nat) :
    assocFind s.dsbIsh.sync a = (assocFind s.sync a).map fun e =>
      if e.writer = .pe s.cur then { e with stage := dsbStage s.cfg a e.stage } else e := by
  refine Eq.trans (congrArg (assocFind · a) (List.map_congr_left fun e _ => ?_))
    (assocFind_map_value 
      (fun a (e : SyncWord) => if e.writer = .pe s.cur then { e with stage := dsbStage s.cfg a e.stage } else e) _ _)
  split <;> rfl

/-- The barrier of the writer moves the word on (step (3) of R81); an observable word stays observable. -/
theorem State.WordAt.dsbIsh {s : State} {stage : SyncStage} {a : Nat} (h : s.WordAt stage a) :
    s.dsbIsh.WordAt (dsbStage s.cfg a stage) a := by
  rcases h with h | h
  · refine .inl (State.syncOf_eq_observable.mpr fun e he => ?_)
    rw [State.dsbIsh_find, Option.map_eq_some_iff] at he
    obtain ⟨e', he', rfl⟩ := he
    have hobs := State.syncOf_eq_observable.mp h e' he'
    split
    · rw [hobs]; rfl
    · exact hobs
  · refine .inr ?_
    rw [State.dsbIsh_find, h, Option.map_some, if_pos rfl]
    rfl

section Sequence

variable {s t : State} (hc : s.curOk = true)

include hc

/-- An instruction that only moves stages: it is over, and the word is where the stages say. -/
theorem State.WordAt.endInstr {u : State} {stage : SyncStage} {a : Nat} (hu : s.SameRegisters u) (hw : u.WordAt stage a)
    (h : u.endInstr = .next t) : s.SameRegisters t ∧ t.WordAt stage a := by
  obtain ⟨hregs, hsync⟩ := State.endInstr_sameRegisters (hu.curOk hc) h
  exact ⟨hu.trans hregs, hw.of_eq hregs.cur hsync⟩

/-- DC CVAU and IC IVAU of an aligned address are such instructions. -/
theorem State.WordAt.maintenance {rt : Reg} {src dst : SyncStage} (ha : (s.pe.readX rt).toNat % 4 = 0)
    (hsrc : src ≠ .observable) (hw : s.WordAt src (s.pe.readX rt).toNat)
    (h : (s.moveStage (wordAddr (s.pe.readX rt).toNat) src dst).endInstr = .next t) :
    s.SameRegisters t ∧ t.WordAt dst (s.pe.readX rt).toNat := by
  have haddr : wordAddr (s.pe.readX rt).toNat = (s.pe.readX rt).toNat := by simp only [wordAddr]; omega
  rw [haddr] at h
  exact (hw.moveStage hsrc).endInstr hc
    (.of_pes_eq (State.moveStage_cur _ _ _ _) (State.moveStage_pes _ _ _ _) (State.moveStage_cfg _ _ _ _)) h

theorem State.WordAt.dsb {stage : SyncStage} {a : Nat} (hw : s.WordAt stage a) (h : exec .dsbIsh s = .next t) :
    s.SameRegisters t ∧ t.WordAt (dsbStage s.cfg a stage) a :=
  State.WordAt.endInstr hc (u := s.dsbIsh) (.of_pes_eq rfl rfl rfl) hw.dsbIsh h

/-- An ISB leaves the word in memory as the only candidate for an observable word (step (5) of R81). -/
theorem State.isb_candidates {crm : BitVec 4} {a : Nat} (ha : s.syncOf a = .observable)
    (h : exec (.isb crm) s = .next t) : t.pe.candidates t.mem a = [memWord t.mem a] := by
  have hc' : s.contextSync.curOk = true := by rw [State.contextSync, State.setPe_curOk]; exact hc
  obtain rfl := s.contextSync.endInstr_next t h
  have hcand : assocFind (s.contextSync.setPe s.contextSync.pe.next).pe.cand a = none := by
    rw [State.setPe_pe _ _ hc', PE.next, State.contextSync, State.setPe_pe _ _ hc]
    simp only [assocFind_filter s.pe.cand (fun k => s.syncOf k != .observable), ha, bne_self_eq_false,
      Bool.false_eq_true, if_false]
  simp only [PE.candidates, hcand]

end Sequence

/-! #### The store of the sequence -/

/-- An access that its alignment does not turn away raises no exception. -/
theorem checkAccess_next {cfg : Config} {a : Access} {o : Option PeOutcome} (hcls : a.misalignedByClass = false)
    (hmem : a.misalignedByMemory cfg = false) (h : checkAccess cfg a = .next o) : o = none := by
  simp only [checkAccess, hcls, hmem, Bool.false_eq_true, if_false] at h
  split at h
  · cases h
  · split at h
    · cases h
    · exact (Host.Outcome.next.inj h).symm

/-- A store of one unit that completes is that unit and the end of its instruction. -/
theorem State.begin_write_one_next {s t s₁ : State} {fl : InFlight} {u : MUnit} (hr : fl.reads = [])
    (hw : fl.writes = [u]) (hadj : fl.adjacent = false) (hx : fl.rmw = none) (hd : fl.done = .store none)
    (hs₁ : writeUnit (.pe s.cur) s.pe.inst u (fl.dataOf u) s = s₁) (hc : s₁.curOk = true) (h : s.begin fl = .next t) :
    s₁.endInstr = .next t := by
  simp only [State.begin, hr, hw, List.length_cons, List.length_nil, Nat.zero_add, Nat.le_refl, if_true, State.advance,
    pickUnit_one, pickUnit_nil, fl.performWrite_plain _ _ hadj, hs₁] at h
  simpa only [State.settle, InFlight.settled, InFlight.applyRmw, hx, hd, List.isEmpty_nil, if_true, Bool.and_self,
    State.finish, PE.complete, PE.writeback, State.setPe_self _ hc] using h

/-- A word that is noted keeps its stage, if it is not changed, or is written by the agent (step (1) of R81). -/
theorem State.WordAt.noteWord {s : State} {a : Nat} (h : s.syncOf a = .observable) (old : Memory)
    (bytes : List (Nat × Byte)) : (s.noteWord (.pe s.cur) old bytes a).WordAt .written a := by
  by_cases hsame : overlayWord old bytes a = wordBytes old a
  · rw [State.noteWord_of_unchanged hsame]
    exact .inl h
  · refine .inr ?_
    rw [(State.noteWord_of_changed hsame _).1, assocFind_insert_self, State.noteWord_cur]

theorem State.SameRegisters.noteWord {s : State} (hc : s.curOk = true) (g : Agent) (old : Memory)
    (bytes : List (Nat × Byte)) (a : Nat) : s.SameRegisters (s.noteWord g old bytes a) := by
  obtain ⟨f, hf⟩ := s.noteWord_pes g old bytes a
  exact ⟨s.noteWord_cur g old bytes a, by rw [hf, List.length_map],
    by rw [(s.pe_of_pes_map _ f hc hf (s.noteWord_cur g old bytes a)).1]⟩

/-- So is an observable word after a write unit of the current PE. -/
theorem State.WordAt.writeUnit {s : State} {a : Nat} (hc : s.curOk = true) (ha : a % 4 = 0)
    (hobs : s.syncOf a = .observable) (i : Nat) (data : List Byte) :
    s.SameRegisters (writeUnit (.pe s.cur) i { addr := a, size := 4 } data s) ∧
      (writeUnit (.pe s.cur) i { addr := a, size := 4 } data s).WordAt .written a := by
  obtain ⟨s₁, hw, hcfg, hpes, hcur, hsync⟩ := writeUnit_word (.pe s.cur) i ha data s
  have hs₁ : s.SameRegisters s₁ := .of_pes_eq hcur hpes hcfg
  rw [hw]
  refine ⟨hs₁.trans (.noteWord (hs₁.curOk hc) _ _ _ _), ?_⟩
  rw [← hcur]
  exact .noteWord (by simpa only [State.syncOf, hsync] using hobs) _ _

theorem State.WordAt.strImm32 {s t : State} {rn rt : Reg} (hc : s.curOk = true) (hrn : rn ≠ 31)
    (ha : (s.pe.readX rn).toNat % 4 = 0) (hobs : s.syncOf (s.pe.readX rn).toNat = .observable)
    (h : exec (.strImm32 0 rn rt) s = .next t) : s.SameRegisters t ∧ t.WordAt .written (s.pe.readX rn).toNat := by
  have haddr : storeAddress (s.pe.readBase rn) 0 4 = (s.pe.readX rn).toNat := by
    rw [PE.readBase_of_ne _ _ hrn]; rfl
  change s.access _ (singleAccess .write (storeAddress (s.pe.readBase rn) 0 4) 4) _ (.store none) = _ at h
  rw [haddr] at h
  generalize (s.pe.readX rn).toNat = a at ha hobs h ⊢
  have hunits : scaUnits s.cfg (singleAccess .write a 4) = some [{ addr := a, size := 4 }] :=
    (scaUnits_single (.inl rfl) (show 4 ≤ 8 by decide)).trans (congrArg some (singleUnits_of_aligned rfl ha))
  obtain ⟨o, hcheck, hgo⟩ := andThen_eq_next _ _ _ h
  obtain rfl := checkAccess_next rfl (by simp [Access.misalignedByMemory, singleAccess, ha]) hcheck
  simp only [hunits] at hgo
  obtain ⟨hregs, hword⟩ := State.WordAt.writeUnit hc ha hobs s.pe.inst _
  exact hword.endInstr hc hregs (State.begin_write_one_next rfl rfl rfl rfl rfl rfl (hregs.curOk hc) hgo)

/-- Settles O25: the word goes from stage to stage until the second barrier makes it observable, and the ISB then leaves
the word in memory. -/
theorem writersSequenceSynchronizes : Obligations.WritersSequenceSynchronizes := by
  intro s s₁ s₂ s₃ s₄ s₅ s₆ rn rt crm q hc hrn ha hobs h₁ h₂ h₃ h₄ h₅ hq h₆
  obtain ⟨r₁, w₁⟩ := State.WordAt.strImm32 hc hrn ha hobs h₁
  have hx₁ := r₁.readX rn
  rw [← hx₁] at ha w₁ ⊢
  obtain ⟨r₂, w₂⟩ := w₁.maintenance (r₁.curOk hc) ha (dst := .cleaned) (by decide) h₂
  obtain ⟨r₃, w₃⟩ := w₂.dsb ((r₁.trans r₂).curOk hc) h₃
  have r := (r₁.trans r₂).trans r₃
  have hx₃ := (r₂.trans r₃).readX rn
  rw [← hx₃] at ha w₃ ⊢
  obtain ⟨r₄, w₄⟩ := w₃.maintenance (r.curOk hc) ha (src := .cleanDone) (dst := .invalidated) (by decide) h₄
  obtain ⟨r₅, w₅⟩ := w₄.dsb ((r.trans r₄).curOk hc) h₅
  refine ⟨w₅.observable, State.isb_candidates (s := { s₅ with cur := q }) ?_ w₅.observable h₆⟩
  have hlen := ((r.trans r₄).trans r₅).pes_length
  exact decide_eq_true (hlen ▸ hq)

/-! ### Inside an instruction (20_memory.md rule R56; 60_exceptions.md rule R206; 70_reset_and_hazards.md rule R228) -/

theorem step_of_turn {s : State} {m : Move} (h : s.turn = some m) :
    step s = State.makeMove { s with turn := none } m := by
  simp only [step, State.takeTurn, h]

theorem State.pe_of_pes_get {s : State} {p : Nat} {pe : PE} (h : s.pes[p]? = some pe) :
    State.pe { s with turn := none, cur := p } = pe := by
  simp [State.pe, List.getD_eq_getElem?_getD, h]

theorem State.runPe_of_running {s : State} {p : Nat} {pe : PE} (hp : s.pes[p]? = some pe) (hr : pe.run = .running)
    (k : Nat) : s.runPe p k = State.orStop { s with cur := p } (State.runCurrent { s with cur := p } k) := by
  simp only [State.runPe, hp, hr, if_true]

/-- The move of a running PE is its step, in the phase it is in. -/
theorem step_run {s : State} {p k : Nat} {pe : PE} (hp : s.pes[p]? = some pe) (hr : pe.run = .running)
    (ht : s.turn = some (.run p k)) :
    step s = State.orStop { s with turn := none, cur := p } (State.runCurrent { s with turn := none, cur := p } k) :=
  (step_of_turn ht).trans (State.runPe_of_running (s := { s with turn := none }) hp hr k)

/-- Settles O8: the phase says what the move of a running PE is. -/
theorem stepInsideInstruction : Obligations.StepInsideInstruction := by
  intro s p k pe hp hr
  have hpe := State.pe_of_pes_get hp
  refine ⟨fun fl hph => ⟨fun ht => ?_, fun ht hint => ?_⟩, fun i hph ht => ?_⟩
  · rw [step_run hp hr ht, State.runCurrent, hpe, hph]
  · rw [step_of_turn ht]
    simp only [State.makeMove, State.interruptPe, hp, hr, if_true, hph, hint, State.returnToInterrupted, hpe,
      State.setPe]
  · rw [step_run hp hr ht, State.runCurrent, hpe, hph]

/-! ### Multi-copy atomicity is not assumed (20_memory.md rules R67 to R70; 92_eei_decisions.md D12) -/

/-- A state that nobody has read or written in yet. -/
theorem State.coherent_of_unwritten {s : State} (hm : s.mem.wf = true) (hc : s.coh = []) (hh : s.history = []) :
    s.Coherent := by
  have ho : ∀ b, s.orderAt b = { init := s.mem.read b, writes := [] } :=
    fun b => by simp only [State.orderAt, hc, assocFind_nil]
  have hw : ∀ u b, ¬ s.WritesByte u b := fun u b => by simp [State.WritesByte, ByteOrder.placeOf, ho]
  exact
    { mem_wf := hm
      coh_rising := by rw [hc]; rfl
      units_numbered := ⟨by simp [ho], by simp [ho], by simp [hh]⟩
      memory_is_last := fun b => by rw [ho]; rfl
      reads_have_sources := by simp [State.ReadsHaveSources, hh]
      stores_ordered := fun _ _ _ _ h => absurd h.writesByte_left (hw _ _)
      loads_whole := by simp [State.LoadsWhole, hh]
      successions_kept := by simp [State.SuccessionsKept, ho] }

/-- Three observers besides the PEs, and all memory of one kind. -/
def observedConfig (dev : Bool) : Config :=
  { Config.reset with
    externalObservers := [1, 2, 3]
    regions := [{ base := 0, size := addrSpace, attr := if dev then { MemAttr.wb with type := .device } else .wb,
                  atomicSupported := false, atomicFpSupported := false }] }

/-- A word of zeros at 0x1000. The first read will draw the latest write, the second the one before it. -/
def beforeStaleRead (dev : Bool) : State :=
  { State.start (observedConfig dev) with
    mem := [(0x1000, 0), (0x1001, 0), (0x1002, 0), (0x1003, 0)]
    pending := [0, 1] }

/-- Observer 1 has written the byte at 0x1000, observer 2 has read it new, and observer 3 after it old. -/
def afterStaleRead (dev : Bool) : State :=
  { beforeStaleRead dev with
    pes := (beforeStaleRead dev).pes.map fun p => { p with cand := [(0x1000, [some 0, some 1])] }
    mem := [(0x1000, 1), (0x1001, 0), (0x1002, 0), (0x1003, 0)]
    coh := [(0x1000, { init := some 0, writes := [{ unit := 0, value := 1, follows := none }] })]
    history :=
      [{ agent := .observer 1, inst := 0, kind := .write, addr := 0x1000, value := 1, unit := 0 },
        { agent := .observer 2, inst := 1, kind := .read (.unit 0), addr := 0x1000, value := 1, unit := 1 },
        { agent := .observer 3, inst := 2, kind := .read .initial, addr := 0x1000, value := 0, unit := 2 }]
    sync := [(0x1000, { stage := .written, writer := .observer 1 })]
    nextUnit := 3
    nextInst := 3
    pending := [] }

theorem staleRead_moves (dev : Bool) :
    andThen ((beforeStaleRead dev).makeMove (.observerWrite 1 0x1000 1)) (fun s₁ =>
      andThen (s₁.makeMove (.observerRead 2 0x1000)) (·.makeMove (.observerRead 3 0x1000))) =
        .next (afterStaleRead dev) := by
  cases dev <;> rfl

theorem staleRead_readsOf (dev : Bool) : (afterStaleRead dev).readsOf 0x1000 =
    [(.observer 2, .unit 0, 1), (.observer 3, .initial, 0)] := rfl

/-- Settles O18: the second of the two reads draws the place before that of the first. -/
theorem multiCopyAtomicityNotAssumed : Obligations.MultiCopyAtomicityNotAssumed := by
  intro dev
  refine ⟨beforeStaleRead dev, afterStaleRead dev, 0x1000, 1, 2, 3, 1,
    State.coherent_of_unwritten rfl rfl rfl, rfl, by cases dev <;> decide, by cases dev <;> decide,
    by decide, by decide, by decide, staleRead_moves dev, ⟨_, _, staleRead_readsOf dev⟩, ?_⟩
  rw [State.MultiCopyAtomic, staleRead_readsOf]
  simp

end Sys2Proof.Machine

namespace Sys2Proof

/-! ### The decoder as a table of matches and masks (30_encoding.md rules R97, R101, R103)

A run of fixed bits is a mask with the value under it. Of two rows at most one accepts a word, because each two of them
fix a common bit differently; so the row that reads an instruction back (Laws/PerInstr.lean) is the one the decoder
finds. -/

/-- The mask of the `n` bits from `lo` up. -/
def runMask (lo n : Nat) : Word32 := BitVec.ofNat 32 ((2 ^ n - 1) * 2 ^ lo)

theorem and_runMask (w : Word32) (lo n : Nat) : w &&& runMask lo n = BitVec.ofNat 32 (bitsAt w lo n * 2 ^ lo) := by
  refine BitVec.eq_of_getLsbD_eq fun i hi => ?_
  simp only [runMask, bitsAt, BitVec.getLsbD_and, BitVec.getLsbD_ofNat, hi, decide_true, Bool.true_and,
    Nat.testBit_mul_two_pow, Nat.testBit_two_pow_sub_one, Nat.testBit_mod_two_pow, Nat.testBit_div_two_pow]
  by_cases h : lo ≤ i
  · simp [h, BitVec.getLsbD, Bool.and_comm]
  · simp [h]

theorem bitsAt_mul_le (w : Word32) (lo n : Nat) : bitsAt w lo n * 2 ^ lo ≤ w.toNat :=
  (Nat.mul_le_mul_right _ (Nat.mod_le _ _)).trans (Nat.div_mul_le_self _ _)

/-! #### What a row accepts -/

/-- The bits that a list of runs fixes. -/
def fixedMask : List FixedBits → Word32
  | [] => 0
  | f :: fs => runMask f.lo f.width ||| fixedMask fs

/-- The values that a list of runs fixes them to. -/
def fixedValue : List FixedBits → Word32
  | [] => 0
  | f :: fs => BitVec.ofNat 32 (f.value * 2 ^ f.lo) ||| fixedValue fs

/-- The value of each run can be read off the value of them all. -/
def runsSeparate (fs : List FixedBits) : Bool :=
  fs.all fun f => decide (f.value * 2 ^ f.lo < 2 ^ 32) &&
    (runMask f.lo f.width &&& fixedMask fs == runMask f.lo f.width) &&
    (fixedValue fs &&& runMask f.lo f.width == BitVec.ofNat 32 (f.value * 2 ^ f.lo))

theorem FixedBits.holds_iff {f : FixedBits} (hf : f.value * 2 ^ f.lo < 2 ^ 32) (w : Word32) :
    f.holds w = true ↔ w &&& runMask f.lo f.width = BitVec.ofNat 32 (f.value * 2 ^ f.lo) := by
  have hlt := (bitsAt_mul_le w f.lo f.width).trans_lt w.isLt
  rw [and_runMask, FixedBits.holds, beq_iff_eq]
  refine ⟨fun h => by rw [h], fun h => ?_⟩
  have hn := congrArg BitVec.toNat h
  rw [BitVec.toNat_ofNat, BitVec.toNat_ofNat, Nat.mod_eq_of_lt hlt, Nat.mod_eq_of_lt hf] at hn
  exact Nat.eq_of_mul_eq_mul_right (Nat.two_pow_pos _) hn

theorem and_fixedMask {fs : List FixedBits} {w : Word32} (h : fs.all (·.holds w) = true) :
    w &&& fixedMask fs = fixedValue fs := by
  induction fs with
  | nil => simp [fixedMask, fixedValue]
  | cons f fs ih =>
    simp only [List.all_cons, Bool.and_eq_true, FixedBits.holds, beq_iff_eq] at h
    obtain ⟨hf, hfs⟩ := h
    rw [fixedMask, fixedValue, BitVec.and_or_distrib_left, ih hfs, and_runMask, hf]

theorem all_holds_iff {fs : List FixedBits} (hsep : runsSeparate fs = true) (w : Word32) :
    fs.all (·.holds w) = true ↔ w &&& fixedMask fs = fixedValue fs := by
  refine ⟨and_fixedMask, fun h => List.all_eq_true.mpr fun f hf => ?_⟩
  have hrun := List.all_eq_true.mp hsep f hf
  simp only [Bool.and_eq_true, decide_eq_true_eq, beq_iff_eq] at hrun
  obtain ⟨⟨hlt, hmask⟩, hvalue⟩ := hrun
  rw [FixedBits.holds_iff hlt, ← hmask, BitVec.and_comm (runMask _ _), ← BitVec.and_assoc, h, hvalue]

/-- The row's match and mask are those of its runs. -/
def Row.tabular (r : Row) : Bool :=
  (BitVec.ofNat 32 r.mask == fixedMask r.fixed) && (BitVec.ofNat 32 r.pattern == fixedValue r.fixed) &&
    runsSeparate r.fixed

theorem rows_tabular : ∀ r ∈ rows, r.tabular = true := by decide

theorem Row.accepts_iff {r : Row} (hr : r ∈ rows) (w : Word32) :
    r.accepts w = true ↔ w &&& BitVec.ofNat 32 r.mask = BitVec.ofNat 32 r.pattern := by
  have h := rows_tabular r hr
  simp only [Row.tabular, Bool.and_eq_true, beq_iff_eq] at h
  obtain ⟨⟨hmask, hpattern⟩, hsep⟩ := h
  rw [hmask, hpattern, ← all_holds_iff hsep, Row.accepts]

/-! #### Which row the decoder finds -/

/-- The row and the runs fix a common bit differently. -/
def Row.clashes (r : Row) (fs : List FixedBits) : Bool :=
  (fixedValue r.fixed ^^^ fixedValue fs) &&& (fixedMask r.fixed &&& fixedMask fs) != 0

theorem Row.not_accepts_of_clashes {r : Row} {fs : List FixedBits} {w : Word32} (h : r.clashes fs = true)
    (hw : fs.all (·.holds w) = true) : ¬ r.accepts w = true := by
  intro ha
  rw [Row.clashes, ← and_fixedMask hw, ← and_fixedMask ha, bne_iff_ne] at h
  refine h (BitVec.eq_of_getLsbD_eq fun i _ => ?_)
  simp only [BitVec.getLsbD_and, BitVec.getLsbD_xor]
  cases w.getLsbD i <;> cases (fixedMask r.fixed).getLsbD i <;> simp

theorem rows_clash : rows.Pairwise fun r q => r.clashes q.fixed = true := by decide

theorem find?_of_pairwise {α : Type} {p : α → Bool} {l : List α} (hl : l.Pairwise fun a b => p b = true → ¬ p a = true)
    {a : α} (ha : a ∈ l) (hp : p a = true) : l.find? p = some a := by
  induction hl with
  | nil => cases ha
  | @cons b l hb _ ih =>
    rcases List.mem_cons.mp ha with rfl | ha
    · exact List.find?_cons_of_pos hp
    · rw [List.find?_cons_of_neg (hb a ha hp), ih ha]

/-- No other row than the one that accepts a word has a say in what the word is. -/
theorem decodeWord_of_accepts {r : Row} {w : Word32} (hr : r ∈ rows) (ha : r.accepts w = true) :
    decodeWord w = if (r.build w).wellFormed then some (r.build w) else none := by
  have hfind : rows.find? (fun r => r.accepts w) = some r :=
    find?_of_pairwise (rows_clash.imp fun h hw => Row.not_accepts_of_clashes h hw) hr ha
  rw [decodeWord, hfind]

theorem decodeWord_eq_some {w : Word32} {i : Instr} (h : decodeWord w = some i) :
    ∃ r ∈ rows, r.accepts w = true ∧ r.build w = i ∧ i.wellFormed = true := by
  unfold decodeWord at h
  split at h
  · next r hr =>
    split at h
    · next hwf =>
      cases h
      exact ⟨r, List.mem_of_find?_eq_some hr, List.find?_some (p := fun r : Row => r.accepts w) hr, rfl, hwf⟩
    · cases h
  · cases h

/-! #### The word of what was decoded

The fields that a row reads are the bits its mask leaves free, each once. -/

/-- The fields, each its lowest bit and its width, are the bits outside the mask `m`, each once. -/
def fieldsFill (m : Word32) : List (Nat × Nat) → Bool
  | [] => m == BitVec.allOnes 32
  | f :: fs => (m &&& runMask f.1 f.2 == 0) && fieldsFill (m ||| runMask f.1 f.2) fs

/-- The fields of a word, as `packWord` takes them. -/
def fieldsOf (w : Word32) (fs : List (Nat × Nat)) : List (Nat × Nat) := fs.map fun f => (f.1, (field w f.1 f.2).toNat)

theorem field_toNat (w : Word32) (lo n : Nat) : (field w lo n).toNat = bitsAt w lo n := BitVec.toNat_ofNat ..

/-- A word is its bits under a mask, packed with the fields that the mask leaves free. -/
theorem packWord_fieldsOf {w : Word32} {fs : List (Nat × Nat)} {m : Word32} {p : Nat}
    (hw : w &&& m = BitVec.ofNat 32 p) (hfs : fieldsFill m fs = true) : packWord p (fieldsOf w fs) = w := by
  induction fs generalizing m p with
  | nil =>
    rw [beq_iff_eq.mp hfs, BitVec.and_allOnes] at hw
    exact hw.symm
  | cons f fs ih =>
    simp only [fieldsFill, Bool.and_eq_true, beq_iff_eq] at hfs
    obtain ⟨hdisj, hrest⟩ := hfs
    refine ih (m := m ||| runMask f.1 f.2) ?_ hrest
    have hand : (w &&& m) &&& (w &&& runMask f.1 f.2) = 0#32 := by
      rw [BitVec.and_assoc, ← BitVec.and_assoc m, BitVec.and_comm m w, BitVec.and_assoc w, hdisj]
      simp
    rw [BitVec.and_or_distrib_left, ← BitVec.add_eq_or_of_and_eq_zero _ _ hand, hw, and_runMask, ← field_toNat,
      BitVec.ofNat_add]

/-- `fs` are the fields of the row: they are the bits it leaves free, and `encode` packs into them what it read there. -/
structure Row.HasFields (r : Row) (fs : List (Nat × Nat)) : Prop where
  fill : fieldsFill (BitVec.ofNat 32 r.mask) fs = true
  packed : ∀ w, encode (r.build w) = packWord r.pattern (fieldsOf w fs)

theorem Row.HasFields.encode_build {r : Row} {fs : List (Nat × Nat)} (h : r.HasFields fs) (hr : r ∈ rows) {w : Word32}
    (ha : r.accepts w = true) : encode (r.build w) = w :=
  (h.packed w).trans (packWord_fieldsOf ((Row.accepts_iff hr w).mp ha) h.fill)

/-- One register. -/
def oneRegister : List (Nat × Nat) := [(0, 5)]

/-- A transfer register and the base register. -/
def twoRegisters : List (Nat × Nat) := [(5, 5), (0, 5)]

/-- A register at bit 16 and those two. -/
def threeRegisters : List (Nat × Nat) := (16, 5) :: twoRegisters

/-- Two transfer registers and the base register. -/
def loadExclusiveFields : List (Nat × Nat) := (10, 5) :: twoRegisters

/-- The status register and those three. -/
def storeExclusiveFields : List (Nat × Nat) := (16, 5) :: loadExclusiveFields

/-- An immediate and those three. -/
def pairFields : List (Nat × Nat) := (15, 7) :: loadExclusiveFields

/-- The fields of every row, in the order of `rows`; one line or two for each of its parts. -/
def rowFields : List (List (Nat × Nat)) :=
  [[(0, 26)], [(0, 26)], [(5, 19), (0, 4)], [(31, 1), (5, 19), (0, 5)], [(31, 1), (5, 19), (0, 5)],
    [(31, 1), (19, 5), (5, 14), (0, 5)], [(31, 1), (19, 5), (5, 14), (0, 5)]] ++
  [[(31, 1), (21, 3), (16, 5), (5, 9), (0, 5)], [(31, 1), (21, 3), (15, 6), (5, 9), (0, 5)],
    [(21, 3), (16, 5), (5, 9), (0, 5)], [(21, 3), (16, 5), (5, 9), (0, 5)]] ++
  [[(5, 16)], [(5, 16)], [(5, 16)], [(5, 16)], [], oneRegister, oneRegister, oneRegister, oneRegister, [], [(8, 4)]] ++
  List.replicate 4 ((10, 12) :: twoRegisters) ++
  List.replicate 8 pairFields ++
  List.replicate 8 pairFields ++
  List.replicate 6 pairFields ++
  [loadExclusiveFields, storeExclusiveFields, loadExclusiveFields, storeExclusiveFields,
    loadExclusiveFields, storeExclusiveFields, loadExclusiveFields, storeExclusiveFields] ++
  List.replicate 4 twoRegisters ++
  [twoRegisters, twoRegisters, threeRegisters, threeRegisters] ++
  List.replicate 6 threeRegisters

theorem rows_hasFields : List.Forall₂ Row.HasFields rows rowFields := by
  repeat refine .cons ⟨by decide, fun _ => rfl⟩ ?_
  exact .nil

theorem Row.encode_build {r : Row} (hr : r ∈ rows) {w : Word32} (ha : r.accepts w = true) : encode (r.build w) = w := by
  obtain ⟨n, hn, rfl⟩ := List.getElem_of_mem hr
  exact (rows_hasFields.get hn (rows_hasFields.length_eq ▸ hn)).encode_build hr ha

/-- Settles O2: a row's runs are its match and mask, and its fields are the rest of the word. -/
theorem decoderIsTheTable : Obligations.DecoderIsTheTable := by
  refine ⟨fun r hr w => Row.accepts_iff hr w, fun w i h => ?_⟩
  obtain ⟨r, hr, ha, rfl, hwf⟩ := decodeWord_eq_some h
  exact ⟨Row.encode_build hr ha, hwf⟩

/-! #### What is encoded is decoded -/

section ReadBack
open Laws.RowReadsBack

/-- The lemmas of Laws/PerInstr.lean together. -/
theorem row_reads_back (i : Instr) : Statement i := by
  cases i
  exacts [b _, bl _, bCond _ _, cbz _ _ _, cbnz _ _ _, tbz _ _ _ _, tbnz _ _ _ _, cbReg _ _ _ _ _,
    cbImm _ _ _ _ _, cbb _ _ _ _, cbh _ _ _ _, brk _, svc _, hvc _, smc _, nop, trcit _, dcCvau _,
    icIvau _, dcZva _, dsbIsh, isb _, strImm32 _ _ _, strImm64 _ _ _, ldrImm32 _ _ _, ldrImm64 _ _ _,
    ldpPost32 _ _ _ _, ldpOff32 _ _ _ _, ldpPre32 _ _ _ _, ldnp32 _ _ _ _, stpPost32 _ _ _ _,
    stpOff32 _ _ _ _, stpPre32 _ _ _ _, stnp32 _ _ _ _, ldpPost64 _ _ _ _, ldpOff64 _ _ _ _,
    ldpPre64 _ _ _ _, ldnp64 _ _ _ _, stpPost64 _ _ _ _, stpOff64 _ _ _ _, stpPre64 _ _ _ _,
    stnp64 _ _ _ _, ldpFpS _ _ _ _, stpFpS _ _ _ _, ldpFpD _ _ _ _, stpFpD _ _ _ _, ldpFpQ _ _ _ _,
    stpFpQ _ _ _ _, ldxp32 _ _ _, stxp32 _ _ _ _, ldaxp32 _ _ _, stlxp32 _ _ _ _, ldxp64 _ _ _,
    stxp64 _ _ _ _, ldaxp64 _ _ _, stlxp64 _ _ _ _, ldapr32 _ _, ldapr64 _ _, ldaprh _ _, ldaprb _ _,
    ld64b _ _, st64b _ _, st64bv _ _ _, st64bv0 _ _ _, ldadd32 _ _ _, ldadd64 _ _ _, swp32 _ _ _,
    swp64 _ _ _, cas32 _ _ _, cas64 _ _ _]

end ReadBack

theorem decodeWord_encode {i : Instr} (h : i.wellFormed = true) : decodeWord (encode i) = some i := by
  obtain ⟨r, hr, ha, hb⟩ := row_reads_back i h
  rw [decodeWord_of_accepts hr ha, hb, if_pos h]

theorem leValue_leBytes (n v : Nat) (h : v < 256 ^ n) : leValue (leBytes n v) = v := by
  induction n generalizing v with
  | zero => simp only [leBytes, leValue]; omega
  | succ n ih =>
    rw [leBytes, leValue, ih _ (by omega), BitVec.toNat_ofNat]
    omega

/-- The four bytes of a word are read as the word (R82, R96). -/
theorem decode_leBytes {w : Word32} {i : Instr} (h : decodeWord w = some i) (rest : List Byte) :
    decode (leBytes 4 w.toNat ++ rest) = .instr i rest := by
  have hw : BitVec.ofNat 32 (leValue (leBytes 4 w.toNat)) = w := by
    rw [leValue_leBytes 4 _ w.isLt, BitVec.ofNat_toNat, BitVec.setWidth_eq]
  simp only [leBytes] at hw
  simp only [leBytes, List.cons_append, List.nil_append, decode, hw, h]

/-- Settles O1: the row that reads the instruction back is the one the decoder finds. -/
theorem decodeInvertsEncode : Obligations.DecodeInvertsEncode :=
  fun _ rest h => decode_leBytes (decodeWord_encode h) rest

/-- Settles O3: each word is that of its instruction; RET matches no row. -/
theorem listedWordsDecode : Obligations.ListedWordsDecode :=
  ⟨decodeWord_encode (i := .bCond 0x7FFFF 1) rfl, decodeWord_encode (i := .isb 15) rfl,
    decodeWord_encode (i := .strImm32 0 0 1) rfl, decodeWord_encode (i := .ldpOff64 0 1 2 0) rfl,
    decodeWord_encode (i := .stpFpQ 0 1 2 0) rfl, decodeWord_encode (i := .stxp64 3 1 2 0) rfl,
    decodeWord_encode (i := .ldapr64 0 1) rfl, decodeWord_encode (i := .cas32 1 0 2) rfl, by decide⟩

/-! ### CMODX-safe words (30_encoding.md rule R99; 20_memory.md rule R73) -/

theorem cmodxSafe_of_decodeWord {w : Word32} {i : Instr} (h : decodeWord w = some i) : cmodxSafe w = i.inCmodxList := by
  rw [cmodxSafe, h]

theorem cmodxSafe_of_no_instr {w : Word32} (h : decodeWord w = none) : cmodxSafe w = false := by
  rw [cmodxSafe, h]

/-- The rows that no bit of the runs rules out. -/
def rowsMeeting (fs : List FixedBits) : List Row := rows.filter fun r => !r.clashes fs

/-- A word with these bits is decoded by one of the rows that allow them, or not at all. -/
theorem decodeWord_eq_none {fs : List FixedBits} {l : List Row} (hrows : rowsMeeting fs = l) {w : Word32}
    (hw : fs.all (·.holds w) = true) (h : ∀ r ∈ l, r.accepts w = true → (r.build w).wellFormed = false) :
    decodeWord w = none := by
  refine Option.eq_none_iff_forall_ne_some.mpr fun i hi => ?_
  obtain ⟨r, hr, ha, rfl, hwf⟩ := decodeWord_eq_some hi
  have hmeet : r ∈ l := by
    rw [← hrows]
    exact List.mem_filter.mpr ⟨hr, by simpa using fun hc => Row.not_accepts_of_clashes hc hw ha⟩
  exact absurd hwf (by rw [h r hmeet ha]; decide)

/-- `B.cond` with bit 4 set. -/
theorem rowsMeeting_bCond_bit4 : rowsMeeting [⟨24, 8, 0b01010100⟩, ⟨4, 1, 1⟩] = [] := rfl

/-- The hint words: `NOP` alone has a row. -/
theorem rowsMeeting_hint : rowsMeeting [⟨12, 20, 0b11010101000000110010⟩] = [systemRows[4]] := rfl

theorem rowsMeeting_compare : rowsMeeting [⟨25, 6, 0b111010⟩] = compareRows := rfl

/-- The size field 01 of the compare-and-branch instructions on registers. -/
theorem rowsMeeting_compare_sz01 : rowsMeeting [⟨24, 7, 0b1110100⟩, ⟨14, 2, 0b01⟩] = [] := rfl

theorem compareRows_wellFormed (w : Word32) : ∀ r ∈ compareRows, (r.build w).wellFormed = ccAllocated (field w 21 3) := by
  simp [compareRows, Instr.wellFormed]

theorem ccAllocated_field {w : Word32} (h : bitsAt w 21 3 = 0b100 ∨ bitsAt w 21 3 = 0b101) :
    ccAllocated (field w 21 3) = false := by
  have hcc {c : BitVec 3} (hc : bitsAt w 21 3 = c.toNat) : field w 21 3 = c :=
    Laws.RowReadsBack.field_of_bits w 21 c hc
  rcases h with h | h
  · rw [hcc (c := 0b100) h]; rfl
  · rw [hcc (c := 0b101) h]; rfl

/-- Settles O4: the list is read off the instruction; at each point, the rows that meet the bits turn the word away. -/
theorem cmodxSafeDecoderPoints : Obligations.CmodxSafeDecoderPoints := by
  refine ⟨fun i h => cmodxSafe_of_decodeWord (decodeWord_encode h), fun w h => cmodxSafe_of_no_instr h,
    fun w hop hbit => ?bCond, fun w hhint hne => ?hint, fun crm => cmodxSafe_of_decodeWord (decodeWord_encode rfl),
    fun w hop hcc => ?cc, fun w hop hsz => ?sz⟩
  all_goals refine cmodxSafe_of_no_instr ?_
  case bCond =>
    exact decodeWord_eq_none rowsMeeting_bCond_bit4 (by simp [FixedBits.holds, hop, hbit]) (by simp)
  case hint =>
    refine decodeWord_eq_none rowsMeeting_hint (by simp [FixedBits.holds, hhint]) fun r hr ha => ?_
    obtain rfl := List.mem_singleton.mp hr
    have hnop : encode .nop = w := Row.encode_build (Laws.RowReadsBack.systemRows_in_rows (List.getElem_mem _)) ha
    exact absurd hnop.symm hne
  case cc =>
    refine decodeWord_eq_none rowsMeeting_compare (by simp [FixedBits.holds, hop]) fun r hr _ => ?_
    rw [compareRows_wellFormed w r hr, ccAllocated_field hcc]
  case sz =>
    exact decodeWord_eq_none rowsMeeting_compare_sz01 (by simp [FixedBits.holds, hop, hsz]) (by simp)

end Sys2Proof

namespace Sys2Proof.Machine

/-! ### Loads and stores of registers (40_loads_stores.md)

The accesses of these instructions and their units, then a load and a store that nothing turns away, and on them the
instructions. -/

/-- An access that a load or a store of registers makes. -/
def Access.OfRegisters (a : Access) : Prop :=
  a.Shaped ∧ a.cls ∈ [.gprSingle, .gprPair, .exclPair32, .exclPair64, .fpPair, .lrcpc, .ls64]

section Accesses

variable {a : Access} (h : a.OfRegisters)

include h

theorem Access.OfRegisters.cls_ne : a.cls ≠ .svePred ∧ a.cls ≠ .ttwRead ∧ a.cls ≠ .dcZva := by
  obtain ⟨_, hcls⟩ := h
  refine ⟨?_, ?_, ?_⟩ <;> intro hc <;> simp [hc] at hcls

theorem Access.OfRegisters.total_pos : 1 ≤ a.total := by
  obtain ⟨hshape, hcls⟩ := h
  unfold Access.total
  simp only [List.mem_cons, List.not_mem_nil, or_false] at hcls
  rcases hcls with hcls | hcls | hcls | hcls | hcls | hcls | hcls <;>
    · simp only [Access.Shaped, hcls] at hshape
      obtain ⟨hc, hs⟩ := hshape
      rw [hc]
      omega

/-- A single unit is the whole access. -/
theorem Access.OfRegisters.unit_eq_whole {cfg : Config} {us : List MUnit} (hd : a.dir ≠ .failedWrite)
    (hu : scaUnits cfg a = some us) (h1 : us.length = 1) : us = [a.whole] := by
  obtain ⟨u, rfl⟩ := List.length_eq_one_iff.mp h1
  obtain ⟨hsve, httw, hzva⟩ := h.cls_ne
  have hbytes := unitsCoverTheAccess cfg a [u] h.1 hd httw (fun hc => absurd hc hzva) hu
  rw [MUnit.flatMap_one, Access.bytes_contiguous a hsve] at hbytes
  rw [MUnit.eq_of_bytes u _ _ h.total_pos hbytes, Access.whole]

end Accesses

theorem singleAccess_ofRegisters (dir : Direction) (addr : Nat) {size : Nat} (h : size = 4 ∨ size = 8) :
    (singleAccess dir addr size).OfRegisters :=
  ⟨⟨rfl, .inr (.inr h)⟩, by simp [singleAccess]⟩

theorem singleAccess_total (dir : Direction) (addr size : Nat) : (singleAccess dir addr size).total = size :=
  Nat.mul_one size

theorem pairAccess_ofRegisters (m : PairMnemonic) (dir : Direction) (addr : Nat) {size : Nat}
    (h : size = 4 ∨ size = 8) : (pairAccess m dir addr size).OfRegisters :=
  ⟨⟨rfl, h⟩, by simp [pairAccess]⟩

theorem pairAccess_total (m : PairMnemonic) (dir : Direction) (addr size : Nat) :
    (pairAccess m dir addr size).total = 2 * size := Nat.mul_comm size 2

theorem fpPairAccess_ofRegisters (m : PairMnemonic) (dir : Direction) (addr : Nat) {size : Nat}
    (h : size = 4 ∨ size = 8 ∨ size = 16) : (fpPairAccess m dir addr size).OfRegisters :=
  ⟨⟨rfl, h⟩, by simp [fpPairAccess]⟩

theorem fpPairAccess_total (m : PairMnemonic) (dir : Direction) (addr size : Nat) :
    (fpPairAccess m dir addr size).total = 2 * size := Nat.mul_comm size 2

theorem exclusiveAccess_ofRegisters (dir : Direction) (addr : Nat) {size : Nat} (h : size = 4 ∨ size = 8) :
    (exclusiveAccess dir addr size).OfRegisters := by
  rcases h with rfl | rfl
  · exact ⟨⟨rfl, rfl⟩, by simp [exclusiveAccess, exclusiveClass]⟩
  · exact ⟨⟨rfl, rfl⟩, by simp [exclusiveAccess, exclusiveClass]⟩

theorem rcpcAccess_ofRegisters (addr : Nat) {size : Nat} (h : size = 1 ∨ size = 2 ∨ size = 4 ∨ size = 8) :
    (rcpcAccess addr size).OfRegisters :=
  ⟨⟨rfl, h⟩, by simp [rcpcAccess]⟩

theorem rcpcAccess_total (addr size : Nat) : (rcpcAccess addr size).total = size := Nat.mul_one size

theorem ls64Access_ofRegisters (dir : Direction) (addr : Nat) : (ls64Access dir addr).OfRegisters :=
  ⟨⟨rfl, rfl⟩, by simp [ls64Access]⟩

/-! #### A load -/

/-- A load of one unit that nothing turns away reads its bytes and completes. -/
theorem State.Clear.load_one {s : State} {a : Access} (h : s.Clear a) (hreg : a.OfRegisters) (hdir : a.dir = .read)
    {us : List MUnit} (hu : scaUnits s.cfg a = some us) (h1 : us.length = 1) (hread : s.Readable a.addr a.total)
    (i : Instr) {done : Completion} (hdone : done.plain = true) :
    ∃ t l, s.access i a [] done = .next t ∧ s.Reading a.addr a.total l ∧
      s.AfterRead t l (s.pe.complete a.addr l done).next := by
  obtain rfl := hreg.unit_eq_whole (by simp [hdir]) hu h1
  rw [h.access hreg.cls_ne.1 _ hu]
  simp only [hdir, if_true]
  exact s.begin_read_one _ a.whole h.1 rfl rfl rfl rfl rfl hdone rfl rfl hread

/-- One of several units has begun (R228 (a)). -/
theorem State.Clear.load_many {s : State} {a : Access} (h : s.Clear a) (hreg : a.OfRegisters) (hdir : a.dir = .read)
    {us : List MUnit} (hu : scaUnits s.cfg a = some us) (i : Instr) (done : Completion) (h1 : 1 < us.length) :
    s.access i a [] done = .next (s.inside (a.loadBegun i us done)) := by
  rw [h.access hreg.cls_ne.1 us hu]
  simp only [hdir, if_true]
  rw [s.begin_many _ (by simpa using h1), Access.loadBegun, decide_eq_true h1]

theorem State.Reading.length {s : State} {addr n : Nat} {l : List GotByte} (h : s.Reading addr n l) : l.length = n := by
  simpa using congrArg List.length h.1

theorem sliceValue_lower (l : List GotByte) (size : Nat) : sliceValue l 0 size = gotValue (l.take size) := rfl

theorem sliceValue_upper {l : List GotByte} {size : Nat} (h : l.length = 2 * size) :
    sliceValue l size size = gotValue (l.drop size) := by
  rw [sliceValue, List.take_of_length_le (by rw [List.length_drop]; omega)]

/-- What `exec` makes of LDR is the load of one register. -/
theorem exec_ldr (s : State) (imm12 : BitVec 12) (rn rt : Reg) :
    ∀ f ∈ [(Instr.ldrImm32 imm12 rn rt, 4), (.ldrImm64 imm12 rn rt, 8)],
      (f.2 = 4 ∨ f.2 = 8) ∧ exec f.1 s = s.loadSingle f.1 f.2 imm12 rn rt := by
  simp only [List.mem_cons, List.not_mem_nil, or_false]
  rintro f (rfl | rfl)
  · exact ⟨.inl rfl, rfl⟩
  · exact ⟨.inr rfl, rfl⟩

/-- Settles O39: LDR is a load that completes by writing `Rt`. -/
theorem loadRegister : Obligations.LoadRegister := by
  intro s imm12 rn rt f hf us hclear hread hu
  obtain ⟨hsize, hexec⟩ := exec_ldr s imm12 rn rt f hf
  have hreg := singleAccess_ofRegisters .read (loadAddress (s.pe.readBase rn) imm12 f.2) hsize
  rw [hexec, State.loadSingle]
  refine ⟨fun h1 => ?_, hclear.load_many hreg rfl hu _ _⟩
  have hload := hclear.load_one hreg rfl hu h1 (by rwa [singleAccess_total]) f.1 (done := .loadGpr rt) rfl
  rwa [singleAccess_total] at hload

/-- What `exec` makes of LDP and LDNP is the load of a pair. -/
theorem exec_ldp (s : State) (imm7 : BitVec 7) (rt2 rn rt : Reg) :
    ∀ f ∈ [(Instr.ldpPost32 imm7 rt2 rn rt, PairMnemonic.ldp, Indexing.post, 4),
        (.ldpOff32 imm7 rt2 rn rt, .ldp, .offset, 4), (.ldpPre32 imm7 rt2 rn rt, .ldp, .pre, 4),
        (.ldnp32 imm7 rt2 rn rt, .ldnp, .offset, 4), (.ldpPost64 imm7 rt2 rn rt, .ldp, .post, 8),
        (.ldpOff64 imm7 rt2 rn rt, .ldp, .offset, 8), (.ldpPre64 imm7 rt2 rn rt, .ldp, .pre, 8),
        (.ldnp64 imm7 rt2 rn rt, .ldnp, .offset, 8)],
      (f.2.2.2 = 4 ∨ f.2.2.2 = 8) ∧
        exec f.1 s = s.loadPair f.1 f.2.1 f.2.2.1 f.2.2.2 imm7 rt2 rn rt := by
  simp only [List.mem_cons, List.not_mem_nil, or_false]
  rintro f (rfl | rfl | rfl | rfl | rfl | rfl | rfl | rfl) <;> exact ⟨by simp, rfl⟩

/-- Settles O41: a pair whose destinations differ from each other and from the base is a load; the lower half of its
bytes goes to the first register, the upper half to the second. -/
theorem loadPair : Obligations.LoadPair := by
  intro s imm7 rt2 rn rt hne f hf a us hov ha hclear hread hu
  obtain ⟨hsize, hexec⟩ := exec_ldp s imm7 rt2 rn rt f hf
  have hreg : a.OfRegisters := ha ▸ pairAccess_ofRegisters _ _ _ hsize
  have htotal : a.total = 2 * f.2.2.2 := by rw [ha, pairAccess_total]
  have hdir : a.dir = .read := by rw [ha]; rfl
  rw [hexec, State.loadPair, if_neg hne, hov, if_neg Bool.false_ne_true, ← ha]
  refine ⟨fun h1 => ?_, hclear.load_many hreg hdir hu _ _⟩
  obtain ⟨t, l, hnext, hreading, hafter⟩ := hclear.load_one hreg hdir hu h1 hread f.1
    (done := .loadPair rt rt2 f.2.2.2 (f.2.2.1.writeback rn (s.pe.readBase rn) (pairOffset imm7 f.2.2.2))) rfl
  rw [htotal] at hreading
  rw [PE.complete, sliceValue_lower, sliceValue_upper hreading.length] at hafter
  exact ⟨t, l, hnext, hreading, hafter⟩

/-- What `exec` makes of LDP (SIMD&FP) is the load of a pair of SIMD and floating-point registers. -/
theorem exec_ldpFp (s : State) (imm7 : BitVec 7) (rt2 rn rt : Reg) :
    ∀ f ∈ [(Instr.ldpFpS imm7 rt2 rn rt, 4), (.ldpFpD imm7 rt2 rn rt, 8), (.ldpFpQ imm7 rt2 rn rt, 16)],
      (f.2 = 4 ∨ f.2 = 8 ∨ f.2 = 16) ∧ exec f.1 s = s.loadFpPair f.1 f.2 imm7 rt2 rn rt := by
  simp only [List.mem_cons, List.not_mem_nil, or_false]
  rintro f (rfl | rfl | rfl) <;> exact ⟨by simp, rfl⟩

/-- Settles O43: with the feature the pair is a load; the lower half of its bytes goes to the first register. -/
theorem loadSimdPair : Obligations.LoadSimdPair := by
  intro s imm7 rt2 rn rt hne f hf
  obtain ⟨hsize, hexec⟩ := exec_ldpFp s imm7 rt2 rn rt f hf
  rw [hexec, State.loadFpPair]
  refine ⟨fun hfeat => by rw [hfeat]; rfl, fun a us hfeat ha hclear hread hu => ?_⟩
  have hreg : a.OfRegisters := ha ▸ fpPairAccess_ofRegisters _ _ _ hsize
  have htotal : a.total = 2 * f.2 := by rw [ha, fpPairAccess_total]
  have hdir : a.dir = .read := by rw [ha]; rfl
  rw [hfeat, Bool.not_true, if_neg Bool.false_ne_true, if_neg hne, Indexing.address, ← ha]
  refine ⟨fun h1 => ?_, hclear.load_many hreg hdir hu _ _⟩
  obtain ⟨t, l, hnext, hreading, hafter⟩ := hclear.load_one hreg hdir hu h1 hread f.1
    (done := .loadFpPair rt rt2 f.2) rfl
  rw [htotal] at hreading
  rw [PE.complete, sliceValue_lower, sliceValue_upper hreading.length] at hafter
  exact ⟨t, l, hnext, hreading, hafter⟩

/-- A FEAT_LRCPC load that is not turned away is one unit: it is aligned, or R58 or R59 makes it one (R83 (d)). -/
theorem scaUnits_rcpcAccess {cfg : Config} {addr size : Nat}
    (h : (rcpcAccess addr size).misalignedByMemory cfg = false) :
    scaUnits cfg (rcpcAccess addr size) = some [{ addr := addr, size := size }] := by
  refine congrArg some (lrcpcUnits_of_one rfl ?_)
  by_contra hn
  simp_all [Access.misalignedByMemory, rcpcAccess]

/-- What `exec` makes of LDAPR, LDAPRH and LDAPRB is a FEAT_LRCPC load. -/
theorem exec_ldapr (s : State) (rn rt : Reg) :
    ∀ f ∈ [(Instr.ldapr32 rn rt, 4), (.ldapr64 rn rt, 8), (.ldaprh rn rt, 2), (.ldaprb rn rt, 1)],
      (f.2 = 1 ∨ f.2 = 2 ∨ f.2 = 4 ∨ f.2 = 8) ∧ exec f.1 s = s.loadRcpc f.1 f.2 rn rt := by
  simp only [List.mem_cons, List.not_mem_nil, or_false]
  rintro f (rfl | rfl | rfl | rfl) <;> exact ⟨by simp, rfl⟩

/-- Settles O45: what is not turned away is one unit, so the load completes. -/
theorem loadRcpc : Obligations.LoadRcpc := by
  intro s rn rt f hf
  obtain ⟨hsize, hexec⟩ := exec_ldapr s rn rt f hf
  rw [hexec, State.loadRcpc]
  refine ⟨fun hfeat => by rw [hfeat]; rfl, fun a us hfeat ha hclear hread hu => ?_⟩
  subst ha
  have h1 : us.length = 1 := by
    obtain ⟨_, _, _, hmem⟩ := hclear
    rw [scaUnits_rcpcAccess hmem] at hu
    rw [← Option.some.inj hu]; rfl
  have hload := hclear.load_one (rcpcAccess_ofRegisters _ hsize) rfl hu h1 hread f.1 (done := .loadGpr rt) rfl
  rw [rcpcAccess_total] at hload
  rw [hfeat, if_pos rfl]
  exact ⟨h1, hload⟩

/-- What `exec` makes of LDXP and LDAXP is the load of an exclusive pair. -/
theorem exec_ldxp (s : State) (rt2 rn rt : Reg) :
    (∀ f ∈ [Instr.ldxp32 rt2 rn rt, .ldaxp32 rt2 rn rt], exec f s = s.loadExclusive f 4 rt2 rn rt) ∧
      ∀ f ∈ [Instr.ldxp64 rt2 rn rt, .ldaxp64 rt2 rn rt], exec f s = s.loadExclusive f 8 rt2 rn rt := by
  simp only [List.mem_cons, List.not_mem_nil, or_false]
  constructor <;> rintro f (rfl | rfl) <;> rfl

/-- The 64-bit pair of a Load-Exclusive is two units or sixteen (R44; 92_eei_decisions.md D8). -/
theorem one_lt_exclPair64_read {cfg : Config} {addr : Nat} {us : List MUnit}
    (hu : scaUnits cfg (exclusiveAccess .read addr 8) = some us) : 1 < us.length := by
  obtain rfl := Option.some.inj hu
  change 1 < (if _ then _ else _ : List MUnit).length
  split
  · simp [doublewordUnits]
  · simp [byteUnits]

/-- Settles O51: the 32-bit pair is one unit and completes with the exclusive state set; the 64-bit pair is several. -/
theorem loadExclusivePair : Obligations.LoadExclusivePair := by
  intro s rt2 rn rt hne
  obtain ⟨hexec32, hexec64⟩ := exec_ldxp s rt2 rn rt
  refine ⟨fun f hf hclear hread => ?_, fun f hf us hclear hu => ?_⟩
  · obtain ⟨t, l, hnext, hreading, hafter⟩ := hclear.load_one (exclusiveAccess_ofRegisters _ _ (.inl rfl)) rfl rfl rfl
      hread f (done := .loadExclusive rt rt2 4) rfl
    rw [PE.complete, sliceValue_lower, sliceValue_upper hreading.length] at hafter
    rw [hexec32 f hf, State.loadExclusive, if_neg hne]
    exact ⟨t, l, hnext, hreading, hafter⟩
  · have h1 := one_lt_exclPair64_read hu
    rw [hexec64 f hf, State.loadExclusive, if_neg hne]
    exact ⟨h1, hclear.load_many (exclusiveAccess_ofRegisters _ _ (.inr rfl)) rfl hu _ _ h1⟩

/-! #### A store -/

@[simp] theorem leBytes_length (n v : Nat) : (leBytes n v).length = n := by
  induction n generalizing v with
  | zero => rfl
  | succ n ih => rw [leBytes, List.length_cons, ih]

/-- `n` bytes hold a number modulo `2 ^ (8 * n)`. -/
theorem leBytes_mod (n v : Nat) : leBytes n (v % 2 ^ (8 * n)) = leBytes n v := by
  induction n generalizing v with
  | zero => rfl
  | succ n ih =>
    have hlow : BitVec.ofNat 8 (v % 2 ^ (8 * (n + 1))) = BitVec.ofNat 8 v := by
      apply BitVec.eq_of_toNat_eq
      rw [BitVec.toNat_ofNat, BitVec.toNat_ofNat, Nat.mod_mod_of_dvd _ (Nat.pow_dvd_pow 2 (by omega))]
    have hhigh : v % 2 ^ (8 * (n + 1)) / 256 = v / 256 % 2 ^ (8 * n) := by
      rw [Nat.mul_succ, Nat.pow_add, Nat.mul_comm]
      exact Nat.mod_mul_right_div_self v 256 _
    rw [leBytes, leBytes, hlow, hhigh, ih]

theorem leBytes_regValue (p : PE) (r : Reg) (size : Nat) :
    leBytes size (p.regValue r size) = leBytes size (p.readX r).toNat := leBytes_mod _ _

theorem leBytes_fpValue (p : PE) (r : Reg) (size : Nat) :
    leBytes size (p.fpValue r size) = leBytes size (p.readV r).toNat := leBytes_mod _ _

/-- A store of one unit that nothing turns away writes its bytes and completes. -/
theorem State.Clear.store_one {s : State} {a : Access} (h : s.Clear a) (hreg : a.OfRegisters) (hdir : a.dir = .write)
    {us : List MUnit} (hu : scaUnits s.cfg a = some us) (h1 : us.length = 1) {data : List Byte}
    (hl : data.length = a.total) (i : Instr) (wb : Option (Reg × Word64)) :
    ∃ t, s.access i a data (.store wb) = .next t ∧ s.AfterWrite t a.addr data (s.pe.writeback wb).next := by
  obtain rfl := hreg.unit_eq_whole (by simp [hdir]) hu h1
  rw [h.access hreg.cls_ne.1 _ hu]
  simp only [hdir, reduceCtorEq, if_false]
  exact s.begin_write_one _ a.whole wb h.1 rfl rfl rfl rfl rfl rfl hl

/-- One of several units has begun (R228 (a)). -/
theorem State.Clear.store_many {s : State} {a : Access} (h : s.Clear a) (hreg : a.OfRegisters) (hdir : a.dir = .write)
    {us : List MUnit} (hu : scaUnits s.cfg a = some us) (i : Instr) (data : List Byte) (done : Completion)
    (h1 : 1 < us.length) : s.access i a data done = .next (s.inside (a.storeBegun i us data done)) := by
  rw [h.access hreg.cls_ne.1 us hu]
  simp only [hdir, reduceCtorEq, if_false]
  rw [s.begin_many _ (by simpa using h1), Access.storeBegun, decide_eq_true h1]

/-- What `exec` makes of STR is the store of one register. -/
theorem exec_str (s : State) (imm12 : BitVec 12) (rn rt : Reg) :
    ∀ f ∈ [(Instr.strImm32 imm12 rn rt, 4), (.strImm64 imm12 rn rt, 8)],
      (f.2 = 4 ∨ f.2 = 8) ∧ exec f.1 s = s.storeSingle f.1 f.2 imm12 rn rt := by
  simp only [List.mem_cons, List.not_mem_nil, or_false]
  rintro f (rfl | rfl)
  · exact ⟨.inl rfl, rfl⟩
  · exact ⟨.inr rfl, rfl⟩

/-- Settles O40: STR is a store of the low bytes of `Rt`. -/
theorem storeRegister : Obligations.StoreRegister := by
  intro s imm12 rn rt f hf us hclear hu
  obtain ⟨hsize, hexec⟩ := exec_str s imm12 rn rt f hf
  have hreg := singleAccess_ofRegisters .write (storeAddress (s.pe.readBase rn) imm12 f.2) hsize
  rw [hexec, State.storeSingle]
  refine ⟨fun h1 => ?_, hclear.store_many hreg rfl hu _ _ _⟩
  rw [leBytes_regValue]
  exact hclear.store_one hreg rfl hu h1 (by rw [leBytes_length, singleAccess_total]) f.1 none

/-- What `exec` makes of STP and STNP is the store of a pair. -/
theorem exec_stp (s : State) (imm7 : BitVec 7) (rt2 rn rt : Reg) :
    ∀ f ∈ [(Instr.stpPost32 imm7 rt2 rn rt, PairMnemonic.stp, Indexing.post, 4),
        (.stpOff32 imm7 rt2 rn rt, .stp, .offset, 4), (.stpPre32 imm7 rt2 rn rt, .stp, .pre, 4),
        (.stnp32 imm7 rt2 rn rt, .stnp, .offset, 4), (.stpPost64 imm7 rt2 rn rt, .stp, .post, 8),
        (.stpOff64 imm7 rt2 rn rt, .stp, .offset, 8), (.stpPre64 imm7 rt2 rn rt, .stp, .pre, 8),
        (.stnp64 imm7 rt2 rn rt, .stnp, .offset, 8)],
      (f.2.2.2 = 4 ∨ f.2.2.2 = 8) ∧
        exec f.1 s = s.storePair f.1 f.2.1 f.2.2.1 f.2.2.2 imm7 rt2 rn rt := by
  simp only [List.mem_cons, List.not_mem_nil, or_false]
  rintro f (rfl | rfl | rfl | rfl | rfl | rfl | rfl | rfl) <;> exact ⟨by simp, rfl⟩

theorem PE.pairBytes_eq (p : PE) (rt rt2 : Reg) (size : Nat) :
    p.pairBytes rt rt2 size = leBytes size (p.readX rt).toNat ++ leBytes size (p.readX rt2).toNat := by
  rw [PE.pairBytes, leBytes_regValue, leBytes_regValue]

/-- Settles O42: a pair whose base is no data register is a store of both, the first at the lower address. -/
theorem storePair : Obligations.StorePair := by
  intro s imm7 rt2 rn rt f hf a us hov ha hclear hu
  obtain ⟨hsize, hexec⟩ := exec_stp s imm7 rt2 rn rt f hf
  have hreg : a.OfRegisters := ha ▸ pairAccess_ofRegisters _ _ _ hsize
  have htotal : a.total = 2 * f.2.2.2 := by rw [ha, pairAccess_total]
  have hdir : a.dir = .write := by rw [ha]; rfl
  rw [hexec, State.storePair, hov, if_neg Bool.false_ne_true, ← ha]
  refine ⟨fun h1 => ?_, hclear.store_many hreg hdir hu _ _ _⟩
  rw [PE.pairBytes_eq]
  exact hclear.store_one hreg hdir hu h1
    (by rw [List.length_append, leBytes_length, leBytes_length, htotal, Nat.two_mul]) f.1 _

/-- What `exec` makes of STP (SIMD&FP) is the store of a pair of SIMD and floating-point registers. -/
theorem exec_stpFp (s : State) (imm7 : BitVec 7) (rt2 rn rt : Reg) :
    ∀ f ∈ [(Instr.stpFpS imm7 rt2 rn rt, 4), (.stpFpD imm7 rt2 rn rt, 8), (.stpFpQ imm7 rt2 rn rt, 16)],
      (f.2 = 4 ∨ f.2 = 8 ∨ f.2 = 16) ∧ exec f.1 s = s.storeFpPair f.1 f.2 imm7 rt2 rn rt := by
  simp only [List.mem_cons, List.not_mem_nil, or_false]
  rintro f (rfl | rfl | rfl) <;> exact ⟨by simp, rfl⟩

theorem PE.fpPairBytes_eq (p : PE) (rt rt2 : Reg) (size : Nat) :
    p.fpPairBytes rt rt2 size = leBytes size (p.readV rt).toNat ++ leBytes size (p.readV rt2).toNat := by
  rw [PE.fpPairBytes, leBytes_fpValue, leBytes_fpValue]

/-- Settles O44: with the feature the pair is a store of both registers, the first at the lower address. -/
theorem storeSimdPair : Obligations.StoreSimdPair := by
  intro s imm7 rt2 rn rt f hf a us hfeat ha hclear hu
  obtain ⟨hsize, hexec⟩ := exec_stpFp s imm7 rt2 rn rt f hf
  have hreg : a.OfRegisters := ha ▸ fpPairAccess_ofRegisters _ _ _ hsize
  have htotal : a.total = 2 * f.2 := by rw [ha, fpPairAccess_total]
  have hdir : a.dir = .write := by rw [ha]; rfl
  rw [hexec, State.storeFpPair, hfeat, Bool.not_true, if_neg Bool.false_ne_true, Indexing.address, ← ha]
  refine ⟨fun h1 => ?_, hclear.store_many hreg hdir hu _ _ _⟩
  rw [PE.fpPairBytes_eq]
  exact hclear.store_one hreg hdir hu h1
    (by rw [List.length_append, leBytes_length, leBytes_length, htotal, Nat.two_mul]) f.1 none

/-! ### 64-byte loads and stores (40_loads_stores.md rules R126 to R129) -/

theorem State.draw_eq (s : State) :
    s.draw.2 = { s with pending := s.draw.2.pending, drawCount := s.draw.2.drawCount } := by
  unfold State.draw; split <;> rfl

theorem PE.SameButCandidates.next {p q : PE} (h : p.SameButCandidates q) : p.next.SameButCandidates q.next :=
  congrArg PE.next h

theorem PE.writeX_withCand (p : PE) (r : Reg) (v : Word64) (l : List (Nat × List (Option Word32))) :
    PE.writeX { p with cand := l } r v = { p.writeX r v with cand := l } := by
  unfold PE.writeX; split <;> rfl

theorem PE.SameButCandidates.writeX {p q : PE} (h : p.SameButCandidates q) (r : Reg) (v : Word64) :
    (p.writeX r v).SameButCandidates (q.writeX r v) := by
  unfold PE.SameButCandidates at h ⊢
  rw [← PE.writeX_withCand, ← PE.writeX_withCand, h]

/-- The data of a write unit are stored, whatever is chosen after it and whatever the PE then becomes. -/
theorem State.AfterWrite.of_writeUnit {s : State} (hc : s.curOk = true) {u : MUnit} {data : List Byte}
    (hl : data.length = u.size) (ds : List Nat) (n : Nat) {p q : PE} (hq : q.SameButCandidates p) :
    s.AfterWrite
      ({ writeUnit (.pe s.cur) s.pe.inst u data s with pending := ds, drawCount := n }.setPe q) u.addr data p := by
  obtain ⟨hstored, hout, hsync, hunit, hhist, ⟨f, hpes⟩, hcfg, hcur, hinst, hturn⟩ :=
    writeUnit_spec (.pe s.cur) s.pe.inst u data s hl
  refine ⟨?_, hstored, hunit, ?_⟩
  · rw [hl]
    exact State.OnlyStored.of_write s _ _ _ _ _ f hc hpes hcfg hcur hinst hturn hout hsync hq
  · rw [State.setPe_history, hhist, MUnit.bytes, hl]

/-- A 64-byte store of one unit completes with a status that is any value (R128). -/
theorem State.begin_write_status {s : State} {fl : InFlight} {u : MUnit} {rs : Reg} (hm : s.MayAdvance)
    (hr : fl.reads = []) (hw : fl.writes = [u]) (hadj : fl.adjacent = false) (hx : fl.rmw = none)
    (hd : fl.done = .store64Status rs) (ha : fl.addr = u.addr) (hl : fl.data.length = u.size) :
    ∃ t v, s.begin fl = .next t ∧ s.AfterWrite t u.addr fl.data (s.pe.writeX rs v).next := by
  have hwrite : s.performWrite fl u = some (writeUnit (.pe s.cur) s.pe.inst u fl.data s) := by
    rw [fl.performWrite_plain _ _ hadj, fl.dataOf_whole u ha hl]
  obtain ⟨_, _, _, _, _, ⟨f, hpes⟩, _, hcur, _, _⟩ := writeUnit_spec (.pe s.cur) s.pe.inst u fl.data s hl
  generalize hs₁ : writeUnit (.pe s.cur) s.pe.inst u fl.data s = s₁ at *
  obtain ⟨hpe, hok⟩ := s.pe_of_pes_map s₁ f hm.1 hpes hcur
  have hm₂ : s₁.draw.2.MayAdvance := by
    rw [State.draw_eq]
    exact ⟨hok, by change s₁.pe.pc.toNat + 4 < _; rw [hpe]; exact hm.2⟩
  refine ⟨s₁.draw.2.setPe (s₁.pe.writeX rs (BitVec.ofNat 64 s₁.draw.1)).next, BitVec.ofNat 64 s₁.draw.1, ?_, ?_⟩
  · simp only [State.begin, hr, hw, State.advance, pickUnit_one, pickUnit_nil, hwrite]
    simp only [State.settle, InFlight.settled, InFlight.applyRmw, hx, List.isEmpty_nil, if_true, Bool.and_self, hd,
      State.finish, List.length_cons, List.length_nil, Nat.zero_add, Nat.le_refl]
    rw [(hm₂.setPe _ (by simp)).endInstr]
    simp [hm₂.1]
  · have hsame : s₁.pe.SameButCandidates s.pe := by rw [hpe]; rfl
    rw [State.draw_eq, ← hs₁]
    exact State.AfterWrite.of_writeUnit hm.1 hl _ _ (hs₁ ▸ (hsame.writeX rs _).next)

theorem State.ls64_refuse {s : State} (h : s.cfg.lowConfidence = .refuse) (n : String) (rt : Reg) (m : Res State) :
    s.ls64 n rt m = .refused (.lowConfidence n) := by
  rw [State.ls64, State.lowConfidence, h]

theorem State.ls64_execute {s : State} (h : s.cfg.lowConfidence = .execute) (hf : s.cfg.featLs64 = true) {rt : Reg}
    (hrt : rt.toNat ≤ 24) (n : String) (m : Res State) : s.ls64 n rt m = m := by
  rw [State.ls64, State.lowConfidence, h]
  simp [hf, Nat.not_lt.mpr hrt]

theorem scaUnits_ls64Access {cfg : Config} (hf : cfg.featLs64 = true) {addr : Nat} (ha : addr % 64 = 0)
    (dir : Direction) : scaUnits cfg (ls64Access dir addr) = some [{ addr := addr, size := 64 }] := by
  simp [scaUnits, ls64Access, hf, aligned_iff.mpr ha]

theorem State.Accessible.clear_ls64 {s : State} {addr : Nat} (h : s.Accessible addr 64) (hm : s.MayAdvance)
    (ha : addr % 64 = 0) (dir : Direction) : s.Clear (ls64Access dir addr) :=
  ⟨hm, h, by simp [Access.misalignedByClass, ls64Access, aligned_iff.mpr ha], rfl⟩

theorem PE.eightBytes_length (p : PE) (rt : Reg) : (p.eightBytes rt).length = 64 := by
  simp [PE.eightBytes, List.length_flatMap]

theorem PE.eightBytesWithAcc_length (p : PE) (rt : Reg) : (p.eightBytesWithAcc rt).length = 64 := by
  rw [PE.eightBytesWithAcc, List.length_append, List.length_drop, leBytes_length, PE.eightBytes_length]

/-- A 64-byte store that writes a status, where nothing turns it away. -/
theorem State.Clear.store64Status {s : State} {addr : Nat} (h : s.Clear (ls64Access .write addr))
    (hu : scaUnits s.cfg (ls64Access .write addr) = some [{ addr := addr, size := 64 }]) {data : List Byte}
    (hl : data.length = 64) (i : Instr) (rs : Reg) :
    ∃ t v, s.access i (ls64Access .write addr) data (.store64Status rs) = .next t ∧
      s.AfterWrite t addr data (s.pe.writeX rs v).next := by
  rw [h.access (ls64Access_ofRegisters _ _).cls_ne.1 _ hu]
  exact State.begin_write_status (u := { addr := addr, size := 64 }) h.1 rfl rfl rfl rfl rfl rfl hl

/-- Settles O46: under R98 the policy refuses each; under the alternative each is one unit of 64 bytes. -/
theorem sixtyFourByteAccesses : Obligations.SixtyFourByteAccesses := by
  intro s rs rn rt addr
  refine ⟨fun hpolicy i hi => ?_, fun hpolicy hf hrt hm haddr ha hacc => ?_⟩
  · simp only [List.mem_cons, List.not_mem_nil, or_false] at hi
    rcases hi with rfl | rfl | rfl | rfl <;> exact ⟨_, State.ls64_refuse hpolicy _ _ _⟩
  · have hload := scaUnits_ls64Access hf ha .read
    have hstore := scaUnits_ls64Access hf ha .write
    have hclear := hacc.clear_ls64 hm ha
    simp only [exec, execLd64b, execSt64b, execSt64bv, execSt64bv0, State.ls64_execute hpolicy hf hrt, ← haddr]
    exact ⟨fun hread => (hclear .read).load_one (ls64Access_ofRegisters _ _) rfl hload rfl hread _
        (done := .load64 rt) rfl,
      (hclear .write).store_one (ls64Access_ofRegisters _ _) rfl hstore rfl (s.pe.eightBytes_length rt) _ none,
      (hclear .write).store64Status hstore (s.pe.eightBytes_length rt) _ rs,
      (hclear .write).store64Status hstore (s.pe.eightBytesWithAcc_length rt) _ rs⟩

/-! ### Store-Exclusive pairs (40_loads_stores.md rules R119, R121, R122) -/

/-- What `exec` makes of STXP and STLXP is the store of an exclusive pair. -/
theorem exec_stxp (s : State) (rs rt2 rn rt : Reg) :
    ∀ f ∈ [(Instr.stxp32 rs rt2 rn rt, 4), (.stlxp32 rs rt2 rn rt, 4), (.stxp64 rs rt2 rn rt, 8),
        (.stlxp64 rs rt2 rn rt, 8)],
      (f.2 = 4 ∨ f.2 = 8) ∧ exec f.1 s = s.storeExclusive f.2 rs rt2 rn rt := by
  simp only [List.mem_cons, List.not_mem_nil, or_false]
  rintro f (rfl | rfl | rfl | rfl) <;> exact ⟨by simp, rfl⟩

/-- The class of an exclusive pair asks that the whole pair is aligned (R83 (c)). -/
theorem exclusiveAccess_misalignedByClass (dir : Direction) (addr : Nat) {size : Nat} (h : size = 4 ∨ size = 8) :
    (exclusiveAccess dir addr size).misalignedByClass = !aligned addr (2 * size) := by
  rcases h with rfl | rfl <;> rfl

theorem State.MayAdvance.endExclusive {s : State} (h : s.MayAdvance) (rs : Reg) (status : Word64) :
    s.endExclusive rs status = .next (s.setPe { (s.pe.writeX rs status).next with excl := none }) := by
  have hm : (s.setPe { s.pe.writeX rs status with excl := none }).MayAdvance := h.setPe _ (PE.writeX_pc _ _ _)
  rw [State.endExclusive, hm.endInstr, State.setPe_setPe, State.setPe_pe _ _ h.1]
  rfl

/-- An aligned exclusive pair passes the check of its class. -/
theorem State.afterCheck_exclusiveAccess (s : State) (dir : Direction) {addr size : Nat} (h : size = 4 ∨ size = 8)
    (ha : addr % (2 * size) = 0) (go : Res State) :
    s.afterCheck (checkClass s.cfg (exclusiveAccess dir addr size)) go = go := by
  rw [State.afterCheck, checkClass, exclusiveAccess_misalignedByClass _ _ h, aligned_iff.mpr ha]
  rfl

theorem exclusivePlaces_of_no_match {s : State} {addr size : Nat}
    (h : ∀ e, s.pe.excl = some e → e.addr ≠ addr ∨ e.size ≠ size) : exclusivePlaces s addr size = none := by
  unfold exclusivePlaces
  split
  · next e he => rw [if_neg (by have := h e he; tauto)]
  · rfl

theorem State.drawBelow_pending {s : State} {d : Nat} {ds : List Nat} (h : s.pending = d :: ds) {n : Nat} (hn : 1 < n) :
    s.drawBelow n = (d % n, { s with pending := ds }) := by
  rw [State.drawBelow, if_neg (by omega), State.draw, h]

section Meaning

variable {s : State} {size : Nat} (hsize : size = 4 ∨ size = 8) {rs rt2 rn rt : Reg} (ht : rs ≠ rt) (ht2 : rs ≠ rt2)
  (hn : rs ≠ rn ∨ rn = 31) (ha : (s.pe.readBase rn).toNat % (2 * size) = 0)

include hsize ht ht2 hn ha

/-- With its operands and its alignment in order, a Store-Exclusive pair that has no place fails. -/
theorem State.storeExclusive_of_no_place (hp : exclusivePlaces s (s.pe.readBase rn).toNat (2 * size) = none) :
    s.storeExclusive size rs rt2 rn rt = s.endExclusive rs 1 := by
  rw [State.storeExclusive, if_neg (by tauto), s.afterCheck_exclusiveAccess _ hsize ha, hp]

/-- One that has a place fails if a 0 is drawn. -/
theorem State.storeExclusive_of_draw_zero {ps : List Pick} {ds : List Nat}
    (hp : exclusivePlaces s (s.pe.readBase rn).toNat (2 * size) = some ps) (hd : s.pending = 0 :: ds) :
    s.storeExclusive size rs rt2 rn rt = State.endExclusive { s with pending := ds } rs 1 := by
  rw [State.storeExclusive, if_neg (by tauto), s.afterCheck_exclusiveAccess _ hsize ha, hp,
    State.drawBelow_pending hd (by decide)]
  rfl

/-- If a 1 is drawn it makes its access, of one unit, and succeeds. -/
theorem State.storeExclusive_of_draw_one {ps : List Pick} {ds : List Nat}
    (hp : exclusivePlaces s (s.pe.readBase rn).toNat (2 * size) = some ps) (hd : s.pending = 1 :: ds)
    (hc : checkAccess s.cfg (exclusiveAccess .write (s.pe.readBase rn).toNat size) = .next none) :
    s.storeExclusive size rs rt2 rn rt =
      (State.placeWrite { s with pending := ds } (.pe s.cur) s.pe.inst
        { addr := (s.pe.readBase rn).toNat, size := 2 * size } ps (s.pe.pairBytes rt rt2 size) true).endExclusive
          rs 0 := by
  rw [State.storeExclusive, if_neg (by tauto), s.afterCheck_exclusiveAccess _ hsize ha, hp,
    State.drawBelow_pending hd (by decide)]
  simp only [State.checked, State.afterCheck, hc, andThen_next, State.exclusiveWrite, exclusiveAccess_units _ _ _ hsize]
  rfl

end Meaning

/-- Settles O52: without a match there is no place for the write; with one, a draw of 0 is failure. -/
theorem storeExclusiveFails : Obligations.StoreExclusiveFails := by
  intro s rs rt2 rn rt ds ht ht2 hn hm f hf ha
  obtain ⟨hsize, hexec⟩ := exec_stxp s rs rt2 rn rt f hf
  rw [hexec]
  refine ⟨fun hno => ?_, fun hplaces hdraw => ?_⟩
  · rw [State.storeExclusive_of_no_place hsize ht ht2 hn ha (exclusivePlaces_of_no_match hno), hm.endExclusive]
  · obtain ⟨ps, hps⟩ := Option.ne_none_iff_exists'.mp hplaces
    have hm₁ : State.MayAdvance { s with pending := ds } := hm
    rw [State.storeExclusive_of_draw_zero hsize ht ht2 hn ha hps hdraw, hm₁.endExclusive]
    rfl

/-! #### A Store-Exclusive pair that succeeds -/

/-- A write unit touches nothing but its bytes, and of the PEs the words they may fetch. -/
theorem State.OnlyStored.of_placeWrite {s : State} (hc : s.curOk = true) {u : MUnit} {ps : List Pick}
    (hp : ps.map (·.addr) = u.bytes) (g : Agent) (i : Nat) (data : List Byte) (adj : Bool) {p q : PE}
    (hq : q.SameButCandidates p) : s.OnlyStored ((s.placeWrite g i u ps data adj).setPe q) u.addr u.size p := by
  obtain ⟨f, hf⟩ := s.placeWrite_keeps g i u ps data adj
  refine State.OnlyStored.of_write s _ _ _ _ _ f hc (by rw [hf]) (by rw [hf]) (by rw [hf]) (by rw [hf]) (by rw [hf])
    (fun b hb => s.placeWrite_outside g i u ps data adj b ?_) (fun a ha => ?_) hq
  · rw [hp, MUnit.bytes, mem_byteAddrs]; omega
  · rw [State.placeWrite]
    refine State.noteWrite_sync_outside _ _ _ _ _ _ fun hin => ?_
    have := mem_wordsOf u a hin
    omega

/-- A write unit right after the latest writes: each byte's new write is the immediate successor of its last one. -/
theorem State.ByteStored.of_placeWrite_latest (s : State) (g : Agent) (i : Nat) (u : MUnit) (data : List Byte) {j : Nat}
    {v : Byte} (hj : j < u.size) (hv : data[j]? = some v) :
    s.ByteStored (s.placeWrite g i u (u.bytes.map (latestPick s)) data true) s.nextUnit (u.addr + j) v
      (some ((s.orderAt (u.addr + j)).sourceAt (s.orderAt (u.addr + j)).lastPlace)) := by
  obtain ⟨hd, rfl⟩ := List.getElem?_eq_some_iff.mp hv
  have haddrs : (u.bytes.map (latestPick s)).map (·.addr) = u.bytes := by simp [latestPick, Function.comp_def]
  have hlen : j < (u.bytes.map (latestPick s)).length := by simpa [MUnit.bytes] using hj
  have hpick : (u.bytes.map (latestPick s))[j] = latestPick s (u.addr + j) := by
    simp only [List.getElem_map, MUnit.bytes, byteAddrs_getElem _ _ _ hj]
  obtain ⟨horder, hread⟩ := s.placeWrite_at g i u _ data true (by rw [haddrs]; exact u.bytes_nodup) j hlen hd
  rw [hpick] at horder hread
  exact ⟨(s.orderAt (u.addr + j)).lastPlace, Nat.le_refl _, fun src hsrc => Option.some.inj hsrc, horder, hread⟩

/-- Reads of the latest writes by the outstanding Load-Exclusive leave the places right after them. -/
theorem exclusivePlaces_latest {s : State} {addr size : Nat} {reads : List GotByte} (hu : s.UnitsNumbered)
    (he : s.pe.excl = some { addr := addr, size := size, reads := reads })
    (ha : reads.map (·.addr) = byteAddrs addr size)
    (hl : ∀ g ∈ reads, g.source = (s.orderAt g.addr).sourceAt (s.orderAt g.addr).lastPlace) :
    exclusivePlaces s addr size = some ((byteAddrs addr size).map (latestPick s)) := by
  rw [exclusivePlaces, he]
  simpa using successorPlaces_latest s reads addr size hu.1 ha hl

theorem PE.SameButCandidates.withExcl {p q : PE} (h : p.SameButCandidates q) (e : Option Exclusive) :
    PE.SameButCandidates { p with excl := e } { q with excl := e } :=
  congrArg (fun r : PE => ({ r with excl := e } : PE)) h

/-- The PE that made a write unit is what it was, but for the words it may fetch, so it may go on. -/
theorem State.MayAdvance.placeWrite {s : State} (h : s.MayAdvance) (g : Agent) (i : Nat) (u : MUnit) (ps : List Pick)
    (data : List Byte) (adj : Bool) :
    (s.placeWrite g i u ps data adj).MayAdvance ∧ (s.placeWrite g i u ps data adj).pe.SameButCandidates s.pe := by
  obtain ⟨f, hf⟩ := s.placeWrite_keeps g i u ps data adj
  obtain ⟨hpe, hok⟩ := s.pe_of_pes_map (s.placeWrite g i u ps data adj) f h.1 (by rw [hf]) (by rw [hf])
  exact ⟨⟨hok, by rw [hpe]; exact h.2⟩, by rw [hpe]; rfl⟩

/-- Settles O53: the write takes the places right after the latest writes, which are those the Load-Exclusive read. -/
theorem storeExclusiveSucceeds : Obligations.StoreExclusiveSucceeds := by
  intro s rs rt2 rn rt ds reads ht ht2 hn hunits hdraw f hf hclear hexcl haddrs hlatest
  obtain ⟨hsize, hexec⟩ := exec_stxp s rs rt2 rn rt f hf
  have ha : (s.pe.readBase rn).toNat % (2 * f.2) = 0 := by
    obtain ⟨_, _, hclass, _⟩ := hclear
    rw [exclusiveAccess_misalignedByClass _ _ hsize] at hclass
    simpa using hclass
  have hcheck := hclear.check (exclusiveAccess_ofRegisters .write (s.pe.readBase rn).toNat hsize).cls_ne.1
  have hplaces := exclusivePlaces_latest hunits hexcl haddrs hlatest
  rw [hexec, State.storeExclusive_of_draw_one hsize ht ht2 hn ha hplaces hdraw hcheck, PE.pairBytes_eq]
  generalize (s.pe.readBase rn).toNat = addr at haddrs ⊢
  have hm : State.MayAdvance { s with pending := ds } := hclear.1
  obtain ⟨hm₁, hsame⟩ := hm.placeWrite (.pe s.cur) s.pe.inst { addr := addr, size := 2 * f.2 }
    ((byteAddrs addr (2 * f.2)).map (latestPick s))
    (leBytes f.2 (s.pe.readX rt).toNat ++ leBytes f.2 (s.pe.readX rt2).toNat) true
  refine ⟨_, hm₁.endExclusive rs 0, ?_, by rw [State.setPe_nextUnit, State.placeWrite_nextUnit], fun i v g hv hg => ?_⟩
  · exact State.OnlyStored.of_placeWrite hm.1 (by simp [latestPick, Function.comp_def, MUnit.bytes]) _ _ _ _
      ((hsame.writeX rs 0).next.withExcl none)
  · have hi : i < 2 * f.2 := by
      have := (List.getElem?_eq_some_iff.mp hv).1
      rw [List.length_append, leBytes_length, leBytes_length] at this
      omega
    have hga : g.addr = addr + i := by
      have hget := congrArg (·[i]?) haddrs
      simp only [List.getElem?_map, hg, Option.map_some,
        List.getElem?_eq_getElem (byteAddrs_length addr (2 * f.2) ▸ hi), byteAddrs_getElem _ _ _ hi] at hget
      exact Option.some.inj hget
    rw [hlatest g (List.mem_of_getElem? hg), hga]
    exact State.ByteStored.of_placeWrite_latest { s with pending := ds } _ _ { addr := addr, size := 2 * f.2 } _ hi hv

/-! ### SVE accesses (40_loads_stores.md rules R132, R133) -/

/-- An element is accessed exactly where its predicate bit is true. -/
theorem mem_activeElements {pred : List Bool} {size : Nat} {addrs : List Nat} {e : Nat} :
    e ∈ activeElements pred size addrs ↔ ∃ i : Nat, addrs[i]? = some e ∧ pred[i * size]? = some true := by
  have hbit (i : Nat) : pred.getD (i * size) false = true ↔ pred[i * size]? = some true := by
    rw [List.getD_eq_getElem?_getD]
    cases pred[i * size]? <;> simp
  simp only [activeElements, List.mem_map, List.mem_filter, List.mem_zipIdx_iff_getElem?, hbit]
  exact ⟨fun ⟨⟨_, i⟩, ⟨hi, hb⟩, he⟩ => ⟨i, he ▸ hi, hb⟩, fun ⟨i, hi, hb⟩ => ⟨(e, i), ⟨hi, hb⟩, rfl⟩⟩

theorem sveUnits_of_absent {cfg : Config} (h : cfg.featSve = false) (a : Access) :
    sveUnits cfg a = .refused (.featureAbsent .sve) := by
  rw [sveUnits, h, if_neg Bool.false_ne_true]

theorem sveUnits_of_exception {cfg : Config} (h : cfg.featSve = true) {a : Access} {e : PeOutcome}
    (hc : checkAccess cfg a = .next (some e)) : sveUnits cfg a = .next (.inl e) := by
  rw [sveUnits, if_pos h, hc, andThen_next]

theorem sveUnits_of_units {cfg : Config} (h : cfg.featSve = true) {a : Access} (hc : checkAccess cfg a = .next none)
    {us : List MUnit} (hu : scaUnits cfg a = some us) : sveUnits cfg a = .next (.inr us) := by
  rw [sveUnits, if_pos h, hc, andThen_next, hu]

/-- Settles O33: the accessed elements, then the units of the two classes from O31. -/
theorem sveAccesses : Obligations.SveAccesses := by
  intro cfg p pg dir size addr addrs r
  refine ⟨fun h a => sveUnits_of_absent h a, fun e => mem_activeElements, fun h hs ha hc => ?_, fun h hc => ?_,
    fun h a e hc => sveUnits_of_exception h hc⟩
  · obtain ⟨_, _, haligned, _⟩ := elementAndByteUnits cfg (p.svePredAccess pg dir size addrs)
    exact sveUnits_of_units h hc (haligned rfl hs ha)
  · have hsize : (sveUnpredAccess cfg r dir addr).total =
        if r = .vector then cfg.sveVlBytes else cfg.sveVlBytes / 8 := by
      rw [Access.total, sveUnpredAccess, Nat.mul_one]
      cases r <;> rfl
    rw [← hsize]
    exact sveUnits_of_units h hc rfl

/-! ### CONSTRAINED UNPREDICTABLE operands (40_loads_stores.md rules R112, R114, R116, R118, R119) -/

theorem State.loadPair_same (s : State) (i : Instr) (m : PairMnemonic) (ix : Indexing) (size : Nat) (imm7 : BitVec 7)
    (rn rt : Reg) :
    s.loadPair i m ix size imm7 rt rn rt = .refused (.constrainedUnpredictable .loadPairSameRegister) := if_pos rfl

theorem State.loadExclusive_same (s : State) (i : Instr) (size : Nat) (rn rt : Reg) :
    s.loadExclusive i size rt rn rt = .refused (.constrainedUnpredictable .loadPairSameRegister) := if_pos rfl

theorem State.loadFpPair_same {s : State} (h : s.cfg.featAdvSimdFp = true) (i : Instr) (size : Nat) (imm7 : BitVec 7)
    (rn rt : Reg) :
    s.loadFpPair i size imm7 rt rn rt = .refused (.constrainedUnpredictable .loadPairSameRegister) := by
  rw [State.loadFpPair, h, Bool.not_true, if_neg Bool.false_ne_true, if_pos rfl]

/-- A base that is written back and is a data register, and not SP. -/
theorem Indexing.overlaps_of_writeback {ix : Indexing} (hix : ix = .post ∨ ix = .pre) {rn rt rt2 : Reg} (hn : rn ≠ 31)
    (h : rn = rt ∨ rn = rt2) : ix.overlaps rn rt rt2 = true := by
  have hov : ((rn == rt || rn == rt2) && rn != 31) = true := by simpa using ⟨h, hn⟩
  rcases hix with rfl | rfl
  · exact hov
  · exact hov

theorem State.loadPair_overlap (s : State) (i : Instr) (m : PairMnemonic) {ix : Indexing} (size : Nat) (imm7 : BitVec 7)
    {rt2 rn rt : Reg} (hne : rt ≠ rt2) (h : ix.overlaps rn rt rt2 = true) :
    s.loadPair i m ix size imm7 rt2 rn rt = .refused (.constrainedUnpredictable .writebackOverlap) := by
  rw [State.loadPair, if_neg hne, if_pos h]

theorem State.storePair_overlap (s : State) (i : Instr) (m : PairMnemonic) {ix : Indexing} (size : Nat)
    (imm7 : BitVec 7) {rt2 rn rt : Reg} (h : ix.overlaps rn rt rt2 = true) :
    s.storePair i m ix size imm7 rt2 rn rt = .refused (.constrainedUnpredictable .writebackOverlap) := if_pos h

theorem State.storeExclusive_overlap (s : State) (size : Nat) {rs rt2 rn rt : Reg}
    (h : rs = rt ∨ rs = rt2 ∨ (rs = rn ∧ rn ≠ 31)) :
    s.storeExclusive size rs rt2 rn rt = .refused (.constrainedUnpredictable .statusOverlap) := if_pos h

/-- Settles O60: each family tests its operands before anything else. -/
theorem unpredictableOperandsAreRefused : Obligations.UnpredictableOperandsAreRefused := by
  intro s imm7 rs rt2 rn rt
  simp only [List.mem_cons, List.not_mem_nil, or_false]
  refine ⟨?same, fun hfeat => ?sameSimd, fun hn hdata => ⟨fun hne => ?loadOverlap, ?storeOverlap⟩,
    fun hstatus => ?status⟩
  case same =>
    rintro f (rfl | rfl | rfl | rfl | rfl | rfl | rfl | rfl | rfl | rfl | rfl | rfl)
    iterate 8 exact s.loadPair_same _ _ _ _ _ _ _
    iterate 4 exact s.loadExclusive_same _ _ _ _
  case sameSimd =>
    rintro f (rfl | rfl | rfl) <;> exact State.loadFpPair_same hfeat _ _ _ _ _
  case loadOverlap =>
    rintro f (rfl | rfl | rfl | rfl) <;>
      exact s.loadPair_overlap _ _ _ _ hne (Indexing.overlaps_of_writeback (by simp) hn hdata)
  case storeOverlap =>
    rintro f (rfl | rfl | rfl | rfl) <;>
      exact s.storePair_overlap _ _ _ _ (Indexing.overlaps_of_writeback (by simp) hn hdata)
  case status =>
    rintro f (rfl | rfl | rfl | rfl) <;> exact s.storeExclusive_overlap _ hstatus

end Sys2Proof.Machine

namespace Sys2Proof.Machine

/-! ### Branches, NOP and TRCIT (41_branch_system.md)

The two ways a branch can end and the policy for instructions of low confidence, then on them the instructions. -/

/-- The state in which a branch leaves its PE: at the target if it was taken, else at the next instruction. -/
def State.afterBranch (s : State) (taken : Bool) (offset : Word64) : State :=
  s.setPe { s.pe with pc := if taken then s.pe.pc + offset else s.pe.pc + 4, phase := .atStart }

theorem State.MayAdvance.branchIf {s : State} (h : s.MayAdvance) (taken : Bool) (offset : Word64) :
    s.branchIf taken offset = .next (s.afterBranch taken offset) := by
  cases taken with
  | true => rfl
  | false => exact h.endInstr

theorem State.lowConfidence_refuse {s : State} (h : s.cfg.lowConfidence = .refuse) (n : String) (m : Res State) :
    s.lowConfidence n m = .refused (.lowConfidence n) := by
  rw [State.lowConfidence, h]

theorem State.lowConfidence_execute {s : State} (h : s.cfg.lowConfidence = .execute) (n : String) (m : Res State) :
    s.lowConfidence n m = m := by
  rw [State.lowConfidence, h]

/-! #### Branches (rules R141 to R147) -/

theorem execB_of_not_wraps {s : State} {imm26 : BitVec 26} (h : branchWraps s.pe.pc (branchOffset imm26) = false) :
    execB imm26 s = .next (s.afterBranch true (branchOffset imm26)) := by
  rw [execB, h, if_neg Bool.false_ne_true]
  rfl

theorem execB_of_wraps {s : State} {imm26 : BitVec 26} (h : branchWraps s.pe.pc (branchOffset imm26) = true) :
    execB imm26 s = .refused (.branchWrap s.pe.pc.toNat) := if_pos h

/-- The link register is written to the PE that then branches, so both are one change of that PE. -/
theorem execBl_eq {s : State} (h : s.curOk = true) (imm26 : BitVec 26) :
    execBl imm26 s =
      .next (s.setPe
        { s.pe.writeX 30 (s.pe.pc + 4) with pc := s.pe.pc + branchOffset imm26, phase := .atStart }) := by
  rw [execBl, State.jump, State.setPe_setPe, State.setPe_pe _ _ h]
  rfl

theorem PE.not_isZero (p : PE) (sf : BitVec 1) (rt : Reg) :
    (!p.isZero sf rt) = if sf = 1 then p.readX rt != 0 else p.readW rt != 0 := by
  unfold PE.isZero
  split <;> rfl

/-- The bit number `b5 : b40` as a number is what R100 makes of its two fields. -/
theorem PE.testedBit_eq (p : PE) (b5 : BitVec 1) (b40 : BitVec 5) (rt : Reg) :
    p.testedBit b5 b40 rt = (p.readX rt).getLsbD (b5 ++ b40).toNat := by
  rw [PE.testedBit, BitVec.toNat_append, ← Nat.shiftLeft_add_eq_or_of_lt b40.isLt, Nat.shiftLeft_eq]

/-- Settles O35: B jumps unless it wraps, BL links and jumps, and each of the others is one conditional branch. -/
theorem branchesSetPc : Obligations.BranchesSetPc := by
  intro s imm26 imm19 imm14 cond sf b5 b40 rt hm
  refine ⟨execB_of_not_wraps, execB_of_wraps, execBl_eq hm.1 imm26, ?_⟩
  simp only [← PE.not_isZero, ← PE.testedBit_eq, List.mem_cons, List.not_mem_nil, or_false]
  rintro f (rfl | rfl | rfl | rfl | rfl) <;> exact hm.branchIf _ _

/-! #### Compare and branch (rules R148 to R151) -/

/-- The register forms name a comparison with every allocated condition. -/
theorem comparisonOfReg_isSome : ∀ cc, ccAllocated cc = true → (comparisonOfReg cc).isSome := by decide

/-- So do the immediate forms. -/
theorem comparisonOfImm_isSome : ∀ cc, ccAllocated cc = true → (comparisonOfImm cc).isSome := by decide

/-- A form that names a comparison branches as its comparison says. -/
theorem State.MayAdvance.compareBranch {s : State} (h : s.MayAdvance) {c : Option Comparison} (hc : c.isSome)
    (cc : BitVec 3) {n : Nat} (a b : BitVec n) (offset : Word64) :
    ∃ taken, c.map (·.holds a b) = some taken ∧
      s.compareBranch c cc a b offset = .next (s.afterBranch taken offset) := by
  obtain ⟨c, rfl⟩ := Option.isSome_iff_exists.mp hc
  exact ⟨c.holds a b, rfl, h.branchIf _ _⟩

/-- Settles O36: the policy refuses every form; where it does not, every form is one `compareBranch`. -/
theorem compareAndBranch : Obligations.CompareAndBranch := by
  intro s sf cc rm rt imm6 imm9 hm hcc
  have hreg {n : Nat} (a b : BitVec n) :=
    hm.compareBranch (comparisonOfReg_isSome cc hcc) cc a b (branchOffset imm9)
  have himm {n : Nat} (a b : BitVec n) :=
    hm.compareBranch (comparisonOfImm_isSome cc hcc) cc a b (branchOffset imm9)
  simp only [List.mem_cons, List.not_mem_nil, or_false]
  refine ⟨fun hpolicy => ?refused, fun hpolicy => ?executed⟩
  case refused =>
    rintro i (rfl | rfl | rfl | rfl) <;> exact ⟨_, State.lowConfidence_refuse hpolicy _ _⟩
  case executed =>
    simp only [forall_eq_or_imp, forall_eq, exec, execCbReg, execCbImm, execCbb, execCbh,
      State.lowConfidence_execute hpolicy]
    exact ⟨hreg _ _, hreg _ _, himm _ _, himm _ _, hreg _ _, hreg _ _⟩

/-! #### NOP and TRCIT (rules R156, R157) -/

/-- A change of the PE that leaves `pc` alone, and then the end of the instruction. -/
theorem State.MayAdvance.endInstr_setPe {s : State} (h : s.MayAdvance) {p : PE} (hp : p.pc = s.pe.pc) :
    (s.setPe p).endInstr = .next (s.setPe p.next) := by
  rw [(h.setPe p hp).endInstr, State.setPe_setPe, State.setPe_pe _ _ h.1]

/-- Settles O38: both are the end of an instruction, TRCIT after it has added to the trace. -/
theorem nopAndTrcit : Obligations.NopAndTrcit := by
  intro s rt hm
  refine ⟨hm.endInstr, fun hpolicy => State.lowConfidence_refuse hpolicy _ _, fun hpolicy => ?_⟩
  calc exec (.trcit rt) s
      = (s.setPe { s.pe with trace := s.pe.trace ++ [s.pe.readX rt] }).endInstr :=
        State.lowConfidence_execute hpolicy _ _
    _ = .next (s.setPe { s.pe.next with trace := s.pe.trace ++ [s.pe.readX rt] }) := hm.endInstr_setPe rfl

end Sys2Proof.Machine

namespace Sys2Proof.Machine

/-! ### Cache maintenance and barriers (42_cache_barrier.md; 20_memory.md rule R81)

What each step of R81 makes of the table it changes; an instruction is such a step and the end of the instruction. -/

/-- A change of stages and then the end of the instruction. -/
theorem State.MayAdvance.endInstr_withSync {s : State} (h : s.MayAdvance) (l : List (Nat × SyncWord)) :
    State.endInstr { s with sync := l } = .next { s with pes := s.pes.set s.cur s.pe.next, sync := l } :=
  State.MayAdvance.endInstr (s := { s with sync := l }) h

theorem State.moveStage_eq_withSync (s : State) (a : Nat) (src dst : SyncStage) :
    s.moveStage a src dst = { s with sync := (s.moveStage a src dst).sync } := by
  unfold State.moveStage
  split
  · split <;> rfl
  · rfl

theorem State.moveStage_find_other (s : State) {a b : Nat} (h : b ≠ a) (src dst : SyncStage) :
    assocFind (s.moveStage a src dst).sync b = assocFind s.sync b := by
  unfold State.moveStage
  split
  · split
    · exact assocFind_insert_other _ _ _ _ h
    · rfl
  · rfl

theorem State.moveStage_find_self (s : State) (a : Nat) (src dst : SyncStage) :
    assocFind (s.moveStage a src dst).sync a = (assocFind s.sync a).map fun e =>
      if e.stage = src ∧ e.writer = .pe s.cur then { e with stage := dst } else e := by
  unfold State.moveStage
  split
  · next e he =>
    rw [he, Option.map_some]
    split
    · exact assocFind_insert_self _ _ _
    · exact he
  · next he => rw [he, Option.map_none]

/-- What `exec` makes of DC CVAU and IC IVAU is a move of the word of their address to the next stage. -/
theorem exec_maintenance (s : State) (rt : Reg) :
    ∀ f ∈ [(Instr.dcCvau rt, SyncStage.written, SyncStage.cleaned), (.icIvau rt, .cleanDone, .invalidated)],
      exec f.1 s = (s.moveStage (wordAddr (s.pe.readX rt).toNat) f.2.1 f.2.2).endInstr := by
  simp only [List.mem_cons, List.not_mem_nil, or_false]
  rintro f (rfl | rfl) <;> rfl

/-- Settles O22: each of the two is a move of one word's stage, which changes the table of stages at that word only. -/
theorem cacheMaintenanceMovesOneStage : Obligations.CacheMaintenanceMovesOneStage := by
  intro s rt hm f hf
  refine ⟨_, ?_, fun a ha => s.moveStage_find_other ha _ _, s.moveStage_find_self _ f.2.1 f.2.2⟩
  rw [exec_maintenance s rt f hf, State.moveStage_eq_withSync]
  exact hm.endInstr_withSync _

/-- Settles O23: the barrier maps the table of stages entry by entry; the next stage depends on the word only for
`written`. -/
theorem barrierMovesEveryWord : Obligations.BarrierMovesEveryWord := by
  intro s hm
  refine ⟨s.dsbIsh.sync, hm.endInstr_withSync _, fun a => ?_⟩
  rw [State.dsbIsh_find]
  refine congrArg (Option.map · _) (funext fun e => ?_)
  split
  · obtain ⟨stage, g⟩ := e
    cases stage with
    | written => exact apply_ite (SyncWord.mk · g) _ _ _
    | cleaned | cleanDone | invalidated | observable => rfl
  · rfl

/-- A context synchronization event drops the candidates of the observable words and keeps those of the others. -/
theorem State.contextSync_find {s : State} (h : s.curOk = true) (a : Nat) :
    assocFind s.contextSync.pe.cand a = if s.syncOf a = .observable then none else assocFind s.pe.cand a := by
  rw [State.contextSync, State.setPe_pe _ _ h, assocFind_filter s.pe.cand (fun k => s.syncOf k != .observable)]
  by_cases hobs : s.syncOf a = .observable <;> simp [hobs]

/-- Settles O24: ISB is a context synchronization event, a change of the PE that leaves `pc` alone. -/
theorem isbSynchronizesFetches : Obligations.IsbSynchronizesFetches := by
  intro s crm hm
  refine ⟨s.contextSync.pe.cand, ?_, State.contextSync_find hm.1⟩
  rw [State.contextSync, State.setPe_pe _ _ hm.1]
  exact hm.endInstr_setPe rfl

/-! #### DC ZVA (rule R172; 20_memory.md rule R55) -/

theorem zvaAccess_addr_aligned (cfg : Config) (va : Word64) : (zvaAccess cfg va).addr % cfg.zvaBlockBytes = 0 :=
  Nat.sub_mod_eq_zero_of_mod_eq (Nat.mod_mod _ _).symm

/-- A block of one byte is the byte at the address. -/
theorem zvaAccess_addr_of_one {cfg : Config} (h : cfg.zvaBlockBytes = 1) (va : Word64) :
    (zvaAccess cfg va).addr = va.toNat := by
  simp only [zvaAccess, h, Nat.mod_one, Nat.sub_zero]

theorem byteUnits_length (a n : Nat) : (byteUnits a n).length = n := by
  rw [byteUnits, List.length_map, byteAddrs_length]

theorem exec_dcZva_of_device {s : State} {rt : Reg} (h : zvaOnDevice s.cfg (s.pe.readX rt) = true) :
    exec (.dcZva rt) s = .refused (.zvaDevice (zvaAccess s.cfg (s.pe.readX rt)).addr) := if_pos h

/-- On memory that is not Device it is a store of zeros, each byte a unit. -/
theorem exec_dcZva_of_not_device {s : State} {rt : Reg} (h : zvaOnDevice s.cfg (s.pe.readX rt) = false)
    (hclear : s.Clear (zvaAccess s.cfg (s.pe.readX rt))) :
    exec (.dcZva rt) s =
      s.begin
        { (zvaAccess s.cfg (s.pe.readX rt)).storeBegun (.dcZva rt)
            (byteUnits (zvaAccess s.cfg (s.pe.readX rt)).addr s.cfg.zvaBlockBytes)
            (List.replicate s.cfg.zvaBlockBytes 0) (.store none) with
          interruptible := decide (1 < s.cfg.zvaBlockBytes) } := by
  have hstore : exec (.dcZva rt) s = s.access (.dcZva rt) (zvaAccess s.cfg (s.pe.readX rt))
      (List.replicate s.cfg.zvaBlockBytes 0) (.store none) := by
    change execDcZva rt s = _
    rw [execDcZva, h, if_neg Bool.false_ne_true]
  rw [hstore, hclear.access (by simp [zvaAccess]) _ rfl, byteUnits_length]
  rfl

/-- Settles O47: a block of several bytes has begun as so many units; a block of one byte is one unit and completes. -/
theorem zeroBlock : Obligations.ZeroBlock := by
  intro s rt
  refine ⟨exec_dcZva_of_device, fun hdev hmany hclear => ⟨zvaAccess_addr_aligned _ _, ?several⟩,
    fun hdev hone hclear => ?one⟩
  case several =>
    rw [exec_dcZva_of_not_device hdev hclear, decide_eq_true hmany]
    exact s.begin_many _ (by simpa [Access.storeBegun, byteUnits_length] using hmany)
  case one =>
    rw [exec_dcZva_of_not_device hdev hclear, hone, zvaAccess_addr_of_one hone]
    exact s.begin_write_one _ { addr := (s.pe.readX rt).toNat, size := 1 } none hclear.1 rfl rfl rfl rfl rfl
      (zvaAccess_addr_of_one hone _) rfl

end Sys2Proof.Machine

namespace Sys2Proof.Machine

/-! ### Where atomic instructions are supported (43_atomics.md rules R184 to R187, R192)

What the tests of the model say of a byte of a known region, and on it the statement. -/

section Support

variable {cfg : Config} {a : Nat} {r : Region} (h : regionOf cfg a = some r)

include h

theorem byteHas_of_region (p : MemAttr → Bool) : byteHas cfg p a = p r.attr := by
  rw [byteHas, attrOf, h, Option.map_some]

theorem atomicGuaranteed_iff : atomicGuaranteed cfg a = true ↔ r.attr.type = .normal .writeBack .writeBack ∧
    (r.attr.shareability = .innerShareable ∨ r.attr.shareability = .outerShareable) ∧ r.attr.conventional = true := by
  have hshared : r.attr.shareability ≠ .nonShareable ↔
      r.attr.shareability = .innerShareable ∨ r.attr.shareability = .outerShareable := by
    cases r.attr.shareability <;> decide
  simp [atomicGuaranteed, wbShareable, byteHas_of_region h, MemAttr.isWriteBack, hshared, and_assoc]

theorem atomicSupported_of_region : atomicSupported cfg a = (atomicGuaranteed cfg a || r.atomicSupported) := by
  rw [atomicSupported, h]

theorem atomicFpSupported_of_uncached
    (hd : r.attr.type = .device ∨ r.attr.type = .normal .nonCacheable .nonCacheable) :
    atomicFpSupported cfg a = r.atomicFpSupported := by
  rw [atomicFpSupported, h]
  exact if_pos (by simpa [MemAttr.isDevice, MemAttr.isNonCacheable] using hd)

theorem atomicFpSupported_of_cacheable (hd : r.attr.type ≠ .device)
    (hn : r.attr.type ≠ .normal .nonCacheable .nonCacheable) :
    atomicFpSupported cfg a = atomicSupported cfg a := by
  rw [atomicFpSupported, h]
  exact if_neg (by simp [MemAttr.isDevice, MemAttr.isNonCacheable, hd, hn])

end Support

/-- Settles O58: a byte that is guaranteed is neither Device nor Non-cacheable, so both kinds are supported there. -/
theorem atomicSupport : Obligations.AtomicSupport := by
  intro cfg a r guaranteed h hg
  rw [← atomicGuaranteed_iff h] at hg
  refine ⟨fun hyes => ?guaranteed, fun hno => ?elsewhere, atomicFpSupported_of_uncached h,
    atomicFpSupported_of_cacheable h⟩
  case guaranteed =>
    have hsupported : atomicSupported cfg a = true := by
      rw [atomicSupported_of_region h, hg.mp hyes, Bool.true_or]
    obtain ⟨htype, _, _⟩ := (atomicGuaranteed_iff h).mp (hg.mp hyes)
    exact ⟨hsupported, by
      rw [atomicFpSupported_of_cacheable h (by simp [htype]) (by simp [htype]), hsupported]⟩
  case elsewhere =>
    rw [atomicSupported_of_region h, Bool.eq_false_iff.mpr (mt hg.mpr hno), Bool.false_or]

/-! ### What an atomic instruction becomes (43_atomics.md rules R188 to R195) -/

/-- What `exec` makes of LDADD, SWP and CAS is one read-modify-write, of the operation and the register they name. -/
theorem exec_atomic (s : State) (rs rn rt : Reg) :
    ∀ f ∈ [(Instr.ldadd32 rs rn rt, 4, AtomicOp.add (s.pe.regValue rs 4), rt),
        (.ldadd64 rs rn rt, 8, .add (s.pe.regValue rs 8), rt), (.swp32 rs rn rt, 4, .swap (s.pe.regValue rs 4), rt),
        (.swp64 rs rn rt, 8, .swap (s.pe.regValue rs 8), rt),
        (.cas32 rs rn rt, 4, .compareSwap (s.pe.regValue rs 4) (s.pe.regValue rt 4), rs),
        (.cas64 rs rn rt, 8, .compareSwap (s.pe.regValue rs 8) (s.pe.regValue rt 8), rs)],
      (f.2.1 = 4 ∨ f.2.1 = 8) ∧
        exec f.1 s = s.atomicRmw f.1 (s.pe.readBase rn).toNat f.2.1 f.2.2.1 f.2.2.2 := by
  simp only [List.mem_cons, List.not_mem_nil, or_false]
  rintro f (rfl | rfl | rfl | rfl | rfl | rfl) <;> exact ⟨by simp, rfl⟩

theorem atomicAccess_total (addr n : Nat) : (atomicAccess addr n).total = n := Nat.mul_one n

/-- An aligned atomic access to memory that exists is turned away by nothing. -/
theorem State.Accessible.clear_atomic {s : State} {addr n : Nat} (h : s.Accessible addr n) (hm : s.MayAdvance)
    (ha : addr % n = 0) : s.Clear (atomicAccess addr n) :=
  ⟨hm, by rwa [atomicAccess_total], by
    simp [Access.misalignedByClass, atomicAccess, Access.total, aligned_iff.mpr ha], rfl⟩

theorem State.Accessible.check_atomic {s : State} {addr n : Nat} (h : s.Accessible addr n) (hm : s.MayAdvance)
    (ha : addr % n = 0) : checkAccess s.cfg (atomicAccess addr n) = .next none :=
  (h.clear_atomic hm ha).check (by simp [atomicAccess])

section Rmw

variable {s : State} {addr n : Nat} (hf : s.cfg.featAtomics = true) (hm : s.MayAdvance) (ha : addr % n = 0)
  (hacc : s.Accessible addr n)

include hf hm ha hacc

theorem State.atomicRmw_of_supported (hsup : ∀ b, addr ≤ b → b < addr + n → atomicSupported s.cfg b = true) (i : Instr)
    (op : AtomicOp) (rd : Reg) : s.atomicRmw i addr n op rd = s.supportedAtomic i addr n op rd := by
  have hall : (byteAddrs addr n).all (atomicSupported s.cfg) = true := by
    rw [List.all_eq_true]
    intro b hb
    obtain ⟨hle, hlt⟩ := (mem_byteAddrs _ _ _).mp hb
    exact hsup b hle hlt
  rw [State.atomicRmw, if_pos hf, State.checked, State.afterCheck, hacc.check_atomic hm ha, andThen_next, if_pos hall]

theorem State.atomicRmw_of_unsupported (hsup : ∃ b, addr ≤ b ∧ b < addr + n ∧ atomicSupported s.cfg b = false)
    (i : Instr) (op : AtomicOp) (rd : Reg) :
    s.atomicRmw i addr n op rd = (s.drawBelow (effectSet s.cfg).length).2.unsupportedAtomic i addr n op rd
      ((effectSet s.cfg).getD (s.drawBelow (effectSet s.cfg).length).1 .nonAtomic) := by
  have hall : ¬ (byteAddrs addr n).all (atomicSupported s.cfg) = true := by
    obtain ⟨b, hle, hlt, hb⟩ := hsup
    rw [List.all_eq_true]
    intro h
    exact Bool.eq_false_iff.mp hb (h b ((mem_byteAddrs _ _ _).mpr ⟨hle, hlt⟩))
  rw [State.atomicRmw, if_pos hf, State.checked, State.afterCheck, hacc.check_atomic hm ha, andThen_next, if_neg hall]

end Rmw

/-- The set of effects is not empty: an empty one is read as all of them (log 31). -/
theorem effectSet_length_pos (cfg : Config) : 0 < (effectSet cfg).length := by
  unfold effectSet
  split
  · exact Nat.succ_pos _
  · next h => exact List.length_pos_iff.mpr (by simpa using h)

theorem State.drawBelow_fst (s : State) (n : Nat) : (s.drawBelow n).1 = if n ≤ 1 then 0 else s.draw.1 % n := by
  unfold State.drawBelow
  split <;> rfl

theorem atomicUnits_length_pos (cfg : Config) {addr n : Nat} (hn : 0 < n) :
    0 < (atomicUnits cfg (atomicAccess addr n)).length := by
  unfold atomicUnits
  split
  · exact Nat.succ_pos _
  · rwa [byteUnits_length, atomicAccess_total]

/-- A non-atomic performance has at least a read unit and a write unit, so after the step that begins it the PE is
inside it. -/
theorem State.performNonAtomic_eq (s : State) (i : Instr) (addr : Nat) {n : Nat} (hn : 0 < n) (op : AtomicOp) (rd : Reg)
    (thenSError : Bool) :
    s.performNonAtomic i addr n op rd thenSError = .next (s.inside
      { instr := i, addr := addr, size := n, reads := atomicUnits s.cfg (atomicAccess addr n), got := []
        rmw := some op, writes := atomicUnits s.cfg (atomicAccess addr n), data := []
        interruptible := decide (1 < (atomicUnits s.cfg (atomicAccess addr n)).length)
        done := .atomic rd thenSError }) := by
  have hpos := atomicUnits_length_pos s.cfg (addr := addr) hn
  exact s.begin_many _ (Nat.add_lt_add_of_le_of_lt hpos hpos)

/-- Settles O56: the drawn effect is a member of the set, and each effect is one operation of the model. -/
theorem unsupportedAtomics : Obligations.UnsupportedAtomics := by
  intro s rs rn rt addr f hf hfeat hm haddr ha hacc hsup
  obtain ⟨hsize, hexec⟩ := exec_atomic s rs rn rt f hf
  rw [hexec, ← haddr, State.atomicRmw_of_unsupported hfeat hm ha hacc hsup]
  have hlt := s.drawBelow_lt _ (effectSet_length_pos s.cfg)
  obtain ⟨d, c, hdraw⟩ := s.drawBelow_eq (effectSet s.cfg).length
  rw [← State.drawBelow_fst, hdraw]
  refine ⟨_, d, c, List.getElem?_eq_getElem hlt, ?_⟩
  rintro s₁ rfl
  rw [List.getD_eq_getElem _ _ hlt]
  have hn : 0 < f.2.1 := by omega
  have hm₁ : State.MayAdvance { s with pending := d, drawCount := c } := hm
  cases (effectSet s.cfg)[(s.drawBelow (effectSet s.cfg).length).1] with
  | externalAbort | sError | mmuFault | nopThenSError => rfl
  | nop => exact hm₁.endInstr
  | nonAtomic | nonAtomicThenSError => exact State.performNonAtomic_eq _ _ _ hn _ _ _

end Sys2Proof.Machine

namespace Sys2Proof.Machine

/-! ### Instructions of several units (70_reset_and_hazards.md rule R228 (b))

A PE inside an instruction performs its read units, then its write units, in whatever order they are picked. Each phase
is said once, over the units left: the reads, then the writes, then the end of the instruction. -/

theorem PE.writeX_withPhase (p : PE) (r : Reg) (v : Word64) (ph : Phase) :
    PE.writeX { p with phase := ph } r v = { p.writeX r v with phase := ph } := by
  unfold PE.writeX; split <;> rfl

theorem State.inside_pe {s : State} (h : s.curOk = true) (fl : InFlight) :
    (s.inside fl).pe = { s.pe with phase := .inside fl } := State.setPe_pe _ _ h

theorem State.performUnits_inside {s : State} {fl : InFlight} (h : s.pe.phase = .inside fl) (k : Nat) (ks : List Nat) :
    s.performUnits (k :: ks) = andThen (s.advance fl k) (State.performUnits ks) := by
  rw [State.performUnits, h]

/-- A PE whose instruction has ended performs no more units. -/
theorem State.performUnits_atStart {s : State} (h : s.pe.phase = .atStart) (ks : List Nat) :
    s.performUnits ks = .next s := by
  cases ks with
  | nil => rfl
  | cons k ks => rw [State.performUnits, h]

/-! #### After a unit -/

theorem State.settle_reading (s : State) {fl : InFlight} (h : fl.reads ≠ []) : s.settle fl = .next (s.inside fl) := by
  have hset : fl.settled = fl := if_neg (by simpa using h)
  rw [State.settle, hset, if_neg (by simp [h])]
  rfl

theorem State.settle_writing (s : State) {fl : InFlight} (hr : fl.reads = []) (hx : fl.rmw = none)
    (hw : fl.writes ≠ []) : s.settle fl = .next (s.inside fl) := by
  have hset : fl.settled = fl := by simp [InFlight.settled, InFlight.applyRmw, hr, hx]
  rw [State.settle, hset, if_neg (by simp [hw])]
  rfl

theorem State.settle_done (s : State) {fl : InFlight} (hr : fl.reads = []) (hx : fl.rmw = none) (hw : fl.writes = []) :
    s.settle fl = s.finish fl.addr (inOrder fl.addr fl.size fl.got) fl.done := by
  have hset : fl.settled = fl := by simp [InFlight.settled, InFlight.applyRmw, hr, hx]
  rw [State.settle, hset, if_pos (by simp [hr, hw])]

/-- The instruction with all its reads done. -/
def InFlight.allRead (fl : InFlight) (got : List GotByte) : InFlight := { fl with reads := [], got := got }

/-- The atomic instruction with all its reads done and its operation applied: only the writes of `data` are left. -/
def InFlight.writing (fl : InFlight) (got : List GotByte) (data : List Byte) : InFlight :=
  { fl with reads := [], got := got, rmw := none, data := data }

section Operation

variable (s : State) {fl : InFlight} {op : AtomicOp} {got l : List GotByte} (hx : fl.rmw = some op)
  (hl : inOrder fl.addr fl.size got = l)

include hx hl

/-- An atomic instruction that has read all and does not write ends (R195). -/
theorem State.settle_no_write (h : op.apply fl.size (gotValue l) = none) :
    s.settle (fl.allRead got) = s.finish fl.addr l fl.done := by
  have hset : (fl.allRead got).settled = { fl.allRead got with rmw := none, writes := [] } := by
    simp [InFlight.settled, InFlight.applyRmw, InFlight.allRead, hx, hl, h]
  rw [State.settle, hset, if_pos (by simp [InFlight.allRead])]
  exact congrArg (s.finish fl.addr · fl.done) hl

/-- One that writes goes on to its write units, with the new value as its data. -/
theorem State.settle_write {v : Nat} (h : op.apply fl.size (gotValue l) = some v) (hw : fl.writes ≠ []) :
    s.settle (fl.allRead got) = .next (s.inside (fl.writing got (leBytes fl.size v))) := by
  have hset : (fl.allRead got).settled = fl.writing got (leBytes fl.size v) := by
    simp [InFlight.settled, InFlight.applyRmw, InFlight.allRead, InFlight.writing, hx, hl, h]
  rw [State.settle, hset, if_neg (by simp [InFlight.writing, hw])]
  rfl

end Operation

/-! #### The read units -/

/-- From `s` to `t` the current PE became `p`, `n` read units were recorded and choices were taken; nothing else
changed. -/
def State.AfterReads (s t : State) (n : Nat) (p : PE) : Prop :=
  ∃ hist d c, t =
    { s with pes := s.pes.set s.cur p, history := hist, nextUnit := s.nextUnit + n, pending := d, drawCount := c }

theorem State.AfterRead.afterReads {s t : State} {l : List GotByte} {p : PE} (h : s.AfterRead t l p) :
    s.AfterReads t 1 p := ⟨_, _, _, h⟩

/-- A PE that begins an instruction of several units has read nothing yet. -/
theorem State.inside_afterReads (s : State) (fl : InFlight) :
    s.AfterReads (s.inside fl) 0 { s.pe with phase := .inside fl } := ⟨s.history, s.pending, s.drawCount, rfl⟩

theorem State.AfterReads.setPe {s t : State} {n : Nat} {p : PE} (h : s.AfterReads t n p) (q : PE) :
    s.AfterReads (t.setPe q) n q := by
  obtain ⟨hist, d, c, rfl⟩ := h
  exact ⟨hist, d, c, by simp [State.setPe]⟩

theorem State.AfterReads.trans {s t u : State} {n m : Nat} {p q : PE} (h : s.AfterReads t n p)
    (h' : t.AfterReads u m q) : s.AfterReads u (n + m) q := by
  obtain ⟨_, _, _, rfl⟩ := h
  obtain ⟨hist, d, c, rfl⟩ := h'
  exact ⟨hist, d, c, by simp [Nat.add_assoc]⟩

section AfterReads

variable {s t : State} {n : Nat} {p : PE} (h : s.AfterReads t n p)

include h

theorem State.AfterReads.same_memory : t.mem = s.mem ∧ t.coh = s.coh := by
  obtain ⟨_, _, _, rfl⟩ := h
  exact ⟨rfl, rfl⟩

theorem State.AfterReads.nextUnit : t.nextUnit = s.nextUnit + n := by
  obtain ⟨_, _, _, rfl⟩ := h
  rfl

theorem State.AfterReads.orderAt (b : Nat) : t.orderAt b = s.orderAt b := by
  obtain ⟨_, _, _, rfl⟩ := h
  rfl

theorem State.AfterReads.curOk (hc : s.curOk = true) : t.curOk = true := by
  obtain ⟨_, _, _, rfl⟩ := h
  simpa [State.curOk] using hc

theorem State.AfterReads.pe (hc : s.curOk = true) : t.pe = p := by
  obtain ⟨_, _, _, rfl⟩ := h
  exact s.setPe_pe p hc

theorem State.AfterReads.mayAdvance (hm : s.MayAdvance) (hp : p.pc = s.pe.pc) : t.MayAdvance :=
  ⟨h.curOk hm.1, by rw [h.pe hm.1, hp]; exact hm.2⟩

theorem State.AfterReads.inside (hc : s.curOk = true) (fl : InFlight) :
    s.AfterReads (t.inside fl) n { p with phase := .inside fl } := by
  rw [State.inside, h.pe hc]
  exact h.setPe _

end AfterReads

/-- The byte stands in the order of its address: it is the initial value or the value of a write of it (R65 (c)). -/
def State.Offers (s : State) (g : GotByte) : Prop :=
  ∃ k, k ≤ (s.orderAt g.addr).lastPlace ∧ (s.orderAt g.addr).valueAt k = some g.value ∧
    (s.orderAt g.addr).sourceAt k = g.source

theorem State.Offers.of_afterReads {s t : State} {n : Nat} {p : PE} (h : s.AfterReads t n p) {g : GotByte}
    (hg : t.Offers g) : s.Offers g := by
  unfold State.Offers at hg ⊢
  rwa [h.orderAt] at hg

/-- What a read unit of the current PE brings, in the terms of the phases. -/
theorem readUnit_offers {adm : List Pick → Bool} {u : MUnit} {s t : State} {l : List GotByte} (hc : s.curOk = true)
    (h : readUnit adm (.pe s.cur) s.pe.inst u s = .next (l, t)) :
    l.map (·.addr) = u.bytes ∧ (∀ g ∈ l, s.Offers g) ∧ s.AfterRead t l s.pe := by
  obtain ⟨haddr, hoff, ht⟩ := readUnit_next _ _ _ _ _ _ _ h
  refine ⟨haddr, hoff, ?_⟩
  have hpes : s.pes.set s.cur s.pe = s.pes := congrArg State.pes (s.setPe_self hc)
  rwa [State.AfterRead, hpes]

/-- A PE with read units left performs one of them. -/
theorem State.advance_read {s : State} {fl : InFlight} (hr : fl.reads ≠ [])
    (hi : ∀ b ∈ fl.reads.flatMap MUnit.bytes, (s.orderAt b).init.isSome = true) (k : Nat) :
    ∃ u rest l s₁, (u :: rest).Perm fl.reads ∧ readUnit fl.admits (.pe s.cur) s.pe.inst u s = .next (l, s₁) ∧
      s.advance fl k = s₁.settle { fl with reads := rest, got := fl.got ++ l } := by
  obtain ⟨u, rest, hpick⟩ := pickUnit_answers k fl.reads hr
  have hperm := pickUnit_spec k _ _ _ hpick
  have hu : u ∈ fl.reads := hperm.subset List.mem_cons_self
  obtain ⟨l, s₁, hread⟩ := readUnit_answers fl.admits (.pe s.cur) s.pe.inst u s
    fun b hb => hi b (List.mem_flatMap.mpr ⟨u, hu, hb⟩)
  refine ⟨u, rest, l, s₁, hperm, hread, ?_⟩
  simp only [State.advance, hpick, hread, andThen_next]

/-- The read phase: with one choice for every read unit all of them are performed, and then the instruction settles with
everything read. -/
theorem State.performUnits_reads (ks ks' : List Nat) {s : State} {fl : InFlight} (hc : s.curOk = true)
    (hph : s.pe.phase = .inside fl) (hr : fl.reads ≠ [])
    (hi : ∀ b ∈ fl.reads.flatMap MUnit.bytes, (s.orderAt b).init.isSome = true) (hk : ks.length = fl.reads.length) :
    ∃ t got ph, s.performUnits (ks ++ ks') =
        andThen (t.settle (fl.allRead (fl.got ++ got))) (State.performUnits ks') ∧
      s.AfterReads t fl.reads.length { s.pe with phase := ph } ∧
      (got.map (·.addr)).Perm (fl.reads.flatMap MUnit.bytes) ∧ ∀ g ∈ got, s.Offers g := by
  induction ks generalizing s fl with
  | nil => exact absurd (List.length_eq_zero_iff.mp hk.symm) hr
  | cons k ks ih =>
    obtain ⟨u, rest, l, s₁, hperm, hread, hadv⟩ := s.advance_read hr hi k
    obtain ⟨haddr, hoff, hafter⟩ := readUnit_offers hc hread
    have hbytes : (u.bytes ++ rest.flatMap MUnit.bytes).Perm (fl.reads.flatMap MUnit.bytes) := hperm.flatMap_right _
    have hlen : fl.reads.length = 1 + rest.length := by rw [← hperm.length_eq, List.length_cons, Nat.add_comm]
    rw [List.cons_append, State.performUnits_inside hph, hadv]
    by_cases hrest : rest = []
    · subst hrest
      obtain rfl : ks = [] := List.length_eq_zero_iff.mp (by simpa [hlen, Nat.add_comm] using hk)
      refine ⟨s₁, l, s.pe.phase, rfl, hlen ▸ hafter.afterReads, ?_, hoff⟩
      simpa [haddr] using hbytes
    · have hstep := hafter.afterReads.inside hc { fl with reads := rest, got := fl.got ++ l }
      obtain ⟨t, got, ph, hrun, ht, haddrs, hoffs⟩ :=
        ih (fl := { fl with reads := rest, got := fl.got ++ l }) (hstep.curOk hc) (by rw [hstep.pe hc]) hrest
          (fun b hb => by
            rw [hstep.orderAt]
            exact hi b (hbytes.subset (List.mem_append_right _ hb)))
          (by simpa [hlen, Nat.add_comm] using hk)
      refine ⟨t, l ++ got, ph, ?_, ?_, ?_, ?_⟩
      · rw [State.settle_reading _ hrest, andThen_next, hrun, List.append_assoc]
        rfl
      · rw [hstep.pe hc] at ht
        exact hlen ▸ hstep.trans ht
      · rw [List.map_append, haddr]
        exact (haddrs.append_left _).trans hbytes
      · intro g hg
        rcases List.mem_append.mp hg with hg | hg
        · exact hoff g hg
        · exact (hoffs g hg).of_afterReads hstep

/-- The bytes read, in whatever order, are found again from the lowest address up. -/
theorem inOrder_of_perm {addr size : Nat} {got : List GotByte} (h : (got.map (·.addr)).Perm (byteAddrs addr size)) :
    (inOrder addr size got).map (·.addr) = byteAddrs addr size ∧ ∀ g ∈ inOrder addr size got, g ∈ got := by
  constructor
  · have hfound : ∀ as : List Nat, (∀ a ∈ as, a ∈ got.map (·.addr)) →
        (as.filterMap fun a => got.find? fun g => g.addr == a).map (·.addr) = as := by
      intro as
      induction as with
      | nil => simp
      | cons a as ih =>
        intro has
        obtain ⟨g, hg, rfl⟩ := List.mem_map.mp (has a List.mem_cons_self)
        have hfind := find_addr got g (h.nodup_iff.mpr (byteAddrs_nodup _ _)) hg
        rw [List.filterMap_cons, hfind, List.map_cons, ih fun b hb => has b (List.mem_cons_of_mem _ hb)]
    exact hfound _ fun a ha => h.symm.subset ha
  · intro g hg
    obtain ⟨a, _, hf⟩ := List.mem_filterMap.mp hg
    exact List.mem_of_find?_eq_some hf

/-- The read phase of an instruction that reads its whole access: the bytes read, found again in their order, are a
reading of it. -/
theorem State.performUnits_reading (ks ks' : List Nat) {s : State} {fl : InFlight} (hc : s.curOk = true)
    (hph : s.pe.phase = .inside fl) (hgot : fl.got = []) (hr : fl.reads ≠ [])
    (hreads : (fl.reads.flatMap MUnit.bytes).Perm (byteAddrs fl.addr fl.size)) (hread : s.Readable fl.addr fl.size)
    (hk : ks.length = fl.reads.length) :
    ∃ t got l ph, s.performUnits (ks ++ ks') =
        andThen (t.settle (fl.allRead got)) (State.performUnits ks') ∧
      s.AfterReads t fl.reads.length { s.pe with phase := ph } ∧ inOrder fl.addr fl.size got = l ∧
      s.Reading fl.addr fl.size l := by
  have hinit : ∀ b ∈ fl.reads.flatMap MUnit.bytes, (s.orderAt b).init.isSome = true := fun b hb => by
    obtain ⟨hle, hlt⟩ := (mem_byteAddrs _ _ _).mp (hreads.subset hb)
    exact hread b hle hlt
  obtain ⟨t, got, ph, hrun, ht, haddrs, hoff⟩ := State.performUnits_reads ks ks' hc hph hr hinit hk
  rw [hgot, List.nil_append] at hrun
  obtain ⟨hladdr, hlmem⟩ := inOrder_of_perm (haddrs.trans hreads)
  exact ⟨t, got, _, ph, hrun, ht, rfl, hladdr, fun g hg => hoff g (hlmem g hg)⟩

/-! #### The write units -/

theorem State.ByteStored.of_eq {s s' t t' : State} {u b : Nat} {v : Byte} {f : Option Source}
    (h : s.ByteStored t u b v f) (hs : s'.orderAt b = s.orderAt b ∧ s'.mem.read b = s.mem.read b)
    (ht : t'.orderAt b = t.orderAt b ∧ t'.mem.read b = t.mem.read b) : s'.ByteStored t' u b v f := by
  unfold State.ByteStored at h ⊢
  rwa [hs.1, hs.2, ht.1, ht.2]

theorem PE.SameButCandidates.trans {p q r : PE} (h : p.SameButCandidates q) (h' : q.SameButCandidates r) :
    p.SameButCandidates r := Eq.trans h h'

theorem PE.SameButCandidates.phase {p q : PE} (h : p.SameButCandidates q) : p.phase = q.phase :=
  (congrArg PE.phase h :)

theorem PE.SameButCandidates.pc {p q : PE} (h : p.SameButCandidates q) : p.pc = q.pc :=
  (congrArg PE.pc h :)

theorem PE.SameButCandidates.withPhase {p q : PE} (h : p.SameButCandidates q) (ph : Phase) :
    PE.SameButCandidates { p with phase := ph } { q with phase := ph } :=
  congrArg (fun r : PE => ({ r with phase := ph } : PE)) h

section OnlyStored

variable {s t u : State} {addr n : Nat} {p q : PE}

theorem State.OnlyStored.curOk (h : s.OnlyStored t addr n p) (hc : s.curOk = true) : t.curOk = true := by
  obtain ⟨_, hcur, _, _, hlen, _⟩ := h
  simpa [State.curOk, hcur, hlen] using hc

theorem State.OnlyStored.pe (h : s.OnlyStored t addr n p) : t.pe.SameButCandidates p := by
  obtain ⟨_, _, _, _, _, hpe, _⟩ := h
  exact hpe

theorem State.OnlyStored.trans (h : s.OnlyStored t addr n p) (h' : t.OnlyStored u addr n q) :
    s.OnlyStored u addr n q := by
  obtain ⟨hcfg, hcur, hinst, hturn, hlen, _, hother, hbyte, hsync⟩ := h
  obtain ⟨hcfg', hcur', hinst', hturn', hlen', hpe', hother', hbyte', hsync'⟩ := h'
  refine ⟨hcfg'.trans hcfg, hcur'.trans hcur, hinst'.trans hinst, hturn'.trans hturn, hlen'.trans hlen, hpe', ?_,
    fun b hb => ⟨(hbyte' b hb).1.trans (hbyte b hb).1, (hbyte' b hb).2.trans (hbyte b hb).2⟩,
    fun a ha => (hsync' a ha).trans (hsync a ha)⟩
  intro j a c hj ha hc
  have hjt : j < t.pes.length := hlen ▸ (List.getElem?_eq_some_iff.mp ha).1
  have hb := List.getElem?_eq_getElem hjt
  exact (hother j a _ hj ha hb).trans (hother' j _ c (hcur ▸ hj) hb hc)

theorem State.OnlyStored.setPe (h : s.OnlyStored t addr n p) (hc : s.curOk = true) {r : PE}
    (hr : r.SameButCandidates q) : s.OnlyStored (t.setPe r) addr n q := by
  have hct := h.curOk hc
  obtain ⟨hcfg, hcur, hinst, hturn, hlen, _, hother, hbyte, hsync⟩ := h
  refine ⟨hcfg, hcur, hinst, hturn, by simpa using hlen, by rwa [State.setPe_pe _ _ hct], ?_, hbyte, hsync⟩
  intro j a b hj ha hb
  rw [State.setPe_other _ _ _ (hcur ▸ hj)] at hb
  exact hother j a b hj ha hb

theorem State.OnlyStored.same (h : s.OnlyStored t addr n p) (hp : p.SameButCandidates q) : s.OnlyStored t addr n q := by
  obtain ⟨hcfg, hcur, hinst, hturn, hlen, hpe, hrest⟩ := h
  exact ⟨hcfg, hcur, hinst, hturn, hlen, hpe.trans hp, hrest⟩

end OnlyStored

theorem State.AfterReads.onlyStored {s t : State} {k : Nat} {p : PE} (h : s.AfterReads t k p) (hc : s.curOk = true)
    (addr n : Nat) : s.OnlyStored t addr n p := by
  have hpe : t.pe.SameButCandidates p := by rw [h.pe hc]; rfl
  obtain ⟨_, _, _, rfl⟩ := h
  refine ⟨rfl, rfl, rfl, rfl, List.length_set, hpe, ?_, fun _ _ => ⟨rfl, rfl⟩, fun _ _ => rfl⟩
  intro j a b hj ha hb
  have hsame : s.pes[j]? = some b := by rw [← hb]; exact (s.setPe_other p j hj).symm
  obtain rfl : a = b := Option.some.inj (ha.symm.trans hsame)
  exact .refl a

/-- From `s` to `t` the current PE became `p` and `n` units stored the bytes with the addresses `bs`, each its byte of
the `data` from `addr` up, and no other byte. -/
structure State.UnitsStored (s t : State) (addr : Nat) (data : List Byte) (bs : List Nat) (n : Nat) (p : PE) :
    Prop where
  only : s.OnlyStored t addr data.length p
  stored : ∀ b ∈ bs, ∃ v u, data[b - addr]? = some v ∧ s.nextUnit ≤ u ∧ u < s.nextUnit + n ∧ s.ByteStored t u b v none
  kept : ∀ b, b ∉ bs → t.orderAt b = s.orderAt b ∧ t.mem.read b = s.mem.read b
  nextUnit : t.nextUnit = s.nextUnit + n

section UnitsStored

variable {s t u : State} {addr n m : Nat} {data : List Byte} {bs cs : List Nat} {p q : PE}

theorem State.UnitsStored.perm (h : s.UnitsStored t addr data bs n p) (hp : bs.Perm cs) :
    s.UnitsStored t addr data cs n p :=
  ⟨h.only, fun b hb => h.stored b (hp.symm.subset hb), fun b hb => h.kept b fun hin => hb (hp.subset hin), h.nextUnit⟩

theorem State.UnitsStored.inside (h : s.UnitsStored t addr data bs n p) (hc : s.curOk = true) (fl : InFlight) :
    s.UnitsStored (t.inside fl) addr data bs n { p with phase := .inside fl } :=
  ⟨h.only.setPe hc (h.only.pe.withPhase _), h.stored, h.kept, h.nextUnit⟩

theorem State.UnitsStored.same (h : s.UnitsStored t addr data bs n p) (hp : p.SameButCandidates q) :
    s.UnitsStored t addr data bs n q :=
  ⟨h.only.same hp, h.stored, h.kept, h.nextUnit⟩

theorem State.UnitsStored.trans (h : s.UnitsStored t addr data bs n p) (h' : t.UnitsStored u addr data cs m q)
    (hd : bs.Disjoint cs) : s.UnitsStored u addr data (bs ++ cs) (n + m) q := by
  refine ⟨h.only.trans h'.only, fun b hb => ?_, fun b hb => ?_, by rw [h'.nextUnit, h.nextUnit, Nat.add_assoc]⟩
  · rcases List.mem_append.mp hb with hb | hb
    · obtain ⟨v, k, hv, hle, hlt, hst⟩ := h.stored b hb
      exact ⟨v, k, hv, hle, by omega, hst.of_eq ⟨rfl, rfl⟩ (h'.kept b (hd hb))⟩
    · obtain ⟨v, k, hv, hle, hlt, hst⟩ := h'.stored b hb
      obtain ⟨ho, hm⟩ := h.kept b fun hb' => hd hb' hb
      rw [h.nextUnit] at hle hlt
      exact ⟨v, k, hv, by omega, by omega, hst.of_eq ⟨ho.symm, hm.symm⟩ ⟨rfl, rfl⟩⟩
  · simp only [List.mem_append, not_or] at hb
    obtain ⟨ho, hm⟩ := h.kept b hb.1
    obtain ⟨ho', hm'⟩ := h'.kept b hb.2
    exact ⟨ho'.trans ho, hm'.trans hm⟩

/-- Where every byte of the data has been stored, the data have been stored. -/
theorem State.UnitsStored.afterWrites (h : s.UnitsStored t addr data (byteAddrs addr data.length) n p) :
    s.AfterWrites t addr data n p := by
  refine ⟨h.only, fun i v hv => ?_, h.nextUnit⟩
  have hi := (List.getElem?_eq_some_iff.mp hv).1
  obtain ⟨w, k, hw, hle, hlt, hst⟩ := h.stored (addr + i) ((mem_byteAddrs _ _ _).mpr (by omega))
  rw [Nat.add_sub_cancel_left] at hw
  obtain rfl : v = w := Option.some.inj (hv.symm.trans hw)
  exact ⟨k, hle, hlt, hst⟩

end UnitsStored

/-- A unit of no bytes touches no word, and any other touches only words that hold a byte of it. -/
theorem exists_byte_of_mem_wordsOf {u : MUnit} {a : Nat} (h : a ∈ wordsOf u) : ∃ b ∈ u.bytes, a ≤ b ∧ b < a + 4 := by
  obtain ⟨_, hlo, hhi⟩ := mem_wordsOf u a h
  have hpos : u.size ≠ 0 := fun h0 => by simp [wordsOf, h0] at h
  exact ⟨max a u.addr, (mem_byteAddrs _ _ _).mpr (by omega), by omega, by omega⟩

theorem writeUnit_sync_outside (g : Agent) (i : Nat) (u : MUnit) (data : List Byte) (s : State) {a : Nat}
    (h : a ∉ wordsOf u) : assocFind (writeUnit g i u data s).sync a = assocFind s.sync a := by
  obtain ⟨_, _, hs⟩ := choosePicks_spec placementAdmitted s u
  rw [writeUnit_eq, State.placeWrite, State.noteWrite_sync_outside _ _ _ _ _ _ h]
  change assocFind (choosePicks placementAdmitted s u).2.sync a = _
  rw [hs]

theorem InFlight.dataOf_getElem? (fl : InFlight) (u : MUnit) {j : Nat} (hj : j < u.size) :
    (fl.dataOf u)[j]? = fl.data[u.addr - fl.addr + j]? := by
  rw [InFlight.dataOf, List.getElem?_take_of_lt hj, List.getElem?_drop]

/-- A unit whose bytes are bytes of the instruction has as many bytes of data as it has bytes. -/
theorem InFlight.dataOf_length (fl : InFlight) (u : MUnit)
    (h : ∀ b ∈ u.bytes, b ∈ byteAddrs fl.addr fl.data.length) : (fl.dataOf u).length = u.size := by
  rw [InFlight.dataOf, List.length_take, List.length_drop]
  rcases Nat.eq_zero_or_pos u.size with h0 | hpos
  · omega
  · have hfirst := (mem_byteAddrs _ _ _).mp (h u.addr ((mem_byteAddrs _ _ _).mpr (by omega)))
    have hlast := (mem_byteAddrs _ _ _).mp (h (u.addr + u.size - 1) ((mem_byteAddrs _ _ _).mpr (by omega)))
    omega

/-- A write unit of an instruction stores its part of the data. -/
theorem writeUnit_unitsStored {s : State} (hc : s.curOk = true) (g : Agent) (i : Nat) (fl : InFlight) (u : MUnit)
    (h : ∀ b ∈ u.bytes, b ∈ byteAddrs fl.addr fl.data.length) :
    s.UnitsStored (writeUnit g i u (fl.dataOf u) s) fl.addr fl.data u.bytes 1 s.pe := by
  obtain ⟨hstored, hout, _, hunit, _, ⟨f, hpes⟩, hcfg, hcur, hinst, hturn⟩ :=
    writeUnit_spec g i u (fl.dataOf u) s (fl.dataOf_length u h)
  have hkept : ∀ b, b ∉ u.bytes → (writeUnit g i u (fl.dataOf u) s).orderAt b = s.orderAt b ∧
      (writeUnit g i u (fl.dataOf u) s).mem.read b = s.mem.read b := by
    intro b hb
    rw [MUnit.bytes, mem_byteAddrs] at hb
    exact hout b (by omega)
  obtain ⟨hpe, hok⟩ := s.pe_of_pes_map _ f hc hpes hcur
  refine ⟨?_, fun b hb => ?_, hkept, hunit⟩
  · rw [← State.setPe_self _ hok]
    refine State.OnlyStored.of_write s _ _ _ s.pe _ f hc hpes hcfg hcur hinst hturn (fun b hb => hkept b fun hin => ?_)
      (fun a ha => writeUnit_sync_outside g i u _ s fun hin => ?_) (by rw [hpe]; rfl)
    · have := (mem_byteAddrs _ _ _).mp (h b hin)
      omega
    · obtain ⟨b, hb, hab⟩ := exists_byte_of_mem_wordsOf hin
      have := (mem_byteAddrs _ _ _).mp (h b hb)
      omega
  · have hbu := (mem_byteAddrs _ _ _).mp hb
    have hbf := (mem_byteAddrs _ _ _).mp (h b hb)
    have hfirst := (mem_byteAddrs _ _ _).mp (h u.addr ((mem_byteAddrs _ _ _).mpr (by omega)))
    have hdata := fl.dataOf_getElem? u (j := b - u.addr) (by omega)
    rw [show u.addr - fl.addr + (b - u.addr) = b - fl.addr by omega] at hdata
    have hv := List.getElem?_eq_getElem (l := fl.data) (i := b - fl.addr) (by omega)
    have hst := hstored (b - u.addr) _ (hdata.trans hv)
    rw [show u.addr + (b - u.addr) = b by omega] at hst
    exact ⟨_, s.nextUnit, hv, Nat.le_refl _, Nat.lt_succ_self _, hst⟩

/-- A PE with no reads but writes left performs one of them. -/
theorem State.advance_write {s : State} {fl : InFlight} (hadj : fl.adjacent = false) (hr : fl.reads = [])
    (hw : fl.writes ≠ []) (k : Nat) :
    ∃ u rest, (u :: rest).Perm fl.writes ∧
      s.advance fl k = (writeUnit (.pe s.cur) s.pe.inst u (fl.dataOf u) s).settle { fl with writes := rest } := by
  obtain ⟨u, rest, hpick⟩ := pickUnit_answers k fl.writes hw
  refine ⟨u, rest, pickUnit_spec k _ _ _ hpick, ?_⟩
  simp only [State.advance, hr, pickUnit_nil, hpick, fl.performWrite_plain _ _ hadj]

/-- The write phase: with one choice for every write unit all of them are performed, and then the instruction ends. -/
theorem State.performUnits_writes (ks : List Nat) {s : State} {fl : InFlight} (hc : s.curOk = true)
    (hph : s.pe.phase = .inside fl) (hadj : fl.adjacent = false) (hx : fl.rmw = none) (hr : fl.reads = [])
    (hw : fl.writes ≠ []) (hn : (fl.writes.flatMap MUnit.bytes).Nodup)
    (hin : ∀ b ∈ fl.writes.flatMap MUnit.bytes, b ∈ byteAddrs fl.addr fl.data.length)
    (hk : ks.length = fl.writes.length) :
    ∃ t ph, s.performUnits ks =
        andThen (t.finish fl.addr (inOrder fl.addr fl.size fl.got) fl.done) (State.performUnits []) ∧
      s.UnitsStored t fl.addr fl.data (fl.writes.flatMap MUnit.bytes) fl.writes.length { s.pe with phase := ph } := by
  induction ks generalizing s fl with
  | nil => exact absurd (List.length_eq_zero_iff.mp hk.symm) hw
  | cons k ks ih =>
    obtain ⟨u, rest, hperm, hadv⟩ := s.advance_write hadj hr hw k
    have hbytes : (u.bytes ++ rest.flatMap MUnit.bytes).Perm (fl.writes.flatMap MUnit.bytes) := hperm.flatMap_right _
    have hlen : fl.writes.length = 1 + rest.length := by rw [← hperm.length_eq, List.length_cons, Nat.add_comm]
    have hunit := writeUnit_unitsStored hc (.pe s.cur) s.pe.inst fl u
      fun b hb => hin b (hbytes.subset (List.mem_append_left _ hb))
    obtain ⟨_, hnrest, hdisj⟩ := List.nodup_append'.mp (hbytes.nodup_iff.mpr hn)
    rw [State.performUnits_inside hph, hadv]
    generalize writeUnit (.pe s.cur) s.pe.inst u (fl.dataOf u) s = s₁ at hunit
    by_cases hrest : rest = []
    · subst hrest
      obtain rfl : ks = [] := List.length_eq_zero_iff.mp (by simpa [hlen, Nat.add_comm] using hk)
      have hend := s₁.settle_done (fl := { fl with writes := [] }) hr hx rfl
      refine ⟨s₁, s.pe.phase, by rw [hend], hlen ▸ hunit.perm ?_⟩
      simpa using hbytes
    · have hstep := hunit.inside hc { fl with writes := rest }
      obtain ⟨t, ph, hrun, ht⟩ :=
        ih (fl := { fl with writes := rest }) (hstep.only.curOk hc) (hstep.only.pe.phase) hadj hx hr hrest hnrest
          (fun b hb => hin b (hbytes.subset (List.mem_append_right _ hb))) (by simpa [hlen, Nat.add_comm] using hk)
      refine ⟨t, ph, ?_, hlen ▸ ((hstep.trans ht hdisj).perm hbytes).same (hstep.only.pe.withPhase ph)⟩
      rw [State.settle_writing (fl := { fl with writes := rest }) _ hr hx hrest, andThen_next, hrun]

/-! #### The end of an atomic instruction (43_atomics.md rules R190, R193 to R195) -/

/-- The PE after an atomic instruction that read the value `old`: its run has ended if a System Error interrupt comes
after the instruction. -/
def PE.afterAtomic (p : PE) (addr old : Nat) (rd : Reg) (thenSError : Bool) : PE :=
  { (p.writeX rd (BitVec.ofNat 64 old)).next with run := if thenSError then .ended (.sError addr) else p.run }

theorem PE.afterAtomic_false (p : PE) (addr old : Nat) (rd : Reg) :
    p.afterAtomic addr old rd false = (p.writeX rd (BitVec.ofNat 64 old)).next := by
  rw [PE.afterAtomic, if_neg Bool.false_ne_true, ← PE.writeX_run p rd (BitVec.ofNat 64 old)]
  rfl

theorem PE.afterAtomic_withPhase (p : PE) (ph : Phase) (addr old : Nat) (rd : Reg) (thenSError : Bool) :
    PE.afterAtomic { p with phase := ph } addr old rd thenSError = p.afterAtomic addr old rd thenSError := by
  rw [PE.afterAtomic, PE.writeX_withPhase]
  rfl

theorem PE.SameButCandidates.afterAtomic {p q : PE} (h : p.SameButCandidates q) (addr old : Nat) (rd : Reg)
    (thenSError : Bool) :
    (p.afterAtomic addr old rd thenSError).SameButCandidates (q.afterAtomic addr old rd thenSError) := by
  have hrun : p.run = q.run := (congrArg PE.run h :)
  rw [PE.afterAtomic, PE.afterAtomic, hrun]
  exact congrArg (fun r : PE => ({ r with run := if thenSError then .ended (.sError addr) else q.run } : PE))
    (h.writeX rd (BitVec.ofNat 64 old)).next

/-- An atomic instruction whose units are done ends with the old value in its register. -/
theorem State.MayAdvance.finish_atomic {s : State} (h : s.MayAdvance) (addr : Nat) (l : List GotByte) (rd : Reg)
    (thenSError : Bool) :
    s.finish addr l (.atomic rd thenSError) = .next (s.setPe (s.pe.afterAtomic addr (gotValue l) rd thenSError)) := by
  have hend := h.endInstr_setPe (PE.complete_pc s.pe addr l (.atomic rd thenSError))
  cases thenSError with
  | false => rw [State.finish_plain _ _ _ _ rfl, hend, PE.afterAtomic_false, PE.complete]
  | true =>
    have hexc (t : State) : t.takeException (.sError addr) = t.endRun (.sError addr) := rfl
    rw [State.finish, hend, andThen_next, hexc, State.endRun, State.setPe_setPe, State.setPe_pe _ _ h.1]
    rfl

/-- It does so too after units that stored something, which change of its PE only the words it may fetch. -/
theorem State.OnlyStored.finish_atomic {s t : State} {addr n : Nat} {ph : Phase}
    (h : s.OnlyStored t addr n { s.pe with phase := ph }) (hm : s.MayAdvance) (l : List GotByte) (rd : Reg)
    (thenSError : Bool) :
    ∃ q, t.finish addr l (.atomic rd thenSError) = .next (t.setPe q) ∧ q.phase = .atStart ∧
      q.SameButCandidates (s.pe.afterAtomic addr (gotValue l) rd thenSError) := by
  have hmt : t.MayAdvance := ⟨h.curOk hm.1, by rw [h.pe.pc]; exact hm.2⟩
  refine ⟨_, hmt.finish_atomic addr l rd thenSError, rfl, ?_⟩
  rw [← PE.afterAtomic_withPhase s.pe ph]
  exact h.pe.afterAtomic addr (gotValue l) rd thenSError

/-- The write phase of an atomic instruction that is not asked to be atomic stores its data and ends it. -/
theorem State.performUnits_atomic_writes {s : State} {fl : InFlight} {rd : Reg} {thenSError : Bool} {l : List GotByte}
    {ks : List Nat} (hm : s.MayAdvance) (hph : s.pe.phase = .inside fl) (hadj : fl.adjacent = false)
    (hx : fl.rmw = none) (hr : fl.reads = []) (hw : fl.writes ≠ [])
    (hwrites : (fl.writes.flatMap MUnit.bytes).Perm (byteAddrs fl.addr fl.size)) (hlen : fl.data.length = fl.size)
    (hin : inOrder fl.addr fl.size fl.got = l) (hdone : fl.done = .atomic rd thenSError)
    (hk : ks.length = fl.writes.length) :
    ∃ t, s.performUnits ks = .next t ∧
      s.OnlyStored t fl.addr fl.size (s.pe.afterAtomic fl.addr (gotValue l) rd thenSError) ∧
      ∀ i b, fl.data[i]? = some b → ∃ u, s.ByteStored t u (fl.addr + i) b none := by
  rw [← hlen] at hwrites
  obtain ⟨u, ph, hrun, hu⟩ := State.performUnits_writes ks hm.1 hph hadj hx hr hw
    (hwrites.nodup_iff.mpr (byteAddrs_nodup _ _)) (fun b hb => hwrites.subset hb) hk
  obtain ⟨honly, hbytes, _⟩ := (hu.perm hwrites).afterWrites
  rw [hlen] at honly
  obtain ⟨q, hfin, _, hq⟩ := honly.finish_atomic hm l rd thenSError
  refine ⟨u.setPe q, ?_, honly.setPe hm.1 hq, fun i b hb => ?_⟩
  · rw [hrun, hin, hdone, hfin]
    rfl
  · obtain ⟨n, _, _, hst⟩ := hbytes i b hb
    exact ⟨n, hst⟩

/-- Settles O50: the read phase leaves memory alone and makes the old value; then the instruction ends, or its write
phase stores the new value and ends it. -/
theorem nonAtomicPerformanceCompletes : Obligations.NonAtomicPerformanceCompletes := by
  intro s fl op rd thenSError ks hm hph hadj hx hgot hr hw hreads hwrites hread hk hdone
  obtain ⟨t, got, l, ph, hrun, ht, hin, hl⟩ := State.performUnits_reading (ks.take fl.reads.length)
    (ks.drop fl.reads.length) hm.1 hph hgot hr hreads hread (by rw [List.length_take]; omega)
  rw [List.take_append_drop] at hrun
  cases hv : op.apply fl.size (gotValue l) with
  | none =>
    have honly := ht.onlyStored hm.1 fl.addr fl.size
    obtain ⟨q, hfin, hqph, hq⟩ := honly.finish_atomic hm l rd thenSError
    refine ⟨t.setPe q, l, _, ?_, hl, rfl, (honly.setPe hm.1 hq).pe, fun _ => ht.same_memory, fun v hsome => ?_⟩
    · rw [hrun, t.settle_no_write hx hin hv, hdone, hfin, andThen_next, State.performUnits_atStart]
      rwa [State.setPe_pe _ _ (ht.curOk hm.1)]
    · exact absurd (hv.symm.trans hsome) (Option.some_ne_none v).symm
  | some v =>
    have hstep := ht.inside hm.1 (fl.writing got (leBytes fl.size v))
    obtain ⟨u, hwrun, honly, hbytes⟩ := State.performUnits_atomic_writes (ks := ks.drop fl.reads.length)
      (fl := fl.writing got (leBytes fl.size v)) (hstep.mayAdvance hm rfl) (by rw [hstep.pe hm.1]) hadj rfl rfl hw
      hwrites (leBytes_length _ _) hin hdone (by rw [List.length_drop, hk, Nat.add_sub_cancel_left]; rfl)
    have hend := (hstep.onlyStored hm.1 _ _).trans honly
    rw [hstep.pe hm.1, PE.afterAtomic_withPhase, PE.afterAtomic_withPhase] at hend
    refine ⟨u, l, _, ?_, hl, rfl, hend.pe, fun hnone => ?_, fun w hw' => ⟨hend, fun i b hb => ?_⟩⟩
    · rw [hrun, t.settle_write hx hin hv hw, andThen_next, hwrun]
    · exact absurd (hv.symm.trans hnone) (Option.some_ne_none v)
    · obtain rfl : v = w := Option.some.inj (hv.symm.trans hw')
      obtain ⟨n, hst⟩ := hbytes i b hb
      exact ⟨n, hst.of_eq ⟨(hstep.orderAt _).symm, by rw [hstep.same_memory.1]⟩ ⟨rfl, rfl⟩⟩

end Sys2Proof.Machine

namespace Sys2Proof.Machine

/-! #### An atomic instruction where it is supported (43_atomics.md rules R180, R191) -/

theorem ByteOrder.sourceAt_of_placeOf {o : ByteOrder} {src : Source} {k : Nat} (h : o.placeOf src = some k) :
    o.sourceAt k = src := by
  cases src with
  | initial => obtain rfl : 0 = k := Option.some.inj h; rfl
  | unit u =>
    obtain ⟨i, w, rfl, hw, rfl⟩ := ByteOrder.writes_of_placeOf h
    simp only [ByteOrder.sourceAt, hw]

/-- The pick of each byte is the place of what was read there. -/
theorem successorPicks_getElem? {s : State} {reads : List GotByte} {as : List Nat} {ps : List Pick}
    (h : successorPicks s reads as = some ps) {j a : Nat} (ha : as[j]? = some a) :
    ∃ g k, (reads.find? fun g => g.addr == a) = some g ∧ (s.orderAt a).placeOf g.source = some k ∧
      ps[j]? = some { addr := a, order := s.orderAt a, place := k } := by
  induction as generalizing ps j with
  | nil => cases ha
  | cons a' as ih =>
    simp only [successorPicks] at h
    split at h
    · next g hg =>
      split at h
      · next k ps' hk hps =>
        obtain rfl := Option.some.inj h
        cases j with
        | zero =>
          obtain rfl : a' = a := Option.some.inj ha
          exact ⟨g, k, hg, hk, rfl⟩
        | succ j => exact ih hps ha
      · cases h
    · cases h

/-- A write unit right after what was read: each byte's new write is the immediate successor of the write read there. -/
theorem State.ByteStored.of_successorPlaces {s : State} {reads : List GotByte} {addr size : Nat} {ps : List Pick}
    (h : successorPlaces s reads addr size = some ps) (hr : reads.map (·.addr) = byteAddrs addr size) (g : Agent)
    (i : Nat) {data : List Byte} {j : Nat} {v : Byte} {b : GotByte} (hv : data[j]? = some v) (hb : reads[j]? = some b) :
    s.ByteStored (s.placeWrite g i { addr := addr, size := size } ps data true) s.nextUnit (addr + j) v
      (some b.source) := by
  obtain ⟨⟨haddrs, hin⟩, _, hpicks⟩ := successorPlaces_spec _ _ _ _ _ h
  have hj : j < size := by
    have hlt := (List.getElem?_eq_some_iff.mp hb).1
    rwa [← List.length_map (f := (·.addr)), hr, byteAddrs_length] at hlt
  have haj : (byteAddrs addr size)[j]? = some (addr + j) := by
    rw [List.getElem?_eq_getElem (by rwa [byteAddrs_length]), byteAddrs_getElem _ _ _ hj]
  have hba : b.addr = addr + j := by
    rw [← hr, List.getElem?_map, hb] at haj
    exact Option.some.inj haj
  obtain ⟨b', k, hfind, hplace, hp⟩ := successorPicks_getElem? hpicks haj
  have hsame := find_addr reads b (hr ▸ byteAddrs_nodup _ _) (List.mem_of_getElem? hb)
  obtain rfl : b' = b := Option.some.inj (hfind.symm.trans (hba ▸ hsame))
  obtain ⟨hlp, hpe⟩ := List.getElem?_eq_some_iff.mp hp
  obtain ⟨hd, rfl⟩ := List.getElem?_eq_some_iff.mp hv
  obtain ⟨horder, hread⟩ :=
    s.placeWrite_at g i { addr := addr, size := size } ps data true (haddrs ▸ byteAddrs_nodup _ _) j hlp hd
  have hk := (hin _ (List.getElem_mem hlp)).2
  rw [hpe] at horder hread hk
  have hsrc := ByteOrder.sourceAt_of_placeOf hplace
  refine ⟨k, hk, fun src h => hsrc.trans (Option.some.inj h), ?_, hread⟩
  rw [horder, Pick.placed, if_pos rfl, hsrc]

theorem successorPicks_congr {s t : State} (h : ∀ b, t.orderAt b = s.orderAt b) (reads : List GotByte) (as : List Nat) :
    successorPicks t reads as = successorPicks s reads as := by
  induction as with
  | nil => rfl
  | cons a as ih => simp only [successorPicks, ih, h]

/-- Only the coherence orders decide which places come right after what was read. -/
theorem successorPlaces_congr {s t : State} (h : ∀ b, t.orderAt b = s.orderAt b) (reads : List GotByte)
    (addr size : Nat) : successorPlaces t reads addr size = successorPlaces s reads addr size := by
  rw [successorPlaces, successorPicks_congr h, successorPlaces]

theorem AtomicOp.apply_cases (n old v cmp : Nat) :
    (AtomicOp.add v).apply n old = some ((old + v) % 2 ^ (8 * n)) ∧ (AtomicOp.swap v).apply n old = some v ∧
      (old = cmp → (AtomicOp.compareSwap cmp v).apply n old = some v) ∧
      (old ≠ cmp → (AtomicOp.compareSwap cmp v).apply n old = none) :=
  ⟨rfl, rfl, fun h => if_pos h, fun h => if_neg h⟩

/-- A write that is to succeed what was read takes the place right after it, if that is left. -/
theorem State.performWrite_adjacent (s : State) {fl : InFlight} (h : fl.adjacent = true) (u : MUnit) :
    s.performWrite fl u = (successorPlaces s fl.got u.addr u.size).map fun ps =>
      s.placeWrite (.pe s.cur) s.pe.inst u ps (fl.dataOf u) true := by
  rw [State.performWrite, if_pos h]
  cases successorPlaces s fl.got u.addr u.size <;> rfl

/-- A PE whose write has no place left has no step (log 9). -/
theorem State.advance_waits {s : State} {fl : InFlight} {u : MUnit} (hadj : fl.adjacent = true) (hr : fl.reads = [])
    (hw : fl.writes = [u]) (hp : successorPlaces s fl.got u.addr u.size = none) (k : Nat) :
    s.advance fl k = .next s := by
  simp only [State.advance, hr, hw, pickUnit_nil, pickUnit_one, s.performWrite_adjacent hadj, hp, Option.map_none]

/-- The write unit of an atomic instruction that is to succeed what was read: where a place for it is left, it takes
that place and ends the instruction. -/
theorem State.advance_adjacent_write {s : State} {fl : InFlight} {rd : Reg} {ps : List Pick} (hm : s.MayAdvance)
    (hadj : fl.adjacent = true) (hx : fl.rmw = none) (hr : fl.reads = [])
    (hw : fl.writes = [{ addr := fl.addr, size := fl.size }]) (hgot : fl.got.map (·.addr) = byteAddrs fl.addr fl.size)
    (hlen : fl.data.length = fl.size) (hdone : fl.done = .atomic rd false)
    (hp : successorPlaces s fl.got fl.addr fl.size = some ps) (k : Nat) :
    ∃ t, s.advance fl k = .next t ∧
      s.OnlyStored t fl.addr fl.size (s.pe.afterAtomic fl.addr (gotValue fl.got) rd false) ∧
      t.nextUnit = s.nextUnit + 1 ∧
      ∀ i b g, fl.data[i]? = some b → fl.got[i]? = some g →
        s.ByteStored t s.nextUnit (fl.addr + i) b (some g.source) := by
  obtain ⟨⟨haddrs, _⟩, _⟩ := successorPlaces_spec _ _ _ _ _ hp
  obtain ⟨hm₁, hsame⟩ := hm.placeWrite (.pe s.cur) s.pe.inst { addr := fl.addr, size := fl.size } ps fl.data true
  have hdata := fl.dataOf_whole { addr := fl.addr, size := fl.size } rfl hlen
  have hfin := hm₁.finish_atomic fl.addr fl.got rd false
  have honly := State.OnlyStored.of_placeWrite (u := { addr := fl.addr, size := fl.size }) hm.1 haddrs (.pe s.cur)
    s.pe.inst fl.data true (hsame.afterAtomic fl.addr (gotValue fl.got) rd false)
  refine ⟨_, ?_, honly, by rw [State.setPe_nextUnit, State.placeWrite_nextUnit],
    fun i b g hb hg => State.ByteStored.of_successorPlaces hp hgot _ _ hb hg⟩
  simp only [State.advance, hr, hw, pickUnit_nil, pickUnit_one, s.performWrite_adjacent hadj, hp, hdata,
    Option.map_some]
  rw [State.settle_done (fl := { fl with reads := [], writes := [] }) _ rfl hx rfl, inOrder_self _ _ _ hgot, hdone,
    hfin]

/-- A read recorded by a PE that has just begun its instruction, whatever the PE then becomes. -/
theorem State.AfterRead.of_inside {s t : State} {fl : InFlight} {l : List GotByte} {p : PE} (hc : s.curOk = true)
    (h : (s.inside fl).AfterRead t l p) (q : PE) : s.AfterRead (t.setPe q) l q := by
  unfold State.AfterRead at h ⊢
  rw [State.inside_pe hc] at h
  have hpes : t.pes.set t.cur q = s.pes.set s.cur q := by
    rw [h]
    simp [State.inside]
  simp only [State.setPe, hpes]
  rw [h]
  rfl

section Adjacent

variable {s : State} {fl : InFlight} {op : AtomicOp} (hm : s.MayAdvance) (hadj : fl.adjacent = true)
  (hx : fl.rmw = some op) (hgot : fl.got = []) (hr : fl.reads = [{ addr := fl.addr, size := fl.size }])
  (hread : s.Readable fl.addr fl.size) (hu : s.UnitsNumbered)

include hm hadj hx hgot hr hread hu

/-- The read unit of an atomic instruction that is supported: if the instruction will write, it leaves a place for that
right after what was read. -/
theorem State.advance_adjacent_read (k : Nat) :
    ∃ l s₁, (s.inside fl).advance fl k = s₁.settle (fl.allRead l) ∧ s.Reading fl.addr fl.size l ∧
      (s.inside fl).AfterRead s₁ l { s.pe with phase := .inside fl } ∧
      ((op.apply fl.size (gotValue l)).isSome = true → ∃ ps, successorPlaces s₁ l fl.addr fl.size = some ps) := by
  have hinit : ∀ b ∈ fl.reads.flatMap MUnit.bytes, (s.orderAt b).init.isSome = true := fun b hb => by
    rw [hr, MUnit.flatMap_one] at hb
    obtain ⟨hle, hlt⟩ := (mem_byteAddrs _ _ _).mp hb
    exact hread b hle hlt
  obtain ⟨u, rest, l, s₁, hperm, hunit, hadv⟩ := (s.inside fl).advance_read (fl := fl) (by simp [hr]) hinit k
  rw [hr] at hperm
  obtain ⟨rfl, rfl⟩ := List.cons.inj (List.perm_singleton.mp hperm)
  rw [hgot, List.nil_append] at hadv
  have hms : (s.inside fl).MayAdvance := hm.setPe _ rfl
  obtain ⟨haddr, hoff, hafter⟩ := readUnit_offers hms.1 hunit
  rw [State.inside_pe hm.1] at hafter
  have hadm : fl.admits = rmwAdmitted op fl.size := by simp only [InFlight.admits, hadj, hx, if_true]
  exact ⟨l, s₁, hadv, ⟨haddr, hoff⟩, hafter,
    successorPlaces_after_read op fl.size _ _ _ (s.inside fl) s₁ l hu.1 (hadm ▸ hunit)⟩

/-- An atomic instruction that is supported, performed with no other agent between its read and its write: the place
right after what was read is left, so it completes. -/
theorem State.performUnits_adjacent {rd : Reg} {ks : List Nat}
    (hw : fl.writes = [{ addr := fl.addr, size := fl.size }]) (hdone : fl.done = .atomic rd false)
    (hk : ks.length = 2) :
    ∃ t l, (s.inside fl).performUnits ks = .next t ∧ s.Reading fl.addr fl.size l ∧
      (op.apply fl.size (gotValue l) = none →
        s.AfterRead t l (s.pe.writeX rd (BitVec.ofNat 64 (gotValue l))).next) ∧
      ∀ v, op.apply fl.size (gotValue l) = some v →
        s.OnlyStored t fl.addr fl.size (s.pe.writeX rd (BitVec.ofNat 64 (gotValue l))).next ∧
          t.nextUnit = s.nextUnit + 2 ∧
          ∀ i b g, (leBytes fl.size v)[i]? = some b → l[i]? = some g →
            s.ByteStored t (s.nextUnit + 1) (fl.addr + i) b (some g.source) := by
  obtain ⟨k₁, k₂, rfl⟩ := List.length_eq_two.mp hk
  obtain ⟨l, s₁, hadv, hl, hafter, hplaces⟩ := State.advance_adjacent_read hm hadj hx hgot hr hread hu k₁
  have hreads := (s.inside_afterReads fl).trans hafter.afterReads
  have hin : inOrder fl.addr fl.size l = l := inOrder_self _ _ _ hl.1
  rw [State.performUnits_inside (by rw [State.inside_pe hm.1]), hadv]
  cases hv : op.apply fl.size (gotValue l) with
  | none =>
    have hfin := (hreads.mayAdvance hm rfl).finish_atomic fl.addr l rd false
    rw [hreads.pe hm.1, PE.afterAtomic_withPhase, PE.afterAtomic_false] at hfin
    refine ⟨_, l, ?_, hl, fun _ => hafter.of_inside hm.1 _, fun v hsome => ?_⟩
    · rw [s₁.settle_no_write hx hin hv, hdone, hfin, andThen_next, State.performUnits_atStart]
      rw [State.setPe_pe _ _ (hreads.curOk hm.1)]
      rfl
    · exact absurd (hv.symm.trans hsome) (Option.some_ne_none v).symm
  | some v =>
    have hstep := hreads.inside hm.1 (fl.writing l (leBytes fl.size v))
    obtain ⟨ps, hps⟩ := hplaces (by rw [hv]; rfl)
    rw [← successorPlaces_congr fun b => (hstep.orderAt b).trans (hreads.orderAt b).symm] at hps
    obtain ⟨t, hrun, honly, hnext, hbytes⟩ := State.advance_adjacent_write
      (fl := fl.writing l (leBytes fl.size v)) (hstep.mayAdvance hm rfl) hadj rfl rfl hw hl.1
      (leBytes_length _ _) hdone hps k₂
    have hend := (hstep.onlyStored hm.1 _ _).trans honly
    rw [hstep.pe hm.1, PE.afterAtomic_withPhase, PE.afterAtomic_withPhase, PE.afterAtomic_false] at hend
    refine ⟨t, l, ?_, hl, fun hnone => ?_,
      fun w hw' => ⟨hend, by rw [hnext, hstep.nextUnit], fun i b g hb hg => ?_⟩⟩
    · rw [s₁.settle_write hx hin hv (by simp [hw]), andThen_next,
        State.performUnits_inside (by rw [hstep.pe hm.1]), hrun]
      rfl
    · exact absurd (hv.symm.trans hnone) (Option.some_ne_none v)
    · obtain rfl : v = w := Option.some.inj (hv.symm.trans hw')
      have hst := hbytes i b g hb hg
      rw [hstep.nextUnit] at hst
      exact hst.of_eq ⟨(hstep.orderAt _).symm, by rw [hstep.same_memory.1]⟩ ⟨rfl, rfl⟩

end Adjacent

/-- Settles O55: nobody steps between the read and the write, so the place right after what was read is left. -/
theorem supportedAtomics : Obligations.SupportedAtomics := by
  refine ⟨AtomicOp.apply_cases, ?_, fun s fl u k hadj hr hw hp => State.advance_waits hadj hr hw hp k⟩
  intro s rs rn rt f hf addr fl haddr hfl hfeat hm ha hacc hsup
  obtain ⟨_, hexec⟩ := exec_atomic s rs rn rt f hf
  refine ⟨?_, fun ks hk hread hu => ?_⟩
  · rw [hexec, ← haddr, State.atomicRmw_of_supported hfeat hm ha hacc hsup, hfl]
    exact s.begin_many _ (Nat.lt_succ_self 1)
  · subst hfl
    exact State.performUnits_adjacent hm rfl rfl rfl rfl hread hu rfl rfl hk

end Sys2Proof.Machine

namespace Sys2Proof.Machine

/-! ### What a step of another agent leaves of a PE (60_exceptions.md rules R208, R215, R217)

Of the changes a step is made of, two touch a PE: a new state of the current one, and the candidates that a write unit
adds to each. So a PE that is not the current one keeps all but its candidates; and a move of a PE whose run has ended
does nothing. -/

/-- From `s` to `t` the PE `q`, if it exists, is as it was but for the words it may fetch. -/
def State.KeepsPe (s t : State) (q : Nat) : Prop :=
  ∀ a, s.pes[q]? = some a → ∃ b, t.pes[q]? = some b ∧ a.SameButCandidates b

section KeepsPe

variable {s t u : State} {q : Nat}

theorem State.KeepsPe.of_get_eq (h : t.pes[q]? = s.pes[q]?) : s.KeepsPe t q :=
  fun a ha => ⟨a, h.trans ha, .refl a⟩

theorem State.KeepsPe.trans (h : s.KeepsPe t q) (h' : t.KeepsPe u q) : s.KeepsPe u q := by
  intro a ha
  obtain ⟨b, hb, hab⟩ := h a ha
  obtain ⟨c, hc, hbc⟩ := h' b hb
  exact ⟨c, hc, hab.trans hbc⟩

theorem State.KeepsPe.of_pes_map {f : PE → List (Nat × List (Option Word32))}
    (h : t.pes = s.pes.map fun p => { p with cand := f p }) : s.KeepsPe t q :=
  fun a ha => ⟨{ a with cand := f a }, by rw [h, List.getElem?_map, ha, Option.map_some], a.sameButCandidates_cand _⟩

theorem Change.keepsPe (h : Change s t) (hq : q ≠ s.cur) : s.KeepsPe t q := by
  cases h with
  | choose | count | sync | read => exact .of_get_eq rfl
  | pe p _ => exact .of_get_eq (s.setPe_other p q hq)
  | isb => exact .of_get_eq (s.setPe_other _ q hq)
  | write g i u ps data adj _ _ =>
    obtain ⟨f, hf⟩ := s.placeWrite_keeps g i u ps data adj
    exact .of_pes_map (f := f) (by rw [hf])

theorem Evolves.keepsPe (h : Evolves s t) (hq : q ≠ s.cur) : s.KeepsPe t q := by
  induction h with
  | refl => exact .of_get_eq rfl
  | tail hst htu ih => exact ih.trans (htu.keepsPe (Evolves.cur hst ▸ hq))

theorem State.observerRead_pes {o addr : Nat} (h : s.observerRead o addr = .next t) : t.pes = s.pes := by
  unfold State.observerRead at h
  split at h
  · obtain ⟨⟨l, s₁⟩, hread, hnext⟩ := andThen_eq_next _ _ _ h
    obtain ⟨_, _, hs₁⟩ := readUnit_next _ _ _ _ _ _ _ hread
    rw [← Host.Outcome.next.inj hnext, hs₁]
  · rw [Host.Outcome.next.inj h]

theorem State.KeepsPe.observerWrite {o addr : Nat} {v : Byte} (h : s.observerWrite o addr v = .next t) :
    s.KeepsPe t q := by
  unfold State.observerWrite at h
  split at h
  · obtain ⟨_, _, _, _, _, ⟨f, hpes⟩, _⟩ :=
      writeUnit_spec (.observer o) s.nextInst { addr := addr, size := 1 } [v] s rfl
    exact .of_pes_map (f := f) (by rw [← Host.Outcome.next.inj h, hpes])
  · exact .of_get_eq (by rw [Host.Outcome.next.inj h])

/-- A move of another PE that does nothing, or is a chain of changes that PE makes. -/
theorem State.KeepsPe.of_idle_or_evolves {p : Nat} (hq : q ≠ p)
    (h : t = s ∨ p < s.pes.length ∧ Evolves { s with cur := p } t) : s.KeepsPe t q := by
  rcases h with rfl | ⟨_, hev⟩
  · exact .of_get_eq rfl
  · exact hev.keepsPe hq

theorem State.KeepsPe.makeMove {m : Move} (hq : actorOf m ≠ some q) (h : s.makeMove m = .next t) : s.KeepsPe t q := by
  cases m with
  | run p k => exact .of_idle_or_evolves (fun he => hq (congrArg some he.symm)) (s.runPe_evolves t p k h)
  | interrupt p => exact .of_idle_or_evolves (fun he => hq (congrArg some he.symm)) (s.interruptPe_evolves t p h)
  | observerRead o addr => exact .of_get_eq (by rw [s.observerRead_pes h])
  | observerWrite o addr v => exact .observerWrite h

end KeepsPe

theorem step_eq_makeMove (s : State) : step s = s.takeTurn.2.makeMove s.takeTurn.1 := rfl

theorem State.KeepsPe.of_step {s t : State} {q : Nat} (hq : actorOf s.takeTurn.1 ≠ some q) (h : step s = .next t) :
    s.KeepsPe t q := by
  have hturn : s.KeepsPe s.takeTurn.2 q := .of_get_eq (by rw [State.takeTurn_pes])
  exact hturn.trans (.makeMove hq h)

/-- A move of a PE that is not running does nothing. -/
theorem State.makeMove_of_not_running {s : State} {m : Move} {q : Nat} {a : PE} (hm : actorOf m = some q)
    (hq : s.pes[q]? = some a) (hr : a.run ≠ .running) : s.makeMove m = .next s := by
  cases m with
  | run p k =>
    obtain rfl : p = q := Option.some.inj hm
    simp only [State.makeMove, State.runPe, hq, hr, if_false]
  | interrupt p =>
    obtain rfl : p = q := Option.some.inj hm
    simp only [State.makeMove, State.interruptPe, hq, hr, if_false]
  | observerRead o addr => cases hm
  | observerWrite o addr v => cases hm

/-- Settles O14: the move of the schedule is the one that the step makes. -/
theorem stepLeavesOtherPesAlone : Obligations.StepLeavesOtherPesAlone := by
  intro s t m q a hturn h hq ha
  have hmove : s.takeTurn.1 = m := by simp only [State.takeTurn, hturn]
  exact State.KeepsPe.of_step (hmove ▸ hq) h a ha

/-- Settles O16: a move of the ended PE does nothing, and a move of any other agent leaves the PE alone. -/
theorem endedPeStaysEnded : Obligations.EndedPeStaysEnded := by
  intro s t q a h ha hr
  by_cases hq : actorOf s.takeTurn.1 = some q
  · have hget : s.takeTurn.2.pes[q]? = some a := by rw [State.takeTurn_pes, ha]
    rw [step_eq_makeMove, State.makeMove_of_not_running hq hget hr] at h
    obtain rfl := Host.Outcome.next.inj h
    exact ⟨a, hget, .refl a⟩
  · exact State.KeepsPe.of_step hq h a ha

/-! ### What stops a step (60_exceptions.md rules R200, R208; 70_reset_and_hazards.md rule R228) -/

/-- The end of the run of PE `p` is a change of that PE, and choices passed over. -/
theorem State.stopRun_of_get {s : State} {p : Nat} {pe : PE} (hp : s.pes[p]? = some pe) (o : PeOutcome) :
    State.stopRun { s with turn := none, cur := p } o =
      { s with
        turn := none
        cur := p
        pes := s.pes.set p { pe with run := .ended o, phase := .atStart }
        pending := s.pending.drop stepChoices
        drawCount := s.drawCount + stepChoices } := by
  rw [← State.pe_of_pes_get hp]
  rfl

/-- A read unit stops only where a byte it reads has no value. -/
theorem readUnit_next_or_fault (adm : List Pick → Bool) (g : Agent) (i : Nat) (u : MUnit) (s : State) :
    (∃ r, readUnit adm g i u s = .next r) ∨ readUnit adm g i u s = .fault (.unwrittenRead u.addr) := by
  unfold readUnit
  dsimp only
  split
  · exact .inl ⟨_, rfl⟩
  · exact .inr rfl

theorem State.runPe_answers (s : State) (p k : Nat) : ∃ t, s.runPe p k = .next t := by
  unfold State.runPe
  split
  · split
    · exact State.orStop_next _ _
    · exact ⟨_, rfl⟩
  · exact ⟨_, rfl⟩

theorem State.interruptPe_answers (s : State) (p : Nat) : ∃ t, s.interruptPe p = .next t := by
  unfold State.interruptPe
  split
  · split
    · split
      · split
        · exact ⟨_, rfl⟩
        · exact ⟨_, rfl⟩
      · exact ⟨_, rfl⟩
    · exact ⟨_, rfl⟩
  · exact ⟨_, rfl⟩

theorem State.observerRead_answers_or_fault (s : State) (o addr : Nat) :
    (∃ t, s.observerRead o addr = .next t) ∨ s.observerRead o addr = .fault (.unwrittenRead addr) := by
  unfold State.observerRead
  split
  · rcases readUnit_next_or_fault readAdmitted (.observer o) s.nextInst { addr := addr, size := 1 } s with ⟨r, h⟩ | h
    · exact .inl ⟨_, by rw [h, andThen_next]⟩
    · exact .inr (by rw [h, andThen_fault])
  · exact .inl ⟨s, rfl⟩

theorem State.observerWrite_answers (s : State) (o addr : Nat) (v : Byte) :
    ∃ t, s.observerWrite o addr v = .next t := by
  unfold State.observerWrite
  split
  · exact ⟨_, rfl⟩
  · exact ⟨_, rfl⟩

/-- Every move has a next state but an observer's read of a byte that has no value. -/
theorem State.makeMove_answers_or_fault (s : State) (m : Move) :
    (∃ t, s.makeMove m = .next t) ∨
      ∃ o addr, m = .observerRead o addr ∧ s.makeMove m = .fault (.unwrittenRead addr) := by
  cases m with
  | run p k => exact .inl (s.runPe_answers p k)
  | interrupt p => exact .inl (s.interruptPe_answers p)
  | observerRead o addr => exact (s.observerRead_answers_or_fault o addr).imp_right fun h => ⟨o, addr, rfl, h⟩
  | observerWrite o addr v => exact .inl (s.observerWrite_answers o addr v)

/-- Settles O10: whatever stops a PE's step, `orStop` ends that run and answers; no move of a PE stops otherwise. -/
theorem runsEndOneByOne : Obligations.RunsEndOneByOne := by
  refine ⟨fun s p k pe o hp ht hr hstop => ?stopped, fun s p k pe hp hr => ⟨fun ht => ?run, fun ht => ?interrupt⟩,
    fun s => ?answers⟩
  case stopped =>
    refine ⟨s.pending.drop stepChoices, s.drawCount + stepChoices, (step_run hp hr ht).trans ?_⟩
    rcases hstop with ⟨f, hf, rfl⟩ | ⟨why, hwhy, rfl⟩
    · rw [hf, State.orStop, State.stopRun_of_get hp]
    · rw [hwhy, State.orStop, State.stopRun_of_get hp]
  case run => exact (step_of_turn ht).trans (State.makeMove_of_not_running (q := p) rfl hp hr)
  case interrupt => exact (step_of_turn ht).trans (State.makeMove_of_not_running (q := p) rfl hp hr)
  case answers =>
    rw [step_eq_makeMove]
    rcases s.takeTurn.2.makeMove_answers_or_fault s.takeTurn.1 with ⟨t, h⟩ | ⟨o, addr, hm, h⟩
    · rw [h]
      exact ⟨fun _ => nofun, fun _ => nofun⟩
    · rw [h]
      exact ⟨fun _ => nofun, fun f hf => ⟨o, addr, hm, (Host.Outcome.fault.inj hf).symm⟩⟩

/-! ### External observers (60_exceptions.md rules R215, R217; 20_memory.md rule R84) -/

theorem State.observerMay_iff {s : State} {o addr : Nat} :
    s.observerMay o addr = true ↔ s.cfg.externalObservers.contains o = true ∧ inMemMap s.cfg addr = true :=
  Bool.and_eq_true_iff

theorem State.observerMay_eq_false_iff {s : State} {o addr : Nat} :
    s.observerMay o addr = false ↔ s.cfg.externalObservers.contains o = false ∨ inMemMap s.cfg addr = false :=
  Bool.and_eq_false_iff

theorem State.observerRead_of_not_may {s : State} {o addr : Nat} (h : s.observerMay o addr = false) :
    s.observerRead o addr = .next s := by
  rw [State.observerRead, h, if_neg Bool.false_ne_true]

theorem State.observerWrite_of_not_may {s : State} {o addr : Nat} (h : s.observerMay o addr = false) (v : Byte) :
    s.observerWrite o addr v = .next s := by
  rw [State.observerWrite, h, if_neg Bool.false_ne_true]

/-- An observer's read of a byte that has a value is one read unit, and nothing more than its record. -/
theorem State.observerRead_of_may {s : State} {o addr : Nat} (h : s.observerMay o addr = true)
    (hr : s.Readable addr 1) :
    ∃ t l, s.observerRead o addr = .next t ∧ s.Reading addr 1 l ∧
      t = { s with
            history := s.history ++ readEffects (.observer o) s.nextInst s.nextUnit l
            nextUnit := s.nextUnit + 1
            nextInst := s.nextInst + 1
            pending := t.pending
            drawCount := t.drawCount } := by
  obtain ⟨l, s₁, hread⟩ := readUnit_answers readAdmitted (.observer o) s.nextInst { addr := addr, size := 1 } s
    fun b hb => hr b ((mem_byteAddrs _ _ _).mp hb).1 ((mem_byteAddrs _ _ _).mp hb).2
  obtain ⟨haddr, hsource, hs₁⟩ := readUnit_next _ _ _ _ _ _ _ hread
  refine ⟨{ s₁ with nextInst := s₁.nextInst + 1 }, l, ?_, ⟨haddr, hsource⟩, ?_⟩
  · rw [State.observerRead, h, if_pos rfl, hread, andThen_next]
  · rw [hs₁]

theorem State.observerWrite_of_may {s : State} {o addr : Nat} (h : s.observerMay o addr = true) (v : Byte) :
    s.observerWrite o addr v =
      .next
        { writeUnit (.observer o) s.nextInst { addr := addr, size := 1 } [v] s with nextInst := s.nextInst + 1 } := by
  rw [State.observerWrite, h, if_pos rfl]

/-! #### The word that holds a byte -/

theorem wordsOf_byte (a : Nat) : wordsOf { addr := a, size := 1 } = [wordAddr a] := by
  simp [wordsOf]

theorem mem_word_of_wordAddr (a : Nat) : a ∈ byteAddrs (wordAddr a) 4 := by
  rw [mem_byteAddrs]
  simp only [wordAddr]
  omega

/-- One byte leaves its word as it was exactly if memory holds its value already. -/
theorem overlayWord_byte_iff (m : Memory) (a : Nat) (v : Byte) :
    overlayWord m [(a, v)] (wordAddr a) = wordBytes m (wordAddr a) ↔ m.read a = some v := by
  rw [overlayWord, wordBytes, List.map_inj_left]
  refine ⟨fun h => ?_, fun h b _ => ?_⟩
  · simpa [assocFind, eq_comm] using h a (mem_word_of_wordAddr a)
  · by_cases hb : a = b
    · simp [assocFind, ← hb, h]
    · simp [assocFind, hb]

/-- A write moves the stages of the words that it changes, whatever else the state holds. -/
theorem State.noteWord_sync_congr {s t : State} (h : t.sync = s.sync) (g : Agent) (old : Memory)
    (bytes : List (Nat × Byte)) (a : Nat) : (t.noteWord g old bytes a).sync = (s.noteWord g old bytes a).sync := by
  by_cases hsame : overlayWord old bytes a = wordBytes old a
  · rw [State.noteWord_of_unchanged hsame, State.noteWord_of_unchanged hsame, h]
  · rw [(State.noteWord_of_changed hsame g).1, (State.noteWord_of_changed hsame g).1, h]

/-- The stages after a write of one byte. -/
theorem writeUnit_byte_sync (g : Agent) (i addr : Nat) (v : Byte) (s : State) :
    (writeUnit g i { addr := addr, size := 1 } [v] s).sync =
      (s.noteWord g s.mem [(addr, v)] (wordAddr addr)).sync := by
  obtain ⟨⟨hp, _⟩, _, hs⟩ := choosePicks_spec placementAdmitted s { addr := addr, size := 1 }
  have hbytes : (MUnit.bytes { addr := addr, size := 1 }).zip [v] = [(addr, v)] := by simp [MUnit.bytes, byteAddrs]
  rw [writeUnit_eq, State.placeWrite, State.noteWrite, wordsOf_byte, addressed, hp, hbytes, List.foldl_cons,
    List.foldl_nil]
  generalize (choosePicks placementAdmitted s { addr := addr, size := 1 }).2 = s₁ at hs ⊢
  have hmem : s₁.mem = s.mem := by rw [hs]
  have hsync : s₁.sync = s.sync := by rw [hs]
  rw [hmem]
  refine State.noteWord_sync_congr ?_ g s.mem _ _
  exact hsync

theorem writeUnit_byte_sync_of_same {g : Agent} {i addr : Nat} {v : Byte} {s : State} {a : Nat}
    (h : a ≠ wordAddr addr ∨ s.mem.read addr = some v) :
    assocFind (writeUnit g i { addr := addr, size := 1 } [v] s).sync a = assocFind s.sync a := by
  rcases h with h | h
  · exact writeUnit_sync_outside g i _ _ s (by rwa [wordsOf_byte, List.mem_singleton])
  · rw [writeUnit_byte_sync, State.noteWord_of_unchanged ((overlayWord_byte_iff _ _ _).mpr h)]

theorem writeUnit_byte_sync_of_new {g : Agent} {i addr : Nat} {v : Byte} {s : State}
    (h : s.mem.read addr ≠ some v) :
    assocFind (writeUnit g i { addr := addr, size := 1 } [v] s).sync (wordAddr addr) =
      some { stage := .written, writer := g } := by
  rw [writeUnit_byte_sync, (State.noteWord_of_changed (mt (overlayWord_byte_iff _ _ _).mp h) g).1,
    assocFind_insert_self]

/-- Settles O17: without leave the observer has no step; with it, it performs one unit of one byte. -/
theorem observersAreConfined : Obligations.ObserversAreConfined := by
  intro s o addr v
  refine ⟨fun hnot => ?_, fun ho ha => ?_⟩
  · have hmay : State.observerMay { s with turn := none } o addr = false := State.observerMay_eq_false_iff.mpr hnot
    exact ⟨fun ht => (step_of_turn ht).trans (State.observerRead_of_not_may hmay),
      fun ht => (step_of_turn ht).trans (State.observerWrite_of_not_may hmay v)⟩
  · have hmay : State.observerMay { s with turn := none } o addr = true := State.observerMay_iff.mpr ⟨ho, ha⟩
    refine ⟨fun ht hr => ?read, fun ht => ?write⟩
    case read =>
      obtain ⟨t, l, hread, hl, heq⟩ := State.observerRead_of_may hmay hr
      exact ⟨t, l, (step_of_turn ht).trans hread, hl, heq⟩
    case write =>
      obtain ⟨hstored, hout, _, hunit, hhist, ⟨f, hpes⟩, hcfg, hcur, _, hturn⟩ :=
        writeUnit_spec (.observer o) s.nextInst { addr := addr, size := 1 } [v] { s with turn := none } rfl
      refine ⟨_, (step_of_turn ht).trans (State.observerWrite_of_may hmay v), hstored 0 v rfl,
        fun b hb => hout b (by dsimp only; omega), hhist, fun a h => writeUnit_byte_sync_of_same h,
        fun h => writeUnit_byte_sync_of_new h, fun q a b ha hb => ?_, ?_, hcfg, hcur, hturn, hunit, rfl⟩
      · obtain ⟨b', hb', hsame⟩ := State.KeepsPe.of_pes_map hpes a ha
        obtain rfl : b = b' := Option.some.inj (hb.symm.trans hb')
        exact hsame
      · exact (congrArg List.length hpes).trans (List.length_map _)

/-! ### The MMU fault of an unsupported atomic instruction (60_exceptions.md rules R203 to R205; R17) -/

/-- A Data Abort is one change of the PE: the code in the `ESR_ELx` it is taken to, and the end of the run. -/
theorem State.takeException_dataAbort (s : State) (dfsc : BitVec 6) (addr : Nat) (stage : AbortStage) (target : EL) :
    s.takeException (.dataAbort dfsc addr stage target) =
      s.setPe
        { s.pe.setEsr target (withDfsc (s.pe.esr target) dfsc) with
          run := .ended (.dataAbort dfsc addr stage target), phase := .atStart } := by
  by_cases hc : s.curOk = true
  · rw [State.takeException, State.endRun, State.setPe_setPe, State.setPe_pe _ _ hc]
  · have hl : s.pes.length ≤ s.cur := by simpa [State.curOk] using hc
    simp [State.takeException, State.endRun, State.setPe, List.set_eq_of_length_le hl]

/-- From EL2 and EL3 there is no choice of the stage. -/
theorem State.abortRouting_of_high {s : State} (h : s.cfg.el = .el2 ∨ s.cfg.el = .el3) :
    s.abortRouting = ((.first, s.cfg.el), s) := by
  rcases h with h | h <;> simp only [State.abortRouting, h]

/-- From EL0 and EL1 the abort is of the first stage, where there is no other. -/
theorem State.abortRouting_one_stage {s : State} (h : s.cfg.el = .el0 ∨ s.cfg.el = .el1)
    (h2 : s.cfg.stage2Enabled = false) : s.abortRouting = ((.first, .el1), s) := by
  rcases h with h | h <;> simp only [State.abortRouting, h, h2, Bool.false_eq_true, if_false]

/-- Where the second stage is enabled, one choice says of which of the two it is. -/
theorem State.abortRouting_two_stages {s : State} (h : s.cfg.el = .el0 ∨ s.cfg.el = .el1)
    (h2 : s.cfg.stage2Enabled = true) :
    s.abortRouting = (if s.draw.1 % 2 = 0 then (.first, .el1) else (.second, .el2), s.draw.2) := by
  rcases Nat.mod_two_eq_zero_or_one s.draw.1 with hbit | hbit
  · have hdraw : s.drawBelow 2 = (0, s.draw.2) := by rw [← hbit]; rfl
    rcases h with h | h <;> simp only [State.abortRouting, h, h2, hdraw, hbit, if_true]
  · have hdraw : s.drawBelow 2 = (1, s.draw.2) := by rw [← hbit]; rfl
    rcases h with h | h <;> simp only [State.abortRouting, h, h2, hdraw, hbit, if_true, Nat.one_ne_zero, if_false]

theorem exceptionLevel_low_or_high (e : EL) : (e = .el0 ∨ e = .el1) ∨ (e = .el2 ∨ e = .el3) := by
  cases e <;> decide

/-- The routing takes at most a choice, and routes nothing to EL0. -/
theorem State.abortRouting_spec (s : State) :
    (∃ d c, s.abortRouting.2 = { s with pending := d, drawCount := c }) ∧ s.abortRouting.1.2 ≠ .el0 := by
  rcases exceptionLevel_low_or_high s.cfg.el with hlow | hhigh
  · cases h2 : s.cfg.stage2Enabled with
    | false =>
      rw [State.abortRouting_one_stage hlow h2]
      exact ⟨⟨s.pending, s.drawCount, rfl⟩, nofun⟩
    | true =>
      rw [State.abortRouting_two_stages hlow h2]
      refine ⟨⟨_, _, s.draw_eq⟩, ?_⟩
      dsimp only
      split
      · exact nofun
      · exact nofun
  · rw [State.abortRouting_of_high hhigh]
    refine ⟨⟨s.pending, s.drawCount, rfl⟩, ?_⟩
    rcases hhigh with h | h
    · rw [h]; exact nofun
    · rw [h]; exact nofun

/-- Settles O57: the routing, then one Data Abort, which writes the code and nothing else of that `ESR_ELx`. -/
theorem mmuFaultRouting : Obligations.MmuFaultRouting := by
  intro s addr
  obtain ⟨⟨d, c, hs₁⟩, htarget⟩ := s.abortRouting_spec
  refine ⟨s.abortRouting.1.1, s.abortRouting.1.2, withDfsc (s.pe.esr s.abortRouting.1.2) mmuFaultDfsc, d, c, ?fault,
    dfscOf_withDfsc _ _, fun i => withDfsc_other _ _ i,
    fun p => ⟨p.esr_setEsr _ _ htarget, fun e he => p.esr_setEsr_other _ e _ he⟩,
    fun hlow => ⟨fun h2 => ?oneStage, fun h2 => ⟨fun hbit => ?firstStage, fun hbit => ?secondStage⟩⟩,
    fun hhigh => ?high⟩
  case fault =>
    calc s.takeMmuFault addr
        = s.abortRouting.2.takeException
            (.dataAbort mmuFaultDfsc addr s.abortRouting.1.1 s.abortRouting.1.2) := rfl
      _ = _ := by rw [State.takeException_dataAbort, hs₁]; rfl
  case oneStage => simp only [State.abortRouting_one_stage hlow h2, and_self]
  case firstStage => simp only [State.abortRouting_two_stages hlow h2, hbit, if_true, and_self]
  case secondStage => simp only [State.abortRouting_two_stages hlow h2, hbit, Nat.one_ne_zero, if_false, and_self]
  case high => simp only [State.abortRouting_of_high hhigh, and_self]

/-! ### Exception-generating instructions (60_exceptions.md rules R207, R208; 92_eei_decisions.md D18) -/

/-- Settles O37: none of the four outcomes is a Data Abort, so taking the exception is the end of the run. -/
theorem exceptionGeneratingInstructionsEndTheRun : Obligations.ExceptionGeneratingInstructionsEndTheRun := by
  intro s imm16
  simp only [List.mem_cons, List.not_mem_nil, or_false]
  rintro f (rfl | rfl | rfl | rfl) <;> exact congrArg Host.Outcome.next (s.endRun_eq _)

end Sys2Proof.Machine

namespace Sys2Proof.Machine

/-! ### Loads and stores of several units, to their end (70_reset_and_hazards.md rule R228 (b); 20_memory.md
rules R65, R82)

The phases are those of a non-atomic performance; what is left is the end of the instruction: the registers it writes do
not depend on the phase of the PE, and its writeback not on the words the PE may fetch. -/

/-! #### The registers written at the end -/

theorem PE.writeBase_withPhase (p : PE) (r : Reg) (v : Word64) (ph : Phase) :
    PE.writeBase { p with phase := ph } r v = { p.writeBase r v with phase := ph } := by
  unfold PE.writeBase
  split
  · exact PE.writeX_withPhase p r v ph
  · rfl

theorem PE.writeback_withPhase (p : PE) (wb : Option (Reg × Word64)) (ph : Phase) :
    PE.writeback { p with phase := ph } wb = { p.writeback wb with phase := ph } := by
  cases wb with
  | none => rfl
  | some e => exact PE.writeBase_withPhase p e.1 e.2 ph

theorem PE.writeEight_withPhase (p : PE) (rt : Reg) (l : List GotByte) (ph : Phase) :
    PE.writeEight { p with phase := ph } rt l = { p.writeEight rt l with phase := ph } := by
  unfold PE.writeEight
  generalize List.range 8 = is
  induction is generalizing p with
  | nil => rfl
  | cons i is ih => rw [List.foldl_cons, List.foldl_cons, PE.writeX_withPhase, ih]

theorem PE.complete_withPhase (p : PE) (addr : Nat) (l : List GotByte) (done : Completion) (ph : Phase) :
    PE.complete { p with phase := ph } addr l done = { p.complete addr l done with phase := ph } := by
  cases done with
  | loadGpr rt => exact PE.writeX_withPhase p rt _ ph
  | loadPair rt rt2 size wb => simp only [PE.complete, PE.writeX_withPhase, PE.writeback_withPhase]
  | loadFpPair | store64Status => rfl
  | loadExclusive rt rt2 size => simp only [PE.complete, PE.writeX_withPhase]
  | load64 rt => exact PE.writeEight_withPhase p rt l ph
  | store wb => exact PE.writeback_withPhase p wb ph
  | atomic rd => exact PE.writeX_withPhase p rd _ ph

theorem PE.SameButCandidates.writeBase {p q : PE} (h : p.SameButCandidates q) (r : Reg) (v : Word64) :
    (p.writeBase r v).SameButCandidates (q.writeBase r v) := by
  unfold PE.writeBase
  split
  · exact h.writeX r v
  · exact congrArg (fun p : PE => ({ p with sp := v } : PE)) h

theorem PE.SameButCandidates.writeback {p q : PE} (h : p.SameButCandidates q) (wb : Option (Reg × Word64)) :
    (p.writeback wb).SameButCandidates (q.writeback wb) := by
  cases wb with
  | none => exact h
  | some e => exact h.writeBase e.1 e.2

/-! #### The end of a load and of a store -/

theorem Completion.plain_of_ne {done : Completion} (hs : ∀ rs, done ≠ .store64Status rs)
    (ha : ∀ rd, done ≠ .atomic rd true) : done.plain = true := by
  cases done with
  | store64Status rs => exact absurd rfl (hs rs)
  | atomic rd thenSError =>
    cases thenSError with
    | false => rfl
    | true => exact absurd rfl (ha rd)
  | _ => rfl

/-- An instruction whose units are done writes its registers and ends. -/
theorem State.MayAdvance.finish_plain {s : State} (h : s.MayAdvance) (addr : Nat) (l : List GotByte)
    {done : Completion} (hd : done.plain = true) :
    s.finish addr l done = .next (s.setPe (s.pe.complete addr l done).next) := by
  rw [State.finish_plain _ _ _ _ hd, h.endInstr_setPe (PE.complete_pc _ _ _ _)]

/-- It does so too after units that only read, which leave its registers as they are. -/
theorem State.AfterReads.finish_plain {s t : State} {n : Nat} {ph : Phase}
    (h : s.AfterReads t n { s.pe with phase := ph }) (hm : s.MayAdvance) (addr : Nat) (l : List GotByte)
    {done : Completion} (hd : done.plain = true) :
    t.finish addr l done = .next (t.setPe (s.pe.complete addr l done).next) := by
  rw [(h.mayAdvance hm rfl).finish_plain addr l hd, h.pe hm.1, PE.complete_withPhase]
  rfl

/-- What reads leave, with the history and the choices named by the state they led to. -/
theorem State.AfterReads.eq_update {s t : State} {n : Nat} {p : PE} (h : s.AfterReads t n p) :
    t =
      { s with
        pes := s.pes.set s.cur p
        history := t.history
        nextUnit := s.nextUnit + n
        pending := t.pending
        drawCount := t.drawCount } := by
  obtain ⟨_, _, _, rfl⟩ := h
  rfl

/-- Settles O48: the read phase brings every byte of the access, and then only the registers are left to write. -/
theorem begunLoadCompletes : Obligations.BegunLoadCompletes := by
  intro s fl ks hm hph hx hw hgot hr hreads hread hk hstatus hatomic
  obtain ⟨t, got, l, ph, hrun, ht, hin, hl⟩ := State.performUnits_reading ks [] hm.1 hph hgot hr hreads hread hk
  have hend : t.settle (fl.allRead got) = .next (t.setPe (s.pe.complete fl.addr l fl.done).next) :=
    calc t.settle (fl.allRead got)
        = t.finish fl.addr (inOrder fl.addr fl.size got) fl.done := t.settle_done rfl hx hw
      _ = _ := by rw [hin, ht.finish_plain hm _ _ (Completion.plain_of_ne hstatus hatomic)]
  rw [List.append_nil, hend, andThen_next] at hrun
  exact ⟨_, l, hrun, hl, (ht.setPe _).eq_update⟩

/-- The end of a store: the base is written back, whatever words the store made the PE fetch. -/
theorem State.AfterWrites.finish_store {s t : State} {addr n : Nat} {data : List Byte} {ph : Phase}
    (h : s.AfterWrites t addr data n { s.pe with phase := ph }) (hm : s.MayAdvance) (l : List GotByte)
    (wb : Option (Reg × Word64)) :
    ∃ u, t.finish addr l (.store wb) = .next u ∧ s.AfterWrites u addr data n (s.pe.writeback wb).next := by
  obtain ⟨honly, hbytes, hunit⟩ := h
  have hmt : t.MayAdvance := ⟨honly.curOk hm.1, by rw [honly.pe.pc]; exact hm.2⟩
  have hpe := (honly.pe.writeback wb).next
  rw [PE.writeback_withPhase s.pe] at hpe
  exact ⟨_, hmt.finish_plain addr l rfl, honly.setPe hm.1 hpe, hbytes, hunit⟩

/-- Settles O49: the write phase stores every byte of the data once, and then the base is written back. -/
theorem begunStoreCompletes : Obligations.BegunStoreCompletes := by
  intro s fl ks wb hm hph hadj hx hr hw hwrites hlen hk hdone
  rw [← hlen] at hwrites
  obtain ⟨t, ph, hrun, ht⟩ := State.performUnits_writes ks hm.1 hph hadj hx hr hw
    (hwrites.nodup_iff.mpr (byteAddrs_nodup _ _)) (fun _ hb => hwrites.subset hb) hk
  obtain ⟨u, hfin, hu⟩ := (ht.perm hwrites).afterWrites.finish_store hm (inOrder fl.addr fl.size fl.got) wb
  exact ⟨u, by rw [hrun, hdone, hfin]; rfl, hu⟩

/-! ### The start of a run (70_reset_and_hazards.md rule R220; 10_state.md rule R24) -/

/-- A PE that has fetched nothing stale has one candidate for every word. -/
theorem PE.candidates_of_not_found {p : PE} {a : Nat} (h : assocFind p.cand a = none) (m : Memory) :
    p.candidates m a = [memWord m a] := by
  rw [PE.candidates, h]

theorem State.start_pes_get {cfg : Config} {p : Nat} (h : p < cfg.nPE) :
    (State.start cfg).pes[p]? = some (PE.start cfg p) := by
  simp [State.start, h]

/-- Settles O5: every PE is `PE.start`, whose list of stale words is empty, and no word has a stage. -/
theorem startOfRun : Obligations.StartOfRun := fun cfg p hp =>
  ⟨rfl, fun _ => rfl, PE.start cfg p, State.start_pes_get hp, rfl, rfl, rfl, rfl,
    fun a => PE.candidates_of_not_found (assocFind_nil a) _⟩

/-- At the start of a run of any configuration the word in memory is the one candidate. -/
theorem State.start_candidatesCurrent (cfg : Config) : (State.start cfg).CandidatesCurrent := by
  intro pe hpe a _
  obtain ⟨p, _, rfl⟩ := List.mem_map.mp hpe
  rw [PE.candidates_of_not_found (assocFind_nil a)]
  exact List.mem_singleton_self _

theorem State.start_pcsAligned {cfg : Config} (h : ∀ p < cfg.nPE, (cfg.entryOf p).toNat % 4 = 0) :
    (State.start cfg).PcsAligned := by
  intro pe hpe
  obtain ⟨p, hp, rfl⟩ := List.mem_map.mp hpe
  exact h p (List.mem_range.mp hp)

/-- Settles O6: nothing has been read or written, and the two entry points of `Config.reset` are multiples of 4. -/
theorem resetSatisfiesInvariants : Obligations.ResetSatisfiesInvariants :=
  ⟨State.coherent_of_unwritten State.reset_mem_wf rfl rfl, State.start_pcsAligned (cfg := .reset) (by decide),
    State.start_candidatesCurrent .reset⟩

/-! ### A fetch of a word nobody has modified (70_reset_and_hazards.md rule R228 (a); 20_memory.md rule R81 (6)) -/

theorem decode_four_eq_instr {b0 b1 b2 b3 : Byte} {i : Instr} (h : decode [b0, b1, b2, b3] = .instr i []) :
    decodeWord (BitVec.ofNat 32 (leValue [b0, b1, b2, b3])) = some i := by
  simp only [decode] at h
  split at h
  · next j hj => rw [hj, (Decoded.instr.inj h).1]
  · cases h

theorem memWord_of_reads {m : Memory} {a : Nat} {b0 b1 b2 b3 : Byte} (h0 : m.read a = some b0)
    (h1 : m.read (a + 1) = some b1) (h2 : m.read (a + 2) = some b2) (h3 : m.read (a + 3) = some b3) :
    memWord m a = some (BitVec.ofNat 32 (leValue [b0, b1, b2, b3])) := by
  have hbytes : wordBytes m a = [b0, b1, b2, b3].map some := by
    simp [wordBytes, byteAddrs, List.range_succ, h0, h1, h2, h3]
  rw [memWord, hbytes, wordOfBytes, allBytes_map_some, Option.map_some]

/-- A word that nobody has modified since the PE synchronized is fetched from memory, without a choice. -/
theorem State.fetch_of_unmodified {s : State} {w : Word32} (ha : s.pe.pc.toNat % 4 = 0)
    (hm : s.Accessible s.pe.pc.toNat 4) (hc : assocFind s.pe.cand s.pe.pc.toNat = none)
    (hw : memWord s.mem s.pe.pc.toNat = some w) : s.fetch = .next (w, s) := by
  rw [State.fetch_of_one ha hm (PE.candidates_of_not_found hc _), hw]
  rfl

theorem State.fetchAndBegin_of_fetched {s s₁ : State} {w : Word32} {i : Instr} (h : s.fetch = .next (w, s₁))
    (hw : decodeWord w = some i) : s.fetchAndBegin = exec i s₁.newInstance := by
  simp only [State.fetchAndBegin, h, andThen_next, hw]

/-- Settles O7: the move of a running PE before a fetch is that fetch, which brings the word in memory. -/
theorem stepRunsDecodedInstruction : Obligations.StepRunsDecodedInstruction := by
  intro s p k pe b0 b1 b2 b3 i hturn hp hrun hph ha hm hc h0 h1 h2 h3 hdec
  have hpe := State.pe_of_pes_get hp
  have hfetch := State.fetch_of_unmodified (s := { s with turn := none, cur := p }) (by rwa [hpe])
    (by rw [hpe]; exact hm) (by rwa [hpe]) (by rw [hpe]; exact memWord_of_reads h0 h1 h2 h3)
  rw [step_run hp hrun hturn, State.runCurrent, hpe, hph]
  exact congrArg _ (State.fetchAndBegin_of_fetched hfetch (decode_four_eq_instr hdec))

/-! ### An instruction word placed where it is fetched (30_encoding.md rules R96, R101) -/

theorem State.withFetchWord_pes_get {s : State} (h : s.curOk = true) (n w : Nat) :
    (s.withFetchWord n w).pes[s.cur]? =
      some { s.pe with cand := assocErase s.pe.cand s.pe.pc.toNat, phase := .atStart, run := .running } := by
  have hcur : s.cur < s.pes.length := of_decide_eq_true h
  exact List.getElem?_set_self hcur

/-- The placed word is in memory at the `pc`, its lowest byte first. -/
theorem State.withFetchWord_read (s : State) (w : Word32) {j : Nat} (hj : j < 4) :
    (s.withFetchWord 32 w.toNat).mem.read (s.pe.pc.toNat + j) =
      some ((leBytes 4 w.toNat)[j]'(by rwa [leBytes_length])) := by
  have hmem : (s.withFetchWord 32 w.toNat).mem = Memory.writeAll s.mem s.pe.pc.toNat (leBytes 4 w.toNat) := by
    rw [State.withFetchWord, Nat.mod_eq_of_lt w.isLt, State.placeWord]
  rw [hmem, Memory.read_writeAll_at]

/-- Settles O9: the PE of the placed word is about to fetch it, it is the PE's turn, and its bytes decode to it. -/
theorem placedWordIsRun : Obligations.PlacedWordIsRun := by
  intro s i hwf hcur ha hm
  have hget := State.withFetchWord_pes_get hcur 32 (encode i).toNat
  have hread {j : Nat} (hj : j < 4) := s.withFetchWord_read (encode i) hj
  exact stepRunsDecodedInstruction (s.withFetchWord 32 (encode i).toNat) s.cur 0 _ _ _ _ _ i rfl hget rfl rfl ha hm
    (assocFind_erase_self _ _) (hread (j := 0) (by decide)) (hread (j := 1) (by decide)) (hread (j := 2) (by decide))
    (hread (j := 3) (by decide)) (decodeInvertsEncode i [] hwf)

end Sys2Proof.Machine
